-- ==== Sys2Proof/Word.lean ====
section
/-! DEFINITION. The plain types every layer speaks of: bytes and the ranged numbers of the manual's identifier
table (00_scope.md, Conventions). -/

namespace Sys2Proof

/-- One byte of a control link or of a maintenance bus segment (R200). -/
abbrev Byte := BitVec 8

/-- A slot number, 0-23. -/
abbrev SlotId := Fin 24

/-- A channel number, 0-127. -/
abbrev Channel := Fin 128

/-- A record index, 0-4095 (R1). -/
abbrev Index := Fin 4096

/-- A generation, 0-15; its addition wraps 15 to 0 (R7). -/
abbrev Gen := Fin 16

/-- A card type, 0-15. -/
abbrev CardType := Fin 16

/-- The byte that holds `n` (its value mod 256). -/
def byteOf (n : Nat) : Byte := BitVec.ofNat 8 n

end Sys2Proof
end

