-- ==== Sys2Proof/Config.lean ====
section
/-! DEFINITION. What is fixed for the part: the figures the manual states as constants, and the one free value. -/

namespace Sys2Proof.Config

/-- The filler bytes of a response read (R185) are not stated: each is a free value, the n-th filler byte the part
clocks out (log 5). -/
opaque filler : Nat → Byte

/-- Frames a transmit queue holds (R83, R90). -/
def queueRoom : Nat := 16

/-- Handles one LIST response carries at most (R45). -/
def listPage : Nat := 16

/-- The stable timer's length in ms (R65). -/
def stableTime : Nat := 30000

/-- The signal-loss timer's length in ms (R117). -/
def signalTime : Nat := 1

/-- Saturation of a persistence counter (R120) and of the capture's overflow count (R102). -/
def byteMax : Nat := 255

/-- Saturation of the recovery time (R128). -/
def recoveryTimeMax : Nat := 65535

/-- Saturation of a slot's attempts (R68). -/
def attemptsMax : Nat := 15

/-- Saturation of a slot's missed count and of a slot-engine frame's try count (R83). -/
def missedMax : Nat := 7

/-- The window used while no card has announced a queue depth (R53). -/
def absentDepth : Nat := 8

end Sys2Proof.Config
end

