-- ==== Sys2Proof/Syntax.lean ====
section
/-! DEFINITION. The commands of the part: one constructor of `Instr` for each row of spec/opcode_table.json, with
what the outside gives: the link or segment it comes by, and the bytes and fields R200 to R204 lay out. Values on the
wire keep their wire widths, so that a value outside its range can be sent and is judged by the part. -/

namespace Sys2Proof

/-- The two control links (R181). -/
inductive Link where
  | a
  | b
  deriving DecidableEq, Repr

/-- The two maintenance bus segments, MBS-L and MBS-R. -/
inductive SegId where
  | l
  | r
  deriving DecidableEq, Repr

/-- A handle as it stands on a wire: two index bytes and a generation byte (R200). -/
structure WireHandle where
  index : BitVec 16
  gen : Byte
  deriving DecidableEq, Repr

/-- A link's select line: removed before a full kind is clocked in (`none`), or held on a transfer that has had these bytes clocked
in so far (R181, R182, log 4). -/
structure Select where
  link : Link
  held : Option (List Byte)
  deriving DecidableEq, Repr

/-- One completion of a POLL_REPLY (R204): a handle and a result byte, 1 DONE or 2 FAILED. -/
structure WireCompletion where
  handle : WireHandle
  result : Byte
  deriving DecidableEq, Repr

/-- The fields of a POLL_REPLY (R85, R204), the replying card's slot first. -/
structure WirePoll where
  slot : Byte
  phase : Byte
  bootCount : Byte
  cardType : Byte
  serial : BitVec 32
  depth : Byte
  fatal : Byte
  completions : List WireCompletion
  deriving DecidableEq, Repr

/-- The fields of PROFILE_SET (R50, R201). -/
structure WireProfile where
  cardType : Byte
  channels : Byte
  inrush : BitVec 16
  base : BitVec 16
  shift : Byte
  cap : Byte
  deriving DecidableEq, Repr

/-- The fields of BUS_SET (R51, R201). -/
structure WireBus where
  w : Byte
  completion : Byte
  missedLimit : Byte
  fastPoll : Byte
  slowPoll : Byte
  boot : BitVec 16
  align : BitVec 16
  off : BitVec 16
  attemptLimit : Byte
  deriving DecidableEq, Repr

/-- The fields of BUDGET_SET (R141, R201). -/
structure WireBudget where
  limit : BitVec 16
  start : Byte
  slew : Byte
  stall : BitVec 16
  deriving DecidableEq, Repr

/-- The fields of SUPPLY_SET (R121, R201). -/
structure WireSupply where
  dip : BitVec 16
  cutoff : BitVec 16
  restore : BitVec 16
  nDip : Byte
  nCut : Byte
  nRest : Byte
  settle : BitVec 16
  shift : Byte
  deriving DecidableEq, Repr

/-- The commands, in the order of the table. -/
inductive Instr where
  /-- COLD_START (R198). -/
  | coldStart
  /-- RESET_N (R197): assertion of the line. -/
  | resetN
  /-- INSERTION (R54): the slot's presence line goes to seated. -/
  | insertion (slot : SlotId)
  /-- REMOVAL (R54): the slot's presence line drops. -/
  | removal (slot : SlotId)
  /-- STATUS_READ (R182): a transfer that clocks out its status byte, and closes before a full kind is clocked in or stays under
  select. -/
  | statusRead (select : Select)
  /-- RESPONSE_READ (R185): a READ transfer that clocks `clocked` bytes after the status byte. -/
  | responseRead (link : Link) (clocked : Nat)
  /-- REQUEST_DISCARDED (R184): a transfer with its kind byte and the bytes after it, ending while the buffer is full. -/
  | requestDiscarded (link : Link) (kind : Byte) (bytes : List Byte)
  /-- BAD_FRAME (R183): a transfer with its kind byte and the bytes after it, whose frame is wrong. -/
  | badFrame (link : Link) (kind : Byte) (bytes : List Byte)
  /-- UNKNOWN_REQUEST (R183): a well-framed request whose code names none. -/
  | unknownRequest (link : Link) (code : Byte) (fields : List Byte)
  /-- ESTABLISH (R30), its body as R202 lays it out. -/
  | establish (link : Link) (body : List Byte)
  /-- MODIFY (R34), its body as R201 lays it out. -/
  | modify (link : Link) (body : List Byte)
  /-- RETIRE (R37). -/
  | retire (link : Link) (handle : WireHandle)
  /-- REVIVE (R41). -/
  | revive (link : Link) (handle : WireHandle)
  /-- LOOKUP (R42). -/
  | lookup (link : Link) (handle : WireHandle)
  /-- FIND_CHANNEL (R43). -/
  | findChannel (link : Link) (slot channel : Byte)
  /-- FIND_TIMESLOT (R43). -/
  | findTimeslot (link : Link) (highway : Byte) (timeslot : BitVec 16)
  /-- LIST (R45). -/
  | list (link : Link) (cls filter : Byte) (cursor : WireHandle)
  /-- PARK (R75): SLOT_ACTION with action 1. -/
  | park (link : Link) (slot : Byte)
  /-- UNPARK (R75): action 2. -/
  | unpark (link : Link) (slot : Byte)
  /-- HOLD (R76): action 3. -/
  | hold (link : Link) (slot : Byte)
  /-- RELEASE_HOLD (R76): action 4. -/
  | releaseHold (link : Link) (slot : Byte)
  /-- ADOPT (R77): action 5. -/
  | adopt (link : Link) (slot : Byte)
  /-- VACATE (R77): action 6. -/
  | vacate (link : Link) (slot : Byte)
  /-- CLEAR_FAULT (R77): action 7. -/
  | clearFault (link : Link) (slot : Byte)
  /-- AUDIT (R78): action 8. -/
  | audit (link : Link) (slot : Byte)
  /-- POWER_CYCLE (R79): action 9. -/
  | powerCycle (link : Link) (slot : Byte)
  /-- SLOT_SET (R52). -/
  | slotSet (link : Link) (slot rank phase : Byte)
  /-- PROFILE_SET (R50). -/
  | profileSet (link : Link) (fields : WireProfile)
  /-- BUS_SET (R51). -/
  | busSet (link : Link) (fields : WireBus)
  /-- BUDGET_SET (R141). -/
  | budgetSet (link : Link) (fields : WireBudget)
  /-- SUPPLY_SET (R121). -/
  | supplySet (link : Link) (fields : WireSupply)
  /-- STATUS (R196). -/
  | status (link : Link)
  /-- NOTICES (R193), with its clear set. -/
  | notices (link : Link) (clear : BitVec 16)
  /-- NOTICE_MASK (R194). -/
  | noticeMask (link : Link) (mask : BitVec 16)
  /-- CAPTURE_QUERY (R103). -/
  | captureQuery (link : Link)
  /-- CAPTURE_CLEAR (R103). -/
  | captureClear (link : Link)
  /-- CLAIM (R188). -/
  | claim (link : Link)
  /-- RELEASE (R189). -/
  | release (link : Link)
  /-- TAKEOVER (R190). -/
  | takeover (link : Link)
  /-- RESET (R197). -/
  | reset (link : Link)
  /-- SUPPLY_SAMPLE (R116): one 10-bit sample code. -/
  | supplySample (code : BitVec 10)
  /-- SIGNAL_LOSS (R117): expiry of the signal-loss timer. -/
  | signalLoss
  /-- SETTLE_TIMER_EXPIRY (R126). -/
  | settleTimerExpiry
  /-- BUDGET_TICK (R144): 1 ms. -/
  | budgetTick
  /-- BRING_UP_STALL_EXPIRY (R156). -/
  | bringUpStallExpiry
  /-- LOAD_STALL_EXPIRY (R157). -/
  | loadStallExpiry
  /-- BRING_UP_TRIAL (R57). -/
  | bringUpTrial
  /-- SELECTION (R165). -/
  | selection
  /-- BOOT_TIMER_EXPIRY (R61). -/
  | bootTimerExpiry (slot : SlotId)
  /-- ALIGN_TIMER_EXPIRY (R63). -/
  | alignTimerExpiry (slot : SlotId)
  /-- OFF_TIMER_EXPIRY (R61). -/
  | offTimerExpiry (slot : SlotId)
  /-- STABLE_TIMER_EXPIRY (R65). -/
  | stableTimerExpiry (slot : SlotId)
  /-- POLL_TIMER_EXPIRY (R93). -/
  | pollTimerExpiry (slot : SlotId)
  /-- COMPLETION_TIMEOUT (R101): expiry of the deadline of the slot's entry under this handle. -/
  | completionTimeout (slot : SlotId) (index : Index) (gen : Gen)
  /-- EXCHANGE_OPEN (R86). -/
  | exchangeOpen (seg : SegId)
  /-- REPLY_WINDOW_CLOSE (R86). -/
  | replyWindowClose (seg : SegId)
  /-- REPLY_BREAK_OFF (R86). -/
  | replyBreakOff (seg : SegId)
  /-- POLL_REPLY (R97). -/
  | pollReply (seg : SegId) (reply : WirePoll)
  /-- ACCEPT (R92), from the card of the named slot. -/
  | accept (seg : SegId) (slot : Byte)
  /-- REFUSE (R96). -/
  | refuse (seg : SegId) (slot reason : Byte)
  /-- DIGEST_REPLY (R108). -/
  | digestReply (seg : SegId) (slot : Byte) (count : BitVec 16) (s1 : BitVec 24) (s2 : BitVec 32)
  /-- MALFORMED_OR_UNEXPECTED_REPLY (R87): the bytes of a whole reply. -/
  | malformedOrUnexpectedReply (seg : SegId) (bytes : List Byte)
  deriving DecidableEq, Repr

end Sys2Proof
end

