-- ==== Sys2Proof/Decode.lean ====
section
/-! DEFINITION. The reading of commands from words and from request frames. The opcode table gives no row any bits, so
no word spells a command; the bytes of a control link transfer do, as R182, R183 and R201 lay them out, and the frame
decoder and encoder below say how. -/

namespace Sys2Proof

/-- The command a word spells by the table's bits: no row of spec/opcode_table.json gives bits, so none. -/
def decodeTableWord (_nbits _w : Nat) : Option Instr := none

/-- The transfer kind of a request (R201). -/
def kindRequest : Byte := 0x5A

/-- The transfer kind of a response read (R201). -/
def kindRead : Byte := 0xA5

/-- The request codes with their legal lengths, least and greatest (R201). -/
def requestTable : List (Byte × Nat × Nat) :=
  [(0x10, 10, 29), (0x11, 4, 30), (0x12, 3, 3), (0x13, 3, 3), (0x20, 3, 3), (0x21, 2, 2), (0x22, 3, 3), (0x23, 5, 5),
    (0x30, 2, 2), (0x31, 3, 3), (0x32, 8, 8), (0x33, 12, 12), (0x40, 6, 6), (0x41, 12, 12), (0x50, 0, 0), (0x51, 2, 2),
    (0x52, 2, 2), (0x53, 0, 0), (0x54, 0, 0), (0x60, 0, 0), (0x61, 0, 0), (0x62, 0, 0), (0x6F, 0, 0)]

/-- The legal lengths of a request code; none for a code that names no request (R201). -/
def legalLength (code : Byte) : Option (Nat × Nat) := requestTable.lookup code

/-- Whether a field length is one the request code's layout can have (R183, R201). -/
def lengthFits (code : Byte) (len : Nat) : Bool :=
  match legalLength code with
  | some (lo, hi) => decide (lo ≤ len ∧ len ≤ hi)
  | none => false

/-- What steps 2 and 3 of R183 make of a transfer. -/
inductive FrameJudgement where
  /-- step 2: the frame is wrong -/
  | bad
  /-- step 3: the code names no request -/
  | unknown
  /-- a request code with its field bytes -/
  | request (code : Byte) (fields : List Byte)
  deriving DecidableEq, Repr

/-- R183 steps 2 and 3 and the length check of R201, on the transfer kind and the bytes clocked in after it. -/
def judgeFrame (kind : Byte) (bytes : List Byte) : FrameJudgement :=
  if kind ≠ kindRequest then .bad
  else match bytes with
    | code :: len :: fields =>
      if fields.length ≠ len.toNat then .bad
      else if (legalLength code).isNone then .unknown
      else if lengthFits code fields.length then .request code fields
      else .bad
    | _ => .bad

/-- The bytes of a request's transfer: the kind, the code, the length and the field bytes (R183, R201). -/
def requestBytes (code : Byte) (fields : List Byte) : List Byte :=
  kindRequest :: code :: byteOf fields.length :: fields

/-- A transfer of these bytes may have clocked in the bytes `taken` so far. Of a READ only the kind and the count of bytes
tell: what data in carries after it is not read (R185, log 4). -/
def goesOn (taken bytes : List Byte) : Bool :=
  match taken, bytes with
  | [], _ => true
  | k :: ts, j :: bs => decide (k = j) && if k = kindRead then decide (ts.length ≤ bs.length) else ts.isPrefixOf bs
  | _ :: _, [] => false

/-- Two bytes read most significant first (R200). -/
def word16 (b1 b0 : Byte) : BitVec 16 := b1 ++ b0

/-- A wire handle from its three bytes (R200). -/
def wireHandle (b2 b1 b0 : Byte) : WireHandle := ⟨word16 b2 b1, b0⟩

/-- The high byte of a 16-bit field (R200). -/
def hi8 (w : BitVec 16) : Byte := w.extractLsb' 8 8

/-- The low byte of a 16-bit field (R200). -/
def lo8 (w : BitVec 16) : Byte := w.extractLsb' 0 8

/-- A wire handle as its three bytes (R200). -/
def WireHandle.bytes (h : WireHandle) : List Byte := [hi8 h.index, lo8 h.index, h.gen]

/-- The slot action that a SLOT_ACTION frame names by its action byte (R201); none outside the list. -/
def slotAction (l : Link) (slot action : Byte) : Option Instr :=
  List.lookup action [(1, .park l slot), (2, .unpark l slot), (3, .hold l slot), (4, .releaseHold l slot),
    (5, .adopt l slot), (6, .vacate l slot), (7, .clearFault l slot), (8, .audit l slot), (9, .powerCycle l slot)]

/-- The requests without fields, by code (R201). -/
def decodeBare (l : Link) (code : Byte) : Option Instr :=
  List.lookup code [(0x50, .status l), (0x53, .captureQuery l), (0x54, .captureClear l), (0x60, .claim l),
    (0x61, .release l), (0x62, .takeover l), (0x6F, .reset l)]

/-- The requests of two field bytes, by code (R201). -/
def decodeTwo (l : Link) (code x y : Byte) : Option Instr :=
  if code = 0x30 then slotAction l x y
  else List.lookup code [(0x21, .findChannel l x y), (0x51, .notices l (word16 x y)), (0x52, .noticeMask l (word16 x y))]

/-- The requests of three field bytes, by code (R201). -/
def decodeThree (l : Link) (code x y z : Byte) : Option Instr :=
  List.lookup code [(0x12, .retire l (wireHandle x y z)), (0x13, .revive l (wireHandle x y z)),
    (0x20, .lookup l (wireHandle x y z)), (0x22, .findTimeslot l x (word16 y z)), (0x31, .slotSet l x y z)]

/-- The request that a code and its field bytes spell (R201). None only where the code names no request, the length is
not the code's, or a SLOT_ACTION names an action outside the list. -/
def decodeRequest (l : Link) (code : Byte) (fields : List Byte) : Option Instr :=
  if lengthFits code fields.length = false then none
  else if code = 0x10 then some (.establish l fields)
  else if code = 0x11 then some (.modify l fields)
  else match fields with
    | [] => decodeBare l code
    | [x, y] => decodeTwo l code x y
    | [x, y, z] => decodeThree l code x y z
    | [c, f, x, y, z] => List.lookup code [(0x23, .list l c f (wireHandle x y z))]
    | [l1, l0, s, k, t1, t0] => List.lookup code [(0x40, .budgetSet l ⟨word16 l1 l0, s, k, word16 t1 t0⟩)]
    | [t, c, i1, i0, b1, b0, k, w] =>
      List.lookup code [(0x32, .profileSet l ⟨t, c, word16 i1 i0, word16 b1 b0, k, w⟩)]
    | [w, c, m, f, s, b1, b0, a1, a0, o1, o0, n] => List.lookup code
        [(0x33, .busSet l ⟨w, c, m, f, s, word16 b1 b0, word16 a1 a0, word16 o1 o0, n⟩),
          (0x41, .supplySet l ⟨word16 w c, word16 m f, word16 s b1, b0, a1, a0, word16 o1 o0, n⟩)]
    | _ => none

/-- The link, request code and field bytes of a request command (R201); none for a command that is no request. -/
def encodeRequest : Instr → Option (Link × Byte × List Byte)
  | .establish l body => some (l, 0x10, body)
  | .modify l body => some (l, 0x11, body)
  | .retire l h => some (l, 0x12, h.bytes)
  | .revive l h => some (l, 0x13, h.bytes)
  | .lookup l h => some (l, 0x20, h.bytes)
  | .findChannel l s c => some (l, 0x21, [s, c])
  | .findTimeslot l h t => some (l, 0x22, [h, hi8 t, lo8 t])
  | .list l c f h => some (l, 0x23, c :: f :: h.bytes)
  | .park l s => some (l, 0x30, [s, 1])
  | .unpark l s => some (l, 0x30, [s, 2])
  | .hold l s => some (l, 0x30, [s, 3])
  | .releaseHold l s => some (l, 0x30, [s, 4])
  | .adopt l s => some (l, 0x30, [s, 5])
  | .vacate l s => some (l, 0x30, [s, 6])
  | .clearFault l s => some (l, 0x30, [s, 7])
  | .audit l s => some (l, 0x30, [s, 8])
  | .powerCycle l s => some (l, 0x30, [s, 9])
  | .slotSet l s r p => some (l, 0x31, [s, r, p])
  | .profileSet l f =>
    some (l, 0x32, [f.cardType, f.channels, hi8 f.inrush, lo8 f.inrush, hi8 f.base, lo8 f.base, f.shift, f.cap])
  | .busSet l f =>
    some (l, 0x33, [f.w, f.completion, f.missedLimit, f.fastPoll, f.slowPoll, hi8 f.boot, lo8 f.boot, hi8 f.align,
      lo8 f.align, hi8 f.off, lo8 f.off, f.attemptLimit])
  | .budgetSet l f => some (l, 0x40, [hi8 f.limit, lo8 f.limit, f.start, f.slew, hi8 f.stall, lo8 f.stall])
  | .supplySet l f =>
    some (l, 0x41, [hi8 f.dip, lo8 f.dip, hi8 f.cutoff, lo8 f.cutoff, hi8 f.restore, lo8 f.restore, f.nDip, f.nCut,
      f.nRest, hi8 f.settle, lo8 f.settle, f.shift])
  | .status l => some (l, 0x50, [])
  | .notices l c => some (l, 0x51, [hi8 c, lo8 c])
  | .noticeMask l m => some (l, 0x52, [hi8 m, lo8 m])
  | .captureQuery l => some (l, 0x53, [])
  | .captureClear l => some (l, 0x54, [])
  | .claim l => some (l, 0x60, [])
  | .release l => some (l, 0x61, [])
  | .takeover l => some (l, 0x62, [])
  | .reset l => some (l, 0x6F, [])
  | .coldStart | .resetN | .insertion _ | .removal _ | .statusRead _ | .responseRead _ _ | .requestDiscarded _ _ _
  | .badFrame _ _ _ | .unknownRequest _ _ _ | .supplySample _ | .signalLoss | .settleTimerExpiry | .budgetTick
  | .bringUpStallExpiry | .loadStallExpiry | .bringUpTrial | .selection | .bootTimerExpiry _ | .alignTimerExpiry _
  | .offTimerExpiry _ | .stableTimerExpiry _ | .pollTimerExpiry _ | .completionTimeout _ _ _ | .exchangeOpen _
  | .replyWindowClose _ | .replyBreakOff _ | .pollReply _ _ | .accept _ _ | .refuse _ _ _ | .digestReply _ _ _ _ _
  | .malformedOrUnexpectedReply _ _ => none

/-- The link and the bytes of the transfer that a command ends, its kind first (R182, R183, R185); none for a command that ends
no transfer. -/
def Instr.clocked : Instr → Option (Link × List Byte)
  | .statusRead ⟨l, none⟩ => some (l, [])
  | .responseRead l n => some (l, kindRead :: List.replicate n 0)
  | .requestDiscarded l kind bytes => some (l, kind :: bytes)
  | .badFrame l kind bytes => some (l, kind :: bytes)
  | .unknownRequest l code fields => some (l, requestBytes code fields)
  | c => (encodeRequest c).map fun r => (r.1, requestBytes r.2.1 r.2.2)

end Sys2Proof
end

