-- ==== Sys2Proof/WellFormed.lean ====
section
/-! DEFINITION. Which commands spell what their row names. Most operands cannot be ill-formed (their types hold the
ranges); a command with raw bytes must carry bytes of its row's kind. The step does not ask: what the part does with
any bytes follows R183 and R87 (log 17, log 18). -/

namespace Sys2Proof

/-- The command's raw bytes are of its row's kind. -/
def Instr.wellFormed : Instr → Bool
  | .establish _ body => lengthFits 0x10 body.length
  | .modify _ body => lengthFits 0x11 body.length
  | .requestDiscarded _ kind _ => decide (kind ≠ kindRead)
  | .badFrame _ kind bytes => decide (kind ≠ kindRead ∧ judgeFrame kind bytes = .bad)
  | .unknownRequest _ code fields => (legalLength code).isNone && decide (fields.length ≤ 255)
  | .coldStart | .resetN | .insertion _ | .removal _ | .statusRead _ | .responseRead _ _ | .retire _ _ | .revive _ _
  | .lookup _ _ | .findChannel _ _ _ | .findTimeslot _ _ _ | .list _ _ _ _ | .park _ _ | .unpark _ _ | .hold _ _
  | .releaseHold _ _ | .adopt _ _ | .vacate _ _ | .clearFault _ _ | .audit _ _ | .powerCycle _ _ | .slotSet _ _ _ _
  | .profileSet _ _ | .busSet _ _ | .budgetSet _ _ | .supplySet _ _ | .status _ | .notices _ _ | .noticeMask _ _
  | .captureQuery _ | .captureClear _ | .claim _ | .release _ | .takeover _ | .reset _ | .supplySample _ | .signalLoss
  | .settleTimerExpiry | .budgetTick | .bringUpStallExpiry | .loadStallExpiry | .bringUpTrial | .selection
  | .bootTimerExpiry _ | .alignTimerExpiry _ | .offTimerExpiry _ | .stableTimerExpiry _ | .pollTimerExpiry _
  | .completionTimeout _ _ _ | .exchangeOpen _ | .replyWindowClose _ | .replyBreakOff _ | .pollReply _ _ | .accept _ _
  | .refuse _ _ _ | .digestReply _ _ _ _ _ | .malformedOrUnexpectedReply _ _ => true

end Sys2Proof
end

