-- ==== Sys2Proof/Machine/State.lean ====
section
/-! DEFINITION. The state of the part as plain data, block by block (00_scope.md, Block overview), its cold-start
values, and the reasons a step can stop. What the manual derives from other state (the maps, the counts, committed load,
ATTN and enable levels) is computed in Ops.lean and Flags.lean, not stored (log 16). -/

namespace Sys2Proof.Machine

/-! ### Connection Table (R1) -/

/-- The direction of a leg (R2). -/
inductive Dir where
  | tx
  | rx
  | both
  deriving DecidableEq, Repr

/-- One binding between a record's channel and a timeslot of a highway (R2). -/
structure Leg where
  highway : Fin 4
  timeslot : Fin 512
  dir : Dir
  deriving DecidableEq, Repr

/-- The restoration classes, C0 to C3. -/
inductive Cls where
  | c0
  | c1
  | c2
  | c3
  deriving DecidableEq, Repr

/-- The six non-FREE record states (R8). A FREE index is one with no record. -/
inductive RecState where
  | suspended
  | pending
  | loading
  | live
  | dropping
  | refused
  deriving DecidableEq, Repr

/-- Why a record is REFUSED (R11). -/
inductive Reason where
  | channelRejected
  | legRejected
  | loadFailed
  deriving DecidableEq, Repr

/-- A handle, index/generation (R5). -/
structure Handle where
  index : Index
  gen : Gen
  deriving DecidableEq, Repr

/-- The content of a non-FREE index but for its generation and its list place (R1). -/
structure Rec where
  cls : Cls
  slot : SlotId
  channel : Channel
  legs : List Leg
  cost : Fin 256
  partner : Option Handle
  tag : Option (BitVec 32)
  state : RecState
  reload : Bool
  retire : Bool
  reason : Option Reason
  deriving DecidableEq, Repr

/-- The Connection Table: the generations that are not 0 and the non-FREE records, each by rising index, and the four
Class Lists, head first (R1, R19). -/
structure Ctb where
  gens : List (Index × Gen)
  recs : List (Index × Rec)
  c0 : List Index
  c1 : List Index
  c2 : List Index
  c3 : List Index
  deriving DecidableEq, Repr

/-- The table at cold start (R23). -/
def Ctb.cold : Ctb := ⟨[], [], [], [], [], []⟩

/-! ### Slots (R48, R83, R105, R140) -/

/-- The ten slot states (R48). -/
inductive SlotState where
  | empty
  | off
  | dark
  | aligning
  | auditing
  | relinking
  | linked
  | held
  | mismatch
  | faulted
  deriving DecidableEq, Repr

/-- The phase of a card (R85). -/
inductive Phase where
  | boot
  | aligned
  | alignFail
  | run
  deriving DecidableEq, Repr

/-- A card's identity: type and serial (R48). -/
structure Card where
  type : CardType
  serial : BitVec 32
  deriving DecidableEq, Repr

/-- The card seen: its identity fields and its queue depth, 1-8 (R48). -/
structure CardSeen where
  card : Card
  depth : Nat
  deriving DecidableEq, Repr

/-- The last reply taken while DARK (R48). -/
structure LastReply where
  phase : Phase
  bootCount : BitVec 8
  deriving DecidableEq, Repr

/-- The kinds of a fault summary (R48, R203). -/
inductive FaultKind where
  | spontaneousReboot
  | bootTimeout
  | alignFailed
  | missedLimit
  | completionTimeout
  deriving DecidableEq, Repr

/-- A timer: stopped, or running with the time left in ms. -/
abbrev Timer := Option Nat

/-- Whether an in-flight transaction is a LOAD or a DROP (R94). -/
inductive TxnKind where
  | load
  | drop
  deriving DecidableEq, Repr

/-- One in-flight transaction (R94); the deadline is held as the time left to it, in ms. -/
structure Txn where
  kind : TxnKind
  handle : Handle
  deadline : Nat
  sent : Bool
  deriving DecidableEq, Repr

/-- The six kinds of frame with what each carries (R84). -/
inductive Frame where
  | poll
  | align (phase : Fin 16)
  | load (handle : Handle) (channel : Channel) (legs : List Leg)
  | drop (handle : Handle)
  | digest
  | clear
  deriving DecidableEq, Repr

/-- Where a pending slot-engine frame stands (R91, R92). -/
inductive Place where
  /-- waiting for a queue place, category 1 of the arbiter -/
  | waiting
  /-- in the transmit queue -/
  | queued
  /-- in its exchange -/
  | inExchange
  deriving DecidableEq, Repr

/-- A slot's pending slot-engine frame: ALIGN, DIGEST or CLEAR, with its try count (R92). -/
structure Engine where
  frame : Frame
  tries : Nat
  place : Place
  deriving DecidableEq, Repr

/-- The step of an audit context (R105). -/
inductive AuditStep where
  | digesting
  | clearing
  deriving DecidableEq, Repr

/-- All that the part holds for one slot. -/
structure Slot where
  /-- the presence line (R54) -/
  seated : Bool
  state : SlotState
  parked : Bool
  hold : Bool
  rank : Fin 4
  phase : Fin 16
  identity : Option Card
  bootCount : BitVec 8
  lastReply : Option LastReply
  cardSeen : Option CardSeen
  attempts : Nat
  faults : BitVec 5
  window : Nat
  waitingDrops : List Handle
  bootTimer : Timer
  alignTimer : Timer
  /-- running means that an OFF slot is cooling (R48) -/
  offTimer : Timer
  stableTimer : Timer
  pollTimer : Timer
  pollDue : Bool
  missed : Nat
  inflight : List Txn
  engine : Option Engine
  /-- the exchange number at which the latest ALIGN exchange ended (R83) -/
  alignMark : Option Nat
  audit : Option AuditStep
  inrush : Nat
  deriving DecidableEq, Repr

/-- A slot at cold start (R81, R104, R105, R159), by its presence line. -/
def Slot.cold (seated : Bool) : Slot where
  seated := seated
  state := if seated then .off else .empty
  parked := false
  hold := false
  rank := 2
  phase := 0
  identity := none
  bootCount := 0
  lastReply := none
  cardSeen := none
  attempts := 0
  faults := 0
  window := 1
  waitingDrops := []
  bootTimer := none
  alignTimer := none
  offTimer := none
  stableTimer := none
  pollTimer := none
  pollDue := false
  missed := 0
  inflight := []
  engine := none
  alignMark := none
  audit := none
  inrush := 0

/-! ### Segments (R83) -/

/-- A frame in a transmit queue, with the slot it is addressed to. -/
structure QFrame where
  slot : SlotId
  frame : Frame
  deriving DecidableEq, Repr

/-- The open exchange: its frame in progress, whether it is orphaned (R89), and the number of the exchange. -/
structure Exchange where
  slot : SlotId
  frame : Frame
  orphan : Bool
  number : Nat
  deriving DecidableEq, Repr

/-- One segment engine. `sent` is the frame bytes last driven onto the pair and `exchanges` counts exchanges opened;
both are the model's own (log 24). -/
structure Segment where
  queue : List QFrame
  inProgress : Option Exchange
  enginePtr : Option SlotId
  dropPtr : Option SlotId
  pollPtr : Option SlotId
  sent : List Byte
  exchanges : Nat
  deriving DecidableEq, Repr

/-- A segment after either reset (R104). -/
def Segment.idle : Segment := ⟨[], none, none, none, none, [], 0⟩

/-- The kinds of the protocol fault capture (R102). -/
inductive CaptureKind where
  | malformedReply
  | wrongSlot
  | strayCompletion
  | unexpectedReply
  deriving DecidableEq, Repr

/-- A captured fault (R102). -/
structure Captured where
  kind : CaptureKind
  slot : SlotId
  handle : Option Handle
  deriving DecidableEq, Repr

/-- The protocol fault capture; valid is that a fault is held (R102). -/
structure Capture where
  fault : Option Captured
  overflow : Nat
  deriving DecidableEq, Repr

/-- The empty capture (R104). -/
def Capture.empty : Capture := ⟨none, 0⟩

/-! ### Settings in retention memory (R50, R51, R121, R140) -/

/-- One Card Profile Table entry (R50). -/
structure Profile where
  channels : Nat
  inrush : Nat
  base : Nat
  shift : Nat
  cap : Nat
  deriving DecidableEq, Repr

/-- The cold-start values of an entry, which are also the fixed unknown-card figures (R50). -/
def Profile.unknown : Profile := ⟨128, 1000, 300, 4, 4⟩

/-- The nine shelf bus settings (R51), times in ms. -/
structure BusCfg where
  w : Nat
  completion : Nat
  missedLimit : Nat
  fastPoll : Nat
  slowPoll : Nat
  boot : Nat
  align : Nat
  off : Nat
  attemptLimit : Nat
  deriving DecidableEq, Repr

/-- R51, the cold-start column. -/
def BusCfg.cold : BusCfg := ⟨4, 20, 3, 2, 50, 3000, 200, 500, 4⟩

/-- The four budget settings (R140). -/
structure BudgetCfg where
  limit : Nat
  start : Nat
  slew : Nat
  stall : Nat
  deriving DecidableEq, Repr

/-- R141, the cold-start column. -/
def BudgetCfg.cold : BudgetCfg := ⟨20000, 4, 6, 500⟩

/-- The eight supply settings (R121). -/
structure SupplyCfg where
  dip : Nat
  cutoff : Nat
  restore : Nat
  nDip : Nat
  nCut : Nat
  nRest : Nat
  settle : Nat
  shift : Nat
  deriving DecidableEq, Repr

/-- R121, the cold-start column. -/
def SupplyCfg.cold : SupplyCfg := ⟨580, 500, 600, 8, 8, 80, 100, 2⟩

/-- Every setting of the part. -/
structure Settings where
  profiles : Vector Profile 16
  bus : BusCfg
  budget : BudgetCfg
  supply : SupplyCfg
  deriving DecidableEq, Repr

/-- The settings at cold start. -/
def Settings.cold : Settings := ⟨Vector.replicate 16 .unknown, .cold, .cold, .cold⟩

/-! ### Supply Monitor (R122) -/

/-- The supply states (R122). -/
inductive Supply where
  | normal
  | sag
  | outage
  | settling
  | recovery
  deriving DecidableEq, Repr

/-- The settle timer: stopped, running or held (R117, R122). -/
inductive SettleTimer where
  | stopped
  | running (left : Nat)
  | held (left : Nat)
  deriving DecidableEq, Repr

/-- The Supply Monitor's state (R122). -/
structure Spm where
  state : Supply
  avg16 : Option Nat
  dip : Nat
  cut : Nat
  rest : Nat
  episodes : BitVec 16
  deep : Bool
  settle : SettleTimer
  recoveryTime : Nat
  recoveryRunning : Bool
  lost : Bool
  signalTimer : Timer
  deriving DecidableEq, Repr

/-- The monitor at cold start (R138). -/
def Spm.cold : Spm := ⟨.outage, none, 0, 0, 0, 0, true, .stopped, 0, false, false, some Config.signalTime⟩

/-! ### Feed Budget Unit (R140) and Restoration Scheduler (R162) -/

/-- A stall state (R156, R157). -/
inductive Stall where
  | clear
  | timing (left : Nat)
  | stalled
  deriving DecidableEq, Repr

/-- What the FBU stores besides its settings and the slots' inrush charges. -/
structure Fbu where
  ceiling : Nat
  bringUp : Stall
  load : Stall
  deriving DecidableEq, Repr

/-- R159. -/
def Fbu.cold : Fbu := ⟨0, .clear, .clear⟩

/-! ### Control Link Interfaces (R181) -/

/-- The 13 notice kinds, in the order of their bits (R201). -/
inductive Notice where
  | coldStart
  | warmReset
  | supplySag
  | supplyOutage
  | supplyBack
  | recoveryDone
  | slotChange
  | recordRefused
  | budgetStall
  | ownerGained
  | ownerLost
  | busFault
  | supplySignal
  deriving DecidableEq, Repr

/-- The status codes (R186), in the order of their codes (R201). -/
inductive Status where
  | ok
  | badFrame
  | unknownRequest
  | badField
  | notOwner
  | ownedElsewhere
  | staleHandle
  | channelTaken
  | timeslotTaken
  | tableFull
  | legConflict
  | partnerInvalid
  | slotBusy
  | wrongState
  | incompatible
  deriving DecidableEq, Repr

/-- A buffered response: its status code and its body (R181, R201). -/
structure Response where
  status : Status
  body : List Byte
  deriving DecidableEq, Repr

/-- The state of one link (R181). `transfer` is the transfer open under select, with the bytes taken so far; `lost` says that
select stands on a transfer a reset has lost, so that the bytes up to its removal are not read (R183, R198). `dataOut` is what
the latest transfer has clocked out, as far as the manual says it (R182, R185, log 25); it is the model's own (log 24). -/
structure LinkRec where
  buffer : Option Response
  overrun : Bool
  claim : Bool
  pending : BitVec 13
  mask : BitVec 13
  changes : BitVec 24
  transfer : Option (List Byte)
  lost : Bool
  dataOut : List Byte
  deriving DecidableEq, Repr

/-- A link at its reset values, with these flags pending and no select asserted (R198, R199, log 6). -/
def LinkRec.fresh (pending : BitVec 13) : LinkRec :=
  ⟨none, false, false, pending, BitVec.allOnes 13, 0, none, false, []⟩

/-! ### The part -/

/-- Everything the part holds. -/
structure Part where
  ctb : Ctb
  slots : Vector Slot 24
  cfg : Settings
  mbsL : Segment
  mbsR : Segment
  capture : Capture
  spm : Spm
  fbu : Fbu
  /-- the scheduler's run marker, RUNNING or STOPPED (R162) -/
  running : Bool
  linkA : LinkRec
  linkB : LinkRec
  owner : Option Link
  /-- how many filler bytes have been clocked out (log 5) -/
  fillers : Nat
  deriving DecidableEq, Repr

/-- The part at cold start with no card seated: COLD_START, bit 0, pending on both links (R198, log 6). -/
def Part.cold : Part where
  ctb := .cold
  slots := Vector.replicate 24 (.cold false)
  cfg := .cold
  mbsL := .idle
  mbsR := .idle
  capture := .empty
  spm := .cold
  fbu := .cold
  running := false
  linkA := .fresh 1
  linkB := .fresh 1
  owner := none
  fillers := 0

/-- No command stops the part: the manual answers every misuse by a status code, a notice, the fault capture or a slot
state, and goes on. So there is no fault. -/
inductive Fault where
  deriving DecidableEq, Repr

/-- Why a step has no meaning. -/
inductive Refusal where
  /-- Raised by `exec` for a command that has no meaning yet; no command is left in that case. Safe. -/
  | notModelled (mnemonic : String)
  deriving DecidableEq, Repr

/-- The machine: the part, and the commands that wait, first in first out. -/
structure State where
  part : Part
  pending : List Instr
  deriving DecidableEq, Repr

/-- The machine right after reset: the part at cold start, and no command waiting (R81, R104, R138, R159, R198). -/
def State.reset : State := ⟨.cold, []⟩

end Sys2Proof.Machine
end

