-- ==== Sys2Proof/Machine/Sparse.lean ====
section
/-! DEFINITION. Sparse tables over record indexes: lists of (index, value) pairs by rising index. -/

namespace Sys2Proof.Machine.Sparse

variable {β : Type}

/-- The value listed for an index. -/
def get (k : Index) : List (Index × β) → Option β
  | [] => none
  | (j, v) :: xs => if j = k then some v else get k xs

/-- List a value for an index, at its place in the rising order. -/
def set (k : Index) (v : β) : List (Index × β) → List (Index × β)
  | [] => [(k, v)]
  | (j, w) :: xs => if k < j then (k, v) :: (j, w) :: xs else if j = k then (k, v) :: xs else (j, w) :: set k v xs

/-- Take an index off the list. -/
def erase (k : Index) (xs : List (Index × β)) : List (Index × β) := xs.filter (fun e => decide (e.1 ≠ k))

/-- The canonical form: indexes strictly rising. -/
abbrev Rising (xs : List (Index × β)) : Prop := (xs.map Prod.fst).Pairwise (· < ·)

end Sys2Proof.Machine.Sparse
end

