-- ==== Sys2Proof/Machine/Ops.lean ====
section
/-! DEFINITION. The named operations over the part: the one home of each block's reads and writes. -/

namespace Sys2Proof.Machine

/-! ### Slots, segments, links -/

/-- The 24 slots in rising order. -/
def allSlots : List SlotId := List.finRange 24

/-- One slot. -/
def Part.slot (p : Part) (i : SlotId) : Slot := p.slots[i]

/-- Replace one slot. -/
def Part.setSlot (i : SlotId) (x : Slot) (p : Part) : Part := { p with slots := p.slots.set i x }

/-- Change one slot. -/
def Part.updSlot (i : SlotId) (f : Slot → Slot) (p : Part) : Part := p.setSlot i (f (p.slot i))

/-- Change every slot. -/
def Part.mapSlots (f : Slot → Slot) (p : Part) : Part := { p with slots := Vector.ofFn fun i => f p.slots[i] }

/-- The segment that serves a slot: MBS-L serves 0-11, MBS-R 12-23. -/
def segOf (i : SlotId) : SegId := if i.val < 12 then .l else .r

/-- The slots a segment serves, in rising order. -/
def segSlots (g : SegId) : List SlotId := allSlots.filter fun i => decide (segOf i = g)

/-- One segment. -/
def Part.seg (p : Part) : SegId → Segment
  | .l => p.mbsL
  | .r => p.mbsR

/-- Replace one segment. -/
def Part.setSeg (g : SegId) (x : Segment) (p : Part) : Part :=
  match g with
  | .l => { p with mbsL := x }
  | .r => { p with mbsR := x }

/-- Change one segment. -/
def Part.updSeg (g : SegId) (f : Segment → Segment) (p : Part) : Part := p.setSeg g (f (p.seg g))

/-- The other control link. -/
def other : Link → Link
  | .a => .b
  | .b => .a

/-- One control link. -/
def Part.link (p : Part) : Link → LinkRec
  | .a => p.linkA
  | .b => p.linkB

/-- Replace one link. -/
def Part.setLink (l : Link) (x : LinkRec) (p : Part) : Part :=
  match l with
  | .a => { p with linkA := x }
  | .b => { p with linkB := x }

/-- Change one link. -/
def Part.updLink (l : Link) (f : LinkRec → LinkRec) (p : Part) : Part := p.setLink l (f (p.link l))

/-- Act on the Connection Table. -/
def Part.onCtb (f : Ctb → Ctb) (p : Part) : Part := { p with ctb := f p.ctb }

/-- Act on the Supply Monitor. -/
def Part.onSpm (f : Spm → Spm) (p : Part) : Part := { p with spm := f p.spm }

/-- Act on the stall states and the ceiling. -/
def Part.onFbu (f : Fbu → Fbu) (p : Part) : Part := { p with fbu := f p.fbu }

/-- A command's effect on the part; the queue is left as it stands. -/
def State.lift (f : Part → Part) (s : State) : State := { s with part := f s.part }

/-! ### Slot states -/

/-- The enable line is driven in these states (R48). -/
def SlotState.driven : SlotState → Bool
  | .dark | .aligning | .auditing | .relinking | .linked | .held | .mismatch => true
  | .empty | .off | .faulted => false

/-- A slot is running when it is RELINKING or LINKED (R26). -/
def SlotState.running : SlotState → Bool
  | .relinking | .linked => true
  | .empty | .off | .dark | .aligning | .auditing | .held | .mismatch | .faulted => false

/-- The enable line of a slot (R48). -/
def Slot.enable (x : Slot) : Bool := x.state.driven

/-- A slot is waiting for bring-up when it is OFF, not parked and not cooling (R48). -/
def Slot.waiting (x : Slot) : Bool := decide (x.state = .off) && !x.parked && x.offTimer.isNone

/-- A slot is recovering in DARK, ALIGNING, AUDITING and RELINKING, and in OFF unless parked (R80, R127). -/
def Slot.recovering (x : Slot) : Bool :=
  match x.state with
  | .dark | .aligning | .auditing | .relinking => true
  | .off => !x.parked
  | .empty | .linked | .held | .mismatch | .faulted => false

/-- Whether slot `i` is running. -/
def Part.slotRuns (p : Part) (i : SlotId) : Bool := (p.slot i).state.running

/-- The slot's profile: the entry of its identity's type, or the unknown-card figures (R50). -/
def Part.profile (p : Part) (x : Slot) : Profile :=
  match x.identity with
  | none => .unknown
  | some c => p.cfg.profiles[c.type]

/-- The slot's channel limit (R3). -/
def Part.channelLimit (p : Part) (i : SlotId) : Nat := (p.profile (p.slot i)).channels

/-- RECOVERY or NORMAL: bring-up, scheduler, boot timers and missed-reply counting run (R122). -/
def Supply.up : Supply → Bool
  | .normal | .recovery => true
  | .sag | .outage | .settling => false

/-! ### The Connection Table -/

/-- The generation of an index; 0 where none is listed (R7, R23). -/
def Ctb.gen (t : Ctb) (k : Index) : Gen := (Sparse.get k t.gens).getD 0

/-- The record at an index; none where it is FREE. -/
def Ctb.get (t : Ctb) (k : Index) : Option Rec := Sparse.get k t.recs

/-- The handle of an index as it stands (R5). -/
def Ctb.handle (t : Ctb) (k : Index) : Handle := ⟨k, t.gen k⟩

/-- The record a handle names: its index is not FREE and its generation is the index's (R5). -/
def Ctb.named (t : Ctb) (h : Handle) : Option Rec := if t.gen h.index = h.gen then t.get h.index else none

/-- Write a record. -/
def Ctb.put (k : Index) (r : Rec) (t : Ctb) : Ctb := { t with recs := Sparse.set k r t.recs }

/-- Change a record, if the index is not FREE. -/
def Ctb.upd (k : Index) (f : Rec → Rec) (t : Ctb) : Ctb :=
  match t.get k with
  | none => t
  | some r => t.put k (f r)

/-- Write a generation, keeping 0 unlisted. -/
def Ctb.setGen (k : Index) (g : Gen) (t : Ctb) : Ctb :=
  { t with gens := if g = 0 then Sparse.erase k t.gens else Sparse.set k g t.gens }

/-- One Class List (R19). -/
def Ctb.list (t : Ctb) : Cls → List Index
  | .c0 => t.c0
  | .c1 => t.c1
  | .c2 => t.c2
  | .c3 => t.c3

/-- Replace one Class List. -/
def Ctb.setList (c : Cls) (xs : List Index) (t : Ctb) : Ctb :=
  match c with
  | .c0 => { t with c0 := xs }
  | .c1 => { t with c1 := xs }
  | .c2 => { t with c2 := xs }
  | .c3 => { t with c3 := xs }

/-- Place an index at the tail of a Class List (R20). -/
def Ctb.enlist (c : Cls) (k : Index) (t : Ctb) : Ctb := t.setList c (t.list c ++ [k])

/-- Take an index off a Class List, joining its neighbours (R12, R20). -/
def Ctb.delist (c : Cls) (k : Index) (t : Ctb) : Ctb := t.setList c ((t.list c).filter fun j => decide (j ≠ k))

/-- The walk order of the four lists (R19, R166). -/
def Ctb.walk (t : Ctb) : List Index := t.c0 ++ t.c1 ++ t.c2 ++ t.c3

/-- Clear the partner field of the record a partner field names (R12, R15). -/
def Ctb.unlink (h : Option Handle) (t : Ctb) : Ctb :=
  match h with
  | none => t
  | some h => t.upd h.index fun r => { r with partner := none }

/-- The content of an index is gone. -/
def Ctb.remove (k : Index) (t : Ctb) : Ctb := { t with recs := Sparse.erase k t.recs }

/-- A record becomes FREE: off its list, its partner's field cleared, its content gone and with it its map entries and its
cost, its generation one on (R7, R12). -/
def Ctb.free (k : Index) (t : Ctb) : Ctb :=
  match t.get k with
  | none => t
  | some r =>
    (((t.delist r.cls k).unlink r.partner).remove k).setGen k (t.gen k + 1)

/-- The lowest FREE index at or above `n`, over `fuel` indexes (R6). -/
def Ctb.freeFrom (t : Ctb) : (fuel n : Nat) → Option Index
  | 0, _ => none
  | fuel + 1, n =>
    if h : n < 4096 then
      if (t.get ⟨n, h⟩).isNone then some ⟨n, h⟩ else t.freeFrom fuel (n + 1)
    else none

/-- The lowest-numbered FREE index; none when the table is full (R6). -/
def Ctb.lowestFree (t : Ctb) : Option Index := t.freeFrom 4096 0

/-- The non-FREE records of a slot, with their indexes. -/
def Ctb.onSlot (t : Ctb) (i : SlotId) : List (Index × Rec) := t.recs.filter fun e => decide (e.2.slot = i)

/-- The channel high mark of a slot; none when it has no record (R3). -/
def Ctb.highMark (t : Ctb) (i : SlotId) : Option Nat := ((t.onSlot i).map fun e => e.2.channel.val).max?

/-- Whether a channel count lies above the slot's channel high mark (R62, R77). -/
def Ctb.fitsChannels (t : Ctb) (i : SlotId) (channels : Nat) : Bool :=
  match t.highMark i with
  | none => true
  | some m => decide (m < channels)

/-- The leg sends: TX or BOTH (R17). -/
def Leg.sends (g : Leg) : Bool := decide (g.dir ≠ .rx)

/-- The leg receives: RX or BOTH (R2). -/
def Leg.receives (g : Leg) : Bool := decide (g.dir ≠ .tx)

/-- The Channel Map entry: the handle of the non-FREE record bound to the slot and channel (R16). -/
def Ctb.channelMap (t : Ctb) (i : SlotId) (c : Channel) : Option Handle :=
  (t.recs.find? fun e => decide (e.2.slot = i ∧ e.2.channel = c)).map fun e => t.handle e.1

/-- The record holds the Timeslot Map entry: it has a TX or BOTH leg there (R17). -/
def Rec.holdsTimeslot (r : Rec) (hw : Fin 4) (ts : Fin 512) : Bool :=
  r.legs.any fun g => decide (g.highway = hw ∧ g.timeslot = ts) && g.sends

/-- The Timeslot Map entry: the handle of the non-FREE record that sends there (R17). -/
def Ctb.timeslotMap (t : Ctb) (hw : Fin 4) (ts : Fin 512) : Option Handle :=
  (t.recs.find? fun e => e.2.holdsTimeslot hw ts).map fun e => t.handle e.1

/-- The legs break a composition rule of R2. -/
def legConflict (legs : List Leg) : Bool :=
  decide (1 < (legs.filter Leg.receives).length) ||
    !decide ((legs.map fun g => (g.highway, g.timeslot)).Nodup)

/-- How many records are in a state (R22). -/
def Ctb.count (t : Ctb) (st : RecState) : Nat := (t.recs.filter fun e => decide (e.2.state = st)).length

/-- How many indexes are FREE (R22). -/
def Ctb.countFree (t : Ctb) : Nat := 4096 - t.recs.length

/-! ### Record states and the treatments of a slot's records -/

/-- The record in another state: both flags are cleared outside LOADING (R10) and the reason outside REFUSED (R11). -/
def Rec.to (st : RecState) (r : Rec) : Rec :=
  { r with
    state := st
    reload := decide (st = .loading) && r.reload
    retire := decide (st = .loading) && r.retire
    reason := if st = .refused then r.reason else none }

/-- The record REFUSED with a reason (R11). -/
def Rec.refuse (why : Reason) (r : Rec) : Rec := { r.to .refused with reason := some why }

/-- What a treatment makes of a record: a state, or none for FREE. -/
abbrev Fate := Rec → Option RecState

/-- The loss treatment's table (R55), which is also that of the warm reset (R24). -/
def lossFate : Fate := fun r =>
  match r.state with
  | .loading => if r.retire then none else some .live
  | .dropping => none
  | .pending => some .suspended
  | .live => some .live
  | .suspended => some .suspended
  | .refused => some .refused

/-- The power-off treatment's table (R56), which is also that of HOLD (R76). -/
def powerOffFate : Fate := fun r =>
  match r.state with
  | .loading => if r.retire then none else some .suspended
  | .dropping => none
  | .pending => some .suspended
  | .live => some .suspended
  | .suspended => some .suspended
  | .refused => some .refused

/-- Records in one state go to another; the rest stay. -/
def moveFate (src dst : RecState) : Fate := fun r => some (if r.state = src then dst else r.state)

/-- Every record becomes FREE (VACATE, R77). -/
def freeFate : Fate := fun _ => none

/-- Apply a treatment to one record. -/
def Ctb.treatOne (f : Fate) (t : Ctb) (k : Index) : Ctb :=
  match t.get k with
  | none => t
  | some r =>
    match f r with
    | none => t.free k
    | some st => t.put k (r.to st)

/-- Apply a treatment to every record of a slot. -/
def Ctb.treat (f : Fate) (i : SlotId) (t : Ctb) : Ctb := ((t.onSlot i).map Prod.fst).foldl (Ctb.treatOne f) t

/-- Apply a treatment to every record of the table. -/
def Ctb.treatAll (f : Fate) (t : Ctb) : Ctb := (t.recs.map Prod.fst).foldl (Ctb.treatOne f) t

/-- The cost counts in committed load in these states (R4, R8). -/
def RecState.counted : RecState → Bool
  | .loading | .live | .dropping => true
  | .suspended | .pending | .refused => false

end Sys2Proof.Machine
end

