-- ==== Sys2Proof/Machine/Operands.lean ====
section
/-! DEFINITION. The operand forms: every field, frame and record layout of 10_frame_and_record_formats.md, read from
bytes and written to bytes, most significant byte first (R200). -/

namespace Sys2Proof.Machine

/-! ### Numbers -/

/-- `x` as a number below `n`, or none when it is out of range. -/
def fin? (n x : Nat) : Option (Fin n) := if h : x < n then some ⟨x, h⟩ else none

/-- `n` bytes that hold a number, most significant first (R200). -/
def bytesOf : (n x : Nat) → List Byte
  | 0, _ => []
  | n + 1, x => byteOf (x / 256 ^ n) :: bytesOf n x

/-- The number that bytes hold, most significant first (R200). -/
def numberOf (bs : List Byte) : Nat := bs.foldl (fun acc b => acc * 256 + b.toNat) 0

/-! ### Codings -/

/-- R203: 0-3 for C0-C3. -/
def clsOf (b : Byte) : Option Cls :=
  match b.toNat with
  | 0 => some .c0
  | 1 => some .c1
  | 2 => some .c2
  | 3 => some .c3
  | _ => none

/-- R203. -/
def Cls.code : Cls → Byte
  | .c0 => 0
  | .c1 => 1
  | .c2 => 2
  | .c3 => 3

/-- R200: 1 TX, 2 RX, 3 BOTH. -/
def dirOf (b : Byte) : Option Dir :=
  match b.toNat with
  | 1 => some .tx
  | 2 => some .rx
  | 3 => some .both
  | _ => none

/-- R200. -/
def Dir.code : Dir → Byte
  | .tx => 1
  | .rx => 2
  | .both => 3

/-- R202: the coding of a record's state. -/
def RecState.code : RecState → Byte
  | .suspended => 1
  | .pending => 2
  | .loading => 3
  | .live => 4
  | .dropping => 5
  | .refused => 6

/-- R202: the state after a request, 0 for FREE. -/
def stateCode : Option Rec → Byte
  | none => 0
  | some r => r.state.code

/-- R202: 0 when absent. -/
def reasonCode : Option Reason → Byte
  | none => 0
  | some .channelRejected => 1
  | some .legRejected => 2
  | some .loadFailed => 3

/-- R203. -/
def SlotState.code : SlotState → Byte
  | .empty => 0
  | .off => 1
  | .dark => 2
  | .aligning => 3
  | .auditing => 4
  | .relinking => 5
  | .linked => 6
  | .held => 7
  | .mismatch => 8
  | .faulted => 9

/-- R203. -/
def Supply.code : Supply → Byte
  | .normal => 0
  | .sag => 1
  | .outage => 2
  | .settling => 3
  | .recovery => 4

/-- R203. -/
def ownerCode : Option Link → Byte
  | none => 0
  | some .a => 1
  | some .b => 2

/-- R203. -/
def CaptureKind.code : CaptureKind → Byte
  | .malformedReply => 1
  | .wrongSlot => 2
  | .strayCompletion => 3
  | .unexpectedReply => 4

/-- R201. -/
def Status.code : Status → Byte
  | .ok => 0x00
  | .badFrame => 0x01
  | .unknownRequest => 0x02
  | .badField => 0x03
  | .notOwner => 0x04
  | .ownedElsewhere => 0x05
  | .staleHandle => 0x06
  | .channelTaken => 0x07
  | .timeslotTaken => 0x08
  | .tableFull => 0x09
  | .legConflict => 0x0A
  | .partnerInvalid => 0x0B
  | .slotBusy => 0x0C
  | .wrongState => 0x0D
  | .incompatible => 0x0E

/-- A response on the wire: two header bytes, then the body (R201). -/
def Response.bytes (r : Response) : List Byte := r.status.code :: byteOf r.body.length :: r.body

/-! ### Handles and legs -/

/-- The handle on the wire; none when the index is above 4095 or the generation above 15 (R5, R200). -/
def handleOf (h : WireHandle) : Option Handle :=
  match fin? 4096 h.index.toNat, fin? 16 h.gen.toNat with
  | some k, some g => some ⟨k, g⟩
  | _, _ => none

/-- A handle as it is put on the wire. -/
def Handle.wire (h : Handle) : WireHandle := ⟨BitVec.ofNat 16 h.index.val, byteOf h.gen.val⟩

/-- A handle's three bytes (R200). -/
def Handle.bytes (h : Handle) : List Byte := bytesOf 2 h.index.val ++ [byteOf h.gen.val]

/-- Index FFFFh with generation FFh: HEAD in a LIST request (R200). -/
def isHead (h : WireHandle) : Bool := decide (h.index = 0xFFFF ∧ h.gen = 0xFF)

/-- END in a LIST response (R200). -/
def endBytes : List Byte := [0xFF, 0xFF, 0xFF]

/-- A leg's four bytes: highway, direction, timeslot (R200). -/
def Leg.bytes (g : Leg) : List Byte := byteOf g.highway.val :: g.dir.code :: bytesOf 2 g.timeslot.val

/-- The legs' bytes, in their order. -/
def legBytes (legs : List Leg) : List Byte := legs.flatMap Leg.bytes

/-! ### Reading fields off a body -/

/-- A reader takes a value off the front of the bytes, or finds a field outside its coding. -/
abbrev Reader (α : Type) := List Byte → Option (α × List Byte)

/-- One byte. -/
def byte? : Reader Byte
  | [] => none
  | b :: bs => some (b, bs)

/-- A handle of three bytes, in range. -/
def readHandle : Reader Handle
  | b2 :: b1 :: b0 :: bs => (handleOf (wireHandle b2 b1 b0)).map fun h => (h, bs)
  | _ => none

/-- A leg of four bytes, every field in its coding. -/
def readLeg : Reader Leg
  | hw :: d :: t1 :: t0 :: bs =>
    match fin? 4 hw.toNat, dirOf d, fin? 512 (word16 t1 t0).toNat with
    | some hw, some d, some ts => some (⟨hw, ts, d⟩, bs)
    | _, _, _ => none
  | _ => none

/-- `n` legs. -/
def readLegs : Nat → Reader (List Leg)
  | 0, bs => some ([], bs)
  | n + 1, bs =>
    match readLeg bs with
    | none => none
    | some (g, bs) => (readLegs n bs).map fun (gs, bs) => (g :: gs, bs)

/-- A leg count of 1-4 with its legs (R27). -/
def readLegList : Reader (List Leg)
  | [] => none
  | n :: bs => if 1 ≤ n.toNat ∧ n.toNat ≤ 4 then readLegs n.toNat bs else none

/-- A 4-byte tag. -/
def readTag : Reader (BitVec 32)
  | b3 :: b2 :: b1 :: b0 :: bs => some (b3 ++ b2 ++ b1 ++ b0, bs)
  | _ => none

/-- A tag's four bytes. -/
def tagBytes (t : BitVec 32) : List Byte :=
  [t.extractLsb' 24 8, t.extractLsb' 16 8, t.extractLsb' 8 8, t.extractLsb' 0 8]

/-- Read a part only where it is present. -/
def readIf {α : Type} (present : Bool) (rd : Reader α) : Reader (Option α) := fun bs =>
  if present then (rd bs).map fun (x, bs) => (some x, bs) else some (none, bs)

/-! ### ESTABLISH (R27, R202) -/

/-- The fields of an ESTABLISH whose coding passes. -/
structure EstablishReq where
  cls : Cls
  slot : SlotId
  channel : Channel
  cost : Fin 256
  legs : List Leg
  partner : Option Handle
  tag : Option (BitVec 32)
  deriving DecidableEq, Repr

/-- The ESTABLISH body read by R202; none where the field range check refuses it BAD_FIELD, but for the channel limit. -/
def readEstablish : List Byte → Option EstablishReq
  | c :: s :: ch :: cost :: pres :: bs =>
    match clsOf c, fin? 24 s.toNat, fin? 128 ch.toNat with
    | some c, some s, some ch =>
      if pres.toNat < 4 then
        match readLegList bs with
        | none => none
        | some (legs, bs) =>
          match readIf (pres.getLsbD 0) readHandle bs with
          | none => none
          | some (partner, bs) =>
            match readIf (pres.getLsbD 1) readTag bs with
            | some (tag, []) => some ⟨c, s, ch, cost.toFin, legs, partner, tag⟩
            | _ => none
      else none
    | _, _, _ => none
  | _ => none

/-- An ESTABLISH body as R202 lays it out. -/
def EstablishReq.bytes (q : EstablishReq) : List Byte :=
  [q.cls.code, byteOf q.slot.val, byteOf q.channel.val, byteOf q.cost.val,
    (if q.partner.isSome then 1 else 0) + (if q.tag.isSome then 2 else 0), byteOf q.legs.length] ++
  legBytes q.legs ++ (q.partner.elim [] Handle.bytes) ++ (q.tag.elim [] tagBytes)

/-! ### MODIFY (R32, R201) -/

/-- The parts of a MODIFY whose coding passes; a part that clears is `some none`. -/
structure ModifyReq where
  handle : Handle
  legs : Option (List Leg)
  cost : Option (Fin 256)
  cls : Option Cls
  tag : Option (Option (BitVec 32))
  partner : Option (Option Handle)
  deriving DecidableEq, Repr

/-- A cost byte. -/
def readCost : Reader (Fin 256)
  | [] => none
  | b :: bs => some (b.toFin, bs)

/-- A class byte. -/
def readCls : Reader Cls
  | [] => none
  | b :: bs => (clsOf b).map fun c => (c, bs)

/-- The parts byte of R201 is legal: some part, bit 7 clear, no part both set and clear (R32). -/
def partsFit (parts : Byte) : Bool :=
  !decide (parts = 0) && !parts.getLsbD 7 && !(parts.getLsbD 3 && parts.getLsbD 4) &&
    !(parts.getLsbD 5 && parts.getLsbD 6)

/-- A set part with its value, a clear part, or an absent part. -/
def setOrClear {α : Type} (value : Option α) (clear : Bool) : Option (Option α) :=
  match value with
  | some x => some (some x)
  | none => if clear then some none else none

/-- The MODIFY body read by R201; none where the field range check of R32 refuses it BAD_FIELD. -/
def readModify (body : List Byte) : Option ModifyReq :=
  match readHandle body with
  | some (h, parts :: bs) =>
    if partsFit parts then
      match readIf (parts.getLsbD 0) readLegList bs with
      | none => none
      | some (legs, bs) =>
        match readIf (parts.getLsbD 1) readCost bs with
        | none => none
        | some (cost, bs) =>
          match readIf (parts.getLsbD 2) readCls bs with
          | none => none
          | some (cls, bs) =>
            match readIf (parts.getLsbD 3) readTag bs with
            | none => none
            | some (tag, bs) =>
              match readIf (parts.getLsbD 5) readHandle bs with
              | some (partner, []) =>
                some ⟨h, legs, cost, cls, setOrClear tag (parts.getLsbD 4), setOrClear partner (parts.getLsbD 6)⟩
              | _ => none
    else none
  | _ => none

/-- The two bits of a part that is absent, set or cleared. -/
def setClearBits {α : Type} (setBit clearBit : Byte) : Option (Option α) → Byte
  | none => 0
  | some (some _) => setBit
  | some none => clearBit

/-- The parts byte of a MODIFY (R201). -/
def ModifyReq.parts (q : ModifyReq) : Byte :=
  (if q.legs.isSome then 1 else 0) ||| (if q.cost.isSome then 2 else 0) ||| (if q.cls.isSome then 4 else 0) |||
    setClearBits 8 16 q.tag ||| setClearBits 32 64 q.partner

/-- A MODIFY body as R201 lays it out. -/
def ModifyReq.bytes (q : ModifyReq) : List Byte :=
  q.handle.bytes ++ [q.parts] ++ (q.legs.elim [] fun g => byteOf g.length :: legBytes g) ++
    (q.cost.elim [] fun c => [byteOf c.val]) ++ (q.cls.elim [] fun c => [c.code]) ++
    (q.tag.elim [] fun t => t.elim [] tagBytes) ++ (q.partner.elim [] fun h => h.elim [] Handle.bytes)

/-! ### The LOOKUP record (R202) -/

/-- R202, offset 8. -/
def Rec.flagByte (r : Rec) : Byte :=
  (if r.reload then 1 else 0) ||| (if r.retire then 2 else 0) ||| (if r.partner.isSome then 4 else 0) |||
    (if r.tag.isSome then 8 else 0)

/-- The record as LOOKUP returns it (R202). -/
def Rec.bytes (h : Handle) (r : Rec) : List Byte :=
  h.bytes ++
  [r.cls.code, byteOf r.slot.val, byteOf r.channel.val, byteOf r.cost.val, r.state.code, r.flagByte,
    reasonCode r.reason] ++
  (r.partner.elim [0, 0, 0] Handle.bytes) ++ (r.tag.elim [0, 0, 0, 0] tagBytes) ++
  [byteOf r.legs.length] ++ legBytes r.legs

/-! ### Bus frames and replies (R204) -/

/-- The exclusive-OR of bytes. -/
def checkByte (bs : List Byte) : Byte := bs.foldl (· ^^^ ·) 0

/-- The kind code of a frame (R204). -/
def Frame.code : Frame → Byte
  | .poll => 0x01
  | .align _ => 0x02
  | .load _ _ _ => 0x03
  | .drop _ => 0x04
  | .digest => 0x05
  | .clear => 0x06

/-- The body of a frame (R204). -/
def Frame.body : Frame → List Byte
  | .poll => []
  | .align ph => [byteOf ph.val]
  | .load h c legs => h.bytes ++ [byteOf c.val, byteOf legs.length] ++ legBytes legs
  | .drop h => h.bytes
  | .digest => []
  | .clear => []

/-- A kind, slot, length and body closed by the check byte (R204). -/
def busBytes (kind slot : Byte) (body : List Byte) : List Byte :=
  let bs := kind :: slot :: byteOf body.length :: body
  bs ++ [checkByte bs]

/-- A frame's bytes on the segment (R204). -/
def QFrame.bytes (q : QFrame) : List Byte := busBytes q.frame.code (byteOf q.slot.val) q.frame.body

/-- The result of a completion (R204). -/
inductive Result where
  | done
  | failed
  deriving DecidableEq, Repr

/-- The reason of a REFUSE (R204). -/
inductive RefuseReason where
  | channelRejected
  | legRejected
  | queueFull
  deriving DecidableEq, Repr

/-- The fields of a POLL_REPLY, each in its range (R85). -/
structure PollFields where
  phase : Phase
  bootCount : BitVec 8
  card : Card
  depth : Nat
  fatal : Bool
  completions : List (Handle × Result)
  deriving DecidableEq, Repr

/-- A well-formed reply of a card, each field in its range (R85, R204). -/
inductive Reply where
  | poll (fields : PollFields)
  | accept
  | refuse (reason : RefuseReason)
  | digest (count : Nat) (s1 : Nat) (s2 : Nat)
  deriving DecidableEq, Repr

/-- R204: 1 BOOT, 2 ALIGNED, 3 ALIGN_FAIL, 4 RUN. -/
def phaseOf (b : Byte) : Option Phase :=
  match b.toNat with
  | 1 => some .boot
  | 2 => some .aligned
  | 3 => some .alignFail
  | 4 => some .run
  | _ => none

/-- R204: 1 DONE, 2 FAILED. -/
def resultOf (b : Byte) : Option Result :=
  match b.toNat with
  | 1 => some .done
  | 2 => some .failed
  | _ => none

/-- R204: 1 CHANNEL_REJECTED, 2 LEG_REJECTED, 3 QUEUE_FULL. -/
def refuseReasonOf (b : Byte) : Option RefuseReason :=
  match b.toNat with
  | 1 => some .channelRejected
  | 2 => some .legRejected
  | 3 => some .queueFull
  | _ => none

/-- A completion, its handle and result in range. -/
def completionOf (c : WireCompletion) : Option (Handle × Result) :=
  match handleOf c.handle, resultOf c.result with
  | some h, some r => some (h, r)
  | _, _ => none

/-- Every completion of a list, each in range. -/
def completions? : List WireCompletion → Option (List (Handle × Result))
  | [] => some []
  | c :: cs =>
    match completionOf c, completions? cs with
    | some x, some xs => some (x :: xs)
    | _, _ => none

/-- The range checks of a POLL_REPLY but for its slot (R87, R204). -/
def pollFieldsOf (w : WirePoll) : Option PollFields :=
  if 1 ≤ w.depth.toNat ∧ w.depth.toNat ≤ 8 ∧ w.fatal.toNat ≤ 1 ∧ w.completions.length ≤ 4 then
    match phaseOf w.phase, fin? 16 w.cardType.toNat, completions? w.completions with
    | some ph, some ty, some cs =>
      some ⟨ph, w.bootCount, ⟨ty, w.serial⟩, w.depth.toNat, decide (w.fatal.toNat = 1), cs⟩
    | _, _, _ => none
  else none

/-- A reply with the slot that replies; none when malformed (R87). -/
abbrev SlotReply := Option (SlotId × Reply)

/-- A reply from a slot byte and its fields, if both are in range. -/
def slotReply (slot : Byte) (r : Option Reply) : SlotReply :=
  match fin? 24 slot.toNat, r with
  | some i, some r => some (i, r)
  | _, _ => none

/-- The POLL_REPLY command's reply. -/
def pollReplyOf (w : WirePoll) : SlotReply := slotReply w.slot ((pollFieldsOf w).map Reply.poll)

/-- The ACCEPT command's reply. -/
def acceptReply (slot : Byte) : SlotReply := slotReply slot (some .accept)

/-- The REFUSE command's reply. -/
def refuseReply (slot reason : Byte) : SlotReply := slotReply slot ((refuseReasonOf reason).map Reply.refuse)

/-- The DIGEST_REPLY command's reply; a count above 512 is out of range (R107, R204). -/
def digestReplyOf (slot : Byte) (count s1 s2 : Nat) : SlotReply :=
  slotReply slot (if count ≤ 512 then some (.digest count s1 s2) else none)

/-- Completions of four bytes each; none where bytes are left over. -/
def readCompletions : Nat → List Byte → Option (List WireCompletion)
  | 0, [] => some []
  | n + 1, b2 :: b1 :: b0 :: res :: bs =>
    (readCompletions n bs).map fun cs => ⟨wireHandle b2 b1 b0, res⟩ :: cs
  | _, _ => none

/-- The POLL_REPLY that a body spells; none where its length disagrees with its count (R204). -/
def readPoll (slot : Byte) : List Byte → Option WirePoll
  | ph :: bc :: ty :: s3 :: s2 :: s1 :: s0 :: depth :: fatal :: m :: bs =>
    (readCompletions m.toNat bs).map fun cs => ⟨slot, ph, bc, ty, s3 ++ s2 ++ s1 ++ s0, depth, fatal, cs⟩
  | _ => none

/-- What a reply's kind, slot and body spell; none when malformed (R87, R204). -/
def readReply (kind slot : Byte) (body : List Byte) : SlotReply :=
  match kind.toNat, body with
  | 0x81, body => (readPoll slot body).bind pollReplyOf
  | 0x82, [] => acceptReply slot
  | 0x83, [r] => refuseReply slot r
  | 0x84, [c1, c0, x2, x1, x0, y3, y2, y1, y0] =>
    digestReplyOf slot (numberOf [c1, c0]) (numberOf [x2, x1, x0]) (numberOf [y3, y2, y1, y0])
  | _, _ => none

/-- The reply that whole bytes spell, taken to the check byte its length gives; later bytes are not read (R204). None
when malformed. -/
def replyOfBytes : List Byte → SlotReply
  | kind :: slot :: len :: rest =>
    let body := rest.take len.toNat
    match rest.drop len.toNat with
    | check :: _ =>
      if check = checkByte (kind :: slot :: len :: body) then readReply kind slot body else none
    | [] => none
  | _ => none

/-- A POLL_REPLY's body bytes (R204). -/
def pollBody (w : WirePoll) : List Byte :=
  [w.phase, w.bootCount, w.cardType] ++ tagBytes w.serial ++ [w.depth, w.fatal, byteOf w.completions.length] ++
    w.completions.flatMap fun c => c.handle.bytes ++ [c.result]

/-- A POLL_REPLY's bytes on the segment (R204). -/
def pollBytes (w : WirePoll) : List Byte := busBytes 0x81 w.slot (pollBody w)

end Sys2Proof.Machine
end

