-- ==== Sys2Proof/Machine/Flags.lean ====
section
/-! DEFINITION. The flags the processors see: notices, slot-change sets, the link status byte, the ATTN level, the
response buffer and the protocol fault capture. -/

namespace Sys2Proof.Machine

/-! ### Notices (R191, R192) -/

/-- The bit of a notice kind (R201). -/
def Notice.bit : Notice → Nat
  | .coldStart => 0
  | .warmReset => 1
  | .supplySag => 2
  | .supplyOutage => 3
  | .supplyBack => 4
  | .recoveryDone => 5
  | .slotChange => 6
  | .recordRefused => 7
  | .budgetStall => 8
  | .ownerGained => 9
  | .ownerLost => 10
  | .busFault => 11
  | .supplySignal => 12

/-- The flag word with only this kind set. -/
def Notice.flag (n : Notice) : BitVec 13 := BitVec.twoPow 13 n.bit

/-- Raise a kind on a link: its pending flag becomes 1, whatever its mask bit (R191). -/
def LinkRec.raise (n : Notice) (x : LinkRec) : LinkRec := { x with pending := x.pending ||| n.flag }

/-- Raise a kind on one link (R191). -/
def Part.raiseOn (l : Link) (n : Notice) (p : Part) : Part := p.updLink l (LinkRec.raise n)

/-- Raise a kind on both links (R191). -/
def Part.raise (n : Notice) (p : Part) : Part := (p.raiseOn .a n).raiseOn .b n

/-- Add a slot to a link's slot-change set, with SLOT_CHANGE (R192). -/
def LinkRec.slotChanged (i : SlotId) (x : LinkRec) : LinkRec :=
  ({ x with changes := x.changes ||| BitVec.twoPow 24 i.val }).raise .slotChange

/-- The SLC reports a slot change to both links (R80, R192). -/
def Part.reportSlot (i : SlotId) (p : Part) : Part :=
  (p.updLink .a (LinkRec.slotChanged i)).updLink .b (LinkRec.slotChanged i)

/-- A notice kind is pending on a link. -/
def LinkRec.isPending (x : LinkRec) (n : Notice) : Bool := x.pending.getLsbD n.bit

/-! ### Status byte, ATTN, response buffer (R182, R184, R195, R201) -/

/-- The link status byte (R182, R201). -/
def Part.statusByte (p : Part) (l : Link) : Byte :=
  (if (p.link l).buffer.isSome then 0x80 else 0) ||| (if (p.link l).pending = 0 then 0 else 0x40) |||
    (match p.owner with
      | none => 0x00
      | some o => if o = l then 0x10 else 0x20) |||
    (if (p.link l).overrun then 0x08 else 0)

/-- The ATTN level of a link: a response waits, or an enabled kind is pending (R195). -/
def LinkRec.attn (x : LinkRec) : Bool := x.buffer.isSome || !decide (x.pending &&& x.mask = 0)

/-- What a transfer has clocked out so far: the status byte, taken from the link's state as the transfer opens, and in a read
the bytes after it (R182, R185). While it carries a request the part clocks out nothing that the manual names, and the model
records nothing (log 25). -/
def Part.opening (p : Part) (l : Link) : List Byte :=
  match (p.link l).transfer with
  | none => [p.statusByte l]
  | some _ => (p.link l).dataOut

/-- A transfer of these bytes on link `l`, from its opening or from where it stands open to the removal of select, where
`ends` is what its end does. A transfer that a reset has lost is not read, and ends as select is removed (R183, R198). Bytes
that cannot follow on those the open transfer has taken come by no sender, and change nothing (log 4). -/
def Part.transfer (l : Link) (bytes : List Byte) (ends : Part → Part) (p : Part) : Part :=
  if (p.link l).lost then p.updLink l fun x => { x with lost := false }
  else if goesOn ((p.link l).transfer.getD []) bytes then ends p
  else p

/-- The transfer that a command of a link ends, and what its end does. -/
def Part.sent (i : Instr) (ends : Part → Part) (p : Part) : Part :=
  match i.clocked with
  | none => p
  | some (l, bytes) => p.transfer l bytes ends

/-- A transfer ends as select is removed (R182). -/
def Part.ended (l : Link) (p : Part) : Part :=
  p.updLink l fun x => { x with transfer := none, dataOut := p.opening l }

/-- A request from link `l` that changed the part from `p` to `q` is answered with `r` in the change of its transfer's end: the
response stands in the link's buffer (R182, R183). -/
def Part.answer (l : Link) (r : Response) (p q : Part) : Part :=
  q.updLink l fun x => { x with buffer := some r, transfer := none, dataOut := p.opening l }

/-- A response that carries a refusal's status code alone (R186). -/
def refusal (st : Status) : Response := ⟨st, []⟩

/-- A response OK with its body. -/
def okay (body : List Byte) : Response := ⟨.ok, body⟩

/-! ### The protocol fault capture (R102) -/

/-- Offer a fault: it fills an empty capture and raises BUS_FAULT, or adds to the overflow count (R102). -/
def Part.offer (f : Captured) (p : Part) : Part :=
  match p.capture.fault with
  | none => ({ p with capture := { p.capture with fault := some f } }).raise .busFault
  | some _ => { p with capture := { p.capture with overflow := min Config.byteMax (p.capture.overflow + 1) } }

/-! ### Fault summaries (R68, R203) -/

/-- The bit of a fault kind in the summary byte (R203). -/
def FaultKind.bit : FaultKind → Nat
  | .spontaneousReboot => 0
  | .bootTimeout => 1
  | .alignFailed => 2
  | .missedLimit => 3
  | .completionTimeout => 4

/-- Add a kind to a slot's fault summary (R68). -/
def Slot.addFault (k : FaultKind) (x : Slot) : Slot := { x with faults := x.faults ||| BitVec.twoPow 5 k.bit }

end Sys2Proof.Machine
end

