-- ==== Sys2Proof/Machine/Budget.lean ====
section
/-! DEFINITION. The Feed Budget Unit (07_feed_budget.md): its figures, its tests, the budget tick and the stall timers. -/

namespace Sys2Proof.Machine

/-! ### Arithmetic -/

/-- `n / 2^k` rounded to nearest, an exact half to the even neighbour (00_scope.md, Rounding; R119, R146). -/
def roundEven (n : Int) (k : Nat) : Int :=
  let q := n / (2 ^ k : Nat)
  let twice := 2 * (n % (2 ^ k : Nat))
  if twice < (2 ^ k : Nat) then q
  else if ((2 ^ k : Nat) : Int) < twice then q + 1
  else if q % 2 = 0 then q else q + 1

/-- `x` clamped into `lo`-`hi`. -/
def clamp (lo hi x : Nat) : Nat := max lo (min hi x)

/-! ### Figures (R140, R147, R149) -/

/-- RAMP_START: floor(LIMIT x s / 16) (R140). -/
def BudgetCfg.rampStart (b : BudgetCfg) : Nat := b.limit * b.start / 16

/-- The step of a slew code in mA per tick; none for "to LIMIT" (R140). -/
def slewStep (code : Nat) : Option Nat :=
  match code with
  | 0 => some 1
  | 1 => some 2
  | 2 => some 5
  | 3 => some 10
  | 4 => some 20
  | 5 => some 50
  | 6 => some 100
  | 7 => some 200
  | 8 => some 500
  | 9 => some 1000
  | 10 => some 2000
  | _ => none

/-- The base draw a slot has in committed load: its profile's while the enable is driven (R147). -/
def Part.baseDraw (p : Part) (i : SlotId) : Nat :=
  if (p.slot i).enable then (p.profile (p.slot i)).base else 0

/-- The cost a record has in committed load (R4, R147). -/
def Rec.draw (r : Rec) : Nat := if r.state.counted then r.cost.val else 0

/-- The costs of the records in LOADING, LIVE and DROPPING (R147). -/
def Ctb.draw (t : Ctb) : Nat := (t.recs.map fun e => e.2.draw).sum

/-- Committed load (R147). -/
def Part.committed (p : Part) : Nat := (allSlots.map p.baseDraw).sum + p.ctb.draw

/-- The inrush total (R149). -/
def Part.inrushTotal (p : Part) : Nat := (allSlots.map fun i => (p.slot i).inrush).sum

/-- Demand (R149). -/
def Part.demand (p : Part) : Nat := p.committed + p.inrushTotal

/-- Headroom, never below 0 (R149). -/
def Part.headroom (p : Part) : Nat := p.fbu.ceiling - p.demand

/-- DEFICIT (R149). -/
def Part.deficit (p : Part) : Bool := decide (p.fbu.ceiling < p.demand)

/-- A slot's requirement: inrush allowance plus base draw of its profile (R152). -/
def Part.requirement (p : Part) (i : SlotId) : Nat :=
  (p.profile (p.slot i)).inrush + (p.profile (p.slot i)).base

/-- The head waiting slot: lowest rank, then lowest slot number (R57, R153). -/
def Part.headWaiting (p : Part) : Option SlotId :=
  (List.finRange 4).findSome? fun rank =>
    allSlots.find? fun i => (p.slot i).waiting && decide ((p.slot i).rank = rank)

/-- The bring-up reserve (R153). -/
def Part.reserve (p : Part) : Nat :=
  match p.headWaiting with
  | none => 0
  | some i => p.requirement i

/-! ### Admission tests -/

/-- The card-enable test (R152). -/
def Part.enableTest (p : Part) (i : SlotId) : Bool := decide (p.requirement i ≤ p.headroom)

/-- The load test (R154). -/
def Part.loadTest (p : Part) (r : Rec) : Bool :=
  match r.cls with
  | .c0 => decide (r.cost.val ≤ p.headroom)
  | .c1 | .c2 | .c3 => decide (r.cost.val ≤ p.headroom - p.reserve)

/-! ### Stall states (R156, R157) -/

/-- A block begins or continues: from CLEAR the timer starts, if the stall time is above 0. -/
def Stall.block (time : Nat) : Stall → Stall
  | .clear => if time = 0 then .clear else .timing time
  | .timing left => .timing left
  | .stalled => .stalled

/-- One ms passes on a running stall timer (log 2). -/
def Stall.age : Stall → Stall
  | .timing left => .timing (left - 1)
  | .clear => .clear
  | .stalled => .stalled

/-- The bring-up block ends at once when no slot is waiting (R156). -/
def Part.stallCheck (p : Part) : Part :=
  match p.headWaiting with
  | none => p.onFbu fun f => { f with bringUp := .clear }
  | some _ => p

/-! ### The recovery-complete test (R127) -/

/-- No slot is recovering (R80, R127). -/
def Part.noneRecovering (p : Part) : Bool := allSlots.all fun i => !(p.slot i).recovering

/-- R127: RECOVERY gives way to NORMAL when the ceiling equals LIMIT and no slot is recovering; not made during signal
loss. -/
def Part.recoveryTest (p : Part) : Part :=
  if p.spm.state = .recovery ∧ p.spm.lost = false ∧ p.fbu.ceiling = p.cfg.budget.limit ∧ p.noneRecovering = true then
    (p.onSpm fun m => { m with state := .normal, recoveryRunning := false }).raise .recoveryDone
  else p

/-! ### The budget tick (R144, R146, R128) -/

/-- The inrush charge after a tick, by the decay shift of the slot's profile (R146). -/
def decay (shift c : Nat) : Nat :=
  let dec := (roundEven c shift).toNat
  if dec = 0 then 0 else c - dec

/-- The ceiling after a tick in RECOVERY (R144). -/
def stepCeiling (b : BudgetCfg) (ceiling : Nat) : Nat :=
  match slewStep b.slew with
  | none => b.limit
  | some step => min b.limit (ceiling + step)

/-- One ms passes on a timer (log 2). -/
def Timer.age (t : Timer) : Timer := t.map (· - 1)

/-- One ms passes on every timer of a slot and on its in-flight deadlines (log 2). -/
def Slot.age (x : Slot) : Slot :=
  { x with
    bootTimer := Timer.age x.bootTimer
    alignTimer := Timer.age x.alignTimer
    offTimer := Timer.age x.offTimer
    stableTimer := Timer.age x.stableTimer
    pollTimer := Timer.age x.pollTimer
    inflight := x.inflight.map fun e => { e with deadline := e.deadline - 1 } }

/-- One ms passes on the settle timer while it runs (log 2); a held one keeps its time left (R117). -/
def SettleTimer.age : SettleTimer → SettleTimer
  | .running left => .running (left - 1)
  | .stopped => .stopped
  | .held left => .held left

/-- One ms passes on the monitor: its timers, and the recovery time while its timer runs (R128, log 2). -/
def Spm.age (m : Spm) : Spm :=
  { m with
    settle := m.settle.age
    signalTimer := Timer.age m.signalTimer
    recoveryTime := if m.recoveryRunning then min Config.recoveryTimeMax (m.recoveryTime + 1) else m.recoveryTime }

/-- One ms passes on every timer of the part (log 2). -/
def Part.age (p : Part) : Part :=
  ((p.mapSlots Slot.age).onSpm Spm.age).onFbu fun f => { f with bringUp := f.bringUp.age, load := f.load.age }

/-- Every inrush charge above 0 decays (R146). -/
def Part.decayAll (p : Part) : Part :=
  p.mapSlots fun x => if 0 < x.inrush then { x with inrush := decay (p.profile x).shift x.inrush } else x

/-- The ceiling steps in RECOVERY, and a change of it is told to the monitor (R144). -/
def Part.rampTick (p : Part) : Part :=
  if p.spm.state = .recovery then
    let c := stepCeiling p.cfg.budget p.fbu.ceiling
    if c = p.fbu.ceiling then p else (p.onFbu fun f => { f with ceiling := c }).recoveryTest
  else p

/-- BUDGET_TICK on the part. -/
def Part.budgetTick (p : Part) : Part := p.age.decayAll.rampTick

/-- BUDGET_TICK (R144): one ms passes, charges decay, and in RECOVERY the ceiling steps toward LIMIT. -/
def execBudgetTick (s : State) : Host.Outcome State Fault Refusal := .next (s.lift Part.budgetTick)

/-- BRING_UP_STALL_EXPIRY (R156, R158): TIMING gives STALLED and BUDGET_STALL. -/
def execBringUpStallExpiry (s : State) : Host.Outcome State Fault Refusal :=
  .next (s.lift fun p =>
    match p.fbu.bringUp with
    | .timing _ => (p.onFbu fun f => { f with bringUp := .stalled }).raise .budgetStall
    | .clear | .stalled => p)

/-- LOAD_STALL_EXPIRY (R157, R158): TIMING gives STALLED and BUDGET_STALL. -/
def execLoadStallExpiry (s : State) : Host.Outcome State Fault Refusal :=
  .next (s.lift fun p =>
    match p.fbu.load with
    | .timing _ => (p.onFbu fun f => { f with load := .stalled }).raise .budgetStall
    | .clear | .stalled => p)

end Sys2Proof.Machine
end

