-- ==== Sys2Proof/Machine/Bus.lean ====
section
/-! DEFINITION. The segment engines' shared operations (04_maintenance_bus_segments.md): transmit queues, the admission
arbiter, slot-engine frames, in-flight lists, poll intervals, and the entry of a slot into a state. -/

namespace Sys2Proof.Machine

/-! ### Frames -/

/-- ALIGN, DIGEST and CLEAR are slot-engine frames (R90). -/
def Frame.isEngine : Frame → Bool
  | .align _ | .digest | .clear => true
  | .poll | .load _ _ _ | .drop _ => false

/-- LOAD and DROP are in-flight work (R90). -/
def Frame.isWork : Frame → Bool
  | .load _ _ _ | .drop _ => true
  | .poll | .align _ | .digest | .clear => false

/-- The handle of a LOAD or DROP frame. -/
def Frame.handle? : Frame → Option Handle
  | .load h _ _ | .drop h => some h
  | .poll | .align _ | .digest | .clear => none

/-- Take a slot's frames of the selected kinds out of a segment: unsent ones leave the queue (R90), and an open exchange
of one is orphaned (R89). -/
def Segment.purge (i : SlotId) (sel : Frame → Bool) (g : Segment) : Segment :=
  { g with
    queue := g.queue.filter fun q => !(decide (q.slot = i) && sel q.frame)
    inProgress := g.inProgress.map fun e => if e.slot = i ∧ sel e.frame = true then { e with orphan := true } else e }

/-- Take a slot's frames of the selected kinds out of its segment. -/
def Part.purge (i : SlotId) (sel : Frame → Bool) (p : Part) : Part := p.updSeg (segOf i) (Segment.purge i sel)

/-- Put a frame at the tail of its segment's queue. -/
def Part.enqueue (i : SlotId) (f : Frame) (p : Part) : Part :=
  p.updSeg (segOf i) fun g => { g with queue := g.queue ++ [⟨i, f⟩] }

/-! ### Poll intervals (R93) -/

/-- The interval that applies to a slot, fast or slow, or none while the enable is withdrawn (R93). -/
inductive PollClass where
  | none
  | fast
  | slow
  deriving DecidableEq, Repr

/-- R93, the first table. -/
def Slot.pollClass (x : Slot) : PollClass :=
  match x.state with
  | .dark | .aligning | .auditing | .relinking => .fast
  | .linked => if x.inflight.isEmpty then .slow else .fast
  | .held | .mismatch => .slow
  | .empty | .off | .faulted => .none

/-- The interval in ms. -/
def BusCfg.interval (b : BusCfg) : PollClass → Option Nat
  | .fast => some b.fastPoll
  | .slow => some b.slowPoll
  | .none => .none

/-- Where the interval that applies has changed, a running poll timer above the new interval is cut to it (R93). The interval is
the one of the shelf bus settings as they stand, also where a BUS_SET has written them since the timer's start (log 27). -/
def Slot.recut (b : BusCfg) (before : PollClass) (x : Slot) : Slot :=
  if x.pollClass = before then x
  else
    match b.interval x.pollClass with
    | none => x
    | some n => { x with pollTimer := x.pollTimer.map fun t => min t n }

/-- Replace a slot's in-flight list; the poll interval follows (R93, R94). -/
def Part.setInflight (i : SlotId) (l : List Txn) (p : Part) : Part :=
  p.updSlot i fun x => ({ x with inflight := l }).recut p.cfg.bus x.pollClass

/-- The outstanding count (R94). -/
def Slot.outstanding (x : Slot) : Nat := x.inflight.length

/-! ### The admission arbiter (R91) -/

/-- The three producer categories, first served first (R91). -/
inductive Category where
  | engine
  | drop
  | poll
  deriving DecidableEq, Repr

/-- A slot is an eligible producer of a category (R91). -/
def Slot.eligible (x : Slot) : Category → Bool
  | .engine =>
    match x.engine with
    | some e => decide (e.place = .waiting)
    | none => false
  | .drop => !x.waitingDrops.isEmpty && decide (x.outstanding < x.window)
  | .poll => x.pollDue

/-- A category's pointer: the slot last granted. -/
def Segment.ptr (g : Segment) : Category → Option SlotId
  | .engine => g.enginePtr
  | .drop => g.dropPtr
  | .poll => g.pollPtr

/-- Set a category's pointer. -/
def Segment.setPtr (c : Category) (i : SlotId) (g : Segment) : Segment :=
  match c with
  | .engine => { g with enginePtr := some i }
  | .drop => { g with dropPtr := some i }
  | .poll => { g with pollPtr := some i }

/-- The slots of a segment in the order after a pointer, wrapping (R91). -/
def grantOrder (g : SegId) (ptr : Option SlotId) : List SlotId :=
  match ptr with
  | none => segSlots g
  | some q => (segSlots g).filter (fun i => decide (q < i)) ++ (segSlots g).filter fun i => decide (i ≤ q)

/-- The eligible slot the arbiter takes within a category (R91). -/
def Part.pick (p : Part) (g : SegId) (c : Category) : Option SlotId :=
  (grantOrder g ((p.seg g).ptr c)).find? fun i => (p.slot i).eligible c

/-- A slot's producer is granted a place: its frame enters the queue. A slot-engine frame is then queued (R92); a waiting
DROP leaves the waiting DROPs and gains an in-flight entry (R94, R95); a POLL due is cleared (R93). -/
def Part.grant (i : SlotId) (c : Category) (p : Part) : Part :=
  match c with
  | .engine =>
    match (p.slot i).engine with
    | none => p
    | some e =>
      (p.updSlot i fun x => { x with engine := some { e with place := .queued } }).enqueue i e.frame
  | .drop =>
    match (p.slot i).waitingDrops with
    | [] => p
    | h :: hs =>
      ((p.updSlot i fun x => { x with waitingDrops := hs }).setInflight i
        ((p.slot i).inflight ++ [⟨.drop, h, p.cfg.bus.completion, false⟩])).enqueue i (.drop h)
  | .poll => (p.updSlot i fun x => { x with pollDue := false }).enqueue i .poll

/-- One grant: the first category with an eligible producer; none when there is none (R91). -/
def Part.grantOne (p : Part) (g : SegId) : Option Part :=
  [Category.engine, .drop, .poll].findSome? fun c =>
    (p.pick g c).map fun i => (p.grant i c).updSeg g (Segment.setPtr c i)

/-- Grants follow at once while places are free and producers eligible; at most as many as the queue has places (R91). -/
def Part.grants (g : SegId) : Nat → Part → Part
  | 0, p => p
  | n + 1, p =>
    if (p.seg g).queue.length < Config.queueRoom then
      match p.grantOne g with
      | none => p
      | some p' => Part.grants g n p'
    else p

/-- The arbiter of one segment. -/
def Part.arbitrate (g : SegId) (p : Part) : Part := p.grants g Config.queueRoom

/-- What follows a change to slots, queues or in-flight lists in the same change: grants on both segments (R91), the end of
a bring-up block without a waiting slot (R156), and the recovery-complete test (R127). -/
def Part.follow (p : Part) : Part := ((p.arbitrate .l).arbitrate .r).stallCheck.recoveryTest

/-! ### Slot-engine frames (R92) -/

/-- Call for a slot-engine frame: it replaces one that is pending, starts with a try count of 0, and enters the queue at
once if a place is free (R92). -/
def Part.callEngine (i : SlotId) (f : Frame) (p : Part) : Part :=
  let p := p.updSeg (segOf i) fun g =>
    { g with queue := g.queue.filter fun q => !(decide (q.slot = i) && q.frame.isEngine) }
  (p.updSlot i fun x => { x with engine := some ⟨f, 0, .waiting⟩ }).arbitrate (segOf i)

/-! ### Entering a slot state -/

/-- The frames a slot's entry into a state takes out: all where the enable is withdrawn; slot-engine frames on leaving any
state; and all work but on the move from RELINKING to LINKED (R90, R94). -/
def SlotState.purges (st : SlotState) (f : Frame) : Bool :=
  match st with
  | .empty | .off | .faulted => true
  | .linked => f.isEngine
  | .dark | .aligning | .auditing | .relinking | .held | .mismatch => f.isEngine || f.isWork

/-- The slot record on entry to a state: the timers of the state it leaves stop, its slot-engine frame and audit context
end (R90, R92, R105), in-flight work and waiting DROPs end but on the move to LINKED (R55, R56, R76); entry to DARK makes last
reply absent and the missed count 0 (R49, R88); a withdrawn enable clears what R56, R49 and R93 name. -/
def Slot.into (st : SlotState) (x : Slot) : Slot :=
  { x with
    state := st
    bootTimer := none
    alignTimer := none
    offTimer := none
    stableTimer := none
    engine := none
    audit := none
    lastReply := if st.driven && !decide (st = .dark) then x.lastReply else none
    cardSeen := if st.driven then x.cardSeen else none
    missed := if st = .dark then 0 else x.missed
    inflight := if st = .linked then x.inflight else []
    waitingDrops := if st = .linked then x.waitingDrops else []
    pollTimer := if st.driven then x.pollTimer else none
    pollDue := st.driven && x.pollDue
    inrush := if st.driven then x.inrush else 0 }

/-- A slot change is reported on entry to LINKED, FAULTED, MISMATCH and EMPTY (R80). -/
def SlotState.reported : SlotState → Bool
  | .linked | .faulted | .mismatch | .empty => true
  | .off | .dark | .aligning | .auditing | .relinking | .held => false

/-- A slot enters a state, in one change with all that ends with the state it leaves. -/
def Part.enter (i : SlotId) (st : SlotState) (p : Part) : Part :=
  let p := (p.purge i st.purges).updSlot i fun x => (x.into st).recut p.cfg.bus x.pollClass
  if st.reported then p.reportSlot i else p

end Sys2Proof.Machine
end

