-- ==== Sys2Proof/Machine/Slots.lean ====
section
/-! DEFINITION. The Slot Controller's rules (03_slots_and_the_relink_sequence.md): treatments, classification, identity,
alignment, relinking, faults, presence and the slot timers; and the commands of presence lines and timers. -/

namespace Sys2Proof.Machine

/-! ### Treatments -/

/-- Apply a table of record changes to a slot's records. -/
def Part.treat (f : Fate) (i : SlotId) (p : Part) : Part := p.onCtb (Ctb.treat f i)

/-- The loss treatment and the entry to DARK, with the boot timer as given (R55, R69, R71). The entry abandons the in-flight
list and empties the waiting DROPs. -/
def Part.darken (i : SlotId) (boot : Timer) (p : Part) : Part :=
  ((p.treat lossFate i).enter i .dark).updSlot i fun x => { x with bootTimer := boot }

/-- The power-off treatment and the entry to a state with the enable withdrawn, cooling as given (R56). -/
def Part.powerOff (i : SlotId) (st : SlotState) (off : Timer) (p : Part) : Part :=
  ((p.treat powerOffFate i).enter i st).updSlot i fun x => { x with offTimer := off }

/-- Entry to FAULTED (R68). -/
def Part.fault (i : SlotId) (p : Part) : Part := p.powerOff i .faulted none

/-- The power-off treatment and OFF, cooling for the off time (R61, R79). -/
def Part.cool (i : SlotId) (p : Part) : Part := p.powerOff i .off (some p.cfg.bus.off)

/-! ### Attempts (R68) -/

/-- A slot counts an attempt, saturating at 15. -/
def Part.countAttempt (i : SlotId) (p : Part) : Part :=
  p.updSlot i fun x => { x with attempts := min Config.attemptsMax (x.attempts + 1) }

/-- The attempts stand at or above the attempt limit. -/
def Part.atLimit (p : Part) (i : SlotId) : Bool := decide (p.cfg.bus.attemptLimit ≤ (p.slot i).attempts)

/-- Add a fault kind, where the cause has one. -/
def Part.addFault (i : SlotId) (k : Option FaultKind) (p : Part) : Part :=
  match k with
  | none => p
  | some k => p.updSlot i (Slot.addFault k)

/-- A counted failure: the kind is added, the attempt counted, and the slot goes to FAULTED at the limit or on to what its
own rule gives below it (R68). -/
def Part.failed (i : SlotId) (k : Option FaultKind) (onward : Part → Part) (p : Part) : Part :=
  let p := (p.addFault i k).countAttempt i
  if p.atLimit i then p.fault i else onward p

/-- A card-lost event (R69). -/
def Part.cardLost (i : SlotId) (k : Option FaultKind) (p : Part) : Part :=
  match (p.slot i).state with
  | .aligning | .auditing | .relinking | .linked | .held | .mismatch =>
    p.failed i k fun p => p.darken i (some p.cfg.bus.boot)
  | .empty | .off | .dark | .faulted => p

/-- A card is power-cycled with an attempt: boot-timer expiry and a fatal reply (R61). -/
def Part.cycleFailed (i : SlotId) (k : Option FaultKind) (p : Part) : Part := p.failed i k (Part.cool i)

/-! ### Relinking (R53, R65) -/

/-- The effective window as it is computed (R53). -/
def Part.computeWindow (p : Part) (i : SlotId) : Nat :=
  let depth := match (p.slot i).cardSeen with
    | none => Config.absentDepth
    | some c => c.depth
  min p.cfg.bus.w (min (p.profile (p.slot i)).cap depth)

/-- Compute a slot's effective window anew (R53). -/
def Part.rewindow (i : SlotId) (p : Part) : Part :=
  let n := p.computeWindow i
  p.updSlot i fun x => { x with window := n }

/-- No record of the slot is PENDING or LOADING (R65). -/
def Ctb.allLoaded (t : Ctb) (i : SlotId) : Bool :=
  (t.onSlot i).all fun e => decide (e.2.state ≠ .pending ∧ e.2.state ≠ .loading)

/-- The test that takes a RELINKING slot to LINKED, made at every change of a record of the slot (R65). -/
def Part.linkedTest (i : SlotId) (p : Part) : Part :=
  if (p.slot i).state = .relinking ∧ p.ctb.allLoaded i = true then
    (p.enter i .linked).updSlot i fun x => { x with stableTimer := some Config.stableTime }
  else p

/-- Entry to RELINKING: SUSPENDED records become PENDING, the window is computed, and the slot goes on to LINKED when
nothing is to be loaded (R65). -/
def Part.enterRelinking (i : SlotId) (p : Part) : Part :=
  (((p.enter i .relinking).treat (moveFate .suspended .pending) i).rewindow i).linkedTest i

/-! ### Alignment, audit and holding: the entries that call for a slot-engine frame -/

/-- Call for ALIGN with the slot's phase offset and start the align timer (R63, log 12). -/
def Part.callAlign (i : SlotId) (p : Part) : Part :=
  (p.updSlot i fun x => { x with alignTimer := some p.cfg.bus.align }).callEngine i (.align (p.slot i).phase)

/-- Entry to ALIGNING (R63). -/
def Part.enterAligning (i : SlotId) (p : Part) : Part := (p.enter i .aligning).callAlign i

/-- Entry to AUDITING: the audit context in step DIGESTING, and DIGEST called for (R64, R106). -/
def Part.enterAuditing (i : SlotId) (p : Part) : Part :=
  ((p.enter i .auditing).updSlot i fun x => { x with audit := some .digesting }).callEngine i .digest

/-- Entry to HELD with a CLEAR (R60, R66, R76). -/
def Part.enterHeldClearing (i : SlotId) (p : Part) : Part := (p.enter i .held).callEngine i .clear

/-- ALIGN_FAIL or align timer expiry in ALIGNING (R63). -/
def Part.alignFailed (i : SlotId) (p : Part) : Part := p.failed i (some .alignFailed) (Part.callAlign i)

/-! ### Identity (R62) -/

/-- A card becomes the slot's identity (R62, R77). -/
def Part.setIdentity (i : SlotId) (c : Card) (p : Part) : Part := p.updSlot i fun x => { x with identity := some c }

/-- The identity check on card seen (R62). Without a card seen, which no path reaches, nothing changes (log 22). -/
def Part.identityCheck (i : SlotId) (p : Part) : Part :=
  match (p.slot i).cardSeen with
  | none => p
  | some seen =>
    match (p.slot i).identity with
    | none =>
      if p.ctb.fitsChannels i (p.cfg.profiles[seen.card.type]).channels then
        (p.setIdentity i seen.card).enterAligning i
      else p.enter i .mismatch
    | some c => if c = seen.card then p.enterAligning i else p.enter i .mismatch

/-- Record a boot count (R49, R60, R70). -/
def Part.recordBoot (i : SlotId) (n : BitVec 8) (p : Part) : Part := p.updSlot i fun x => { x with bootCount := n }

/-! ### DARK classification (R60) -/

/-- The last reply shows no reboot (R60). -/
def Slot.noReboot (x : Slot) (r : LastReply) : Bool :=
  decide (r.phase = .run ∨ r.phase = .aligned) && decide (r.bootCount = x.bootCount) &&
    x.identity.isSome && decide (x.cardSeen.map CardSeen.card = x.identity)

/-- A DARK slot is classified from its last reply; without one it is not (R60). -/
def Part.classify (i : SlotId) (p : Part) : Part :=
  match (p.slot i).lastReply with
  | none => p
  | some r =>
    if (p.slot i).noReboot r then
      if (p.slot i).hold then (p.treat (moveFate .live .suspended) i).enterHeldClearing i
      else p.enterAuditing i
    else
      (((p.updSlot i fun x => { x with bootTimer := none }).treat (moveFate .live .suspended) i).recordBoot i
        r.bootCount).identityCheck i

/-! ### Good poll replies (R49, R61, R63, R67, R70, R114) -/

/-- A good reply is entered in the slot record (R49). -/
def Slot.enterReply (f : PollFields) (x : Slot) : Slot :=
  if x.enable then
    { x with
      cardSeen := some ⟨f.card, f.depth⟩
      lastReply := if x.state = .dark then some ⟨f.phase, f.bootCount⟩ else x.lastReply }
  else x

/-- The reply shows a reboot seen in operation (R70); phase ALIGN_FAIL is not a reboot (log 11). -/
def Slot.rebooted (f : PollFields) (x : Slot) : Bool :=
  decide (f.phase = .boot ∨ f.bootCount ≠ x.bootCount ∨ some f.card ≠ x.identity)

/-- Reboot seen in operation (R70). The loss treatment's abandonment comes with the entry the identity check makes; its
record changes and the suspension of LIVE records come first. At the attempt limit the reply's boot count is not recorded: the
slot goes to FAULTED in place of all that R70 gives below the limit (log 26). -/
def Part.rebootSeen (i : SlotId) (n : BitVec 8) (p : Part) : Part :=
  p.failed i (some .spontaneousReboot) fun p =>
    (((p.treat lossFate i).treat (moveFate .live .suspended) i).recordBoot i n).identityCheck i

/-- The ALIGN that the slot waits on has been sent: none is pending with no try made (R63, log 10). -/
def Slot.alignSent (x : Slot) : Bool :=
  match x.engine with
  | some e => decide (e.tries ≠ 0)
  | none => true

/-- The reply to a POLL of this exchange number shows the outcome of the latest ALIGN (R63, R93, log 10). -/
def Slot.alignCounts (x : Slot) (number : Nat) : Bool :=
  (match x.alignMark with
    | none => false
    | some m => decide (m < number)) && x.alignSent

/-- A poll reply in ALIGNING (R63). -/
def Part.alignOutcome (i : SlotId) (f : PollFields) (number : Nat) (p : Part) : Part :=
  if (p.slot i).alignCounts number then
    match f.phase with
    | .aligned => if (p.slot i).hold then p.enter i .held else p.enterRelinking i
    | .alignFail => p.alignFailed i
    | .boot | .run => p
  else p

/-- A good poll reply without fatal flag, entered in the record, is acted on by the slot's state (R97 step 4). -/
def Part.actOnReply (i : SlotId) (f : PollFields) (number : Nat) (p : Part) : Part :=
  match (p.slot i).state with
  | .dark => if p.spm.state.up then p.classify i else p
  | .aligning => p.alignOutcome i f number
  | .auditing | .relinking | .linked | .held =>
    if f.phase = .alignFail then p.cardLost i (some .alignFailed)
    else if (p.slot i).rebooted f then p.rebootSeen i f.bootCount
    else p
  | .mismatch => if f.phase = .boot ∨ f.bootCount ≠ (p.slot i).bootCount then p.recordBoot i f.bootCount else p
  | .empty | .off | .faulted => p

/-- A fatal reply power-cycles the card, but in DARK only once the supply is RECOVERY or NORMAL (R61). -/
def Part.fatalReply (i : SlotId) (p : Part) : Part :=
  if (p.slot i).enable = true ∧ ((p.slot i).state = .dark → p.spm.state.up = true) then p.cycleFailed i none else p

/-- A poll reply handed to the Slot Controller as good (R49, R97 step 4). -/
def Part.takeGoodPoll (i : SlotId) (f : PollFields) (number : Nat) (p : Part) : Part :=
  let p := p.updSlot i (Slot.enterReply f)
  if f.fatal then p.fatalReply i else p.actOnReply i f number

/-! ### Presence (R54) -/

/-- A presence line goes to seated. -/
def Part.insert (i : SlotId) (p : Part) : Part :=
  let p := p.updSlot i fun x => { x with seated := true }
  if (p.slot i).state = .empty then
    (((p.enter i .off).updSlot i fun x => { x with attempts := 0 }).reportSlot i).follow
  else p

/-- A presence line drops. -/
def Part.remove (i : SlotId) (p : Part) : Part :=
  let p := p.updSlot i fun x => { x with seated := false }
  if (p.slot i).state = .empty then p
  else if (p.slot i).enable then (p.powerOff i .empty none).follow
  else (p.enter i .empty).follow

/-- INSERTION (R54). -/
def execInsertion (i : SlotId) (s : State) : Host.Outcome State Fault Refusal := .next (s.lift (Part.insert i))

/-- REMOVAL (R54). -/
def execRemoval (i : SlotId) (s : State) : Host.Outcome State Fault Refusal := .next (s.lift (Part.remove i))

/-! ### Slot timers -/

/-- Boot timer expiry (R61). A timer that is stopped does not expire. -/
def Part.bootExpiry (i : SlotId) (p : Part) : Part :=
  if (p.slot i).bootTimer.isSome = true ∧ (p.slot i).state = .dark then
    (p.cycleFailed i (some .bootTimeout)).follow
  else p

/-- BOOT_TIMER_EXPIRY (R61). -/
def execBootTimerExpiry (i : SlotId) (s : State) : Host.Outcome State Fault Refusal := .next (s.lift (Part.bootExpiry i))

/-- Align timer expiry, taken as ALIGN_FAIL (R63). -/
def Part.alignExpiry (i : SlotId) (p : Part) : Part :=
  if (p.slot i).alignTimer.isSome = true ∧ (p.slot i).state = .aligning then (p.alignFailed i).follow else p

/-- ALIGN_TIMER_EXPIRY (R63). -/
def execAlignTimerExpiry (i : SlotId) (s : State) : Host.Outcome State Fault Refusal := .next (s.lift (Part.alignExpiry i))

/-- Off timer expiry: the slot stops cooling (R61). -/
def Part.offExpiry (i : SlotId) (p : Part) : Part :=
  if (p.slot i).offTimer.isSome then p.updSlot i fun x => { x with offTimer := none } else p

/-- OFF_TIMER_EXPIRY (R61). -/
def execOffTimerExpiry (i : SlotId) (s : State) : Host.Outcome State Fault Refusal := .next (s.lift (Part.offExpiry i))

/-- Stable timer expiry: the attempts become 0 (R65). -/
def Part.stableExpiry (i : SlotId) (p : Part) : Part :=
  if (p.slot i).stableTimer.isSome = true ∧ (p.slot i).state = .linked then
    p.updSlot i fun x => { x with stableTimer := none, attempts := 0 }
  else p

/-- STABLE_TIMER_EXPIRY (R65). -/
def execStableTimerExpiry (i : SlotId) (s : State) : Host.Outcome State Fault Refusal :=
  .next (s.lift (Part.stableExpiry i))

/-- Poll timer expiry: the POLL is due, and enters the queue at once if a place is free (R93). -/
def Part.pollExpiry (i : SlotId) (p : Part) : Part :=
  if (p.slot i).pollTimer.isSome then
    (p.updSlot i fun x => { x with pollTimer := none, pollDue := true }).arbitrate (segOf i)
  else p

/-- POLL_TIMER_EXPIRY (R93). -/
def execPollTimerExpiry (i : SlotId) (s : State) : Host.Outcome State Fault Refusal := .next (s.lift (Part.pollExpiry i))

/-- An in-flight entry's deadline expires while the entry stands (R101). -/
def Part.deadlineExpiry (i : SlotId) (h : Handle) (p : Part) : Part :=
  if (p.slot i).inflight.any fun e => decide (e.handle = h) then
    (p.cardLost i (some .completionTimeout)).follow
  else p

/-- COMPLETION_TIMEOUT (R101). -/
def execCompletionTimeout (i : SlotId) (index : Index) (gen : Gen) (s : State) : Host.Outcome State Fault Refusal :=
  .next (s.lift (Part.deadlineExpiry i ⟨index, gen⟩))

/-! ### Bring-up (R57, R58) -/

/-- A slot is enabled, in one change (R58, R93, R145). -/
def Part.enable (i : SlotId) (p : Part) : Part :=
  let prof := p.profile (p.slot i)
  (p.enter i .dark).updSlot i fun x =>
    { x with
      inrush := prof.inrush
      cardSeen := none
      bootTimer := some p.cfg.bus.boot
      pollDue := true
      pollTimer := none }

/-- The trial of a slot passes: it is enabled, and the bring-up block ends (R57, R156). -/
def Part.bringUp (i : SlotId) (p : Part) : Part := ((p.enable i).onFbu fun f => { f with bringUp := .clear }).follow

/-- Trials of the head waiting slot, at most `n` passes of them: a pass enables the head, and a further trial follows at once for
the new head; a fail begins or continues the bring-up block and ends them; without a waiting slot they end quietly (R57, R152,
R156). -/
def Part.trials : Nat → Part → Part
  | 0, p => p
  | n + 1, p =>
    match p.headWaiting with
    | none => p
    | some i =>
      if p.enableTest i then Part.trials n (p.bringUp i)
      else p.onFbu fun f => { f with bringUp := f.bringUp.block p.cfg.budget.stall }

/-- How many slots wait for bring-up. -/
def Part.waitingCount (p : Part) : Nat := (allSlots.filter fun i => (p.slot i).waiting).length

/-- A bring-up trial, with the trials that follow it at once: as many as slots wait, since each pass enables one (R57). Stopped in
SAG, OUTAGE and SETTLING. -/
def Part.trial (p : Part) : Part := if p.spm.state.up then p.trials p.waitingCount else p

/-- BRING_UP_TRIAL (R57). -/
def execBringUpTrial (s : State) : Host.Outcome State Fault Refusal := .next (s.lift Part.trial)

end Sys2Proof.Machine
end

