-- ==== Sys2Proof/Machine/Audit.lean ====
section
/-! DEFINITION. The Digest Unit (05_card_audit.md): binding codes, the expected digest, and the outcomes of an audit. -/

namespace Sys2Proof.Machine

/-- The direction's digit in a binding code (R107). -/
def Dir.digit : Dir → Nat
  | .tx => 1
  | .rx => 2
  | .both => 3

/-- The binding code of a leg of a channel (R107). -/
def bindingCode (c : Channel) (g : Leg) : Nat :=
  c.val * 8192 + g.highway.val * 2048 + g.timeslot.val * 4 + g.dir.digit

/-- The codes of the expected set: every leg of the slot's LIVE records (R108). -/
def Ctb.expectedCodes (t : Ctb) (i : SlotId) : List Nat :=
  ((t.onSlot i).filter fun e => decide (e.2.state = .live)).flatMap fun e => e.2.legs.map (bindingCode e.2.channel)

/-- A digest: count, S1 and S2 (R107). -/
structure Digest where
  count : Nat
  s1 : Nat
  s2 : Nat
  deriving DecidableEq, Repr

/-- The digest of a set of codes, formed exactly and then reduced (R107, R108). -/
def digestOf (codes : List Nat) : Digest :=
  ⟨codes.length, codes.sum % 2 ^ 24, (codes.map fun c => c * c).sum % 2 ^ 32⟩

/-- The expected digest of a slot (R108). -/
def Ctb.expectedDigest (t : Ctb) (i : SlotId) : Digest := digestOf (t.expectedCodes i)

/-- The audit matches: the slot goes to RELINKING with its LIVE records confirmed (R109). -/
def Part.auditMatch (i : SlotId) (p : Part) : Part := p.enterRelinking i

/-- The audit mismatches: step CLEARING, and CLEAR is called for (R110). -/
def Part.auditMismatch (i : SlotId) (p : Part) : Part :=
  (p.updSlot i fun x => { x with audit := some .clearing }).callEngine i .clear

/-- A good DIGEST_REPLY in step DIGESTING is compared with the expected digest (R108, R109, R110). -/
def Part.takeDigest (i : SlotId) (d : Digest) (p : Part) : Part :=
  if (p.slot i).state = .auditing ∧ (p.slot i).audit = some .digesting then
    if d = p.ctb.expectedDigest i then p.auditMatch i else p.auditMismatch i
  else p

/-- A good ACCEPT of the audit's CLEAR: LIVE records become PENDING and the slot goes to RELINKING (R110). -/
def Part.auditCleared (i : SlotId) (p : Part) : Part :=
  if (p.slot i).state = .auditing ∧ (p.slot i).audit = some .clearing then
    (p.treat (moveFate .live .pending) i).enterRelinking i
  else p

end Sys2Proof.Machine
end

