-- ==== Sys2Proof/Machine/Exchange.lean ====
section
/-! DEFINITION. Exchanges of the segments (04_maintenance_bus_segments.md): opening, the judgement of replies, missed
replies, completions and refusals; and the commands of the bus. -/

namespace Sys2Proof.Machine

/-! ### Opening (R86) -/

/-- The in-flight entry of a LOAD or DROP frame is marked sent, and a slot-engine frame is in its exchange (R86, R92). -/
def Slot.frameSent (f : Frame) (x : Slot) : Slot :=
  match f with
  | .load h _ _ | .drop h =>
    { x with inflight := x.inflight.map fun e => if e.handle = h then { e with sent := true } else e }
  | .align _ | .digest | .clear => { x with engine := x.engine.map fun e => { e with place := .inExchange } }
  | .poll => x

/-- An idle segment with a frame queued opens the exchange of the head frame, which leaves the queue and is driven onto the
pair; the freed place goes to the arbiter (R86, R91). -/
def Part.openExchange (g : SegId) (p : Part) : Part :=
  match (p.seg g).inProgress, (p.seg g).queue with
  | none, q :: qs =>
    (((p.updSeg g fun x =>
      { x with
        queue := qs
        inProgress := some ⟨q.slot, q.frame, false, x.exchanges + 1⟩
        sent := q.bytes
        exchanges := x.exchanges + 1 }).updSlot q.slot (Slot.frameSent q.frame))).arbitrate g
  | _, _ => p

/-- EXCHANGE_OPEN (R86). -/
def execExchangeOpen (g : SegId) (s : State) : Host.Outcome State Fault Refusal := .next (s.lift (Part.openExchange g))

/-! ### Ends of an exchange -/

/-- The slot's latest ALIGN mark is set when an ALIGN exchange ends, whatever the reply (R86). -/
def Slot.markAlign (e : Exchange) (x : Slot) : Slot :=
  match e.frame with
  | .align _ => { x with alignMark := some e.number }
  | .poll | .load _ _ _ | .drop _ | .digest | .clear => x

/-- At the end of a POLL's exchange the poll timer starts at the interval that then applies (R93, log 14, log 15). -/
def Part.restartPoll (e : Exchange) (p : Part) : Part :=
  match e.frame with
  | .poll => p.updSlot e.slot fun x => { x with pollTimer := p.cfg.bus.interval x.pollClass }
  | .align _ | .load _ _ _ | .drop _ | .digest | .clear => p

/-- The exchange ends and the segment is idle: `handle` is what its end does, unless the exchange is orphaned (R86, R89). -/
def Part.endExchange (g : SegId) (e : Exchange) (handle : Part → Part) (p : Part) : Part :=
  let p := (p.updSeg g fun x => { x with inProgress := none }).updSlot e.slot (Slot.markAlign e)
  if e.orphan then p else ((handle p).restartPoll e).follow

/-- The end of a segment's open exchange; an idle segment has none to end. -/
def Part.withExchange (g : SegId) (handle : Exchange → Part → Part) (p : Part) : Part :=
  match (p.seg g).inProgress with
  | none => p
  | some e => p.endExchange g e (handle e)

/-! ### Missed replies (R88, R92) -/

/-- Missed replies are counted when the slot is not DARK and the supply is not SAG, OUTAGE or SETTLING (R88). -/
def Part.missCounts (p : Part) (i : SlotId) : Bool := decide ((p.slot i).state ≠ .dark) && p.spm.state.up

/-- The missed count goes up, and at the limit the card is lost (R88). -/
def Part.countMiss (i : SlotId) (p : Part) : Part :=
  if p.missCounts i then
    let p := p.updSlot i fun x => { x with missed := min Config.missedMax (x.missed + 1) }
    if p.cfg.bus.missedLimit ≤ (p.slot i).missed then p.cardLost i (some .missedLimit) else p
  else p

/-- The slot-engine frame in its exchange draws no good reply: its try count goes up; at the limit the card is lost, below
it the frame is pending again (R92). -/
def Part.retryEngine (i : SlotId) (p : Part) : Part :=
  match (p.slot i).engine with
  | none => p
  | some e =>
    if e.place = .inExchange then
      let tries := min Config.missedMax (e.tries + 1)
      let p := p.updSlot i fun x => { x with engine := some { e with tries := tries, place := .waiting } }
      if p.cfg.bus.missedLimit ≤ tries then p.cardLost i (some .missedLimit) else p
    else p

/-- A missed reply (R88), with the retry of a slot-engine frame (R92). LOAD and DROP entries stand as they are (R94). -/
def Part.missedReply (e : Exchange) (p : Part) : Part :=
  let p := p.countMiss e.slot
  if e.frame.isEngine then p.retryEngine e.slot else p

/-- REPLY_WINDOW_CLOSE on the part. -/
def Part.windowClose (g : SegId) (p : Part) : Part := p.withExchange g Part.missedReply

/-- REPLY_WINDOW_CLOSE (R86). -/
def execReplyWindowClose (g : SegId) (s : State) : Host.Outcome State Fault Refusal := .next (s.lift (Part.windowClose g))

/-! ### Completions (R98, R99, R100) -/

/-- A LOAD completion on its record; a FREE outcome is none (R99). -/
def loadOutcome (res : Result) (r : Rec) : Option Rec :=
  match res with
  | .done => some (if r.retire then r.to .dropping else if r.reload then r.to .pending else r.to .live)
  | .failed => if r.retire then none else some (if r.reload then r.to .pending else r.refuse .loadFailed)

/-- A LOAD completion matched to its entry (R99). -/
def Part.loadCompleted (i : SlotId) (h : Handle) (res : Result) (p : Part) : Part :=
  match p.ctb.named h with
  | none => p
  | some r =>
    match loadOutcome res r with
    | none => p.onCtb (Ctb.free h.index)
    | some r' =>
      let p := p.onCtb (Ctb.put h.index r')
      match r'.state with
      | .dropping => p.updSlot i fun x => { x with waitingDrops := x.waitingDrops ++ [h] }
      | .refused => p.raise .recordRefused
      | .suspended | .pending | .loading | .live => p

/-- One completion of a poll reply: matched to a sent entry and carried out whole, or a stray offered to the capture (R98,
R99, R100). What it makes possible follows at once (R65, R91, R97), the recovery-complete test with it: a slot that reaches
LINKED here ceases to be recovering here, though a later step of the same reply takes it out of LINKED (R127, log 8). -/
def Part.completion (i : SlotId) (c : Handle × Result) (p : Part) : Part :=
  match (p.slot i).inflight.find? fun e => decide (e.handle = c.1) && e.sent with
  | none => p.offer ⟨.strayCompletion, i, some c.1⟩
  | some e =>
    let p := p.setInflight i ((p.slot i).inflight.filter fun e => !(decide (e.handle = c.1)))
    let p :=
      match e.kind with
      | .load => p.loadCompleted i c.1 c.2
      | .drop => p.onCtb (Ctb.free c.1.index)
    (p.linkedTest i).follow

/-- The completion is matched to a DROP and FAILED: the slot will be lost (R100). -/
def Part.failsDrop (p : Part) (i : SlotId) (c : Handle × Result) : Bool :=
  decide (c.2 = .failed) &&
    (p.slot i).inflight.any fun e => decide (e.handle = c.1) && e.sent && decide (e.kind = .drop)

/-- The completions of a reply in their order, and whether a DROP among them FAILED (R97 steps 2 and 3). -/
def Part.completions (i : SlotId) : List (Handle × Result) → Part → Part × Bool
  | [], p => (p, false)
  | c :: cs, p =>
    let failed := p.failsDrop i c
    let (p, rest) := Part.completions i cs (p.completion i c)
    (p, failed || rest)

/-- A good POLL_REPLY (R97). -/
def Part.takePoll (i : SlotId) (f : PollFields) (number : Nat) (p : Part) : Part :=
  let (p, lost) := Part.completions i f.completions p
  if lost then p.cardLost i none else p.takeGoodPoll i f number

/-! ### Refusals (R96) -/

/-- The effective window after a QUEUE_FULL: the outstanding count after the entry's removal, or 1 (R96). -/
def Slot.lowerWindow (x : Slot) : Slot := { x with window := if x.outstanding = 0 then 1 else x.outstanding }

/-- The entry of a handle is removed from the slot's in-flight list (R94). -/
def Part.removeEntry (i : SlotId) (h : Handle) (p : Part) : Part :=
  p.setInflight i ((p.slot i).inflight.filter fun e => !decide (e.handle = h))

/-- A good REFUSE of a LOAD (R96). -/
def Part.refuseLoad (i : SlotId) (h : Handle) (why : RefuseReason) (p : Part) : Part :=
  let p := p.removeEntry i h
  let p :=
    match why with
    | .queueFull => (p.onCtb (Ctb.upd h.index (Rec.to .pending))).updSlot i Slot.lowerWindow
    | .channelRejected => (p.onCtb (Ctb.upd h.index (Rec.refuse .channelRejected))).raise .recordRefused
    | .legRejected => (p.onCtb (Ctb.upd h.index (Rec.refuse .legRejected))).raise .recordRefused
  p.linkedTest i

/-- A good REFUSE of a DROP, QUEUE_FULL: the handle returns to the head of the waiting DROPs (R96). -/
def Part.refuseDrop (i : SlotId) (h : Handle) (p : Part) : Part :=
  (p.removeEntry i h).updSlot i fun x => ({ x with waitingDrops := h :: x.waitingDrops }).lowerWindow

/-! ### Judgement (R87) -/

/-- The reply is of a kind the frame expects (R84, R96). -/
def expects (f : Frame) (r : Reply) : Bool :=
  match f, r with
  | .poll, .poll _ => true
  | .align _, .accept => true
  | .load _ _ _, .accept => true
  | .load _ _ _, .refuse _ => true
  | .drop _, .accept => true
  | .drop _, .refuse why => decide (why = .queueFull)
  | .digest, .digest _ _ _ => true
  | .clear, .accept => true
  | _, _ => false

/-- The judgement of a reply: bad of a capture kind, or good (R87). -/
def judge (e : Exchange) (r : SlotReply) : Except CaptureKind Reply :=
  match r with
  | none => .error .malformedReply
  | some (i, r) =>
    if i ≠ e.slot then .error .wrongSlot
    else if expects e.frame r then .ok r
    else .error .unexpectedReply

/-- A bad reply: offered to the capture, and a missed reply (R87, R88). -/
def Part.badReply (k : CaptureKind) (e : Exchange) (p : Part) : Part :=
  (p.offer ⟨k, e.slot, none⟩).missedReply e

/-- The pending slot-engine frame of this exchange is no longer pending (R92). -/
def Slot.engineDone (x : Slot) : Slot :=
  match x.engine with
  | some e => if e.place = .inExchange then { x with engine := none } else x
  | none => x

/-- The card's good reply sets the missed count to 0 (R88). -/
def Slot.heard (x : Slot) : Slot := { x with missed := 0 }

/-- A good reply, as the frame kind calls for (R87, R91, R92, R94). -/
def Part.goodReply (e : Exchange) (r : Reply) (p : Part) : Part :=
  let p := p.updSlot e.slot Slot.heard
  match e.frame, r with
  | .poll, .poll f => p.takePoll e.slot f e.number
  | .align _, .accept => p.updSlot e.slot Slot.engineDone
  | .clear, .accept => (p.updSlot e.slot Slot.engineDone).auditCleared e.slot
  | .digest, .digest n s1 s2 => (p.updSlot e.slot Slot.engineDone).takeDigest e.slot ⟨n, s1, s2⟩
  | .load h _ _, .refuse why => p.refuseLoad e.slot h why
  | .drop h, .refuse _ => p.refuseDrop e.slot h
  | _, _ => p

/-- A reply is taken in the open exchange: judged, and handed on or counted missed (R86, R87). -/
def Part.takeReply (g : SegId) (r : SlotReply) (p : Part) : Part :=
  p.withExchange g fun e p =>
    match judge e r with
    | .error k => p.badReply k e
    | .ok r => p.goodReply e r

/-- REPLY_BREAK_OFF (R86): the reply is judged malformed. -/
def execReplyBreakOff (g : SegId) (s : State) : Host.Outcome State Fault Refusal :=
  .next (s.lift (Part.takeReply g none))

/-- POLL_REPLY (R97). -/
def execPollReply (g : SegId) (w : WirePoll) (s : State) : Host.Outcome State Fault Refusal :=
  .next (s.lift (Part.takeReply g (pollReplyOf w)))

/-- ACCEPT (R92). -/
def execAccept (g : SegId) (slot : Byte) (s : State) : Host.Outcome State Fault Refusal :=
  .next (s.lift (Part.takeReply g (acceptReply slot)))

/-- REFUSE (R96). -/
def execRefuse (g : SegId) (slot reason : Byte) (s : State) : Host.Outcome State Fault Refusal :=
  .next (s.lift (Part.takeReply g (refuseReply slot reason)))

/-- DIGEST_REPLY (R108). -/
def execDigestReply (g : SegId) (slot : Byte) (count : BitVec 16) (s1 : BitVec 24) (s2 : BitVec 32) (s : State) :
    Host.Outcome State Fault Refusal :=
  .next (s.lift (Part.takeReply g (digestReplyOf slot count.toNat s1.toNat s2.toNat)))

/-- MALFORMED_OR_UNEXPECTED_REPLY (R87): the bytes of a whole reply, judged as they stand. -/
def execMalformedOrUnexpectedReply (g : SegId) (bytes : List Byte) (s : State) : Host.Outcome State Fault Refusal :=
  .next (s.lift (Part.takeReply g (replyOfBytes bytes)))

end Sys2Proof.Machine
end

