-- ==== Sys2Proof/Machine/SupplyMonitor.lean ====
section
/-! DEFINITION. The Supply Monitor (06_supply_monitor_and_brownout_episodes.md): filter, counters, state rules, and what
each transition tells the other blocks. -/

namespace Sys2Proof.Machine

/-! ### Filter and counters -/

/-- The average after a sample: loaded by the first, moved by the rounded step by a later one (R118, R119). -/
def filterAvg (f : Nat) (avg : Option Nat) (code : Nat) : Nat :=
  match avg with
  | none => code * 16
  | some a => ((a : Int) + roundEven ((code * 16 : Nat) - (a : Int)) f).toNat

/-- A persistence counter: one more where its condition holds, saturating, and 0 where it fails (R120). -/
def persist (holds : Bool) (n : Nat) : Nat := if holds then min Config.byteMax (n + 1) else 0

/-- Steps 1 and 2 of a sample: the filter, then the three counters (R116, R120). -/
def Spm.measure (c : SupplyCfg) (code : Nat) (m : Spm) : Spm :=
  let a := filterAvg c.shift m.avg16 code
  { m with
    avg16 := some a
    dip := persist (decide (a < c.dip * 16)) m.dip
    cut := persist (decide (a < c.cutoff * 16)) m.cut
    rest := persist (decide (c.restore * 16 ≤ a)) m.rest }

/-! ### Transitions and what they tell -/

/-- Do something for every slot, in rising order (log 20). -/
def Part.eachSlot (f : SlotId → Part → Part) (p : Part) : Part := allSlots.foldl (fun p i => f i p) p

/-- SAG entry, one slot (R71). -/
def Part.sagSlot (i : SlotId) (p : Part) : Part :=
  match (p.slot i).state with
  | .aligning | .auditing | .relinking | .linked | .held | .mismatch => p.darken i none
  | .dark => p.updSlot i fun x => { x with bootTimer := none }
  | .empty | .off | .faulted => p

/-- The supply state becomes SAG; a new episode counts, clears the deep marker, raises SUPPLY_SAG and stops a running
recovery timer (R123, R126). The settle timer stops. -/
def Part.beginSag (fresh : Bool) (p : Part) : Part :=
  if fresh then
    (p.onSpm fun m =>
      { m with
        state := .sag
        settle := .stopped
        episodes := m.episodes + 1
        deep := false
        recoveryRunning := false }).raise .supplySag
  else p.onSpm fun m => { m with state := .sag, settle := .stopped }

/-- SAG entry, told to the Slot Controller, the sequencer, the scheduler and the FBU (R71, R130, R143, R156, R157, R163). The
ceiling is frozen where it stands. -/
def Part.enterSag (fresh : Bool) (p : Part) : Part :=
  (({ (p.beginSag fresh).eachSlot Part.sagSlot with running := false }).onFbu fun f =>
    { f with bringUp := .clear, load := .clear }).follow

/-- OUTAGE entry, one slot (R72). -/
def Part.outageSlot (i : SlotId) (p : Part) : Part := if (p.slot i).enable then p.powerOff i .off none else p

/-- OUTAGE entry (R72, R124, R131, R143). -/
def Part.enterOutage (p : Part) : Part :=
  ((((p.onSpm fun m => { m with state := .outage, deep := true }).raise .supplyOutage).eachSlot Part.outageSlot).onFbu
    fun f => { f with ceiling := 0 }).follow

/-- SETTLING entry: the settle timer starts; no other block changes (R124, R125, R132). -/
def Part.enterSettling (p : Part) : Part :=
  p.onSpm fun m => { m with state := .settling, settle := .running p.cfg.supply.settle }

/-- RECOVERY entry, one slot: classified from its last reply, or its boot timer started from full (R60, R73). -/
def Part.recoverSlot (i : SlotId) (p : Part) : Part :=
  if (p.slot i).state = .dark then
    match (p.slot i).lastReply with
    | none => p.updSlot i fun x => { x with bootTimer := some p.cfg.bus.boot }
    | some _ => p.classify i
  else p

/-- RECOVERY entry (R73, R126, R128, R133, R143, R163); the recovery-complete test is made last (R127). -/
def Part.enterRecovery (p : Part) : Part :=
  let p := (p.onSpm fun m =>
    { m with state := .recovery, settle := .stopped, recoveryTime := 0, recoveryRunning := true }).raise .supplyBack
  let p := if p.spm.deep then p.onFbu fun f => { f with ceiling := p.cfg.budget.rampStart } else p
  ({ p.eachSlot Part.recoverSlot with running := true }).follow

/-! ### State rules -/

/-- The SAG rule (R124). -/
def Part.sagRule (p : Part) : Part :=
  if p.cfg.supply.nCut ≤ p.spm.cut then p.enterOutage
  else if p.cfg.supply.nRest ≤ p.spm.rest then p.enterSettling
  else p

/-- The rule of the supply state, applied to the counters of a sample (R116 step 3; R123 to R126). -/
def Part.supplyRule (p : Part) : Part :=
  match p.spm.state with
  | .normal | .recovery => if p.cfg.supply.nDip ≤ p.spm.dip then (p.enterSag true).sagRule else p
  | .sag => p.sagRule
  | .outage => if p.cfg.supply.nRest ≤ p.spm.rest then p.enterSettling else p
  | .settling => if p.cfg.supply.nDip ≤ p.spm.dip then (p.enterSag false).sagRule else p

/-- A held settle timer runs on from its time left (R117). -/
def SettleTimer.resume : SettleTimer → SettleTimer
  | .held left => .running left
  | .running left => .running left
  | .stopped => .stopped

/-- A sample clears the signal-lost marker, resumes a held settle timer and restarts the signal-loss timer (R117). -/
def Spm.hear (m : Spm) : Spm :=
  { m with lost := false, settle := m.settle.resume, signalTimer := some Config.signalTime }

/-- The first sample after a warm reset starts the settle timer (R139). The start comes before the state rule, so a first sample
that itself takes SETTLING to SAG leaves the timer stopped (log 28). -/
def Spm.startSettle (c : SupplyCfg) (m : Spm) : Spm :=
  if m.avg16 = none ∧ m.state = .settling then { m with settle := .running c.settle } else m

/-- A supply sample, whole (R116, R117, R139). A sample that ends a signal loss is a moment of the recovery-complete test. -/
def Part.sample (code : Nat) (p : Part) : Part :=
  let wasLost := p.spm.lost
  let p := (p.onSpm fun m => (m.hear.startSettle p.cfg.supply).measure p.cfg.supply code).supplyRule
  if wasLost then p.recoveryTest else p

/-- SUPPLY_SAMPLE (R116). -/
def execSupplySample (code : BitVec 10) (s : State) : Host.Outcome State Fault Refusal :=
  .next (s.lift (Part.sample code.toNat))

/-- A running settle timer is held with its time left (R117). -/
def SettleTimer.hold : SettleTimer → SettleTimer
  | .running left => .held left
  | .held left => .held left
  | .stopped => .stopped

/-- Signal loss is declared when the signal-loss timer expires (R117). -/
def Part.signalLoss (p : Part) : Part :=
  if p.spm.signalTimer.isSome then
    (p.onSpm fun m => { m with lost := true, signalTimer := none, settle := m.settle.hold }).raise .supplySignal
  else p

/-- SIGNAL_LOSS (R117). -/
def execSignalLoss (s : State) : Host.Outcome State Fault Refusal := .next (s.lift Part.signalLoss)

/-- The settle timer runs. -/
def SettleTimer.isRunning : SettleTimer → Bool
  | .running _ => true
  | .held _ | .stopped => false

/-- Settle timer expiry in SETTLING (R126); a held or stopped timer does not expire. -/
def Part.settleExpiry (p : Part) : Part :=
  if p.spm.state = .settling ∧ p.spm.settle.isRunning = true then p.enterRecovery else p

/-- SETTLE_TIMER_EXPIRY (R126). -/
def execSettleTimerExpiry (s : State) : Host.Outcome State Fault Refusal := .next (s.lift Part.settleExpiry)

end Sys2Proof.Machine
end

