-- ==== Sys2Proof/Machine/Scheduler.lean ====
section
/-! DEFINITION. The Restoration Scheduler (08_restoration_order.md): the walk, the slot tests, the ends of a selection and
the issue. -/

namespace Sys2Proof.Machine

/-- The partner test passes: no partner, or the partner's slot is running (R171). -/
def Part.partnerReady (p : Part) (r : Rec) : Bool :=
  match r.partner with
  | none => true
  | some h =>
    match p.ctb.get h.index with
    | none => true
    | some q => p.slotRuns q.slot

/-- The four slot tests of a record pass (R167 to R171). -/
def Part.slotTests (p : Part) (r : Rec) : Bool :=
  (p.slot r.slot).waitingDrops.isEmpty && decide ((p.slot r.slot).outstanding < (p.slot r.slot).window) &&
    decide ((p.seg (segOf r.slot)).queue.length < Config.queueRoom) && p.partnerReady r

/-- How a selection ends (R172). -/
inductive SelectionEnd where
  | issue (index : Index)
  | budget
  | quiet
  deriving DecidableEq, Repr

/-- The walk over the Class Lists with the blocked set so far (R166). -/
def Part.walkFrom (p : Part) : List SlotId → List Index → SelectionEnd
  | _, [] => .quiet
  | blocked, k :: ks =>
    match p.ctb.get k with
    | none => p.walkFrom blocked ks
    | some r =>
      if r.state ≠ .pending ∨ r.slot ∈ blocked then p.walkFrom blocked ks
      else if p.slotTests r then (if p.loadTest r then .issue k else .budget)
      else p.walkFrom (r.slot :: blocked) ks

/-- How a selection made now ends (R165, R166): it walks C0, C1, C2, C3 with an empty blocked set. -/
def Part.select (p : Part) : SelectionEnd := p.walkFrom [] p.ctb.walk

/-- The issue of a LOAD (R173). -/
def Part.issue (k : Index) (p : Part) : Part :=
  match p.ctb.get k with
  | none => p
  | some r =>
    let h := p.ctb.handle k
    ((((p.onCtb (Ctb.put k (r.to .loading))).setInflight r.slot
        ((p.slot r.slot).inflight ++ [⟨.load, h, p.cfg.bus.completion, false⟩])).enqueue r.slot
        (.load h r.channel r.legs))).onFbu fun f => { f with load := .clear }

/-- One selection, while the run marker is RUNNING (R163 to R166, R172, R157). -/
def Part.selection (p : Part) : Part :=
  if p.running then
    match p.select with
    | .issue k => p.issue k
    | .budget => p.onFbu fun f => { f with load := f.load.block p.cfg.budget.stall }
    | .quiet => p.onFbu fun f => { f with load := .clear }
  else p

/-- SELECTION (R165). -/
def execSelection (s : State) : Host.Outcome State Fault Refusal := .next (s.lift Part.selection)

end Sys2Proof.Machine
end

