-- ==== Sys2Proof/Machine/Requests.lean ====
section
/-! DEFINITION. Requests on records (02_requests_on_records.md), and the steps every request goes through (R183, R184). -/

namespace Sys2Proof.Machine

/-! ### The course of a request (R183) -/

/-- What carrying out a request gives: the part after it, and its response. -/
abbrev Answer := Part × Response

/-- A request refused with a status code has no other effect (R25, R186). -/
def Part.refused (p : Part) (st : Status) : Answer := (p, refusal st)

/-- The request is discarded: the overrun marker is set, the buffered response stays (R184). -/
def Part.discard (l : Link) (p : Part) : Part :=
  p.updLink l fun x => { x with overrun := true, transfer := none, dataOut := p.opening l }

/-- R183 for a request whose code is known: discarded while a response is unread; refused BAD_FRAME for a wrong length;
refused NOT_OWNER where it is a change request from a link that is not the owner (R187); otherwise carried out, its response
placed in the same change. -/
def Part.request (l : Link) (frameFits change : Bool) (run : Part → Answer) (p : Part) : Part :=
  if (p.link l).buffer.isSome then p.discard l
  else if frameFits = false then Part.answer l (refusal .badFrame) p p
  else if change = true ∧ p.owner ≠ some l then Part.answer l (refusal .notOwner) p p
  else p.answer l (run p).2 (run p).1

/-! ### ESTABLISH (R27 to R31) -/

/-- A sending leg whose Timeslot Map entry is held by a record that `mine` does not accept (R28, R33). -/
def Ctb.timeslotClash (t : Ctb) (mine : Handle → Bool) (legs : List Leg) : Bool :=
  legs.any fun g =>
    g.sends &&
      match t.timeslotMap g.highway g.timeslot with
      | none => false
      | some h => !mine h

/-- ESTABLISH's partner checks (R29). -/
def Ctb.partnerCheck (t : Ctb) (i : SlotId) (h : Handle) : Option Status :=
  match t.named h with
  | none => some .staleHandle
  | some r => if r.slot = i ∨ r.partner.isSome = true then some .partnerInvalid else none

/-- The checks of ESTABLISH after its coding, in their order; none when they all pass (R27, R28, R29). -/
def Part.establishCheck (p : Part) (q : EstablishReq) : Option Status :=
  if p.channelLimit q.slot ≤ q.channel.val then some .badField
  else if legConflict q.legs then some .legConflict
  else if (p.ctb.channelMap q.slot q.channel).isSome then some .channelTaken
  else if p.ctb.timeslotClash (fun _ => false) q.legs then some .timeslotTaken
  else
    match q.partner.bind (p.ctb.partnerCheck q.slot) with
    | some st => some st
    | none => if p.ctb.lowestFree.isNone then some .tableFull else none

/-- A waiting state by the slot (R9). -/
def Part.waitingState (p : Part) (i : SlotId) : RecState := if p.slotRuns i then .pending else .suspended

/-- The record an ESTABLISH creates (R30). -/
def EstablishReq.record (q : EstablishReq) (st : RecState) : Rec where
  cls := q.cls
  slot := q.slot
  channel := q.channel
  legs := q.legs
  cost := q.cost
  partner := q.partner
  tag := q.tag
  state := st
  reload := false
  retire := false
  reason := none

/-- Write the partner field of the record a handle names, to name index `k` (R14). -/
def Ctb.linkPartner (h : Option Handle) (k : Index) (t : Ctb) : Ctb :=
  match h with
  | none => t
  | some h => t.upd h.index fun r => { r with partner := some (t.handle k) }

/-- ESTABLISH at a FREE index (R30). -/
def Part.establishAt (k : Index) (q : EstablishReq) (p : Part) : Part :=
  p.onCtb fun t => ((t.put k (q.record (p.waitingState q.slot))).enlist q.cls k).linkPartner q.partner k

/-- ESTABLISH, checked and carried out (R25, R30). -/
def Part.establish (body : List Byte) (p : Part) : Answer :=
  match readEstablish body with
  | none => p.refused .badField
  | some q =>
    match p.establishCheck q, p.ctb.lowestFree with
    | some st, _ => p.refused st
    | none, none => p.refused .tableFull
    | none, some k =>
      (p.establishAt k q, okay ((p.ctb.handle k).bytes ++ [(p.waitingState q.slot).code]))

/-- ESTABLISH (R30). -/
def execEstablish (l : Link) (body : List Byte) (s : State) : Host.Outcome State Fault Refusal :=
  .next (s.lift (Part.sent (.establish l body) (Part.request l (lengthFits 0x10 body.length) true (Part.establish body))))

/-! ### MODIFY (R32 to R36) -/

/-- MODIFY's partner checks, where a partner is set (R33 step 6). -/
def Ctb.newPartnerCheck (t : Ctb) (k : Index) (r : Rec) (h : Handle) : Option Status :=
  match t.named h with
  | none => some .staleHandle
  | some q =>
    if q.slot = r.slot ∨ h.index = k ∨ (q.partner.isSome = true ∧ q.partner ≠ some (t.handle k)) then
      some .partnerInvalid
    else none

/-- The checks of MODIFY on a named record, in their order (R33 steps 3 to 6). -/
def Part.modifyCheck (p : Part) (q : ModifyReq) (r : Rec) : Option Status :=
  if r.state = .dropping ∨ (r.state = .loading ∧ r.retire = true) then some .wrongState
  else if (q.legs.map legConflict).getD false then some .legConflict
  else if (q.legs.map (p.ctb.timeslotClash fun h => decide (h = q.handle))).getD false then some .timeslotTaken
  else q.partner.join.bind (p.ctb.newPartnerCheck q.handle.index r)

/-- The record with a MODIFY's content, but for its partner (R36). -/
def ModifyReq.content (q : ModifyReq) (r : Rec) : Rec :=
  { r with
    legs := q.legs.getD r.legs
    cost := q.cost.getD r.cost
    cls := q.cls.getD r.cls
    tag := q.tag.getD r.tag }

/-- What an accepted MODIFY does to the record's state, by the table of R34. -/
def Rec.modified (running : Bool) (r : Rec) : Rec :=
  match r.state with
  | .live => if running then r.to .pending else r
  | .loading => { r with reload := true }
  | .suspended | .pending | .refused | .dropping => r

/-- A class that differs moves the index to the tail of its new list (R20). -/
def Ctb.reclass (old new : Cls) (k : Index) (t : Ctb) : Ctb :=
  if old = new then t else (t.delist old k).enlist new k

/-- The partner part: set, clear or absent (R15). -/
def Ctb.repartner (k : Index) (r : Rec) (part : Option (Option Handle)) (t : Ctb) : Ctb :=
  match part with
  | none => t
  | some none => (t.unlink r.partner).upd k fun x => { x with partner := none }
  | some (some h) =>
    if r.partner = some h then t
    else ((t.unlink r.partner).upd k fun x => { x with partner := some h }).linkPartner (some h) k

/-- A MODIFY that passes its checks (R34, R36). -/
def Part.modifyAt (q : ModifyReq) (r : Rec) (p : Part) : Part :=
  let k := q.handle.index
  let r' := (q.content r).modified (p.slotRuns r.slot)
  p.onCtb fun t => ((t.put k r').reclass r.cls r'.cls k).repartner k r q.partner

/-- MODIFY, checked and carried out (R33, R34). It takes no record out of PENDING or LOADING, so no RELINKING slot goes on
to LINKED by it. -/
def Part.modify (body : List Byte) (p : Part) : Answer :=
  match readModify body with
  | none => p.refused .badField
  | some q =>
    match p.ctb.named q.handle with
    | none => p.refused .staleHandle
    | some r =>
      match p.modifyCheck q r with
      | some st => p.refused st
      | none =>
        let p' := p.modifyAt q r
        (p', okay [stateCode (p'.ctb.get q.handle.index)])

/-- MODIFY (R34). -/
def execModify (l : Link) (body : List Byte) (s : State) : Host.Outcome State Fault Refusal :=
  .next (s.lift (Part.sent (.modify l body) (Part.request l (lengthFits 0x11 body.length) true (Part.modify body))))

/-! ### Requests that name a record by its handle -/

/-- BAD_FIELD for a handle out of range, STALE_HANDLE for one that names no record; otherwise carried out (R37, R41, R42). -/
def Part.onNamed (w : WireHandle) (run : Handle → Rec → Part → Answer) (p : Part) : Answer :=
  match handleOf w with
  | none => p.refused .badField
  | some h =>
    match p.ctb.named h with
    | none => p.refused .staleHandle
    | some r => run h r p

/-- The effect of RETIRE by the table of R37. A record freed may be the last that holds its slot in RELINKING (R65), and a
waiting DROP may be granted a place at once (R91, R95). -/
def Part.retireAt (h : Handle) (r : Rec) (p : Part) : Part :=
  let freed := ((p.onCtb (Ctb.free h.index)).linkedTest r.slot).follow
  match r.state with
  | .suspended | .pending | .refused => freed
  | .live =>
    if p.slotRuns r.slot then
      ((p.onCtb (Ctb.put h.index (r.to .dropping))).updSlot r.slot fun x =>
        { x with waitingDrops := x.waitingDrops ++ [h] }).follow
    else freed
  | .loading => p.onCtb (Ctb.put h.index { r with retire := true })
  | .dropping => p

/-- RETIRE, carried out (R37). -/
def Part.retire (h : Handle) (r : Rec) (p : Part) : Answer :=
  let p' := p.retireAt h r
  (p', okay [stateCode (p'.ctb.get h.index)])

/-- RETIRE (R37). -/
def execRetire (l : Link) (w : WireHandle) (s : State) : Host.Outcome State Fault Refusal :=
  .next (s.lift (Part.sent (.retire l w) (Part.request l true true (Part.onNamed w Part.retire))))

/-- REVIVE, carried out (R41). -/
def Part.revive (h : Handle) (r : Rec) (p : Part) : Answer :=
  if r.state = .refused then
    (p.onCtb (Ctb.put h.index (r.to (p.waitingState r.slot))), okay [(p.waitingState r.slot).code])
  else p.refused .wrongState

/-- REVIVE (R41). -/
def execRevive (l : Link) (w : WireHandle) (s : State) : Host.Outcome State Fault Refusal :=
  .next (s.lift (Part.sent (.revive l w) (Part.request l true true (Part.onNamed w Part.revive))))

/-- LOOKUP (R42). -/
def execLookup (l : Link) (w : WireHandle) (s : State) : Host.Outcome State Fault Refusal :=
  .next (s.lift (Part.sent (.lookup l w) (Part.request l true false (Part.onNamed w fun h r p => (p, okay (r.bytes h))))))

/-! ### Lookups of the maps (R43) -/

/-- A map entry in a response: found and the handle, or none (R203). -/
def entryBytes : Option Handle → List Byte
  | none => [0, 0, 0, 0]
  | some h => 1 :: h.bytes

/-- FIND_CHANNEL, carried out (R43). -/
def Part.findChannel (slot channel : Byte) (p : Part) : Answer :=
  match fin? 24 slot.toNat, fin? 128 channel.toNat with
  | some i, some c => (p, okay (entryBytes (p.ctb.channelMap i c)))
  | _, _ => p.refused .badField

/-- FIND_CHANNEL (R43). -/
def execFindChannel (l : Link) (slot channel : Byte) (s : State) : Host.Outcome State Fault Refusal :=
  .next (s.lift (Part.sent (.findChannel l slot channel) (Part.request l true false (Part.findChannel slot channel))))

/-- FIND_TIMESLOT, carried out (R43). -/
def Part.findTimeslot (highway : Byte) (timeslot : BitVec 16) (p : Part) : Answer :=
  match fin? 4 highway.toNat, fin? 512 timeslot.toNat with
  | some hw, some ts => (p, okay (entryBytes (p.ctb.timeslotMap hw ts)))
  | _, _ => p.refused .badField

/-- FIND_TIMESLOT (R43). -/
def execFindTimeslot (l : Link) (highway : Byte) (timeslot : BitVec 16) (s : State) :
    Host.Outcome State Fault Refusal :=
  .next (s.lift (Part.sent (.findTimeslot l highway timeslot)
    (Part.request l true false (Part.findTimeslot highway timeslot))))

/-! ### LIST (R44, R45) -/

/-- The record's state is in a LIST filter (R201). -/
def inFilter (filter : Byte) (st : RecState) : Bool := filter.getLsbD (st.code.toNat - 1)

/-- The record at an index is in the filter. -/
def Ctb.listed (t : Ctb) (filter : Byte) (k : Index) : Bool :=
  match t.get k with
  | none => false
  | some r => inFilter filter r.state

/-- The walk of LIST: the indexes added, and the index of the next cursor, none for END (R45). -/
def Ctb.page (t : Ctb) (filter : Byte) : (room : Nat) → List Index → List Index × Option Index
  | _, [] => ([], none)
  | room, k :: ks =>
    if t.listed filter k then
      if room ≤ 1 then ([k], ks.head?)
      else
        let rest := t.page filter (room - 1) ks
        (k :: rest.1, rest.2)
    else t.page filter room ks

/-- The list from its cursor on: the whole list at HEAD, else from the cursor record (R45). -/
def fromCursor (xs : List Index) (cursor : Option Index) : List Index :=
  match cursor with
  | none => xs
  | some k => xs.dropWhile fun j => decide (j ≠ k)

/-- A LIST response body (R203). -/
def Ctb.pageBytes (t : Ctb) (page : List Index × Option Index) : List Byte :=
  byteOf page.1.length :: (page.1.flatMap fun k => (t.handle k).bytes) ++
    page.2.elim endBytes fun k => (t.handle k).bytes

/-- A LIST filter is legal: some non-FREE state, and neither bit 6 nor bit 7 (R44, R201). -/
def filterFits (filter : Byte) : Bool := !decide (filter = 0) && !filter.getLsbD 6 && !filter.getLsbD 7

/-- LIST, checked and carried out (R44, R45). -/
def Part.listRecords (cls filter : Byte) (cursor : WireHandle) (p : Part) : Answer :=
  let answer (c : Cls) (from? : Option Index) : Answer :=
    (p, okay (p.ctb.pageBytes (p.ctb.page filter Config.listPage (fromCursor (p.ctb.list c) from?))))
  match clsOf cls with
  | none => p.refused .badField
  | some c =>
    if filterFits filter = false then p.refused .badField
    else if isHead cursor then answer c none
    else
      p.onNamed cursor fun h r p => if r.cls = c then answer c (some h.index) else p.refused .badField

/-- LIST (R45). -/
def execList (l : Link) (cls filter : Byte) (cursor : WireHandle) (s : State) : Host.Outcome State Fault Refusal :=
  .next (s.lift (Part.sent (.list l cls filter cursor) (Part.request l true false (Part.listRecords cls filter cursor))))

end Sys2Proof.Machine
end

