-- ==== Sys2Proof/Machine/Actions.lean ====
section
/-! DEFINITION. The nine slot actions (R74 to R79). -/

namespace Sys2Proof.Machine

/-- SLOT_ACTION: BAD_FIELD for a slot above 23; a refused action changes nothing; an accepted one is answered OK with the
slot state after it (R74). -/
def Part.slotAction (act : SlotId → Part → Except Status Part) (slot : Byte) (p : Part) : Answer :=
  match fin? 24 slot.toNat with
  | none => p.refused .badField
  | some i =>
    match act i p with
    | .error st => p.refused st
    | .ok p' => (p', okay [(p'.slot i).state.code])

/-- A slot action as a request from a link. -/
def Part.actionRequest (l : Link) (act : SlotId → Part → Except Status Part) (slot : Byte) (p : Part) : Part :=
  p.request l true true (Part.slotAction act slot)

/-- PARK (R75). -/
def Part.park (i : SlotId) (p : Part) : Except Status Part :=
  let parked := p.updSlot i fun x => { x with parked := true }
  match (p.slot i).state with
  | .off | .empty | .faulted => .ok parked.follow
  | .held | .mismatch => .ok (parked.powerOff i .off none).follow
  | .dark | .aligning | .auditing | .relinking | .linked => .error .slotBusy

/-- PARK (R75). -/
def execPark (l : Link) (slot : Byte) (s : State) : Host.Outcome State Fault Refusal :=
  .next (s.lift (Part.sent (.park l slot) (Part.actionRequest l Part.park slot)))

/-- UNPARK (R75). -/
def Part.unpark (i : SlotId) (p : Part) : Except Status Part :=
  .ok (p.updSlot i fun x => { x with parked := false })

/-- UNPARK (R75). -/
def execUnpark (l : Link) (slot : Byte) (s : State) : Host.Outcome State Fault Refusal :=
  .next (s.lift (Part.sent (.unpark l slot) (Part.actionRequest l Part.unpark slot)))

/-- HOLD (R76). The entry to HELD abandons the in-flight list, empties the waiting DROPs and ends an audit. -/
def Part.holdSlot (i : SlotId) (p : Part) : Except Status Part :=
  let held := p.updSlot i fun x => { x with hold := true }
  match (p.slot i).state with
  | .relinking | .linked | .auditing => .ok ((held.treat powerOffFate i).enterHeldClearing i).follow
  | .empty | .off | .dark | .aligning | .held | .mismatch | .faulted => .ok held

/-- HOLD (R76). -/
def execHold (l : Link) (slot : Byte) (s : State) : Host.Outcome State Fault Refusal :=
  .next (s.lift (Part.sent (.hold l slot) (Part.actionRequest l Part.holdSlot slot)))

/-- RELEASE_HOLD (R76): SLOT_BUSY while the CLEAR of the entry to HELD is pending. -/
def Part.releaseHold (i : SlotId) (p : Part) : Except Status Part :=
  let released := p.updSlot i fun x => { x with hold := false }
  if (p.slot i).state = .held then
    if (p.slot i).engine.isSome then .error .slotBusy else .ok (released.enterRelinking i).follow
  else .ok released

/-- RELEASE_HOLD (R76). -/
def execReleaseHold (l : Link) (slot : Byte) (s : State) : Host.Outcome State Fault Refusal :=
  .next (s.lift (Part.sent (.releaseHold l slot) (Part.actionRequest l Part.releaseHold slot)))

/-- In MISMATCH with a card seen, act on that card; elsewhere WRONG_STATE (R77, log 22). -/
def Part.inMismatch (i : SlotId) (p : Part) (act : Card → Except Status Part) : Except Status Part :=
  match (p.slot i).state, (p.slot i).cardSeen with
  | .mismatch, some seen => act seen.card
  | _, _ => .error .wrongState

/-- ADOPT (R77). -/
def Part.adopt (i : SlotId) (p : Part) : Except Status Part :=
  p.inMismatch i fun c =>
    if p.ctb.fitsChannels i (p.cfg.profiles[c.type]).channels then .ok ((p.setIdentity i c).enterAligning i).follow
    else .error .incompatible

/-- ADOPT (R77). -/
def execAdopt (l : Link) (slot : Byte) (s : State) : Host.Outcome State Fault Refusal :=
  .next (s.lift (Part.sent (.adopt l slot) (Part.actionRequest l Part.adopt slot)))

/-- VACATE (R77). -/
def Part.vacate (i : SlotId) (p : Part) : Except Status Part :=
  p.inMismatch i fun c => .ok (((p.treat freeFate i).setIdentity i c).enterAligning i).follow

/-- VACATE (R77). -/
def execVacate (l : Link) (slot : Byte) (s : State) : Host.Outcome State Fault Refusal :=
  .next (s.lift (Part.sent (.vacate l slot) (Part.actionRequest l Part.vacate slot)))

/-- CLEAR_FAULT (R77). -/
def Part.clearFault (i : SlotId) (p : Part) : Except Status Part :=
  if (p.slot i).state = .faulted then
    .ok ((p.enter i .off).updSlot i fun x => { x with attempts := 0, faults := 0 }).follow
  else .error .wrongState

/-- CLEAR_FAULT (R77). -/
def execClearFault (l : Link) (slot : Byte) (s : State) : Host.Outcome State Fault Refusal :=
  .next (s.lift (Part.sent (.clearFault l slot) (Part.actionRequest l Part.clearFault slot)))

/-- AUDIT (R78, R106). -/
def Part.auditSlot (i : SlotId) (p : Part) : Except Status Part :=
  if (p.slot i).state = .linked ∧ (p.slot i).inflight = [] ∧ (p.slot i).waitingDrops = [] then
    .ok ((p.treat (moveFate .pending .suspended) i).enterAuditing i).follow
  else .error .slotBusy

/-- AUDIT (R78). -/
def execAudit (l : Link) (slot : Byte) (s : State) : Host.Outcome State Fault Refusal :=
  .next (s.lift (Part.sent (.audit l slot) (Part.actionRequest l Part.auditSlot slot)))

/-- POWER_CYCLE (R79). -/
def Part.cyclePower (i : SlotId) (p : Part) : Except Status Part :=
  match (p.slot i).state with
  | .dark | .aligning | .held | .mismatch | .linked => .ok (p.cool i).follow
  | .empty | .off | .auditing | .relinking | .faulted => .error .slotBusy

/-- POWER_CYCLE (R79). -/
def execPowerCycle (l : Link) (slot : Byte) (s : State) : Host.Outcome State Fault Refusal :=
  .next (s.lift (Part.sent (.powerCycle l slot) (Part.actionRequest l Part.cyclePower slot)))

end Sys2Proof.Machine
end

