-- ==== Sys2Proof/Machine/SettingsRequests.lean ====
section
/-! DEFINITION. The settings requests (R50 to R52, R121, R141, R142): every value is clamped, written in one change, and
answered with the values applied. -/

namespace Sys2Proof.Machine

/-! ### SLOT_SET (R52) -/

/-- SLOT_SET, carried out. -/
def Part.setSlotKeys (slot rank phase : Byte) (p : Part) : Answer :=
  match fin? 24 slot.toNat with
  | none => p.refused .badField
  | some i =>
    let r : Fin 4 := ⟨min 3 rank.toNat, by omega⟩
    let ph : Fin 16 := ⟨min 15 phase.toNat, by omega⟩
    (p.updSlot i fun x => { x with rank := r, phase := ph }, okay [slot, byteOf r.val, byteOf ph.val])

/-- SLOT_SET (R52). -/
def execSlotSet (l : Link) (slot rank phase : Byte) (s : State) : Host.Outcome State Fault Refusal :=
  .next (s.lift (Part.sent (.slotSet l slot rank phase) (Part.request l true true (Part.setSlotKeys slot rank phase))))

/-! ### PROFILE_SET (R50) -/

/-- The entry a PROFILE_SET writes. -/
def profileOf (f : WireProfile) : Profile :=
  ⟨clamp 1 128 f.channels.toNat, clamp 0 4095 f.inrush.toNat, clamp 0 2047 f.base.toNat, clamp 1 8 f.shift.toNat,
    clamp 1 8 f.cap.toNat⟩

/-- PROFILE_SET's fields with the values applied (R201, R203). -/
def profileBytes (ty : Byte) (x : Profile) : List Byte :=
  [ty, byteOf x.channels] ++ bytesOf 2 x.inrush ++ bytesOf 2 x.base ++ [byteOf x.shift, byteOf x.cap]

/-- PROFILE_SET, carried out. Committed load follows the base draw, since it is the sum of R147. -/
def Part.setProfile (f : WireProfile) (p : Part) : Answer :=
  match fin? 16 f.cardType.toNat with
  | none => p.refused .badField
  | some ty =>
    ({ p with cfg := { p.cfg with profiles := p.cfg.profiles.set ty (profileOf f) } },
      okay (profileBytes f.cardType (profileOf f)))

/-- PROFILE_SET (R50). -/
def execProfileSet (l : Link) (f : WireProfile) (s : State) : Host.Outcome State Fault Refusal :=
  .next (s.lift (Part.sent (.profileSet l f) (Part.request l true true (Part.setProfile f))))

/-! ### BUS_SET (R51, R53) -/

/-- The completion timeout, raised to the next listed value; above 100 gives 100 (R51). -/
def clampCompletion (x : Nat) : Nat :=
  if x ≤ 2 then 2 else if x ≤ 5 then 5 else if x ≤ 10 then 10 else if x ≤ 20 then 20 else if x ≤ 50 then 50 else 100

/-- The boot timeout, into range and then down to a whole 100 ms (R51). -/
def clampBoot (x : Nat) : Nat := clamp 100 25500 x / 100 * 100

/-- The settings a BUS_SET writes. -/
def busOf (f : WireBus) : BusCfg :=
  ⟨clamp 1 8 f.w.toNat, clampCompletion f.completion.toNat, clamp 1 7 f.missedLimit.toNat, clamp 1 15 f.fastPoll.toNat,
    clamp 10 250 f.slowPoll.toNat, clampBoot f.boot.toNat, clamp 10 2550 f.align.toNat, clamp 50 2550 f.off.toNat,
    clamp 1 15 f.attemptLimit.toNat⟩

/-- BUS_SET's fields with the values applied. -/
def busCfgBytes (b : BusCfg) : List Byte :=
  [byteOf b.w, byteOf b.completion, byteOf b.missedLimit, byteOf b.fastPoll, byteOf b.slowPoll] ++ bytesOf 2 b.boot ++
    bytesOf 2 b.align ++ bytesOf 2 b.off ++ [byteOf b.attemptLimit]

/-- BUS_SET, carried out: the settings are written and every slot's effective window is computed (R51, R53); a window that
rises may make a waiting DROP eligible (R91). -/
def Part.setBus (f : WireBus) (p : Part) : Answer :=
  let p := { p with cfg := { p.cfg with bus := busOf f } }
  (((p.eachSlot Part.rewindow).arbitrate .l).arbitrate .r, okay (busCfgBytes (busOf f)))

/-- BUS_SET (R51). -/
def execBusSet (l : Link) (f : WireBus) (s : State) : Host.Outcome State Fault Refusal :=
  .next (s.lift (Part.sent (.busSet l f) (Part.request l true true (Part.setBus f))))

/-! ### BUDGET_SET (R141, R142) -/

/-- The stall time: 0 stays 0, 1-9 gives 10, above 2550 gives 2550 (R141). -/
def clampStall (x : Nat) : Nat := if x = 0 then 0 else clamp 10 2550 x

/-- The settings a BUDGET_SET writes. -/
def budgetOf (f : WireBudget) : BudgetCfg :=
  ⟨clamp 1000 65535 f.limit.toNat, min 16 f.start.toNat, min 11 f.slew.toNat, clampStall f.stall.toNat⟩

/-- BUDGET_SET's response body: the values applied, then RAMP_START (R141, R203). -/
def budgetBytes (b : BudgetCfg) : List Byte :=
  bytesOf 2 b.limit ++ [byteOf b.start, byteOf b.slew] ++ bytesOf 2 b.stall ++ bytesOf 2 b.rampStart

/-- What the FBU does in the change of a BUDGET_SET (R142). -/
def Fbu.rebudget (b : BudgetCfg) (state : Supply) (f : Fbu) : Fbu :=
  { ceiling := if state = .normal then b.limit else min f.ceiling b.limit
    bringUp := if b.stall = 0 then .clear else f.bringUp
    load := if b.stall = 0 then .clear else f.load }

/-- BUDGET_SET, carried out; in RECOVERY a change of the ceiling or LIMIT is a moment of the recovery-complete test (R127,
R142). -/
def Part.setBudget (f : WireBudget) (p : Part) : Answer :=
  let b := budgetOf f
  ((({ p with cfg := { p.cfg with budget := b } }).onFbu (Fbu.rebudget b p.spm.state)).recoveryTest, okay (budgetBytes b))

/-- BUDGET_SET (R141). -/
def execBudgetSet (l : Link) (f : WireBudget) (s : State) : Host.Outcome State Fault Refusal :=
  .next (s.lift (Part.sent (.budgetSet l f) (Part.request l true true (Part.setBudget f))))

/-! ### SUPPLY_SET (R121) -/

/-- The two clamps that order the thresholds (R121). -/
def SupplyCfg.ordered (c : SupplyCfg) : SupplyCfg :=
  { c with
    cutoff := if c.dip < c.cutoff then c.dip else c.cutoff
    restore := if c.restore ≤ c.dip then min 1023 (c.dip + 8) else c.restore }

/-- The settings a SUPPLY_SET writes. -/
def supplyOf (f : WireSupply) : SupplyCfg :=
  SupplyCfg.ordered
    ⟨clamp 0 1023 f.dip.toNat, clamp 0 1023 f.cutoff.toNat, clamp 0 1023 f.restore.toNat, clamp 1 255 f.nDip.toNat,
      clamp 1 255 f.nCut.toNat, clamp 1 255 f.nRest.toNat, clamp 10 2550 f.settle.toNat, clamp 0 4 f.shift.toNat⟩

/-- SUPPLY_SET's fields with the values applied. -/
def supplyBytes (c : SupplyCfg) : List Byte :=
  bytesOf 2 c.dip ++ bytesOf 2 c.cutoff ++ bytesOf 2 c.restore ++ [byteOf c.nDip, byteOf c.nCut, byteOf c.nRest] ++
    bytesOf 2 c.settle ++ [byteOf c.shift]

/-- SUPPLY_SET, carried out: average, counters, settle timer and supply state stay (R121). -/
def Part.setSupply (f : WireSupply) (p : Part) : Answer :=
  ({ p with cfg := { p.cfg with supply := supplyOf f } }, okay (supplyBytes (supplyOf f)))

/-- SUPPLY_SET (R121). -/
def execSupplySet (l : Link) (f : WireSupply) (s : State) : Host.Outcome State Fault Refusal :=
  .next (s.lift (Part.sent (.supplySet l f) (Part.request l true true (Part.setSupply f))))

end Sys2Proof.Machine
end

