-- ==== Sys2Proof/Machine/Reset.lean ====
section
/-! DEFINITION. Cold start and warm reset (R23, R24, R81, R82, R104, R105, R138, R139, R159, R160, R162, R198, R199). -/

namespace Sys2Proof.Machine

/-- A link after a reset that leaves these flags pending: no transfer is in progress, and one under select at the reset is lost
until select is removed (R183, R198, R199). What it had clocked out is out (log 24). -/
def LinkRec.after (pending : BitVec 13) (x : LinkRec) : LinkRec :=
  { LinkRec.fresh pending with lost := x.lost || x.transfer.isSome, dataOut := x.dataOut }

/-- Cold start: every block at its cold-start values; the presence lines and the links' selects stand as they are (R81, R198,
log 6). -/
def Part.coldStart (p : Part) : Part :=
  { Part.cold with
    slots := Vector.ofFn fun i => Slot.cold p.slots[i].seated
    linkA := p.linkA.after Notice.coldStart.flag
    linkB := p.linkB.after Notice.coldStart.flag
    fillers := p.fillers }

/-- COLD_START (R198). -/
def execColdStart (s : State) : Host.Outcome State Fault Refusal := .next (s.lift Part.coldStart)

/-- The slot state a warm reset sets from the enable and presence lines (R82). -/
def Slot.resetState (x : Slot) : SlotState :=
  if x.seated then (if x.enable then .dark else .off) else .empty

/-- A slot after a warm reset: retention state kept; timers, replies, lists and segment state cleared; a slot left DARK has
its POLL due (R82, R104, R160). -/
def Slot.warm (x : Slot) : Slot :=
  { Slot.cold x.seated with
    state := x.resetState
    parked := x.parked
    hold := x.hold
    rank := x.rank
    phase := x.phase
    identity := x.identity
    bootCount := x.bootCount
    attempts := x.attempts
    faults := x.faults
    window := x.window
    pollDue := decide (x.resetState = .dark) }

/-- The monitor after a warm reset: SETTLING, marker clear, episode count kept (R139). -/
def Spm.warm (m : Spm) : Spm := { Spm.cold with state := .settling, deep := false, episodes := m.episodes }

/-- The records after a warm reset (R24), with the power-off treatment of a slot whose enable was driven and whose card is
no longer seated (R82). -/
def Part.resetRecords (p : Part) : Part :=
  (p.onCtb (Ctb.treatAll lossFate)).eachSlot fun i p =>
    if (p.slot i).enable = true ∧ (p.slot i).seated = false then p.treat powerOffFate i else p

/-- A link after a warm reset: WARM_RESET pending, COLD_START kept (R199). -/
def LinkRec.warm (x : LinkRec) : LinkRec :=
  x.after ((x.pending &&& Notice.coldStart.flag) ||| Notice.warmReset.flag)

/-- A warm reset of the whole part, in one change; the POLLs due are then granted places (R93, R104, R197). -/
def Part.warmReset (p : Part) : Part :=
  let p := p.resetRecords.mapSlots Slot.warm
  (({ p with
      mbsL := .idle
      mbsR := .idle
      capture := .empty
      spm := p.spm.warm
      fbu := ⟨p.cfg.budget.rampStart, .clear, .clear⟩
      running := false
      linkA := p.linkA.warm
      linkB := p.linkB.warm
      owner := none }).arbitrate .l).arbitrate .r

/-- RESET_N (R197). -/
def execResetN (s : State) : Host.Outcome State Fault Refusal := .next (s.lift Part.warmReset)

/-- RESET: judged as any change request; from the owner it is a warm reset in the change of its transfer's end, with no response
(R197). -/
def Part.resetRequest (l : Link) (p : Part) : Part :=
  if (p.link l).buffer.isSome then p.discard l
  else if p.owner ≠ some l then Part.answer l (refusal .notOwner) p p
  else (p.ended l).warmReset

/-- RESET (R197). -/
def execReset (l : Link) (s : State) : Host.Outcome State Fault Refusal :=
  .next (s.lift (Part.sent (.reset l) (Part.resetRequest l)))

end Sys2Proof.Machine
end

