-- ==== Sys2Proof/Machine/Links.lean ====
section
/-! DEFINITION. The Control Link Interfaces (09_control_links_ownership_and_notices.md): ownership, notices, STATUS, the
fault capture's requests, and the transfers that are no request of their own row. -/

namespace Sys2Proof.Machine

/-! ### Ownership (R188, R189, R190) -/

/-- CLAIM, carried out (R188). -/
def Part.claim (l : Link) (p : Part) : Answer :=
  match p.owner with
  | none => (({ p with owner := some l }).raiseOn l .ownerGained, okay [])
  | some o =>
    if o = l then (p, okay [])
    else (p.updLink l fun x => { x with claim := true }, refusal .ownedElsewhere)

/-- CLAIM (R188). -/
def execClaim (l : Link) (s : State) : Host.Outcome State Fault Refusal :=
  .next (s.lift (Part.sent (.claim l) (Part.request l true false (Part.claim l))))

/-- RELEASE, carried out (R189). -/
def Part.release (l : Link) (p : Part) : Answer :=
  if p.owner = some l then
    if (p.link (other l)).claim then
      ((({ p with owner := some (other l) }).updLink (other l) fun x => { x with claim := false }).raiseOn (other l)
        .ownerGained, okay [])
    else ({ p with owner := none }, okay [])
  else (p.updLink l fun x => { x with claim := false }, okay [])

/-- RELEASE (R189). -/
def execRelease (l : Link) (s : State) : Host.Outcome State Fault Refusal :=
  .next (s.lift (Part.sent (.release l) (Part.request l true false (Part.release l))))

/-- TAKEOVER, carried out (R190). -/
def Part.takeover (l : Link) (p : Part) : Answer :=
  let q := (({ p with owner := some l }).updLink .a fun x => { x with claim := false }).updLink .b fun x =>
    { x with claim := false }
  let q := if p.owner = some (other l) then q.raiseOn (other l) .ownerLost else q
  (if p.owner = some l then q else q.raiseOn l .ownerGained, okay [])

/-- TAKEOVER (R190). -/
def execTakeover (l : Link) (s : State) : Host.Outcome State Fault Refusal :=
  .next (s.lift (Part.sent (.takeover l) (Part.request l true false (Part.takeover l))))

/-! ### Notices (R193, R194) -/

/-- NOTICES, carried out: the flags as they stand and the slot-change set are returned; the named kinds are cleared and the
set is emptied (R193). -/
def Part.readNotices (l : Link) (clear : BitVec 16) (p : Part) : Answer :=
  let x := p.link l
  (p.updLink l fun x => { x with pending := x.pending &&& ~~~(clear.setWidth 13), changes := 0 },
    okay (bytesOf 2 x.pending.toNat ++ bytesOf 3 x.changes.toNat))

/-- NOTICES (R193). -/
def execNotices (l : Link) (clear : BitVec 16) (s : State) : Host.Outcome State Fault Refusal :=
  .next (s.lift (Part.sent (.notices l clear) (Part.request l true false (Part.readNotices l clear))))

/-- NOTICE_MASK, carried out (R194). -/
def Part.setMask (l : Link) (mask : BitVec 16) (p : Part) : Answer :=
  let m : BitVec 13 := mask.setWidth 13
  (p.updLink l fun x => { x with mask := m }, okay (bytesOf 2 m.toNat))

/-- NOTICE_MASK (R194). -/
def execNoticeMask (l : Link) (mask : BitVec 16) (s : State) : Host.Outcome State Fault Refusal :=
  .next (s.lift (Part.sent (.noticeMask l mask) (Part.request l true false (Part.setMask l mask))))

/-! ### STATUS (R196, R203) -/

/-- The seven state counts, in their order in STATUS (R22, R203). -/
def Ctb.counts (t : Ctb) : List Nat :=
  [t.countFree, t.count .suspended, t.count .pending, t.count .loading, t.count .live, t.count .dropping,
    t.count .refused]

/-- STATUS, offset 3. -/
def Part.statusFlags (p : Part) : Byte :=
  (if p.spm.deep then 1 else 0) ||| (if p.deficit then 2 else 0) ||| (if p.capture.fault.isSome then 4 else 0)

/-- The STATUS body (R203). -/
def Part.statusBody (p : Part) : List Byte :=
  [p.spm.state.code] ++ bytesOf 2 p.spm.episodes.toNat ++ [p.statusFlags] ++ bytesOf 2 p.spm.recoveryTime ++
    bytesOf 2 p.fbu.ceiling ++ bytesOf 3 p.committed ++ bytesOf 3 p.inrushTotal ++ bytesOf 3 p.demand ++
    bytesOf 2 p.headroom ++ (p.ctb.counts.flatMap (bytesOf 2)) ++ [ownerCode p.owner] ++
    allSlots.flatMap fun i => [(p.slot i).state.code, byteOf (p.slot i).faults.toNat]

/-- STATUS (R196). -/
def execStatus (l : Link) (s : State) : Host.Outcome State Fault Refusal :=
  .next (s.lift (Part.sent (.status l) (Part.request l true false fun p => (p, okay p.statusBody))))

/-! ### The fault capture (R103) -/

/-- The CAPTURE_QUERY body (R103, R203). -/
def Capture.body (c : Capture) : List Byte :=
  match c.fault with
  | none => [0, 0, 0, 0, 0, 0, 0, 0]
  | some f =>
    [1, f.kind.code, byteOf f.slot.val, if f.handle.isSome then 1 else 0] ++ (f.handle.elim [0, 0, 0] Handle.bytes) ++
      [byteOf c.overflow]

/-- CAPTURE_QUERY (R103). -/
def execCaptureQuery (l : Link) (s : State) : Host.Outcome State Fault Refusal :=
  .next (s.lift (Part.sent (.captureQuery l) (Part.request l true false fun p => (p, okay p.capture.body))))

/-- CAPTURE_CLEAR (R103). -/
def execCaptureClear (l : Link) (s : State) : Host.Outcome State Fault Refusal :=
  .next (s.lift (Part.sent (.captureClear l) (Part.request l true true fun p => ({ p with capture := .empty }, okay []))))

/-! ### Transfers (R182, R184, R185) -/


/-- `n` filler bytes, each a free value (R185, log 5). -/
def Part.fillerBytes (p : Part) (n : Nat) : List Byte := (List.range n).map fun j => Config.filler (p.fillers + j)

/-- The bytes of the response that waits; none where the buffer is empty (R185, R201). -/
def LinkRec.responseBytes (x : LinkRec) : List Byte := (x.buffer.map Response.bytes).getD []

/-- A READ transfer has clocked `n` bytes after the status byte: data out has gone on from where the transfer stood with the
response from its header on, and then filler (R185). -/
def Part.readOut (l : Link) (n : Nat) (p : Part) : Part :=
  let bytes := (p.link l).responseBytes
  let sofar := ((p.link l).transfer.getD []).length - 1
  let extra := n - max sofar bytes.length
  let out := p.opening l ++ (bytes.take n).drop sofar ++ p.fillerBytes extra
  { p with fillers := p.fillers + extra }.updLink l fun x => { x with dataOut := out }

/-- The end of a response read that clocked `n` bytes after the status byte: a full read consumes the response and clears the
overrun marker, a cut-short one keeps both (R185). -/
def Part.readResponse (l : Link) (n : Nat) (p : Part) : Part :=
  (p.readOut l n).updLink l fun x =>
    if x.buffer.isSome = true ∧ x.responseBytes.length ≤ n then
      { x with buffer := none, overrun := false, transfer := none }
    else { x with transfer := none }

/-- RESPONSE_READ (R185). What data in carries after the kind is not read. -/
def execResponseRead (l : Link) (clocked : Nat) (s : State) : Host.Outcome State Fault Refusal :=
  .next (s.lift (Part.sent (.responseRead l clocked) (Part.readResponse l clocked)))

/-- A transfer stays open under select, these bytes of it clocked in so far (R181, R182): data out has carried the status byte
of its opening, and in a READ the bytes after it. -/
def Part.underSelect (l : Link) (bytes : List Byte) (p : Part) : Part :=
  let q : Part :=
    match bytes with
    | [] => p.ended l
    | kind :: more => if kind = kindRead then p.readOut l more.length else p.ended l
  q.updLink l fun x => { x with transfer := some bytes }

/-- A transfer opens, or takes more bytes, and stays under select (R182, log 4). A lost one reads none (R183, R198); bytes that
cannot follow on those taken so far change nothing. -/
def Part.stayOpen (l : Link) (bytes : List Byte) (p : Part) : Part :=
  if (p.link l).lost = false ∧ goesOn ((p.link l).transfer.getD []) bytes = true then p.underSelect l bytes else p

/-- STATUS_READ (R182): a transfer that closes before a full kind is clocked in; or one that stays under select. -/
def execStatusRead (x : Select) (s : State) : Host.Outcome State Fault Refusal :=
  .next (s.lift (x.held.elim (Part.transfer x.link [] (Part.ended x.link)) (Part.stayOpen x.link)))

/-- A request command carried out on the part; a command that is no request does nothing here. -/
def Part.runRequest (i : Instr) (p : Part) : Part :=
  let done (o : Host.Outcome State Fault Refusal) : Part :=
    match o with
    | .next s => s.part
    | .fault _ | .refused _ => p
  let s : State := ⟨p, []⟩
  match i with
  | .establish l body => done (execEstablish l body s)
  | .modify l body => done (execModify l body s)
  | .retire l h => done (execRetire l h s)
  | .revive l h => done (execRevive l h s)
  | .lookup l h => done (execLookup l h s)
  | .findChannel l x c => done (execFindChannel l x c s)
  | .findTimeslot l h t => done (execFindTimeslot l h t s)
  | .list l c f h => done (execList l c f h s)
  | .park l x => done (execPark l x s)
  | .unpark l x => done (execUnpark l x s)
  | .hold l x => done (execHold l x s)
  | .releaseHold l x => done (execReleaseHold l x s)
  | .adopt l x => done (execAdopt l x s)
  | .vacate l x => done (execVacate l x s)
  | .clearFault l x => done (execClearFault l x s)
  | .audit l x => done (execAudit l x s)
  | .powerCycle l x => done (execPowerCycle l x s)
  | .slotSet l x r ph => done (execSlotSet l x r ph s)
  | .profileSet l f => done (execProfileSet l f s)
  | .busSet l f => done (execBusSet l f s)
  | .budgetSet l f => done (execBudgetSet l f s)
  | .supplySet l f => done (execSupplySet l f s)
  | .status l => done (execStatus l s)
  | .notices l c => done (execNotices l c s)
  | .noticeMask l m => done (execNoticeMask l m s)
  | .captureQuery l => done (execCaptureQuery l s)
  | .captureClear l => done (execCaptureClear l s)
  | .claim l => done (execClaim l s)
  | .release l => done (execRelease l s)
  | .takeover l => done (execTakeover l s)
  | .reset l => done (execReset l s)
  | .coldStart | .resetN | .insertion _ | .removal _ | .statusRead _ | .responseRead _ _ | .requestDiscarded _ _ _
  | .badFrame _ _ _ | .unknownRequest _ _ _ | .supplySample _ | .signalLoss | .settleTimerExpiry | .budgetTick
  | .bringUpStallExpiry | .loadStallExpiry | .bringUpTrial | .selection | .bootTimerExpiry _ | .alignTimerExpiry _
  | .offTimerExpiry _ | .stableTimerExpiry _ | .pollTimerExpiry _ | .completionTimeout _ _ _ | .exchangeOpen _
  | .replyWindowClose _ | .replyBreakOff _ | .pollReply _ _ | .accept _ _ | .refuse _ _ _ | .digestReply _ _ _ _ _
  | .malformedOrUnexpectedReply _ _ => p

/-- A transfer with its kind byte and the bytes clocked in after it, as the part takes it (R182 to R185): a READ is a
response read; anything else is a request judged by R183. A SLOT_ACTION whose action is outside the list reaches its block and
is refused BAD_FIELD (R74). -/
def Part.takeTransfer (l : Link) (kind : Byte) (bytes : List Byte) (p : Part) : Part :=
  if kind = kindRead then p.transfer l (kind :: bytes) (Part.readResponse l bytes.length)
  else
    match judgeFrame kind bytes with
    | .bad => p.transfer l (kind :: bytes) (Part.request l false false fun p => p.refused .badFrame)
    | .unknown => p.transfer l (kind :: bytes) (Part.request l true false fun p => p.refused .unknownRequest)
    | .request code fields =>
      match decodeRequest l code fields with
      | some i => p.runRequest i
      | none => p.transfer l (kind :: bytes) (Part.request l true true fun p => p.refused .badField)

/-- REQUEST_DISCARDED (R184): the transfer of a request; with the buffer full it is discarded, whatever its frame holds. -/
def execRequestDiscarded (l : Link) (kind : Byte) (bytes : List Byte) (s : State) : Host.Outcome State Fault Refusal :=
  .next (s.lift (Part.takeTransfer l kind bytes))

/-- BAD_FRAME (R183): the transfer of a request whose frame is wrong. -/
def execBadFrame (l : Link) (kind : Byte) (bytes : List Byte) (s : State) : Host.Outcome State Fault Refusal :=
  .next (s.lift (Part.takeTransfer l kind bytes))

/-- UNKNOWN_REQUEST (R183): a well-framed request with its code and field bytes. -/
def execUnknownRequest (l : Link) (code : Byte) (fields : List Byte) (s : State) : Host.Outcome State Fault Refusal :=
  .next (s.lift (Part.takeTransfer l kindRequest (code :: byteOf fields.length :: fields)))

end Sys2Proof.Machine
end

