-- ==== Sys2Proof/Machine/Dispatch.lean ====
section
/-! DEFINITION. One arm for each command: a direct call of its meaning. -/

namespace Sys2Proof.Machine

def exec (i : Instr) (s : State) : Host.Outcome State Fault Refusal :=
  match i with
  | .coldStart => Sys2Proof.Machine.execColdStart s
  | .resetN => Sys2Proof.Machine.execResetN s
  | .insertion slot => Sys2Proof.Machine.execInsertion slot s
  | .removal slot => Sys2Proof.Machine.execRemoval slot s
  | .statusRead select => Sys2Proof.Machine.execStatusRead select s
  | .responseRead link clocked => Sys2Proof.Machine.execResponseRead link clocked s
  | .requestDiscarded link kind bytes => Sys2Proof.Machine.execRequestDiscarded link kind bytes s
  | .badFrame link kind bytes => Sys2Proof.Machine.execBadFrame link kind bytes s
  | .unknownRequest link code fields => Sys2Proof.Machine.execUnknownRequest link code fields s
  | .establish link body => Sys2Proof.Machine.execEstablish link body s
  | .modify link body => Sys2Proof.Machine.execModify link body s
  | .retire link handle => Sys2Proof.Machine.execRetire link handle s
  | .revive link handle => Sys2Proof.Machine.execRevive link handle s
  | .lookup link handle => Sys2Proof.Machine.execLookup link handle s
  | .findChannel link slot channel => Sys2Proof.Machine.execFindChannel link slot channel s
  | .findTimeslot link highway timeslot => Sys2Proof.Machine.execFindTimeslot link highway timeslot s
  | .list link cls filter cursor => Sys2Proof.Machine.execList link cls filter cursor s
  | .park link slot => Sys2Proof.Machine.execPark link slot s
  | .unpark link slot => Sys2Proof.Machine.execUnpark link slot s
  | .hold link slot => Sys2Proof.Machine.execHold link slot s
  | .releaseHold link slot => Sys2Proof.Machine.execReleaseHold link slot s
  | .adopt link slot => Sys2Proof.Machine.execAdopt link slot s
  | .vacate link slot => Sys2Proof.Machine.execVacate link slot s
  | .clearFault link slot => Sys2Proof.Machine.execClearFault link slot s
  | .audit link slot => Sys2Proof.Machine.execAudit link slot s
  | .powerCycle link slot => Sys2Proof.Machine.execPowerCycle link slot s
  | .slotSet link slot rank phase => Sys2Proof.Machine.execSlotSet link slot rank phase s
  | .profileSet link fields => Sys2Proof.Machine.execProfileSet link fields s
  | .busSet link fields => Sys2Proof.Machine.execBusSet link fields s
  | .budgetSet link fields => Sys2Proof.Machine.execBudgetSet link fields s
  | .supplySet link fields => Sys2Proof.Machine.execSupplySet link fields s
  | .status link => Sys2Proof.Machine.execStatus link s
  | .notices link clear => Sys2Proof.Machine.execNotices link clear s
  | .noticeMask link mask => Sys2Proof.Machine.execNoticeMask link mask s
  | .captureQuery link => Sys2Proof.Machine.execCaptureQuery link s
  | .captureClear link => Sys2Proof.Machine.execCaptureClear link s
  | .claim link => Sys2Proof.Machine.execClaim link s
  | .release link => Sys2Proof.Machine.execRelease link s
  | .takeover link => Sys2Proof.Machine.execTakeover link s
  | .reset link => Sys2Proof.Machine.execReset link s
  | .supplySample code => Sys2Proof.Machine.execSupplySample code s
  | .signalLoss => Sys2Proof.Machine.execSignalLoss s
  | .settleTimerExpiry => Sys2Proof.Machine.execSettleTimerExpiry s
  | .budgetTick => Sys2Proof.Machine.execBudgetTick s
  | .bringUpStallExpiry => Sys2Proof.Machine.execBringUpStallExpiry s
  | .loadStallExpiry => Sys2Proof.Machine.execLoadStallExpiry s
  | .bringUpTrial => Sys2Proof.Machine.execBringUpTrial s
  | .selection => Sys2Proof.Machine.execSelection s
  | .bootTimerExpiry slot => Sys2Proof.Machine.execBootTimerExpiry slot s
  | .alignTimerExpiry slot => Sys2Proof.Machine.execAlignTimerExpiry slot s
  | .offTimerExpiry slot => Sys2Proof.Machine.execOffTimerExpiry slot s
  | .stableTimerExpiry slot => Sys2Proof.Machine.execStableTimerExpiry slot s
  | .pollTimerExpiry slot => Sys2Proof.Machine.execPollTimerExpiry slot s
  | .completionTimeout slot index gen => Sys2Proof.Machine.execCompletionTimeout slot index gen s
  | .exchangeOpen seg => Sys2Proof.Machine.execExchangeOpen seg s
  | .replyWindowClose seg => Sys2Proof.Machine.execReplyWindowClose seg s
  | .replyBreakOff seg => Sys2Proof.Machine.execReplyBreakOff seg s
  | .pollReply seg reply => Sys2Proof.Machine.execPollReply seg reply s
  | .accept seg slot => Sys2Proof.Machine.execAccept seg slot s
  | .refuse seg slot reason => Sys2Proof.Machine.execRefuse seg slot reason s
  | .digestReply seg slot count s1 s2 => Sys2Proof.Machine.execDigestReply seg slot count s1 s2 s
  | .malformedOrUnexpectedReply seg bytes => Sys2Proof.Machine.execMalformedOrUnexpectedReply seg bytes s

end Sys2Proof.Machine
end

