-- ==== Sys2Proof/Safety.lean ====
section
/-! DEFINITION. What counts as a sound part: the laws the manual states of the whole machine, in the terms the statements
use. Each is a predicate over one state of the part. -/

namespace Sys2Proof.Machine

/-- A Card Profile Table entry is in its ranges (R50). -/
structure Profile.InRange (x : Profile) : Prop where
  channels : 1 ≤ x.channels ∧ x.channels ≤ 128
  inrush : x.inrush ≤ 4095
  base : x.base ≤ 2047
  shift : 1 ≤ x.shift ∧ x.shift ≤ 8
  cap : 1 ≤ x.cap ∧ x.cap ≤ 8

/-- The shelf bus settings are in their ranges (R51). -/
structure BusCfg.InRange (b : BusCfg) : Prop where
  w : 1 ≤ b.w ∧ b.w ≤ 8
  completion : b.completion ∈ [2, 5, 10, 20, 50, 100]
  missedLimit : 1 ≤ b.missedLimit ∧ b.missedLimit ≤ 7
  fastPoll : 1 ≤ b.fastPoll ∧ b.fastPoll ≤ 15
  slowPoll : 10 ≤ b.slowPoll ∧ b.slowPoll ≤ 250
  boot : 100 ≤ b.boot ∧ b.boot ≤ 25500 ∧ b.boot % 100 = 0
  align : 10 ≤ b.align ∧ b.align ≤ 2550
  off : 50 ≤ b.off ∧ b.off ≤ 2550
  attemptLimit : 1 ≤ b.attemptLimit ∧ b.attemptLimit ≤ 15

/-- The budget settings are in their ranges (R141). -/
structure BudgetCfg.InRange (b : BudgetCfg) : Prop where
  limit : 1000 ≤ b.limit ∧ b.limit ≤ 65535
  start : b.start ≤ 16
  slew : b.slew ≤ 11
  stall : b.stall = 0 ∨ (10 ≤ b.stall ∧ b.stall ≤ 2550)

/-- The supply settings are in their ranges and the thresholds in their order (R120, R121). -/
structure SupplyCfg.InRange (c : SupplyCfg) : Prop where
  dip : c.dip ≤ 1023
  cutoff : c.cutoff ≤ c.dip
  restore : c.restore ≤ 1023 ∧ (c.dip < c.restore ∨ c.dip = 1023 ∧ c.restore = 1023)
  nDip : 1 ≤ c.nDip ∧ c.nDip ≤ 255
  nCut : 1 ≤ c.nCut ∧ c.nCut ≤ 255
  nRest : 1 ≤ c.nRest ∧ c.nRest ≤ 255
  settle : 10 ≤ c.settle ∧ c.settle ≤ 2550
  shift : c.shift ≤ 4

/-- Every setting is in its range (R50, R51, R121, R141). -/
structure Settings.InRange (c : Settings) : Prop where
  profiles : ∀ ty : CardType, (c.profiles[ty]).InRange
  bus : c.bus.InRange
  budget : c.budget.InRange
  supply : c.supply.InRange

/-- The ceiling's law: at most LIMIT, and equal to it in NORMAL (R143); with the settings in range, on which RAMP_START's
place below LIMIT rests (R140). -/
structure Part.CeilingLaw (p : Part) : Prop where
  settings : p.cfg.InRange
  below : p.fbu.ceiling ≤ p.cfg.budget.limit
  normal : p.spm.state = .normal → p.fbu.ceiling = p.cfg.budget.limit

/-- A waiting-claim marker is 1 only on a link that does not own, and only while the other link owns (R188). -/
def Part.ClaimLaw (p : Part) : Prop := ∀ l, (p.link l).claim = true → p.owner = some (other l)

/-- A segment's transmit queue holds at most 16 frames (R83, R90). -/
def Part.QueueLaw (p : Part) : Prop := ∀ g, (p.seg g).queue.length ≤ 16

/-- An empty capture has counted no overflow, and the count stays within 0-255 (R102, R103). -/
def Part.CaptureLaw (p : Part) : Prop :=
  (p.capture.fault = none → p.capture.overflow = 0) ∧ p.capture.overflow ≤ 255

/-- The laws of one slot: an EMPTY slot is the one with no card seated (R54); each timer runs only in its state (R48, R61,
R63, R65); an audit context stands exactly in AUDITING (R105); a slot-engine frame stands only in the state that called for it
(R92); a slot whose enable is withdrawn has no charge, no POLL due, no poll timer, no card seen and no last reply (R49, R56,
R93, R145); and each figure is in its range (R48, R53, R83, R94). -/
structure Slot.Law (x : Slot) : Prop where
  seated : x.state = .empty ↔ x.seated = false
  boot : x.bootTimer.isSome = true → x.state = .dark
  align : x.alignTimer.isSome = true → x.state = .aligning
  off : x.offTimer.isSome = true → x.state = .off
  stable : x.stableTimer.isSome = true → x.state = .linked
  audit : x.audit.isSome = true ↔ x.state = .auditing
  engine : ∀ e, x.engine = some e → e.tries ≤ 7 ∧
    ((∃ ph, x.state = .aligning ∧ e.frame = .align ph) ∨ x.state = .auditing ∧ (e.frame = .digest ∨ e.frame = .clear) ∨
      x.state = .held ∧ e.frame = .clear)
  withdrawn : x.enable = false → x.inrush = 0 ∧ x.pollDue = false ∧ x.pollTimer = none ∧ x.cardSeen = none ∧
    x.lastReply = none
  depth : ∀ c, x.cardSeen = some c → 1 ≤ c.depth ∧ c.depth ≤ 8
  window : 1 ≤ x.window ∧ x.window ≤ 8
  outstanding : x.inflight.length ≤ 8
  attempts : x.attempts ≤ 15
  missed : x.missed ≤ 7

/-- The laws of every slot, with the settings in range, on which the window's range rests. -/
def Part.SlotsLaw (p : Part) : Prop := p.cfg.InRange ∧ ∀ i, (p.slot i).Law

/-- A segment with a free place in its queue has no eligible producer: grants follow at once (R91). -/
def Part.ArbiterLaw (p : Part) : Prop :=
  ∀ g, (p.seg g).queue.length < 16 → ∀ i, segOf i = g → ∀ c, (p.slot i).eligible c = false

/-- Select stands on one transfer at a time: an open one, which has shown at least its status byte, or one lost (R181, R182,
R183). -/
def Part.TransferLaw (p : Part) : Prop :=
  ∀ l, ((p.link l).lost = true → (p.link l).transfer = none) ∧
    ((p.link l).transfer.isSome = true → (p.link l).dataOut ≠ [])

/-- What holds of the links, the capture and the queues together. -/
structure Part.LinksAndBusLaw (p : Part) : Prop where
  claim : p.ClaimLaw
  transfers : p.TransferLaw
  capture : p.CaptureLaw
  queue : p.QueueLaw
  arbiter : p.ArbiterLaw

/-- The supply's course: the scheduler runs exactly in RECOVERY and NORMAL (R163); the recovery timer runs only in RECOVERY
(R123, R127); the settle timer runs only in SETTLING while samples come, and is held only while they do not (R117, R126); the
ceiling is 0 in a SAG, OUTAGE or SETTLING that follows an outage (R143); a stall state stands only in RECOVERY and NORMAL (R156,
R157); and each figure is in its range (R118, R120, R122). -/
structure Part.SupplyLaw (p : Part) : Prop where
  running : p.running = p.spm.state.up
  recovery : p.spm.recoveryRunning = true → p.spm.state = .recovery
  settle : (∀ left, p.spm.settle = .running left → p.spm.state = .settling ∧ p.spm.lost = false) ∧
    ∀ left, p.spm.settle = .held left → p.spm.state = .settling ∧ p.spm.lost = true
  signal : p.spm.signalTimer.isSome = !p.spm.lost
  outage : p.spm.state = .outage → p.spm.deep = true
  deep : p.spm.deep = true → p.spm.state.up = false → p.fbu.ceiling = 0
  stalls : p.spm.state.up = false → p.fbu.bringUp = .clear ∧ p.fbu.load = .clear
  average : ∀ a, p.spm.avg16 = some a → a ≤ 16368
  counters : p.spm.dip ≤ 255 ∧ p.spm.cut ≤ 255 ∧ p.spm.rest ≤ 255
  time : p.spm.recoveryTime ≤ 65535

/-- The table is canonical, and every non-FREE record is in exactly one Class List, once: the list of its class (R19). -/
structure Ctb.ListLaw (t : Ctb) : Prop where
  recs : Sparse.Rising t.recs
  gens : Sparse.Rising t.gens
  noZero : ∀ e ∈ t.gens, e.2 ≠ 0
  once : ∀ c, (t.list c).Nodup
  member : ∀ c k, k ∈ t.list c ↔ ∃ r, t.get k = some r ∧ r.cls = c

/-- A record's flags stand only in LOADING, and a refusal reason only, and always, in REFUSED (R8, R10, R11). -/
def Rec.FlagLaw (r : Rec) : Prop :=
  (r.state ≠ .loading → r.reload = false ∧ r.retire = false) ∧ (r.state = .refused ↔ r.reason.isSome = true)

/-- The law of `Rec.FlagLaw` for every record. -/
def Ctb.FlagLaw (t : Ctb) : Prop := ∀ k r, t.get k = some r → r.FlagLaw

/-- No two non-FREE records bind the same slot and channel (R16), no two send on the same highway and timeslot (R17), and
the legs of each keep the composition rules (R2). -/
structure Ctb.MapLaw (t : Ctb) : Prop where
  channel : ∀ j k r q, t.get j = some r → t.get k = some q → r.slot = q.slot → r.channel = q.channel → j = k
  timeslot : ∀ j k r q hw ts, t.get j = some r → t.get k = some q → r.holdsTimeslot hw ts = true →
    q.holdsTimeslot hw ts = true → j = k
  legs : ∀ k r, t.get k = some r → 1 ≤ r.legs.length ∧ r.legs.length ≤ 4 ∧ legConflict r.legs = false

/-- A partner link is mutual and joins two non-FREE records on different slots (R14). -/
def Ctb.PartnerLaw (t : Ctb) : Prop :=
  ∀ k r h, t.get k = some r → r.partner = some h →
    ∃ q, t.named h = some q ∧ q.partner = some (t.handle k) ∧ q.slot ≠ r.slot

/-- The laws of the Connection Table together. -/
structure Ctb.TableLaw (t : Ctb) : Prop where
  lists : t.ListLaw
  flags : t.FlagLaw
  maps : t.MapLaw
  partners : t.PartnerLaw

/-- Where a record may stand (R8, R9): PENDING, LOADING and DROPPING only on a running slot, SUSPENDED only on one that is not,
and LIVE on a running, DARK or AUDITING slot. -/
def Part.PlaceLaw (p : Part) : Prop :=
  ∀ k r, p.ctb.get k = some r →
    match r.state with
    | .pending | .loading | .dropping => p.slotRuns r.slot = true
    | .suspended => p.slotRuns r.slot = false
    | .live => p.slotRuns r.slot = true ∨ (p.slot r.slot).state = .dark ∨ (p.slot r.slot).state = .auditing
    | .refused => True

/-- The kind and handle of the in-flight entry a LOAD or DROP frame belongs to (R94). -/
def Frame.entry? : Frame → Option (TxnKind × Handle)
  | .load h _ _ => some (.load, h)
  | .drop h => some (.drop, h)
  | .poll | .align _ | .digest | .clear => none

/-- A slot's transactions, its records and its frames answer to each other (R48, R86, R94): an entry and a waiting DROP each name
a record of the slot, LOADING for a LOAD and DROPPING for a DROP; no handle stands twice; every LOADING record has a LOAD entry,
every DROPPING record a DROP entry or a place among the waiting DROPs; a LOAD or DROP in a queue has its entry, not yet sent, and
stands there once; one in an exchange that is not orphaned has its entry, sent; and no slot-engine frame is one of them (R90). -/
structure Part.TransactionLaw (p : Part) : Prop where
  entries : ∀ i, ∀ e ∈ (p.slot i).inflight, ∃ r, p.ctb.named e.handle = some r ∧ r.slot = i ∧
    r.state = match e.kind with
      | .load => .loading
      | .drop => .dropping
  drops : ∀ i, ∀ h ∈ (p.slot i).waitingDrops, ∃ r, p.ctb.named h = some r ∧ r.slot = i ∧ r.state = .dropping
  once : ∀ i, ((p.slot i).waitingDrops ++ (p.slot i).inflight.map Txn.handle).Nodup
  loading : ∀ k r, p.ctb.get k = some r → r.state = .loading →
    ∃ e ∈ (p.slot r.slot).inflight, e.handle = p.ctb.handle k ∧ e.kind = .load
  dropping : ∀ k r, p.ctb.get k = some r → r.state = .dropping →
    p.ctb.handle k ∈ (p.slot r.slot).waitingDrops ∨
      ∃ e ∈ (p.slot r.slot).inflight, e.handle = p.ctb.handle k ∧ e.kind = .drop
  queued : ∀ g, ∀ f ∈ (p.seg g).queue, ∀ x, f.frame.entry? = some x → segOf f.slot = g ∧
    ∃ e ∈ (p.slot f.slot).inflight, (e.kind, e.handle) = x ∧ e.sent = false
  apart : ∀ g, ((p.seg g).queue.filterMap fun f => f.frame.handle?).Nodup
  exchange : ∀ g e, (p.seg g).inProgress = some e → e.orphan = false → ∀ x, e.frame.entry? = some x →
    segOf e.slot = g ∧ ∃ t ∈ (p.slot e.slot).inflight, (t.kind, t.handle) = x ∧ t.sent = true
  engine : ∀ i e, (p.slot i).engine = some e → e.frame.isEngine = true

/-- The table, and where its records stand. -/
structure Part.RecordsLaw (p : Part) : Prop where
  table : p.ctb.TableLaw
  place : p.PlaceLaw
  transactions : p.TransactionLaw

/-! ### What a change leaves of the table -/

/-- The same record but for its partner field, which may be cleared: where it is, and where it is not, `Ctb.LinksKept` says
(R12, R15). -/
def Rec.Kept (r r' : Rec) : Prop := r' = r ∨ r' = { r with partner := none }

/-- An index keeps its generation and its record, FREE or not. -/
def Ctb.KeptAt (t t' : Ctb) (k : Index) : Prop :=
  t'.gen k = t.gen k ∧
    match t.get k with
    | none => t'.get k = none
    | some r => ∃ r', t'.get k = some r' ∧ r.Kept r'

/-- An index has undergone a treatment: FREE with its generation one on, or in the state the treatment gives (R7, R55,
R56). -/
def Ctb.TreatedAt (f : Fate) (t t' : Ctb) (k : Index) (r : Rec) : Prop :=
  match f r with
  | none => t'.get k = none ∧ t'.gen k = t.gen k + 1
  | some st => t'.gen k = t.gen k ∧ ∃ r', t'.get k = some r' ∧ (r.to st).Kept r'

/-- Every record that is left keeps its partner link, through whatever else became of it and of its partner (R15), but where the
partner the link names has become FREE: exactly there the field is cleared (R12). -/
def Ctb.LinksKept (t t' : Ctb) : Prop :=
  ∀ k r r', t.get k = some r → t'.get k = some r' → r'.partner = r.partner.filter fun h => (t'.named h).isSome

/-- The records of a slot have undergone a treatment; every other index stands; a partner link is cleared exactly where the
treatment freed the partner it names; the Class Lists have lost the freed indexes and are otherwise as they were. -/
structure Ctb.Treated (f : Fate) (i : SlotId) (t t' : Ctb) : Prop where
  slot : ∀ k r, t.get k = some r → r.slot = i → t.TreatedAt f t' k r
  others : ∀ k, (∀ r, t.get k = some r → r.slot ≠ i) → t.KeptAt t' k
  links : t.LinksKept t'
  lists : ∀ c, t'.list c = (t.list c).filter fun k => (t'.get k).isSome

/-- A record has become FREE (R7, R12, R21): its index one generation on, its partner's field cleared, itself off its list;
every other index keeps its record and generation, and every list its order. -/
structure Ctb.Freed (k : Index) (t t' : Ctb) : Prop where
  gone : t'.get k = none
  gen : ∀ j, t'.gen j = if j = k then t.gen j + 1 else t.gen j
  list : ∀ c, t'.list c = (t.list c).filter fun j => decide (j ≠ k)
  others : ∀ j, j ≠ k → t'.get j = (t.get j).map fun q =>
    if ((t.get k).bind Rec.partner).map Handle.index = some j then { q with partner := none } else q

/-- One record has been rewritten in place; every other record, every generation and every list stands (R21). -/
structure Ctb.Rewritten (k : Index) (r' : Rec) (t t' : Ctb) : Prop where
  record : t'.get k = some r'
  others : ∀ j, j ≠ k → t'.get j = t.get j
  gen : ∀ j, t'.gen j = t.gen j
  list : ∀ c, t'.list c = t.list c

/-! ### Requests -/

/-- The first condition that holds decides the value (R25: "the first check that fails decides the status code"). -/
def FirstOf {α : Type} : List (Prop × α) → α → Prop
  | [], _ => False
  | (c, a) :: rest, x => c ∧ x = a ∨ ¬c ∧ FirstOf rest x

/-- The bytes of a command go on from those its link's open transfer has taken; where none is open, or none is taken, any do
(R182, log 4). -/
def Part.Follows (p : Part) (c : Instr) : Prop :=
  ∀ l bytes, c.clocked = some (l, bytes) → goesOn ((p.link l).transfer.getD []) bytes = true

/-- The request changes the part to `q` and is answered with `r`, as its transfer ends. -/
def Answers (c : Instr) (l : Link) (s : State) (r : Response) (q : Part) : Prop :=
  s.part.Follows c → exec c s = .next ⟨Part.answer l r s.part q, s.pending⟩

/-- The request is refused: its status code is answered, with no body, and nothing else changes (R25, R186). -/
def Refuses (c : Instr) (l : Link) (s : State) (st : Status) : Prop := Answers c l s (refusal st) s.part

/-- The request is carried out: it changes the part to `q` and is answered OK with a body. -/
def Accepts (c : Instr) (l : Link) (s : State) (body : List Byte) (q : Part) : Prop := Answers c l s (okay body) q

/-- A link may have any request judged: its response buffer is empty (R183 step 1), and no lost transfer is under select
(R183, R198). -/
def Part.Hears (p : Part) (l : Link) : Prop := (p.link l).buffer = none ∧ (p.link l).lost = false

/-- A link may have a change request judged: also it owns the part (R183 steps 1 and 4). -/
def Part.Heeds (p : Part) (l : Link) : Prop := p.Hears l ∧ p.owner = some l

/-! ### What an entry to a slot state makes of a slot -/

/-- A running poll timer where the interval that applies has changed: cut to the new interval (R93). -/
def BusCfg.cut (b : BusCfg) (before after : PollClass) (t : Timer) : Timer :=
  if after = before then t
  else
    match b.interval after with
    | none => t
    | some n => t.map fun left => min left n

/-- A slot that has gone to a state with the enable withdrawn (R49, R54, R56, R90, R93). -/
def Slot.withdrawn (st : SlotState) (x : Slot) : Slot :=
  { x with
    state := st
    lastReply := none
    cardSeen := none
    waitingDrops := []
    inflight := []
    bootTimer := none
    alignTimer := none
    offTimer := none
    stableTimer := none
    pollTimer := none
    pollDue := false
    engine := none
    audit := none
    inrush := 0 }

/-- A slot that has gone to DARK with its enable driven, its boot timer as given (R55, R69, R71, R88). -/
def Slot.darkened (b : BusCfg) (boot : Timer) (x : Slot) : Slot :=
  { x with
    state := .dark
    lastReply := none
    waitingDrops := []
    inflight := []
    bootTimer := boot
    alignTimer := none
    offTimer := none
    stableTimer := none
    pollTimer := b.cut x.pollClass .fast x.pollTimer
    missed := 0
    engine := none
    audit := none }

/-- A slot that has gone to ALIGNING, AUDITING, RELINKING, HELD or MISMATCH, where the interval is as given. -/
def Slot.moved (b : BusCfg) (st : SlotState) (interval : PollClass) (x : Slot) : Slot :=
  { x with
    state := st
    waitingDrops := []
    inflight := []
    bootTimer := none
    alignTimer := none
    offTimer := none
    stableTimer := none
    pollTimer := b.cut x.pollClass interval x.pollTimer
    engine := none
    audit := none }

/-- A slot that has gone from RELINKING to LINKED: its list and waiting DROPs stay, its stable timer runs for 30 s (R65). -/
def Slot.linkedUp (b : BusCfg) (x : Slot) : Slot :=
  { x with
    state := .linked
    bootTimer := none
    alignTimer := none
    offTimer := none
    stableTimer := some 30000
    pollTimer := b.cut x.pollClass (if x.inflight.isEmpty then .slow else .fast) x.pollTimer
    engine := none
    audit := none }

/-- The slot's frames that an entry to a state ends: all where the enable is withdrawn; else slot-engine frames, and LOADs and
DROPs but on the move to LINKED (R89, R90, R94). -/
def SlotState.ends (st : SlotState) (f : Frame) : Bool :=
  !st.driven || f.isEngine || (!decide (st = .linked) && f.isWork)

/-- A segment after some slots' entries to a state: the frames of theirs that the entry ends are out of the queue or orphaned
(R89, R90). -/
def Segment.stripped (on : SlotId → Bool) (st : SlotState) (x : Segment) : Segment :=
  { x with
    queue := x.queue.filter fun f => !(on f.slot && st.ends f.frame)
    inProgress := x.inProgress.map fun e => if on e.slot && st.ends e.frame then { e with orphan := true } else e }

/-- The part but for one slot and the table, after that slot entered a state: the slot's frames the entry ends are out of the
queue or orphaned (R89, R90), a slot change is reported where the state is one of those of R80, and all else stands. -/
structure Part.Entered (i : SlotId) (st : SlotState) (p q : Part) : Prop where
  slots : ∀ j, j ≠ i → q.slot j = p.slot j
  queue : (q.seg (segOf i)).queue = (p.seg (segOf i)).queue.filter fun f => !(decide (f.slot = i) && st.ends f.frame)
  exchange : (q.seg (segOf i)).inProgress = (p.seg (segOf i)).inProgress.map fun e =>
    if e.slot = i ∧ st.ends e.frame = true then { e with orphan := true } else e
  pointers : ∀ c, (q.seg (segOf i)).ptr c = (p.seg (segOf i)).ptr c
  sent : (q.seg (segOf i)).sent = (p.seg (segOf i)).sent ∧
    (q.seg (segOf i)).exchanges = (p.seg (segOf i)).exchanges
  segment : ∀ g, g ≠ segOf i → q.seg g = p.seg g
  links : ∀ l, q.link l =
    if st = .linked ∨ st = .faulted ∨ st = .mismatch ∨ st = .empty then (p.link l).slotChanged i else p.link l
  cfg : q.cfg = p.cfg
  capture : q.capture = p.capture
  spm : q.spm = p.spm
  fbu : q.fbu = p.fbu
  running : q.running = p.running
  owner : q.owner = p.owner
  fillers : q.fillers = p.fillers

/-- A slot that has counted an attempt and added a fault kind (R68). -/
def Slot.counted (kind : BitVec 5) (x : Slot) : Slot :=
  { x with attempts := min 15 (x.attempts + 1), faults := x.faults ||| kind }

/-- A counted failure of a slot, up to what follows in the same change (R68): at or above the attempt limit the slot is FAULTED
with the power-off treatment; below it, its own rule `onward` says what it is. -/
def Part.Failed (i : SlotId) (kind : BitVec 5) (onward : Part → Prop) (p q : Part) : Prop :=
  let x := (p.slot i).counted kind
  (p.cfg.bus.attemptLimit ≤ x.attempts →
    p.Entered i .faulted q ∧ q.slot i = x.withdrawn .faulted ∧ p.ctb.Treated powerOffFate i q.ctb) ∧
  (x.attempts < p.cfg.bus.attemptLimit → onward q)

/-- What a card-lost event below the limit makes of a slot: DARK with the loss treatment, its boot timer started (R69). -/
def Part.Lost (i : SlotId) (kind : BitVec 5) (p q : Part) : Prop :=
  p.Entered i .dark q ∧ q.slot i = ((p.slot i).counted kind).darkened p.cfg.bus (some p.cfg.bus.boot) ∧
    p.ctb.Treated lossFate i q.ctb

/-- The states in which a card may be lost (R69). -/
def SlotState.losable : List SlotState := [.aligning, .auditing, .relinking, .linked, .held, .mismatch]

/-! ### Exchanges -/

/-- The part once the open exchange of a segment has ended: the segment is idle, and the slot's latest ALIGN mark stands at the
exchange where its frame was an ALIGN (R86). -/
def Part.idled (g : SegId) (e : Exchange) (p : Part) : Part :=
  (p.setSeg g { p.seg g with inProgress := none }).setSlot e.slot { p.slot e.slot with
    alignMark :=
      match e.frame with
      | .align _ => some e.number
      | .poll | .load _ _ _ | .drop _ | .digest | .clear => (p.slot e.slot).alignMark }

/-- At the end of a POLL's exchange the poll timer starts at the interval that then applies (R93). -/
def Part.polled (e : Exchange) (q : Part) : Part :=
  match e.frame with
  | .poll => q.setSlot e.slot
      { q.slot e.slot with pollTimer := q.cfg.bus.interval (q.slot e.slot).pollClass }
  | .align _ | .load _ _ _ | .drop _ | .digest | .clear => q

/-- A fault offered to the capture: it fills an empty one and raises BUS_FAULT on both links, or counts (R102). -/
def Part.captured (f : Captured) (p : Part) : Part :=
  if p.capture.fault = none then
    { p with
      capture := { p.capture with fault := some f }
      linkA := { p.linkA with pending := p.linkA.pending ||| Notice.busFault.flag }
      linkB := { p.linkB with pending := p.linkB.pending ||| Notice.busFault.flag } }
  else { p with capture := { p.capture with overflow := min 255 (p.capture.overflow + 1) } }

/-- What a missed reply in an exchange makes of the part `p` (R88, R92, R94): the missed count goes up where counting applies,
and the try count of a slot-engine frame; at the missed-reply limit of either the card is lost with MISSED_LIMIT. Said for slots
in a state in which a card may be lost, or in which nothing is counted. -/
structure Part.Missed (e : Exchange) (p q : Part) : Prop where
  uncounted : (p.slot e.slot).state = .dark ∨ p.spm.state.up = false → e.frame.isEngine = false → q = p
  counted : (p.slot e.slot).state ≠ .dark → p.spm.state.up = true → e.frame.isEngine = false →
    min 7 ((p.slot e.slot).missed + 1) < p.cfg.bus.missedLimit →
    q = p.setSlot e.slot { p.slot e.slot with missed := min 7 ((p.slot e.slot).missed + 1) }
  lost : (p.slot e.slot).state ∈ SlotState.losable → p.spm.state.up = true →
    p.cfg.bus.missedLimit ≤ min 7 ((p.slot e.slot).missed + 1) →
    ∃ p' : Part, p' = p.setSlot e.slot { p.slot e.slot with missed := min 7 ((p.slot e.slot).missed + 1) } ∧
      p'.Failed e.slot 8 (p'.Lost e.slot 8) q
  again : ∀ x, (p.slot e.slot).engine = some x → x.place = .inExchange → e.frame.isEngine = true →
    (p.slot e.slot).state ≠ .dark → p.spm.state.up = true →
    min 7 ((p.slot e.slot).missed + 1) < p.cfg.bus.missedLimit → min 7 (x.tries + 1) < p.cfg.bus.missedLimit →
    q = p.setSlot e.slot { p.slot e.slot with
      missed := min 7 ((p.slot e.slot).missed + 1)
      engine := some { x with tries := min 7 (x.tries + 1), place := .waiting } }
  spent : ∀ x, (p.slot e.slot).engine = some x → x.place = .inExchange → e.frame.isEngine = true →
    (p.slot e.slot).state ∈ SlotState.losable → p.spm.state.up = true →
    min 7 ((p.slot e.slot).missed + 1) < p.cfg.bus.missedLimit → p.cfg.bus.missedLimit ≤ min 7 (x.tries + 1) →
    ∃ p' : Part, p' = p.setSlot e.slot { p.slot e.slot with
        missed := min 7 ((p.slot e.slot).missed + 1)
        engine := some { x with tries := min 7 (x.tries + 1), place := .waiting } } ∧
      p'.Failed e.slot 8 (p'.Lost e.slot 8) q

end Sys2Proof.Machine
end

