-- ==== Sys2Proof/Certificates/Slice0/Obligations.lean ====
section
/-! DEFINITION. The statements about the part, for the provers. In the order: the queue, the control links, the Connection
Table's requests, slot actions, settings, ownership and notices, supply, budget, bring-up and restoration, slot timers and
presence, the segments, resets, and the laws every step keeps. -/

open Sys2Proof Sys2Proof.Machine

/-! ### The queue of commands -/

/-- A step takes the command at the front of the queue and carries it out on the part, the queue's rest left to wait;
with no command waiting the part idles (log 1). -/
def Obligations.StepTakesFront : Prop :=
  (∀ (c : Instr) (cs : List Instr) (s : State), s.pending = c :: cs → step s = exec c { s with pending := cs }) ∧
  ∀ s : State, s.pending = [] → step s = .next s

/-- Every command completes in every state: no command stops the part, and what it does to the part depends on the
part alone and leaves the queue. -/
def Obligations.EveryCommandCompletes : Prop :=
  ∀ (c : Instr) (p : Part), ∃ q : Part, ∀ cs : List Instr, exec c ⟨p, cs⟩ = .next ⟨q, cs⟩

/-! ### Transfers on the control links -/

/-- R184: a request that ends while a response waits is discarded, whatever its frame holds, a RESET included: nothing
changes but the overrun marker, which the status byte shows from then on; the transfer's own status byte, of a transfer
that opens now, shows the response ready. The transfer is over; of what it clocked out the status byte alone is recorded
(log 25). -/
def Obligations.UnreadResponseDiscardsRequest : Prop :=
  ∀ (s : State) (l : Link), (s.part.link l).buffer.isSome = true → (s.part.link l).lost = false →
    let x := s.part.link l
    let t : State :=
      ⟨s.part.setLink l { x with overrun := true, transfer := none, dataOut := s.part.opening l }, s.pending⟩
    (t.part.statusByte l).getLsbD 3 = true ∧ (s.part.statusByte l).getLsbD 7 = true ∧
    (x.transfer = none → s.part.opening l = [s.part.statusByte l]) ∧
    ∀ c, s.part.Follows c →
      ((∃ code fields, encodeRequest c = some (l, code, fields)) → exec c s = .next t) ∧
      (∀ kind bytes, c = .requestDiscarded l kind bytes ∨ c = .badFrame l kind bytes → kind ≠ 0xA5 → exec c s = .next t) ∧
      ∀ code fields, c = .unknownRequest l code fields → exec c s = .next t

/-- R25, R183, R187: a change request of a legal length from a link that is not the owner is refused NOT_OWNER,
whatever its fields hold. -/
def Obligations.OtherLinkRefused : Prop :=
  ∀ (s : State) (l : Link) (c : Instr) (code : Byte) (fields : List Byte), encodeRequest c = some (l, code, fields) →
    code ∈ [0x10, 0x11, 0x12, 0x13, 0x30, 0x31, 0x32, 0x33, 0x40, 0x41, 0x54, 0x6F] →
    lengthFits code fields.length = true → s.part.Hears l → s.part.owner ≠ some l → Refuses c l s .notOwner

/-- R183 steps 2 and 3, R201: a frame is wrong when its kind is neither REQUEST nor READ, when it ends inside its code
or length, when its length is not the count of its field bytes, or when its code's layout cannot have that length; a
right frame whose code names no request is refused UNKNOWN_REQUEST. The codes that name requests, with their legal
lengths, are the 23 of the table. -/
def Obligations.WrongFramesRefused : Prop :=
  (∀ (s : State) (l : Link), s.part.Hears l →
     (∀ kind bytes, kind ≠ 0x5A → kind ≠ 0xA5 → Refuses (.badFrame l kind bytes) l s .badFrame) ∧
     (∀ bytes : List Byte, bytes.length < 2 → Refuses (.badFrame l 0x5A bytes) l s .badFrame) ∧
     (∀ (code len : Byte) (fields : List Byte), fields.length ≠ len.toNat →
       Refuses (.badFrame l 0x5A (code :: len :: fields)) l s .badFrame) ∧
     (∀ (code len : Byte) (fields : List Byte) (lo hi : Nat), legalLength code = some (lo, hi) →
       (fields.length < lo ∨ hi < fields.length) →
       Refuses (.badFrame l 0x5A (code :: len :: fields)) l s .badFrame) ∧
     (∀ body : List Byte, (body.length < 10 ∨ 29 < body.length) → Refuses (.establish l body) l s .badFrame) ∧
     (∀ body : List Byte, (body.length < 4 ∨ 30 < body.length) → Refuses (.modify l body) l s .badFrame) ∧
     ∀ (code : Byte) (fields : List Byte), legalLength code = none → fields.length ≤ 255 →
       Refuses (.unknownRequest l code fields) l s .unknownRequest) ∧
  (∀ code : Byte, legalLength code =
     (([(0x10, 10, 29), (0x11, 4, 30), (0x12, 3, 3), (0x13, 3, 3), (0x20, 3, 3), (0x21, 2, 2), (0x22, 3, 3),
       (0x23, 5, 5), (0x30, 2, 2), (0x31, 3, 3), (0x32, 8, 8), (0x33, 12, 12), (0x40, 6, 6), (0x41, 12, 12),
       (0x50, 0, 0), (0x51, 2, 2), (0x52, 2, 2), (0x53, 0, 0), (0x54, 0, 0), (0x60, 0, 0), (0x61, 0, 0),
       (0x62, 0, 0), (0x6F, 0, 0)] : List (Byte × Nat × Nat)).find? fun e => decide (e.1 = code)).map Prod.snd)

/-- R201, R202: a request read from the frame it is written as is the request, with every field at every value its
bytes hold; and the bodies of an ESTABLISH and of a MODIFY read back every part, at every value its coding holds. -/
def Obligations.RequestsReadBack : Prop :=
  (∀ (c : Instr) (l : Link) (code : Byte) (fields : List Byte), c.wellFormed = true →
     encodeRequest c = some (l, code, fields) →
     judgeFrame 0x5A (code :: byteOf fields.length :: fields) = .request code fields ∧
       decodeRequest l code fields = some c) ∧
  ((∀ q : EstablishReq, 1 ≤ q.legs.length → q.legs.length ≤ 4 →
     10 ≤ q.bytes.length ∧ q.bytes.length ≤ 29 ∧ readEstablish q.bytes = some q) ∧
   ∀ q : ModifyReq, (∀ g, q.legs = some g → 1 ≤ g.length ∧ g.length ≤ 4) →
     (q.legs.isSome || q.cost.isSome || q.cls.isSome || q.tag.isSome || q.partner.isSome) = true →
     4 ≤ q.bytes.length ∧ q.bytes.length ≤ 30 ∧ readModify q.bytes = some q)

/-- The transfer of a request's frame does what the request does, and that of a READ what a response read of as many bytes does
(log 17); a SLOT_ACTION whose action is outside the list is refused BAD_FIELD (R74); the bytes of a card's reply do what the
reply does (R204, log 18). -/
def Obligations.RawBytesRunTheirCommand : Prop :=
  (∀ (s : State) (c : Instr) (l : Link) (code : Byte) (fields : List Byte), c.wellFormed = true →
    encodeRequest c = some (l, code, fields) →
    exec (.badFrame l 0x5A (code :: byteOf fields.length :: fields)) s = exec c s) ∧
  (∀ (s : State) (l : Link) (bytes : List Byte),
    exec (.badFrame l 0xA5 bytes) s = exec (.responseRead l bytes.length) s) ∧
  (∀ (s : State) (l : Link) (slot action : Byte), s.part.Heeds l → action.toNat ∉ [1, 2, 3, 4, 5, 6, 7, 8, 9] →
    Refuses (.badFrame l 0x5A [0x30, 2, slot, action]) l s .badField) ∧
  ∀ (s : State) (g : SegId) (slot : Byte),
    let sent (kind : Byte) (body : List Byte) : Instr :=
      let bs := kind :: slot :: byteOf body.length :: body
      .malformedOrUnexpectedReply g (bs ++ [bs.foldl (fun c b => c ^^^ b) 0])
    (∀ w : WirePoll, w.slot = slot → w.completions.length ≤ 61 →
      exec (sent 0x81 ([w.phase, w.bootCount, w.cardType, byteOf (w.serial.toNat / 16777216),
        byteOf (w.serial.toNat / 65536), byteOf (w.serial.toNat / 256), byteOf w.serial.toNat, w.depth, w.fatal,
        byteOf w.completions.length] ++ w.completions.flatMap fun c =>
          [byteOf (c.handle.index.toNat / 256), byteOf c.handle.index.toNat, c.handle.gen, c.result])) s =
        exec (.pollReply g w) s) ∧
    exec (sent 0x82 []) s = exec (.accept g slot) s ∧
    (∀ r, exec (sent 0x83 [r]) s = exec (.refuse g slot r) s) ∧
    ∀ (n : BitVec 16) (x : BitVec 24) (y : BitVec 32),
      exec (sent 0x84 [byteOf (n.toNat / 256), byteOf n.toNat, byteOf (x.toNat / 65536), byteOf (x.toNat / 256),
        byteOf x.toNat, byteOf (y.toNat / 16777216), byteOf (y.toNat / 65536), byteOf (y.toNat / 256), byteOf y.toNat]) s =
        exec (.digestReply g slot n x y) s

/-- R182, R201: a status read clocks out the status byte and changes nothing else; the byte shows the response
waiting, a pending kind, the owner and the overrun marker, each at its bits. R181, R183, and log 4: a transfer that stays
under select stands open with the bytes taken so far; its status byte is that of its opening, and in a READ the response and
then filler follow it. Bytes that do not go on from those taken change nothing. Of a lost transfer nothing is read: select's
removal ends it. -/
def Obligations.StatusReadsAndOpenTransfers : Prop :=
  ∀ (s : State) (l : Link),
    let p := s.part
    let x := p.link l
    let b := p.statusByte l
    let taken := x.transfer.getD []
    let out := match x.transfer with
      | none => [b]
      | some _ => x.dataOut
    let withLink (y : LinkRec) : State := ⟨p.setLink l y, s.pending⟩
    let follows (bytes : List Byte) : Prop :=
      taken = [] ∨ (taken.head? ≠ some 0xA5 ∧ taken <+: bytes) ∨
        (taken.head? = some 0xA5 ∧ bytes.head? = some 0xA5 ∧ taken.length ≤ bytes.length)
    ((b.getLsbD 7 = true ↔ x.buffer.isSome = true) ∧ (b.getLsbD 6 = true ↔ x.pending ≠ 0) ∧
      (b.extractLsb' 4 2 = 0 ↔ p.owner = none) ∧ (b.extractLsb' 4 2 = 1 ↔ p.owner = some l) ∧
      (b.extractLsb' 4 2 = 2 ↔ p.owner = some (other l)) ∧ (b.getLsbD 3 = true ↔ x.overrun = true) ∧
      b.extractLsb' 0 3 = 0) ∧
    (x.lost = false →
      (taken = [] → exec (.statusRead ⟨l, none⟩) s = .next (withLink { x with transfer := none, dataOut := out })) ∧
      (∀ bytes, follows bytes → bytes.head? ≠ some 0xA5 →
        exec (.statusRead ⟨l, some bytes⟩) s = .next (withLink { x with transfer := some bytes, dataOut := out })) ∧
      (∀ more, follows (0xA5 :: more) → ∃ filler : List Byte,
        let bytes := (x.buffer.map fun r => r.status.code :: byteOf r.body.length :: r.body).getD []
        filler.length = more.length - max (taken.length - 1) bytes.length ∧
        exec (.statusRead ⟨l, some (0xA5 :: more)⟩) s = .next ⟨{ p.setLink l { x with
          transfer := some (0xA5 :: more)
          dataOut := out ++ (bytes.take more.length).drop (taken.length - 1) ++ filler } with
          fillers := p.fillers + filler.length }, s.pending⟩) ∧
      (∀ bytes, ¬follows bytes → exec (.statusRead ⟨l, some bytes⟩) s = .next s) ∧
      ∀ c bytes, c.clocked = some (l, bytes) → (s.part.Follows c ↔ follows bytes) ∧ (¬follows bytes → exec c s = .next s)) ∧
    (x.lost = true →
      (∀ c bytes, c.clocked = some (l, bytes) → exec c s = .next (withLink { x with lost := false })) ∧
      ∀ bytes, exec (.statusRead ⟨l, some bytes⟩) s = .next s)

/-- R185: a read that clocks the whole response consumes it and clears the overrun marker; one cut short leaves both;
one of an empty buffer changes nothing. The read ends: it opens now, or stands open with its kind and `sofar` bytes clocked
after the status byte. Beside data out, the count of filler bytes drawn goes up where bytes are clocked beyond the response:
what those bytes are the manual does not say (log 5). R201: the status codes, one by one. -/
def Obligations.ResponseRead : Prop :=
  (([.ok, .badFrame, .unknownRequest, .badField, .notOwner, .ownedElsewhere, .staleHandle, .channelTaken, .timeslotTaken,
    .tableFull, .legConflict, .partnerInvalid, .slotBusy, .wrongState, .incompatible] : List Status).map Status.code =
    [0x00, 0x01, 0x02, 0x03, 0x04, 0x05, 0x06, 0x07, 0x08, 0x09, 0x0A, 0x0B, 0x0C, 0x0D, 0x0E]) ∧
  ∀ (s : State) (l : Link) (n sofar : Nat),
    let p := s.part
    let x := p.link l
    let out := match x.transfer with
      | none => [p.statusByte l]
      | some _ => x.dataOut
    x.lost = false →
    (x.transfer.getD [] = [] ∧ sofar = 0 ∨ ∃ more, x.transfer = some (0xA5 :: more) ∧ more.length = sofar ∧ sofar ≤ n) →
    (∀ r, x.buffer = some r → 2 + r.body.length ≤ n →
      ∃ filler : List Byte, filler.length = n - max sofar (2 + r.body.length) ∧
        exec (.responseRead l n) s = .next ⟨{ p.setLink l { x with
          buffer := none
          overrun := false
          transfer := none
          dataOut := out ++ (r.status.code :: byteOf r.body.length :: r.body).drop sofar ++ filler } with
          fillers := p.fillers + filler.length }, s.pending⟩) ∧
    (∀ r, x.buffer = some r → n < 2 + r.body.length →
      exec (.responseRead l n) s = .next ⟨p.setLink l { x with
        transfer := none
        dataOut := out ++ ((r.status.code :: byteOf r.body.length :: r.body).take n).drop sofar }, s.pending⟩) ∧
    (x.buffer = none →
      ∃ filler : List Byte, filler.length = n - sofar ∧
        exec (.responseRead l n) s =
          .next ⟨{ p.setLink l { x with transfer := none, dataOut := out ++ filler } with
            fillers := p.fillers + filler.length }, s.pending⟩)

/-! ### Requests on records -/

/-- R5, R37, R41, R42: a handle out of range is refused BAD_FIELD; one whose index is FREE or whose generation differs
is refused STALE_HANDLE. R74, R52, R50: a slot above 23, or a card type above 15, is refused BAD_FIELD. -/
def Obligations.ArgumentsChecked : Prop :=
  (∀ (s : State) (l : Link) (w : WireHandle),
     let bad := 4096 ≤ w.index.toNat ∨ 16 ≤ w.gen.toNat
     let stale := ∃ h : Handle, w = h.wire ∧ (s.part.ctb.get h.index = none ∨ s.part.ctb.gen h.index ≠ h.gen)
     (s.part.Heeds l → bad → Refuses (.retire l w) l s .badField ∧ Refuses (.revive l w) l s .badField) ∧
     (s.part.Hears l → bad → Refuses (.lookup l w) l s .badField) ∧
     (s.part.Heeds l → stale → Refuses (.retire l w) l s .staleHandle ∧ Refuses (.revive l w) l s .staleHandle) ∧
     (s.part.Hears l → stale → Refuses (.lookup l w) l s .staleHandle)) ∧
  (∀ (s : State) (l : Link) (slot : Byte), s.part.Heeds l →
     (24 ≤ slot.toNat →
       (∀ c ∈ [Instr.park l slot, .unpark l slot, .hold l slot, .releaseHold l slot, .adopt l slot, .vacate l slot,
         .clearFault l slot, .audit l slot, .powerCycle l slot], Refuses c l s .badField) ∧
       ∀ rank phase, Refuses (.slotSet l slot rank phase) l s .badField) ∧
     ∀ f : WireProfile, 16 ≤ f.cardType.toNat → Refuses (.profileSet l f) l s .badField)

/-- R30: an ESTABLISH that passes its checks takes the lowest FREE index at its generation, writes the record, places
it at the tail of its class, takes its map entries, links its partner, and answers the handle and the state taken; no
other record, generation or list, and nothing outside the table, changes. -/
def Obligations.EstablishCreatesRecord : Prop :=
  ∀ (s : State) (l : Link) (q : EstablishReq) (k : Index),
    let t := s.part.ctb
    let st : RecState := if (s.part.slot q.slot).state.running then .pending else .suspended
    s.part.Heeds l → t.TableLaw → 1 ≤ q.legs.length → q.legs.length ≤ 4 →
    q.channel.val < s.part.channelLimit q.slot → legConflict q.legs = false →
    t.channelMap q.slot q.channel = none →
    (∀ g ∈ q.legs, g.sends = true → t.timeslotMap g.highway g.timeslot = none) →
    (∀ h, q.partner = some h → ∃ r, t.named h = some r ∧ r.slot ≠ q.slot ∧ r.partner = none) →
    t.get k = none → (∀ j < k, t.get j ≠ none) →
    ∃ t' : Ctb,
      Accepts (.establish l q.bytes) l s ((t.handle k).bytes ++ [st.code]) { s.part with ctb := t' } ∧
      t'.get k = some ⟨q.cls, q.slot, q.channel, q.legs, q.cost, q.partner, q.tag, st, false, false, none⟩ ∧
      (∀ j, j ≠ k → t'.get j = (t.get j).map fun r =>
        if q.partner.map Handle.index = some j then { r with partner := some (t.handle k) } else r) ∧
      (∀ j, t'.gen j = t.gen j) ∧
      (∀ c, t'.list c = if c = q.cls then t.list c ++ [k] else t.list c) ∧
      t'.channelMap q.slot q.channel = some (t.handle k) ∧
      (∀ g ∈ q.legs, g.sends = true → t'.timeslotMap g.highway g.timeslot = some (t.handle k)) ∧
      t'.countFree + 1 = t.countFree ∧ (∀ x, t'.count x = t.count x + if x = st then 1 else 0) ∧ t'.draw = t.draw

/-- R27, R28, R29: ESTABLISH makes its checks in the order of the list, and the first that fails decides the status
code. A body that is not laid out as R202 gives, with every field in its coding, is refused first. -/
def Obligations.EstablishChecksInOrder : Prop :=
  ∀ (s : State) (l : Link),
    let t := s.part.ctb
    s.part.Heeds l →
    (∀ body : List Byte, 10 ≤ body.length → body.length ≤ 29 →
      (∀ q : EstablishReq, 1 ≤ q.legs.length → q.legs.length ≤ 4 → body ≠ q.bytes) →
      Refuses (.establish l body) l s .badField) ∧
    ∀ (q : EstablishReq) (st : Status), 1 ≤ q.legs.length → q.legs.length ≤ 4 →
      FirstOf [
        (s.part.channelLimit q.slot ≤ q.channel.val, .badField),
        (1 < (q.legs.filter Leg.receives).length ∨ ¬(q.legs.map fun g => (g.highway, g.timeslot)).Nodup, .legConflict),
        (∃ j r, t.get j = some r ∧ r.slot = q.slot ∧ r.channel = q.channel, .channelTaken),
        (∃ g ∈ q.legs, g.sends = true ∧ ∃ j r, t.get j = some r ∧ r.holdsTimeslot g.highway g.timeslot = true,
          .timeslotTaken),
        (∃ h, q.partner = some h ∧ t.named h = none, .staleHandle),
        (∃ h r, q.partner = some h ∧ t.named h = some r ∧ (r.slot = q.slot ∨ r.partner.isSome = true),
          .partnerInvalid),
        (∀ k, t.get k ≠ none, .tableFull)] st →
      Sparse.Rising t.recs → Refuses (.establish l q.bytes) l s st

/-- The record a MODIFY leaves, by the table of R34: the parts present are written; a LIVE record on a running slot
becomes PENDING, a LOADING record is flagged for reload, and every other keeps its state, flags and reason. -/
def Obligations.ModifyWritesRecord : Prop :=
  ∀ (s : State) (l : Link) (q : ModifyReq) (r : Rec),
    let t := s.part.ctb
    let k := q.handle.index
    let reloads := r.state = .live ∧ (s.part.slot r.slot).state.running = true
    s.part.Heeds l → t.TableLaw → t.named q.handle = some r →
    (q.legs.isSome || q.cost.isSome || q.cls.isSome || q.tag.isSome || q.partner.isSome) = true →
    (∀ g, q.legs = some g → 1 ≤ g.length ∧ g.length ≤ 4 ∧ legConflict g = false ∧
      ∀ x ∈ g, x.sends = true → ∀ h, t.timeslotMap x.highway x.timeslot = some h → h = q.handle) →
    (∀ h, q.partner = some (some h) → ∃ x, t.named h = some x ∧ x.slot ≠ r.slot ∧ h.index ≠ k ∧
      (x.partner = none ∨ x.partner = some q.handle)) →
    r.state ≠ .dropping → ¬(r.state = .loading ∧ r.retire = true) →
    ∃ (t' : Ctb) (r' : Rec),
      Accepts (.modify l q.bytes) l s [r'.state.code] { s.part with ctb := t' } ∧ t'.get k = some r' ∧
      r'.legs = q.legs.getD r.legs ∧ r'.cost = q.cost.getD r.cost ∧ r'.cls = q.cls.getD r.cls ∧
      r'.tag = q.tag.getD r.tag ∧ r'.partner = q.partner.getD r.partner ∧ r'.slot = r.slot ∧ r'.channel = r.channel ∧
      (reloads → r'.state = .pending) ∧ (¬reloads → r'.state = r.state) ∧
      (r'.reload = true ↔ r.state = .loading) ∧ r'.retire = false ∧ r'.reason = r.reason ∧
      (∀ j, j ≠ k → t'.get j = (t.get j).map fun x =>
        if (q.partner.join).map Handle.index = some j then { x with partner := some q.handle }
        else if q.partner.isSome = true ∧ r.partner.map Handle.index = some j then { x with partner := none }
        else x) ∧
      (∀ j, t'.gen j = t.gen j) ∧
      ∀ c, t'.list c =
        if r'.cls = r.cls then t.list c
        else if c = r.cls then (t.list c).filter fun j => decide (j ≠ k)
        else if c = r'.cls then t.list c ++ [k]
        else t.list c

/-- R32, R33: MODIFY makes its checks in the order of the list, and the first that fails decides the status code. A
body that is not laid out as R201 gives, with some part and every field in its coding, is refused first. -/
def Obligations.ModifyChecksInOrder : Prop :=
  ∀ (s : State) (l : Link),
    let t := s.part.ctb
    let some_part (q : ModifyReq) : Prop :=
      (q.legs.isSome || q.cost.isSome || q.cls.isSome || q.tag.isSome || q.partner.isSome) = true ∧
        ∀ g, q.legs = some g → 1 ≤ g.length ∧ g.length ≤ 4
    s.part.Heeds l → Sparse.Rising t.recs →
    (∀ body : List Byte, 4 ≤ body.length → body.length ≤ 30 → (∀ q : ModifyReq, some_part q → body ≠ q.bytes) →
      Refuses (.modify l body) l s .badField) ∧
    (∀ q : ModifyReq, some_part q → t.named q.handle = none → Refuses (.modify l q.bytes) l s .staleHandle) ∧
    ∀ (q : ModifyReq) (r : Rec) (st : Status), some_part q → t.named q.handle = some r →
      FirstOf [
        (r.state = .dropping ∨ (r.state = .loading ∧ r.retire = true), .wrongState),
        (∃ g, q.legs = some g ∧ (1 < (g.filter Leg.receives).length ∨
          ¬(g.map fun x => (x.highway, x.timeslot)).Nodup), .legConflict),
        (∃ g x h, q.legs = some g ∧ x ∈ g ∧ x.sends = true ∧
          t.timeslotMap x.highway x.timeslot = some h ∧ h ≠ q.handle, .timeslotTaken),
        (∃ h, q.partner = some (some h) ∧ t.named h = none, .staleHandle),
        (∃ h x, q.partner = some (some h) ∧ t.named h = some x ∧ (x.slot = r.slot ∨ h = q.handle ∨
          ∃ y, x.partner = some y ∧ y ≠ q.handle), .partnerInvalid)] st →
      Refuses (.modify l q.bytes) l s st

/-- R37, R38, R39, R40: RETIRE by the record's state. A record that becomes FREE may be the last that holds its slot
in RELINKING (`linkedTest`, R65), and queue places may be granted at once (`follow`, R91). -/
def Obligations.RetireByState : Prop :=
  ∀ (s : State) (l : Link) (h : Handle) (r : Rec),
    let p := s.part
    let k := h.index
    let runs := (p.slot r.slot).state.running = true
    p.Heeds l → p.ctb.TableLaw → p.ctb.named h = some r →
    (r.state = .suspended ∨ r.state = .pending ∨ r.state = .refused ∨ (r.state = .live ∧ ¬runs) →
      ∃ t', p.ctb.Freed k t' ∧ Accepts (.retire l h.wire) l s [0] (({ p with ctb := t' }.linkedTest r.slot).follow)) ∧
    (r.state = .live → runs →
      ∃ t', p.ctb.Rewritten k { r with state := .dropping } t' ∧
        Accepts (.retire l h.wire) l s [5]
          (({ p with ctb := t' }.setSlot r.slot
            { p.slot r.slot with waitingDrops := (p.slot r.slot).waitingDrops ++ [h] }).follow)) ∧
    (r.state = .loading →
      ∃ t', p.ctb.Rewritten k { r with retire := true } t' ∧
        Accepts (.retire l h.wire) l s [3] { p with ctb := t' }) ∧
    (r.state = .dropping → Accepts (.retire l h.wire) l s [5] p)

/-- R41: REVIVE of a REFUSED record removes the reason and puts it in PENDING where its slot is RELINKING or LINKED,
else in SUSPENDED; a record in another state is refused WRONG_STATE, a stale handle STALE_HANDLE, one out of range
BAD_FIELD. -/
def Obligations.ReviveLiftsRefusal : Prop :=
  ∀ (s : State) (l : Link), s.part.Heeds l →
    (∀ w : WireHandle, (4096 ≤ w.index.toNat ∨ 16 ≤ w.gen.toNat) → Refuses (.revive l w) l s .badField) ∧
    (∀ h : Handle, s.part.ctb.named h = none → Refuses (.revive l h.wire) l s .staleHandle) ∧
    ∀ (h : Handle) (r : Rec), s.part.ctb.named h = some r →
      (r.state ≠ .refused → Refuses (.revive l h.wire) l s .wrongState) ∧
      (r.state = .refused →
        let st : RecState := if (s.part.slot r.slot).state.running then .pending else .suspended
        ∃ t', s.part.ctb.Rewritten h.index
            { r with state := st, reload := false, retire := false, reason := none } t' ∧
          Accepts (.revive l h.wire) l s [st.code] { s.part with ctb := t' })

/-- R42: LOOKUP answers the named record, field by field in the layout of R202, and changes nothing; a handle out of
range is refused BAD_FIELD, a stale one STALE_HANDLE. R200, R202, R203: the codings of class, direction and state, one by
one. -/
def Obligations.LookupAnswersRecord : Prop :=
  (([.c0, .c1, .c2, .c3] : List Cls).map Cls.code = [0, 1, 2, 3] ∧
    ([.tx, .rx, .both] : List Dir).map Dir.code = [1, 2, 3] ∧
    ([.suspended, .pending, .loading, .live, .dropping, .refused] : List RecState).map RecState.code = [1, 2, 3, 4, 5, 6]) ∧
  (∀ (s : State) (l : Link), s.part.Hears l →
    (∀ w : WireHandle, (4096 ≤ w.index.toNat ∨ 16 ≤ w.gen.toNat) → Refuses (.lookup l w) l s .badField) ∧
    ∀ h : Handle, s.part.ctb.named h = none → Refuses (.lookup l h.wire) l s .staleHandle) ∧
  ∀ (s : State) (l : Link) (h : Handle) (r : Rec), s.part.Hears l → s.part.ctb.named h = some r →
    Accepts (.lookup l h.wire) l s
      ([byteOf (h.index.val / 256), byteOf h.index.val, byteOf h.gen.val, r.cls.code, byteOf r.slot.val,
        byteOf r.channel.val, byteOf r.cost.val, r.state.code,
        (if r.reload then 1 else 0) + (if r.retire then 2 else 0) + (if r.partner.isSome then 4 else 0) +
          (if r.tag.isSome then 8 else 0),
        match r.reason with
          | none => 0
          | some .channelRejected => 1
          | some .legRejected => 2
          | some .loadFailed => 3] ++
        (match r.partner with
          | none => [0, 0, 0]
          | some x => [byteOf (x.index.val / 256), byteOf x.index.val, byteOf x.gen.val]) ++
        (match r.tag with
          | none => [0, 0, 0, 0]
          | some x => [byteOf (x.toNat / 16777216), byteOf (x.toNat / 65536), byteOf (x.toNat / 256), byteOf x.toNat]) ++
        [byteOf r.legs.length] ++
        r.legs.flatMap fun g => [byteOf g.highway.val, g.dir.code, byteOf (g.timeslot.val / 256), byteOf g.timeslot.val])
      s.part

/-- R43, R203: FIND_CHANNEL answers the record bound to the slot and channel, FIND_TIMESLOT the one that sends on the
timeslot, in any state; none where there is none; BAD_FIELD out of range. Neither changes anything. -/
def Obligations.MapLookups : Prop :=
  ∀ (s : State) (l : Link), s.part.Hears l → s.part.ctb.TableLaw →
    let t := s.part.ctb
    let found (k : Index) : List Byte := [1, byteOf (k.val / 256), byteOf k.val, byteOf (t.gen k).val]
    (∀ i c : Byte, (24 ≤ i.toNat ∨ 128 ≤ c.toNat) → Refuses (.findChannel l i c) l s .badField) ∧
    (∀ (i : SlotId) (c : Channel),
      (∀ k r, t.get k = some r → r.slot = i → r.channel = c →
        Accepts (.findChannel l (byteOf i.val) (byteOf c.val)) l s (found k) s.part) ∧
      ((∀ k r, t.get k = some r → ¬(r.slot = i ∧ r.channel = c)) →
        Accepts (.findChannel l (byteOf i.val) (byteOf c.val)) l s [0, 0, 0, 0] s.part)) ∧
    (∀ (hw : Byte) (ts : BitVec 16), (4 ≤ hw.toNat ∨ 512 ≤ ts.toNat) → Refuses (.findTimeslot l hw ts) l s .badField) ∧
    ∀ (hw : Fin 4) (ts : Fin 512),
      (∀ k r g, t.get k = some r → g ∈ r.legs → g.highway = hw → g.timeslot = ts → g.dir ≠ .rx →
        Accepts (.findTimeslot l (byteOf hw.val) (BitVec.ofNat 16 ts.val)) l s (found k) s.part) ∧
      ((∀ k r g, t.get k = some r → g ∈ r.legs → ¬(g.highway = hw ∧ g.timeslot = ts ∧ g.dir ≠ .rx)) →
        Accepts (.findTimeslot l (byteOf hw.val) (BitVec.ofNat 16 ts.val)) l s [0, 0, 0, 0] s.part)

/-- R44, R45: LIST walks the list from HEAD or from the cursor's record on. With fewer than 16 records in the filter
it answers them all and END; else it answers the first 16, and as next cursor the record that follows the sixteenth,
or END. A class above 3, a filter that names no state, FREE, or a bit that stands for nothing, and a cursor out of
range or of another class give BAD_FIELD; a stale cursor gives STALE_HANDLE. -/
def Obligations.ListPagesAndRefusals : Prop :=
  (∀ (s : State) (l : Link) (c : Cls) (filter : Byte) (w : WireHandle) (before walked : List Index),
     let t := s.part.ctb
     let bytes (k : Index) : List Byte := [byteOf (k.val / 256), byteOf k.val, byteOf (t.gen k).val]
     let matched (k : Index) : Bool :=
       match t.get k with
       | none => false
       | some r => filter.getLsbD (r.state.code.toNat - 1)
     s.part.Hears l → t.TableLaw → filter ≠ 0 → filter.toNat < 64 →
     (w = ⟨0xFFFF, 0xFF⟩ ∧ before = [] ∨ ∃ k rest, w = (t.handle k).wire ∧ walked = k :: rest) →
     t.list c = before ++ walked →
     ((walked.filter matched).length < 16 →
       Accepts (.list l c.code filter w) l s
         (byteOf (walked.filter matched).length :: (walked.filter matched).flatMap bytes ++ [0xFF, 0xFF, 0xFF]) s.part) ∧
     ∀ pre k post, walked = pre ++ k :: post → (pre.filter matched).length = 15 → matched k = true →
       Accepts (.list l c.code filter w) l s
         (16 :: (pre.filter matched ++ [k]).flatMap bytes ++
           match post with
           | [] => [0xFF, 0xFF, 0xFF]
           | j :: _ => bytes j) s.part) ∧
  (∀ (s : State) (l : Link), s.part.Hears l →
     (∀ c filter w, 4 ≤ c.toNat → Refuses (.list l c filter w) l s .badField) ∧
     ∀ (c : Cls) (filter : Byte) (w : WireHandle),
       ((filter = 0 ∨ 64 ≤ filter.toNat) → Refuses (.list l c.code filter w) l s .badField) ∧
       (filter ≠ 0 → filter.toNat < 64 →
         ((4096 ≤ w.index.toNat ∨ 16 ≤ w.gen.toNat) → w ≠ ⟨0xFFFF, 0xFF⟩ →
           Refuses (.list l c.code filter w) l s .badField) ∧
         (∀ h : Handle, w = h.wire → s.part.ctb.named h = none → Refuses (.list l c.code filter w) l s .staleHandle) ∧
         ∀ (h : Handle) (r : Rec), w = h.wire → s.part.ctb.named h = some r → r.cls ≠ c →
           Refuses (.list l c.code filter w) l s .badField))

/-! ### Slot actions -/

/-- R75: PARK sets the parked flag; in HELD and MISMATCH it also applies the power-off treatment and the slot goes to
OFF, not cooling; in a state it does not accept it is refused SLOT_BUSY. UNPARK clears the flag in every state. R77,
R79: CLEAR_FAULT takes a FAULTED slot to OFF with its attempts 0 and its summary empty, and is refused WRONG_STATE
elsewhere. POWER_CYCLE applies the power-off treatment and the slot goes to OFF, cooling for the off time, where it is
accepted, and is refused SLOT_BUSY elsewhere. -/
def Obligations.ParkClearFaultAndPowerCycle : Prop :=
  (∀ (s : State) (l : Link) (i : SlotId),
     let p := s.part
     let x := p.slot i
     let b := byteOf i.val
     p.Heeds l → p.ctb.TableLaw →
     (x.state ∈ [.off, .empty, .faulted] →
       Accepts (.park l b) l s [x.state.code] (p.setSlot i { x with parked := true }).follow) ∧
     (x.state ∈ [.held, .mismatch] → ∃ q : Part, p.Entered i .off q ∧
       q.slot i = { x.withdrawn .off with parked := true } ∧ p.ctb.Treated powerOffFate i q.ctb ∧
       Accepts (.park l b) l s [1] q.follow) ∧
     (x.state ∈ [.dark, .aligning, .auditing, .relinking, .linked] → Refuses (.park l b) l s .slotBusy) ∧
     Accepts (.unpark l b) l s [x.state.code] (p.setSlot i { x with parked := false })) ∧
  (∀ (s : State) (l : Link) (i : SlotId),
     let p := s.part
     let x := p.slot i
     let b := byteOf i.val
     p.Heeds l → p.ctb.TableLaw →
     (x.state = .faulted → ∃ q : Part, p.Entered i .off q ∧
       q.slot i = { x.withdrawn .off with attempts := 0, faults := 0 } ∧ q.ctb = p.ctb ∧
       Accepts (.clearFault l b) l s [1] q.follow) ∧
     (x.state ≠ .faulted → Refuses (.clearFault l b) l s .wrongState) ∧
     (x.state ∈ [.dark, .aligning, .held, .mismatch, .linked] → ∃ q : Part, p.Entered i .off q ∧
       q.slot i = { x.withdrawn .off with offTimer := some p.cfg.bus.off } ∧ p.ctb.Treated powerOffFate i q.ctb ∧
       Accepts (.powerCycle l b) l s [1] q.follow) ∧
     (x.state ∉ [.dark, .aligning, .held, .mismatch, .linked] → Refuses (.powerCycle l b) l s .slotBusy))

/-- R76: HOLD sets the hold flag; in RELINKING, LINKED and AUDITING the slot goes to HELD with its records treated as
at a power-off and a CLEAR called for. RELEASE_HOLD clears the flag; a HELD slot goes to RELINKING, but is refused
SLOT_BUSY while its CLEAR is pending. R78, R64, R106: AUDIT of a LINKED slot with nothing in flight and no DROP
waiting suspends its PENDING records and takes it to AUDITING, with DIGEST called for; otherwise SLOT_BUSY. -/
def Obligations.HoldReleaseAndAudit : Prop :=
  (∀ (s : State) (l : Link) (i : SlotId),
     let p := s.part
     let x := p.slot i
     let b := byteOf i.val
     p.Heeds l → p.ctb.TableLaw →
     (x.state ∈ [.relinking, .linked, .auditing] → ∃ q : Part, p.Entered i .held q ∧
       q.slot i = { x.moved p.cfg.bus .held .slow with hold := true, engine := some ⟨.clear, 0, .waiting⟩ } ∧
       p.ctb.Treated powerOffFate i q.ctb ∧ Accepts (.hold l b) l s [7] (q.arbitrate (segOf i)).follow) ∧
     (x.state ∉ [.relinking, .linked, .auditing] →
       Accepts (.hold l b) l s [x.state.code] (p.setSlot i { x with hold := true })) ∧
     (x.state = .held → x.engine.isSome = true → Refuses (.releaseHold l b) l s .slotBusy) ∧
     (x.state = .held → x.engine = none → ∃ q : Part, p.Entered i .relinking q ∧
       q.slot i = { x.moved p.cfg.bus .relinking .fast with hold := false, window := p.computeWindow i } ∧
       p.ctb.Treated (moveFate .suspended .pending) i q.ctb ∧
       Accepts (.releaseHold l b) l s [if q.ctb.allLoaded i then 6 else 5] (q.linkedTest i).follow) ∧
     (x.state ≠ .held → Accepts (.releaseHold l b) l s [x.state.code] (p.setSlot i { x with hold := false }))) ∧
  (∀ (s : State) (l : Link) (i : SlotId),
     let p := s.part
     let x := p.slot i
     let b := byteOf i.val
     p.Heeds l → p.ctb.TableLaw →
     (x.state = .linked → x.inflight = [] → x.waitingDrops = [] → ∃ q : Part, p.Entered i .auditing q ∧
       q.slot i = { x.moved p.cfg.bus .auditing .fast with
         audit := some .digesting
         engine := some ⟨.digest, 0, .waiting⟩ } ∧
       p.ctb.Treated (moveFate .pending .suspended) i q.ctb ∧
       Accepts (.audit l b) l s [4] (q.arbitrate (segOf i)).follow) ∧
     (¬(x.state = .linked ∧ x.inflight = [] ∧ x.waitingDrops = []) → Refuses (.audit l b) l s .slotBusy))

/-- R77: ADOPT in MISMATCH takes the card seen as the identity and aligns it, if its type has a channel count above
the slot's channel high mark, and is INCOMPATIBLE otherwise; VACATE frees every record of the slot and takes the card.
Both are refused WRONG_STATE in any other state. -/
def Obligations.AdoptAndVacate : Prop :=
  ∀ (s : State) (l : Link) (i : SlotId),
    let p := s.part
    let x := p.slot i
    let b := byteOf i.val
    p.Heeds l → p.ctb.TableLaw →
    (x.state ≠ .mismatch → Refuses (.adopt l b) l s .wrongState ∧ Refuses (.vacate l b) l s .wrongState) ∧
    ∀ seen, x.state = .mismatch → x.cardSeen = some seen →
      let aligning (q : Part) : Prop := p.Entered i .aligning q ∧
        q.slot i = { x.moved p.cfg.bus .aligning .fast with
          identity := some seen.card
          alignTimer := some p.cfg.bus.align
          engine := some ⟨.align x.phase, 0, .waiting⟩ }
      let channels := (p.cfg.profiles[seen.card.type]).channels
      ((∀ k r, p.ctb.get k = some r → r.slot = i → r.channel.val < channels) →
        ∃ q : Part, aligning q ∧ q.ctb = p.ctb ∧ Accepts (.adopt l b) l s [3] (q.arbitrate (segOf i)).follow) ∧
      ((∃ k r, p.ctb.get k = some r ∧ r.slot = i ∧ channels ≤ r.channel.val) →
        Refuses (.adopt l b) l s .incompatible) ∧
      ∃ q : Part, aligning q ∧ p.ctb.Treated freeFate i q.ctb ∧
        Accepts (.vacate l b) l s [3] (q.arbitrate (segOf i)).follow

/-- R55, R56, R24, R76, R77: what each treatment makes of a record by its state: none is FREE. R71, R72: the slots and
records at a SAG entry and at an OUTAGE entry. At SAG a slot in ALIGNING, AUDITING, RELINKING, LINKED, HELD or
MISMATCH goes to DARK with the loss treatment and no attempt, a DARK slot loses its boot timer, and others stand; at
OUTAGE every slot with its enable driven goes to OFF with the power-off treatment. R12, R15: each record that is left keeps its partner
link, but where its partner became FREE. R89, R90: the frames those entries end are out of the queues or orphaned. R123, R124: a
new episode raises SUPPLY_SAG, an outage SUPPLY_OUTAGE, and no other flag changes. What an entry makes possible follows it in the
same change (`follow`). -/
def Obligations.TreatmentsAtSupplyEntries : Prop :=
  (∀ r : Rec,
     (r.state = .loading → r.retire = false → lossFate r = some .live ∧ powerOffFate r = some .suspended) ∧
     (r.state = .loading → r.retire = true → lossFate r = none ∧ powerOffFate r = none) ∧
     (r.state = .dropping → lossFate r = none ∧ powerOffFate r = none) ∧
     (r.state = .pending → lossFate r = some .suspended ∧ powerOffFate r = some .suspended) ∧
     (r.state = .live → lossFate r = some .live ∧ powerOffFate r = some .suspended) ∧
     (r.state = .suspended → lossFate r = some .suspended ∧ powerOffFate r = some .suspended) ∧
     (r.state = .refused → lossFate r = some .refused ∧ powerOffFate r = some .refused) ∧
     freeFate r = none ∧
     (r.state = .refused → (r.to .refused).reason = r.reason) ∧
     ∀ st, (r.to st).state = st ∧ (st ≠ .refused → (r.to st).reason = none) ∧
       (st ≠ .loading → (r.to st).reload = false ∧ (r.to st).retire = false) ∧
       (r.to st).cls = r.cls ∧ (r.to st).slot = r.slot ∧ (r.to st).channel = r.channel ∧ (r.to st).legs = r.legs ∧
       (r.to st).cost = r.cost ∧ (r.to st).partner = r.partner ∧ (r.to st).tag = r.tag) ∧
  (∀ p : Part, p.ctb.TableLaw →
     let running (i : SlotId) : Prop := (p.slot i).enable = true ∧ (p.slot i).state ≠ .dark
     let withKind (n : Notice) (x : LinkRec) : LinkRec := { x with pending := x.pending ||| n.flag }
     (∀ fresh : Bool, ∃ q : Part, p.enterSag fresh = q.follow ∧ q.running = false ∧
       q.fbu = ⟨p.fbu.ceiling, .clear, .clear⟩ ∧ q.cfg = p.cfg ∧ q.capture = p.capture ∧ q.owner = p.owner ∧
       q.fillers = p.fillers ∧ (∀ l, q.link l = if fresh then withKind .supplySag (p.link l) else p.link l) ∧
       (∀ g, q.seg g = (p.seg g).stripped (fun i => decide (segOf i = g) && decide (running i)) .dark) ∧
       q.spm = { p.spm with
         state := .sag
         settle := .stopped
         episodes := if fresh then p.spm.episodes + 1 else p.spm.episodes
         deep := if fresh then false else p.spm.deep
         recoveryRunning := if fresh then false else p.spm.recoveryRunning } ∧
       (∀ i, running i → q.slot i = (p.slot i).darkened p.cfg.bus none) ∧
       (∀ i, (p.slot i).state = .dark → q.slot i = { p.slot i with bootTimer := none }) ∧
       (∀ i, (p.slot i).enable = false → q.slot i = p.slot i) ∧
       (∀ k r, p.ctb.get k = some r → running r.slot → p.ctb.TreatedAt lossFate q.ctb k r) ∧
       (∀ k, (∀ r, p.ctb.get k = some r → ¬running r.slot) → p.ctb.KeptAt q.ctb k) ∧
       p.ctb.LinksKept q.ctb ∧ ∀ c, q.ctb.list c = (p.ctb.list c).filter fun k => (q.ctb.get k).isSome) ∧
     ∃ q : Part, p.enterOutage = q.follow ∧ q.running = p.running ∧ q.fbu = { p.fbu with ceiling := 0 } ∧
       q.cfg = p.cfg ∧ q.capture = p.capture ∧ q.owner = p.owner ∧ q.fillers = p.fillers ∧
       (∀ l, q.link l = withKind .supplyOutage (p.link l)) ∧
       (∀ g, q.seg g = (p.seg g).stripped (fun i => decide (segOf i = g) && (p.slot i).enable) .off) ∧
       q.spm = { p.spm with state := .outage, deep := true } ∧
       (∀ i, (p.slot i).enable = true → q.slot i = (p.slot i).withdrawn .off) ∧
       (∀ i, (p.slot i).enable = false → q.slot i = p.slot i) ∧
       (∀ k r, p.ctb.get k = some r → (p.slot r.slot).enable = true → p.ctb.TreatedAt powerOffFate q.ctb k r) ∧
       (∀ k, (∀ r, p.ctb.get k = some r → (p.slot r.slot).enable = false) → p.ctb.KeptAt q.ctb k) ∧
       p.ctb.LinksKept q.ctb ∧ ∀ c, q.ctb.list c = (p.ctb.list c).filter fun k => (q.ctb.get k).isSome)

/-! ### Settings -/

/-- R52, R50: SLOT_SET writes the clamped rank and phase offset and nothing else; PROFILE_SET writes the entry of its
card type, each field clamped into its range, and nothing else. R121: SUPPLY_SET clamps each value into its range,
then sets a CUTOFF above DIP to DIP, and a RESTORE at or below DIP to the lesser of 1023 and DIP + 8, and writes the
eight values and nothing else. All three answer the values applied. -/
def Obligations.SlotProfileAndSupplySet : Prop :=
  (∀ (s : State) (l : Link), s.part.Heeds l →
     (∀ (i : SlotId) (rank phase : Byte) (r : Fin 4) (ph : Fin 16), r.val = min 3 rank.toNat → ph.val = min 15 phase.toNat →
       Accepts (.slotSet l (byteOf i.val) rank phase) l s [byteOf i.val, byteOf r.val, byteOf ph.val]
         (s.part.setSlot i { s.part.slot i with rank := r, phase := ph })) ∧
     ∀ (f : WireProfile) (ty : CardType), f.cardType = byteOf ty.val →
       let channels := max 1 (min 128 f.channels.toNat)
       let inrush := min 4095 f.inrush.toNat
       let base := min 2047 f.base.toNat
       let shift := max 1 (min 8 f.shift.toNat)
       let cap := max 1 (min 8 f.cap.toNat)
       Accepts (.profileSet l f) l s
         [f.cardType, byteOf channels, byteOf (inrush / 256), byteOf inrush, byteOf (base / 256), byteOf base,
           byteOf shift, byteOf cap]
         { s.part with cfg := { s.part.cfg with
           profiles := s.part.cfg.profiles.set ty ⟨channels, inrush, base, shift, cap⟩ } }) ∧
  (∀ (s : State) (l : Link) (f : WireSupply), s.part.Heeds l →
     let dip := min 1023 f.dip.toNat
     let cut := min dip (min 1023 f.cutoff.toNat)
     let rest := if min 1023 f.restore.toNat ≤ dip then min 1023 (dip + 8) else min 1023 f.restore.toNat
     let nDip := max 1 f.nDip.toNat
     let nCut := max 1 f.nCut.toNat
     let nRest := max 1 f.nRest.toNat
     let settle := max 10 (min 2550 f.settle.toNat)
     let shift := min 4 f.shift.toNat
     Accepts (.supplySet l f) l s
       [byteOf (dip / 256), byteOf dip, byteOf (cut / 256), byteOf cut, byteOf (rest / 256), byteOf rest, byteOf nDip,
         byteOf nCut, byteOf nRest, byteOf (settle / 256), byteOf settle, byteOf shift]
       { s.part with cfg := { s.part.cfg with supply := ⟨dip, cut, rest, nDip, nCut, nRest, settle, shift⟩ } })

/-- R51, R53: BUS_SET writes the nine settings, each clamped, and computes every slot's effective window anew: the
least of W, the window cap of the slot's profile and the queue depth in card seen, or 8. Nothing else changes but for
the queue places a risen window lets waiting DROPs take (R91). -/
def Obligations.BusSet : Prop :=
  ∀ (s : State) (l : Link) (f : WireBus), s.part.Heeds l →
    ∃ b : BusCfg,
      b.w = max 1 (min 8 f.w.toNat) ∧
      (b.completion ∈ [2, 5, 10, 20, 50, 100] ∧ (f.completion.toNat ≤ b.completion ∨ b.completion = 100) ∧
        ∀ n ∈ [2, 5, 10, 20, 50, 100], f.completion.toNat ≤ n → b.completion ≤ n) ∧
      b.missedLimit = max 1 (min 7 f.missedLimit.toNat) ∧ b.fastPoll = max 1 (min 15 f.fastPoll.toNat) ∧
      b.slowPoll = max 10 (min 250 f.slowPoll.toNat) ∧
      b.boot = max 100 (min 25500 f.boot.toNat) - max 100 (min 25500 f.boot.toNat) % 100 ∧
      b.align = max 10 (min 2550 f.align.toNat) ∧ b.off = max 50 (min 2550 f.off.toNat) ∧
      b.attemptLimit = max 1 (min 15 f.attemptLimit.toNat) ∧
      let q : Part := { s.part with
        cfg := { s.part.cfg with bus := b }
        slots := Vector.ofFn fun i => { s.part.slot i with
          window := min b.w (min (s.part.profile (s.part.slot i)).cap
            (((s.part.slot i).cardSeen.map CardSeen.depth).getD 8)) } }
      Accepts (.busSet l f) l s
        [byteOf b.w, byteOf b.completion, byteOf b.missedLimit, byteOf b.fastPoll, byteOf b.slowPoll,
          byteOf (b.boot / 256), byteOf b.boot, byteOf (b.align / 256), byteOf b.align, byteOf (b.off / 256), byteOf b.off,
          byteOf b.attemptLimit] ((q.arbitrate .l).arbitrate .r)

/-- R141, R142: BUDGET_SET writes the four settings, clamped, and answers them with RAMP_START; the ceiling becomes
LIMIT in NORMAL and is cut to LIMIT elsewhere; a stall time of 0 clears both stall states. The recovery-complete test
follows (R127). -/
def Obligations.BudgetSet : Prop :=
  ∀ (s : State) (l : Link) (f : WireBudget), s.part.Heeds l →
    let p := s.part
    let limit := max 1000 f.limit.toNat
    let start := min 16 f.start.toNat
    let slew := min 11 f.slew.toNat
    let stall := if f.stall.toNat = 0 then 0 else max 10 (min 2550 f.stall.toNat)
    let ramp := limit * start / 16
    Accepts (.budgetSet l f) l s
      [byteOf (limit / 256), byteOf limit, byteOf start, byteOf slew, byteOf (stall / 256), byteOf stall,
        byteOf (ramp / 256), byteOf ramp]
      ({ p with
        cfg := { p.cfg with budget := ⟨limit, start, slew, stall⟩ }
        fbu :=
          { ceiling := if p.spm.state = .normal then limit else min p.fbu.ceiling limit
            bringUp := if stall = 0 then .clear else p.fbu.bringUp
            load := if stall = 0 then .clear else p.fbu.load } } : Part).recoveryTest

/-! ### Ownership, notices and status -/

/-- R188: CLAIM by the owner: NONE makes the link owner with OWNER_GAINED raised on it; its own claim changes nothing;
while the other link owns, the waiting-claim marker is set and the answer is OWNED_ELSEWHERE. -/
def Obligations.ClaimByOwner : Prop :=
  ∀ (s : State) (l : Link),
    let p := s.part
    let x := p.link l
    p.Hears l →
    (p.owner = none → Accepts (.claim l) l s []
      ({ p with owner := some l }.setLink l { x with pending := x.pending ||| Notice.ownerGained.flag })) ∧
    (p.owner = some l → Accepts (.claim l) l s [] p) ∧
    (p.owner = some (other l) →
      Answers (.claim l) l s ⟨.ownedElsewhere, []⟩ (p.setLink l { x with claim := true }))

/-- R189: RELEASE by the owner hands the part to a waiting claim, whose marker is cleared and OWNER_GAINED raised, or
leaves it with no owner; by another link it withdraws that link's own claim. The answer is OK. -/
def Obligations.ReleaseHandsOver : Prop :=
  ∀ (s : State) (l : Link),
    let p := s.part
    let x := p.link l
    let y := p.link (other l)
    p.Hears l →
    (p.owner = some l → y.claim = true → Accepts (.release l) l s []
      ({ p with owner := some (other l) }.setLink (other l)
        { y with claim := false, pending := y.pending ||| Notice.ownerGained.flag })) ∧
    (p.owner = some l → y.claim = false → Accepts (.release l) l s [] { p with owner := none }) ∧
    (p.owner ≠ some l → Accepts (.release l) l s [] (p.setLink l { x with claim := false }))

/-- R190: TAKEOVER makes its link owner and clears both markers; OWNER_LOST is raised on the other link if it owned,
and OWNER_GAINED on its own if it did not. The answer is OK. -/
def Obligations.TakeoverSeizes : Prop :=
  ∀ (s : State) (l : Link),
    let p := s.part
    let x := p.link l
    let y := p.link (other l)
    p.Hears l →
    Accepts (.takeover l) l s []
      (({ p with owner := some l }.setLink (other l)
        { y with
          claim := false
          pending := if p.owner = some (other l) then y.pending ||| Notice.ownerLost.flag else y.pending }).setLink l
        { x with
          claim := false
          pending := if p.owner = some l then x.pending else x.pending ||| Notice.ownerGained.flag })

/-- R193, R194, R201: NOTICES answers the pending flags and the slot-change set as they stand, clears the kinds it
names and empties the set; NOTICE_MASK writes the 13 mask bits and answers them. Both act on the requesting link
alone. R191, R192, R195: raising a kind sets its pending flag on both links, whatever the mask, and no other flag; a
slot change adds its slot to both sets with SLOT_CHANGE; ATTN is driven while a response waits or a pending kind is
enabled. The kinds stand at their bits, 0 to 12, one by one. -/
def Obligations.NoticesMaskAndAttn : Prop :=
  (([.coldStart, .warmReset, .supplySag, .supplyOutage, .supplyBack, .recoveryDone, .slotChange, .recordRefused, .budgetStall,
    .ownerGained, .ownerLost, .busFault, .supplySignal] : List Notice).map Notice.bit =
      [0, 1, 2, 3, 4, 5, 6, 7, 8, 9, 10, 11, 12] ∧
    ∀ (n : Notice) (x : LinkRec), n.flag.toNat = 2 ^ n.bit ∧ x.isPending n = x.pending.getLsbD n.bit) ∧
  (∀ (s : State) (l : Link) (w : BitVec 16),
     let p := s.part
     let x := p.link l
     p.Hears l →
     (∃ q : BitVec 13, (∀ n : Fin 13, q.getLsbD n.val = (x.pending.getLsbD n.val && !w.getLsbD n.val)) ∧
       Accepts (.notices l w) l s
         [byteOf (x.pending.toNat / 256), byteOf x.pending.toNat, byteOf (x.changes.toNat / 65536),
           byteOf (x.changes.toNat / 256), byteOf x.changes.toNat]
         (p.setLink l { x with pending := q, changes := 0 })) ∧
     ∃ m : BitVec 13, (∀ n : Fin 13, m.getLsbD n.val = w.getLsbD n.val) ∧
       Accepts (.noticeMask l w) l s [byteOf (m.toNat / 256), byteOf m.toNat] (p.setLink l { x with mask := m })) ∧
  ((∀ (p : Part) (n m : Notice) (l : Link),
     ((p.raise n).link l).isPending m = (decide (m = n) || (p.link l).isPending m)) ∧
   (∀ (p : Part) (i : SlotId) (j : Fin 24) (m : Notice) (l : Link),
     ((p.reportSlot i).link l).changes.getLsbD j.val = (decide (j = i) || (p.link l).changes.getLsbD j.val) ∧
       ((p.reportSlot i).link l).isPending m = (decide (m = .slotChange) || (p.link l).isPending m)) ∧
   ∀ x : LinkRec, x.attn = true ↔ x.buffer.isSome = true ∨ ∃ n : Notice, x.isPending n = true ∧ x.mask.getLsbD n.bit = true)

/-- R196, R203: STATUS answers the snapshot of the part in the layout of its table, with committed load, demand,
headroom and DEFICIT as R147 and R149 give them, and changes nothing. The codings of supply state, owner, slot state and
the fault kinds' bits, one by one. -/
def Obligations.StatusSnapshot : Prop :=
  (([.normal, .sag, .outage, .settling, .recovery] : List Supply).map Supply.code = [0, 1, 2, 3, 4] ∧
    ([none, some .a, some .b] : List (Option Link)).map ownerCode = [0, 1, 2] ∧
    ([.empty, .off, .dark, .aligning, .auditing, .relinking, .linked, .held, .mismatch, .faulted] : List SlotState).map
      SlotState.code = [0, 1, 2, 3, 4, 5, 6, 7, 8, 9] ∧
    ([.spontaneousReboot, .bootTimeout, .alignFailed, .missedLimit, .completionTimeout] : List FaultKind).map FaultKind.bit =
      [0, 1, 2, 3, 4] ∧
    ∀ (k : FaultKind) (x : Slot), (x.addFault k).faults = x.faults ||| BitVec.ofNat 5 (2 ^ k.bit)) ∧
  ∀ (s : State) (l : Link), s.part.Hears l →
    let p := s.part
    let two (n : Nat) : List Byte := [byteOf (n / 256), byteOf n]
    let three (n : Nat) : List Byte := [byteOf (n / 65536), byteOf (n / 256), byteOf n]
    let count (st : RecState) : Nat := (p.ctb.recs.filter fun e => decide (e.2.state = st)).length
    let base := ((List.finRange 24).map fun i =>
      if (p.slot i).state ∈ [.dark, .aligning, .auditing, .relinking, .linked, .held, .mismatch] then
        match (p.slot i).identity with
        | none => 300
        | some c => (p.cfg.profiles[c.type]).base
      else 0).sum
    let costs := (p.ctb.recs.map fun e => if e.2.state ∈ [.loading, .live, .dropping] then e.2.cost.val else 0).sum
    let inrush := ((List.finRange 24).map fun i => (p.slot i).inrush).sum
    let demand := base + costs + inrush
    Accepts (.status l) l s
      (p.spm.state.code :: two p.spm.episodes.toNat ++
        [(if p.spm.deep then 1 else 0) + (if p.fbu.ceiling < demand then 2 else 0) +
          (if p.capture.fault.isSome then 4 else 0)] ++
        two p.spm.recoveryTime ++ two p.fbu.ceiling ++ three (base + costs) ++ three inrush ++ three demand ++
        two (p.fbu.ceiling - demand) ++ two (4096 - p.ctb.recs.length) ++ two (count .suspended) ++
        two (count .pending) ++ two (count .loading) ++ two (count .live) ++ two (count .dropping) ++
        two (count .refused) ++ [ownerCode p.owner] ++
        (List.finRange 24).flatMap fun i => [(p.slot i).state.code, byteOf (p.slot i).faults.toNat]) p

/-- R103: CAPTURE_QUERY answers the capture's parts, in the layout of R203, and changes nothing; CAPTURE_CLEAR from
the owner empties it, sets the overflow count to 0 and leaves every pending flag, and is refused NOT_OWNER from a link
that is not the owner. R102: a fault offered to an empty capture fills it and raises BUS_FAULT, and one offered to a full
capture counts. R203: the capture kinds' codes, one by one. -/
def Obligations.CaptureRequests : Prop :=
  ([.malformedReply, .wrongSlot, .strayCompletion, .unexpectedReply] : List CaptureKind).map CaptureKind.code = [1, 2, 3, 4] ∧
  ∀ (s : State) (l : Link),
    let p := s.part
    (p.Hears l → p.capture.fault = none → Accepts (.captureQuery l) l s [0, 0, 0, 0, 0, 0, 0, 0] p) ∧
    (p.Hears l → ∀ f, p.capture.fault = some f →
      Accepts (.captureQuery l) l s
        [1, f.kind.code, byteOf f.slot.val, if f.handle.isSome then 1 else 0,
          (f.handle.map fun h => byteOf (h.index.val / 256)).getD 0, (f.handle.map fun h => byteOf h.index.val).getD 0,
          (f.handle.map fun h => byteOf h.gen.val).getD 0, byteOf p.capture.overflow] p) ∧
    (p.Heeds l → Accepts (.captureClear l) l s [] { p with capture := ⟨none, 0⟩ }) ∧
    (p.Hears l → p.owner ≠ some l → Refuses (.captureClear l) l s .notOwner) ∧
    ∀ f : Captured, p.offer f = p.captured f

/-! ### Supply Monitor -/

/-- R117, R118, R119, R120: a sample clears the signal-lost marker, restarts the signal-loss timer, loads the average
or moves it by the step rounded to nearest, halves to even, and counts each condition of the new average or sets its
counter to 0. -/
def Obligations.SampleFiltersAndCounts : Prop :=
  ∀ (s : State) (code : BitVec 10),
    let m := s.part.spm
    let c := s.part.cfg.supply
    let level := code.toNat * 16
    ∃ (q : Part) (a : Nat), exec (.supplySample code) s = .next ⟨q, s.pending⟩ ∧ q.spm.avg16 = some a ∧
      (m.avg16 = none → a = level) ∧
      (∀ old, m.avg16 = some old → ∃ inc : Int,
        (a : Int) = old + inc ∧
        2 * (inc * 2 ^ c.shift - ((level : Int) - old)).natAbs ≤ 2 ^ c.shift ∧
        (2 * (inc * 2 ^ c.shift - ((level : Int) - old)).natAbs = 2 ^ c.shift → inc % 2 = 0) ∧
        min old level ≤ a ∧ a ≤ max old level) ∧
      q.spm.dip = (if a < c.dip * 16 then min 255 (m.dip + 1) else 0) ∧
      q.spm.cut = (if a < c.cutoff * 16 then min 255 (m.cut + 1) else 0) ∧
      q.spm.rest = (if c.restore * 16 ≤ a then min 255 (m.rest + 1) else 0) ∧
      q.spm.lost = false ∧ q.spm.signalTimer = some 1

/-- R123, R124, R125, R126, R129: where a sample's counters take the supply state, with the episode count, the deep
marker, the settle timer, the run marker, the ceiling and the notices. R71, R72, R130, R131: where the dip or cut rule fires,
all else of the part (slots, records, queues, capture) is as the SAG entry leaves it, and where the cut rule fires, as the OUTAGE
entry then does: `Part.enterSag` and `Part.enterOutage`, of which TreatmentsAtSupplyEntries says what they do to each slot and
record. Where neither fires, all else stands. R117, R127: a sample without a dip that ends a signal loss in RECOVERY clears the
marker and makes the recovery-complete test. R139, log 28: a first sample after a warm reset that is itself the dip's last leaves
the settle timer stopped. -/
def Obligations.SampleMovesSupplyState : Prop :=
  ∀ (s : State) (code : BitVec 10),
    let p := s.part
    let m := p.spm
    let c := p.cfg.supply
    ∃ q : Part, exec (.supplySample code) s = .next ⟨q, s.pending⟩ ∧
      let dips := c.nDip ≤ q.spm.dip
      let cuts := c.nCut ≤ q.spm.cut
      let rises := c.nRest ≤ q.spm.rest
      let raised (n : Notice) : Prop := ∀ l, (q.link l).isPending n = true
      let quiet (n : Notice) : Prop := ∀ l, (q.link l).isPending n = (p.link l).isPending n
      let measured : Part := { p with spm := { m with
        avg16 := q.spm.avg16
        dip := q.spm.dip
        cut := q.spm.cut
        rest := q.spm.rest
        lost := false
        signalTimer := some 1
        settle := match m.settle with
          | .stopped => .stopped
          | .running left | .held left => .running left } }
      let elseAs (r : Part) : Prop := q = { r with spm := q.spm }
      let darkens (fresh : Bool) : Prop :=
        (cuts → elseAs (measured.enterSag fresh).enterOutage) ∧ (¬cuts → elseAs (measured.enterSag fresh))
      let stays : Prop := q.spm.state = m.state ∧ q.spm.episodes = m.episodes ∧ q.spm.deep = m.deep ∧ elseAs p
      let outage : Prop := q.spm.state = .outage ∧ q.spm.deep = true ∧ q.fbu.ceiling = 0 ∧ raised .supplyOutage
      let settling : Prop := q.spm.state = .settling ∧ q.spm.settle = .running c.settle ∧
        q.fbu.ceiling = p.fbu.ceiling ∧ quiet .supplyOutage
      let sag : Prop := q.spm.state = .sag ∧ q.fbu.ceiling = p.fbu.ceiling ∧ quiet .supplyOutage
      ((m.state = .normal ∨ m.state = .recovery ∧ m.lost = false) → ¬dips → stays ∧ quiet .supplySag) ∧
      (m.state = .recovery → m.lost = true → ¬dips →
        let recovering (i : SlotId) : Prop := (p.slot i).state ∈ [.dark, .aligning, .auditing, .relinking] ∨
          (p.slot i).state = .off ∧ (p.slot i).parked = false
        let done := p.fbu.ceiling = p.cfg.budget.limit ∧ ∀ i, ¬recovering i
        q.spm.lost = false ∧ q.spm.episodes = m.episodes ∧ q.spm.deep = m.deep ∧
        q.spm.recoveryTime = m.recoveryTime ∧ quiet .supplySag ∧
        (done → q.spm.state = .normal ∧ q.spm.recoveryRunning = false ∧ raised .recoveryDone ∧
          elseAs { p with
            linkA := { p.linkA with pending := p.linkA.pending ||| Notice.recoveryDone.flag }
            linkB := { p.linkB with pending := p.linkB.pending ||| Notice.recoveryDone.flag } }) ∧
        (¬done → q.spm.state = .recovery ∧ q.spm.recoveryRunning = m.recoveryRunning ∧ elseAs p)) ∧
      ((m.state = .normal ∨ m.state = .recovery) → dips →
        q.spm.episodes = m.episodes + 1 ∧ q.spm.recoveryRunning = false ∧ q.spm.recoveryTime = m.recoveryTime ∧
        q.running = false ∧ q.fbu.bringUp = .clear ∧ q.fbu.load = .clear ∧ raised .supplySag ∧ darkens true ∧
        (cuts → outage) ∧ (¬cuts → q.spm.deep = false) ∧ (¬cuts → rises → settling) ∧ (¬cuts → ¬rises → sag)) ∧
      (m.state = .sag →
        q.spm.episodes = m.episodes ∧ quiet .supplySag ∧ (cuts → outage ∧ elseAs measured.enterOutage) ∧
        (¬cuts → q.spm.deep = m.deep ∧ elseAs p) ∧ (¬cuts → rises → settling) ∧ (¬cuts → ¬rises → stays)) ∧
      (m.state = .outage →
        q.spm.episodes = m.episodes ∧ q.spm.deep = m.deep ∧ elseAs p ∧ (rises → settling) ∧ (¬rises → stays)) ∧
      (m.state = .settling → ¬dips → stays ∧ quiet .supplySag ∧
        (m.avg16 = none → q.spm.settle = .running c.settle) ∧
        (∀ left, m.avg16 ≠ none → (m.settle = .running left ∨ m.settle = .held left) →
          q.spm.settle = .running left)) ∧
      (m.state = .settling → dips →
        q.spm.episodes = m.episodes ∧ q.running = false ∧ quiet .supplySag ∧ darkens false ∧ (cuts → outage) ∧
        (¬cuts → q.spm.deep = m.deep) ∧ (¬cuts → rises → settling) ∧
        (¬cuts → ¬rises → sag ∧ q.spm.settle = .stopped))

/-- R117: at its timer's expiry a signal loss is declared: the marker is set, SUPPLY_SIGNAL is raised on both links, a
running settle timer is held, and all else stands. R126, R128, R133, R143, R163: a running settle timer's expiry in
SETTLING enters RECOVERY: SUPPLY_BACK is raised, the recovery time starts from 0, the ceiling becomes RAMP_START where
the deep marker is set and stands otherwise, the scheduler runs, slots that are not DARK keep their states, and DARK
slots are classified from their last reply or, with none, start their boot timers (R60, R73). A timer that is stopped
does not expire (log 19). -/
def Obligations.SignalLossAndSettleExpiry : Prop :=
  (∀ s : State,
     let p := s.part
     (p.spm.signalTimer.isSome = true →
       exec .signalLoss s = .next ⟨{ p with
         spm := { p.spm with
           lost := true
           signalTimer := none
           settle := match p.spm.settle with
             | .running left => .held left
             | .held left => .held left
             | .stopped => .stopped }
         linkA := { p.linkA with pending := p.linkA.pending ||| Notice.supplySignal.flag }
         linkB := { p.linkB with pending := p.linkB.pending ||| Notice.supplySignal.flag } }, s.pending⟩) ∧
     (p.spm.signalTimer = none → exec .signalLoss s = .next s)) ∧
  (∀ s : State,
     let p := s.part
     (∀ left, p.spm.state = .settling → p.spm.settle = .running left →
       ∃ q : Part, exec .settleTimerExpiry s = .next ⟨q.follow, s.pending⟩ ∧
         q.spm = { p.spm with state := .recovery, settle := .stopped, recoveryTime := 0, recoveryRunning := true } ∧
         q.running = true ∧ (∀ l, (q.link l).isPending .supplyBack = true) ∧
         q.fbu = { p.fbu with ceiling :=
           if p.spm.deep then p.cfg.budget.limit * p.cfg.budget.start / 16 else p.fbu.ceiling } ∧
         q.cfg = p.cfg ∧ q.owner = p.owner ∧ q.capture = p.capture ∧
         (∀ i, (p.slot i).state ≠ .dark → (q.slot i).state = (p.slot i).state) ∧
         (∀ i, (p.slot i).state = .dark → (p.slot i).lastReply = none →
           (q.slot i).state = .dark ∧ (q.slot i).bootTimer = some p.cfg.bus.boot) ∧
         ∀ i reply seen, (p.slot i).state = .dark → (p.slot i).lastReply = some reply → (p.slot i).cardSeen = some seen →
           let same := (reply.phase = .run ∨ reply.phase = .aligned) ∧ reply.bootCount = (p.slot i).bootCount ∧
             (p.slot i).identity = some seen.card
           (same → (q.slot i).state = if (p.slot i).hold then .held else .auditing) ∧
           (¬same → (q.slot i).state ∈ [.aligning, .mismatch] ∧ (q.slot i).bootCount = reply.bootCount)) ∧
     ((p.spm.state ≠ .settling ∨ p.spm.settle = .stopped ∨ ∃ left, p.spm.settle = .held left) →
       exec .settleTimerExpiry s = .next s))

/-! ### Feed budget, bring-up and restoration -/

/-- R144, R146, R128, and log 2: at a budget tick every charge decays by its rounded fraction, or clears where that is
0; in RECOVERY the ceiling steps toward LIMIT, and a step is a moment of the recovery-complete test; every running
timer and in-flight deadline loses 1 ms, down to 0, stopped and held ones stand, and the recovery time counts 1 while it
runs; of a slot nothing else changes. R156, R157, R158: the expiry of a stall timer in TIMING gives STALLED and raises
BUDGET_STALL on both links, and nothing else; in CLEAR and STALLED no timer runs and nothing happens (log 19). -/
def Obligations.TicksAndStallExpiries : Prop :=
  (∀ s : State,
     let p := s.part
     let step : Option Nat := [1, 2, 5, 10, 20, 50, 100, 200, 500, 1000, 2000][p.cfg.budget.slew]?
     let ceiling :=
       if p.spm.state = .recovery then
         match step with
         | some n => min p.cfg.budget.limit (p.fbu.ceiling + n)
         | none => p.cfg.budget.limit
       else p.fbu.ceiling
     let stalls : Stall → Stall
       | .timing left => .timing (left - 1)
       | .clear => .clear
       | .stalled => .stalled
     ∃ q : Part,
       exec .budgetTick s = .next ⟨if ceiling = p.fbu.ceiling then q else q.recoveryTest, s.pending⟩ ∧
       q.fbu = ⟨ceiling, stalls p.fbu.bringUp, stalls p.fbu.load⟩ ∧
       q.spm = { p.spm with
         settle := match p.spm.settle with
           | .running left => .running (left - 1)
           | .stopped => .stopped
           | .held left => .held left
         signalTimer := p.spm.signalTimer.map (· - 1)
         recoveryTime :=
           if p.spm.recoveryRunning then min 65535 (p.spm.recoveryTime + 1) else p.spm.recoveryTime } ∧
       (∀ i, ∃ charge : Nat,
         q.slot i = { p.slot i with
           bootTimer := (p.slot i).bootTimer.map (· - 1)
           alignTimer := (p.slot i).alignTimer.map (· - 1)
           offTimer := (p.slot i).offTimer.map (· - 1)
           stableTimer := (p.slot i).stableTimer.map (· - 1)
           pollTimer := (p.slot i).pollTimer.map (· - 1)
           inflight := (p.slot i).inflight.map fun e => { e with deadline := e.deadline - 1 }
           inrush := charge } ∧
         ((p.slot i).inrush = 0 → charge = 0) ∧
         ∀ k c dec : Nat, k = (p.profile (p.slot i)).shift → c = (p.slot i).inrush → 0 < c →
           2 * ((dec : Int) * 2 ^ k - c).natAbs ≤ 2 ^ k →
           (2 * ((dec : Int) * 2 ^ k - c).natAbs = 2 ^ k → dec % 2 = 0) →
           charge = if dec = 0 then 0 else c - dec) ∧
       q.ctb = p.ctb ∧ q.cfg = p.cfg ∧ q.mbsL = p.mbsL ∧ q.mbsR = p.mbsR ∧ q.capture = p.capture ∧
       q.running = p.running ∧ q.linkA = p.linkA ∧ q.linkB = p.linkB ∧ q.owner = p.owner ∧ q.fillers = p.fillers) ∧
  (∀ s : State,
     let p := s.part
     let told (f : Fbu) : Part := { p with
       fbu := f
       linkA := { p.linkA with pending := p.linkA.pending ||| Notice.budgetStall.flag }
       linkB := { p.linkB with pending := p.linkB.pending ||| Notice.budgetStall.flag } }
     (∀ left, p.fbu.bringUp = .timing left →
       exec .bringUpStallExpiry s = .next ⟨told { p.fbu with bringUp := .stalled }, s.pending⟩) ∧
     ((p.fbu.bringUp = .clear ∨ p.fbu.bringUp = .stalled) → exec .bringUpStallExpiry s = .next s) ∧
     (∀ left, p.fbu.load = .timing left →
       exec .loadStallExpiry s = .next ⟨told { p.fbu with load := .stalled }, s.pending⟩) ∧
     ((p.fbu.load = .clear ∨ p.fbu.load = .stalled) → exec .loadStallExpiry s = .next s))

/-- R127, R156, R91: what follows a change in the same change: the arbiters' grants, the end of a bring-up block where
no slot waits, and RECOVERY giving way to NORMAL, with RECOVERY_DONE, where the ceiling equals LIMIT, no slot is
recovering, and no signal loss stands. R149, R150, R153, R154: a load passes where its cost fits the headroom, for C1
to C3 less the requirement of the head waiting slot; headroom is never below 0. -/
def Obligations.BudgetTests : Prop :=
  (∀ p : Part,
     let recovering (i : SlotId) : Prop := (p.slot i).state ∈ [.dark, .aligning, .auditing, .relinking] ∨
       (p.slot i).state = .off ∧ (p.slot i).parked = false
     let done := p.spm.state = .recovery ∧ p.spm.lost = false ∧ p.fbu.ceiling = p.cfg.budget.limit ∧ ∀ i, ¬recovering i
     (done → p.recoveryTest = { p with
       spm := { p.spm with state := .normal, recoveryRunning := false }
       linkA := { p.linkA with pending := p.linkA.pending ||| Notice.recoveryDone.flag }
       linkB := { p.linkB with pending := p.linkB.pending ||| Notice.recoveryDone.flag } }) ∧
     (¬done → p.recoveryTest = p) ∧
     ((∀ i, (p.slot i).state ≠ .off ∨ (p.slot i).parked = true ∨ (p.slot i).offTimer.isSome = true) →
       p.stallCheck = { p with fbu := { p.fbu with bringUp := .clear } }) ∧
     (∀ i, (p.slot i).state = .off → (p.slot i).parked = false → (p.slot i).offTimer = none → p.stallCheck = p) ∧
     p.follow = ((p.arbitrate .l).arbitrate .r).stallCheck.recoveryTest) ∧
  (∀ (p : Part) (r : Rec),
     let head := p.fbu.ceiling - (p.committed + ((List.finRange 24).map fun i => (p.slot i).inrush).sum)
     let waits (i : SlotId) : Prop :=
       (p.slot i).state = .off ∧ (p.slot i).parked = false ∧ (p.slot i).offTimer = none
     (p.loadTest r = true ↔
       if r.cls = .c0 then r.cost.val ≤ head else r.cost.val ≤ head - p.reserve) ∧
     ((∀ i, ¬waits i) → p.reserve = 0) ∧
     (∀ i, waits i →
       (∀ j, waits j → (p.slot i).rank < (p.slot j).rank ∨ (p.slot i).rank = (p.slot j).rank ∧ i ≤ j) →
       p.reserve = (p.profile (p.slot i)).inrush + (p.profile (p.slot i)).base) ∧
     (r.cost.val = 0 → p.loadTest r = true) ∧
     (p.deficit = true ↔ p.fbu.ceiling < p.committed + ((List.finRange 24).map fun i => (p.slot i).inrush).sum))

/-- R57, R58, R152, R156: a bring-up trial takes the head waiting slot, of the lowest rank and then the lowest number.
Where its requirement is at or below the headroom, the slot is enabled: DARK, its charge set, its boot timer started,
a POLL due, and the bring-up block ends; a further trial follows at once for the new head, so that what the trial does is
what a trial does from there. Else the block begins or goes on. Stopped in SAG, OUTAGE and SETTLING, and without a waiting
slot, a trial does nothing. -/
def Obligations.BringUpTrial : Prop :=
  ∀ s : State,
    let p := s.part
    let waits (i : SlotId) : Prop :=
      (p.slot i).state = .off ∧ (p.slot i).parked = false ∧ (p.slot i).offTimer = none
    let runs := p.spm.state = .normal ∨ p.spm.state = .recovery
    let blocked : Stall :=
      if p.fbu.bringUp = .clear ∧ 0 < p.cfg.budget.stall then .timing p.cfg.budget.stall else p.fbu.bringUp
    ((¬runs ∨ ∀ i, ¬waits i) → exec .bringUpTrial s = .next s) ∧
    ∀ i, runs → waits i →
      (∀ j, waits j → (p.slot i).rank < (p.slot j).rank ∨ (p.slot i).rank = (p.slot j).rank ∧ i ≤ j) →
      let needs := (p.profile (p.slot i)).inrush + (p.profile (p.slot i)).base
      (needs ≤ p.fbu.ceiling - p.demand → ∃ q : Part, p.Entered i .dark q ∧ q.ctb = p.ctb ∧
        q.slot i = { (p.slot i).darkened p.cfg.bus (some p.cfg.bus.boot) with
          cardSeen := none
          pollTimer := none
          pollDue := true
          inrush := (p.profile (p.slot i)).inrush } ∧
        ∃ r : Part, exec .bringUpTrial s = .next ⟨r, s.pending⟩ ∧
          exec .bringUpTrial ⟨({ q with fbu := { q.fbu with bringUp := .clear } } : Part).follow, s.pending⟩ =
            .next ⟨r, s.pending⟩) ∧
      (p.fbu.ceiling - p.demand < needs →
        exec .bringUpTrial s = .next ⟨{ p with fbu := { p.fbu with bringUp := blocked } }, s.pending⟩)

/-- R165 to R173, R175: a selection takes the first PENDING record of the walk C0, C1, C2, C3 that passes its slot
tests and has no PENDING record of its slot ahead of it that fails them. Where the load test passes the LOAD is
issued, and no PENDING record of the slot stands ahead of it in the walk; where it fails the load block begins or goes
on, and nothing else changes. Without such a record the load block ends. With the run marker STOPPED nothing happens.
-/
def Obligations.SelectionIssuesFirst : Prop :=
  ∀ s : State,
    let p := s.part
    let t := p.ctb
    let walk := t.c0 ++ t.c1 ++ t.c2 ++ t.c3
    let blocked : Stall :=
      if p.fbu.load = .clear ∧ 0 < p.cfg.budget.stall then .timing p.cfg.budget.stall else p.fbu.load
    let pending (k : Index) (r : Rec) : Prop := t.get k = some r ∧ r.state = .pending
    let fits (r : Rec) : Prop :=
      (p.slot r.slot).waitingDrops = [] ∧ (p.slot r.slot).inflight.length < (p.slot r.slot).window ∧
      (p.seg (segOf r.slot)).queue.length < 16 ∧
      ∀ h x, r.partner = some h → t.get h.index = some x → (p.slot x.slot).state ∈ [.relinking, .linked]
    let unblocked (pre : List Index) (i : SlotId) : Prop := ∀ j x, j ∈ pre → pending j x → x.slot = i → fits x
    let chosen (pre : List Index) (k : Index) (r : Rec) : Prop :=
      pending k r ∧ fits r ∧ unblocked pre r.slot ∧
      ∀ a j b x, pre = a ++ j :: b → pending j x → ¬(fits x ∧ unblocked a x.slot)
    (p.running = false → exec .selection s = .next s) ∧
    (∀ pre k post r, p.running = true → walk = pre ++ k :: post → chosen pre k r →
      (p.loadTest r = true →
        (∀ j x, j ∈ pre → pending j x → x.slot ≠ r.slot) ∧
        ∃ (t' : Ctb) (poll : Timer),
          t.Rewritten k { r with state := .loading, reason := none } t' ∧
          exec .selection s = .next ⟨{ (({ p with ctb := t' }.setSlot r.slot { p.slot r.slot with
              inflight := (p.slot r.slot).inflight ++ [(⟨.load, t.handle k, p.cfg.bus.completion, false⟩ : Txn)]
              pollTimer := poll }).setSeg (segOf r.slot) { p.seg (segOf r.slot) with
              queue := (p.seg (segOf r.slot)).queue ++ [(⟨r.slot, .load (t.handle k) r.channel r.legs⟩ : QFrame)] }) with
            fbu := { p.fbu with load := .clear } }, s.pending⟩ ∧
          ((p.slot r.slot).state = .linked → (p.slot r.slot).inflight = [] →
            poll = (p.slot r.slot).pollTimer.map fun left => min left p.cfg.bus.fastPoll) ∧
          (((p.slot r.slot).state ≠ .linked ∨ (p.slot r.slot).inflight ≠ []) → poll = (p.slot r.slot).pollTimer)) ∧
      (p.loadTest r = false →
        exec .selection s = .next ⟨{ p with fbu := { p.fbu with load := blocked } }, s.pending⟩)) ∧
    (p.running = true → (∀ pre k post r, walk = pre ++ k :: post → ¬chosen pre k r) →
      exec .selection s = .next ⟨{ p with fbu := { p.fbu with load := .clear } }, s.pending⟩)

/-! ### Presence and the timers of a slot -/

/-- R54: insertion into an EMPTY slot takes it to OFF, not cooling, with its attempts 0 and the change reported;
removal takes a slot to EMPTY from any other state, with the power-off treatment where its enable was driven, and the
change reported. In EMPTY a removal, and in any other state an insertion, changes the presence line alone. R61, R65,
R93: the off timer's expiry ends the cooling; the stable timer's expiry in LINKED sets the attempts to 0; the poll
timer's expiry makes a POLL due, which takes a queue place at once if one is free. That an insertion elsewhere than in
EMPTY changes no more than the line, and that a timer that is stopped does not expire, is log 19. -/
def Obligations.PresenceAndSlotTimers : Prop :=
  (∀ (s : State) (i : SlotId),
     let p := s.part
     let x := p.slot i
     let reported (q : Part) : Part := (q.setLink .a ((q.link .a).slotChanged i)).setLink .b ((q.link .b).slotChanged i)
     p.ctb.TableLaw →
     (x.state = .empty → ∃ q : Part, p.Entered i .off q ∧ q.ctb = p.ctb ∧
       q.slot i = { x.withdrawn .off with seated := true, attempts := 0 } ∧
       exec (.insertion i) s = .next ⟨(reported q).follow, s.pending⟩) ∧
     (x.state ≠ .empty → exec (.insertion i) s = .next ⟨p.setSlot i { x with seated := true }, s.pending⟩) ∧
     (x.state ≠ .empty → ∃ q : Part, p.Entered i .empty q ∧
       q.slot i = { x.withdrawn .empty with seated := false } ∧
       (x.enable = true → p.ctb.Treated powerOffFate i q.ctb) ∧ (x.enable = false → q.ctb = p.ctb) ∧
       exec (.removal i) s = .next ⟨q.follow, s.pending⟩) ∧
     (x.state = .empty → exec (.removal i) s = .next ⟨p.setSlot i { x with seated := false }, s.pending⟩)) ∧
  (∀ (s : State) (i : SlotId),
     let p := s.part
     let x := p.slot i
     (x.offTimer.isSome = true →
       exec (.offTimerExpiry i) s = .next ⟨p.setSlot i { x with offTimer := none }, s.pending⟩) ∧
     (x.offTimer = none → exec (.offTimerExpiry i) s = .next s) ∧
     (x.stableTimer.isSome = true → x.state = .linked →
       exec (.stableTimerExpiry i) s = .next ⟨p.setSlot i { x with stableTimer := none, attempts := 0 }, s.pending⟩) ∧
     (x.stableTimer = none → exec (.stableTimerExpiry i) s = .next s) ∧
     (x.pollTimer.isSome = true →
       exec (.pollTimerExpiry i) s =
         .next ⟨(p.setSlot i { x with pollTimer := none, pollDue := true }).arbitrate (segOf i), s.pending⟩) ∧
     (x.pollTimer = none → exec (.pollTimerExpiry i) s = .next s))

/-- R61, R63, R68, R69, R101: the counted failures by a timer. A boot timer's expiry in DARK adds BOOT_TIMEOUT and
power-cycles the card; an align timer's expiry in ALIGNING adds ALIGN_FAILED and calls for ALIGN anew; a deadline's
expiry adds COMPLETION_TIMEOUT and loses the card. At the attempt limit each takes the slot to FAULTED instead. A
timer that is stopped and an entry that is gone do not expire (log 19). -/
def Obligations.TimersFailSlots : Prop :=
  ∀ (s : State) (i : SlotId) (h : Handle),
    let p := s.part
    let x := p.slot i
    p.ctb.TableLaw →
    (x.bootTimer.isSome = true → x.state = .dark → ∃ q : Part,
      p.Failed i 2 (fun q => p.Entered i .off q ∧
        q.slot i = { (x.counted 2).withdrawn .off with offTimer := some p.cfg.bus.off } ∧
        p.ctb.Treated powerOffFate i q.ctb) q ∧
      exec (.bootTimerExpiry i) s = .next ⟨q.follow, s.pending⟩) ∧
    (x.bootTimer = none → exec (.bootTimerExpiry i) s = .next s) ∧
    (x.alignTimer.isSome = true → x.state = .aligning → p.cfg.bus.attemptLimit ≤ (x.counted 4).attempts →
      ∃ q : Part, p.Failed i 4 (fun _ => True) q ∧ exec (.alignTimerExpiry i) s = .next ⟨q.follow, s.pending⟩) ∧
    (x.alignTimer.isSome = true → x.state = .aligning → (x.counted 4).attempts < p.cfg.bus.attemptLimit →
      exec (.alignTimerExpiry i) s = .next ⟨(((p.setSlot i { x.counted 4 with
          alignTimer := some p.cfg.bus.align
          engine := some ⟨.align x.phase, 0, .waiting⟩ }).setSeg (segOf i) { p.seg (segOf i) with
          queue := (p.seg (segOf i)).queue.filter fun f => !(decide (f.slot = i) && f.frame.isEngine) }).arbitrate
        (segOf i)).follow, s.pending⟩) ∧
    (x.alignTimer = none → exec (.alignTimerExpiry i) s = .next s) ∧
    ((∃ e ∈ x.inflight, e.handle = h) → x.state ∈ SlotState.losable → ∃ q : Part,
      p.Failed i 16 (p.Lost i 16) q ∧
      exec (.completionTimeout i h.index h.gen) s = .next ⟨q.follow, s.pending⟩) ∧
    ((∀ e ∈ x.inflight, e.handle ≠ h) → exec (.completionTimeout i h.index h.gen) s = .next s)

/-! ### The maintenance bus segments -/

/-- R86, R204: an idle segment with a frame queued opens the head frame's exchange: the frame leaves the queue and is
driven onto the pair with its check byte, the entry of a LOAD or DROP is marked sent, and the freed place goes to the
arbiter. In exchange, or with its queue empty, a segment opens none. -/
def Obligations.ExchangeOpens : Prop :=
  ∀ (s : State) (g : SegId),
    let p := s.part
    let z := p.seg g
    (∀ f rest, z.inProgress = none → z.queue = f :: rest →
      let x := p.slot f.slot
      let bytes : List Byte := match f.frame with
        | .poll => [0x01, byteOf f.slot.val, 0]
        | .align ph => [0x02, byteOf f.slot.val, 1, byteOf ph.val]
        | .load h c legs => [0x03, byteOf f.slot.val, byteOf (5 + 4 * legs.length), byteOf (h.index.val / 256),
            byteOf h.index.val, byteOf h.gen.val, byteOf c.val, byteOf legs.length] ++
            legs.flatMap fun l => [byteOf l.highway.val, l.dir.code, byteOf (l.timeslot.val / 256), byteOf l.timeslot.val]
        | .drop h => [0x04, byteOf f.slot.val, 3, byteOf (h.index.val / 256), byteOf h.index.val, byteOf h.gen.val]
        | .digest => [0x05, byteOf f.slot.val, 0]
        | .clear => [0x06, byteOf f.slot.val, 0]
      exec (.exchangeOpen g) s = .next ⟨((p.setSeg g { z with
          queue := rest
          inProgress := some ⟨f.slot, f.frame, false, z.exchanges + 1⟩
          sent := bytes ++ [bytes.foldl (fun c b => c ^^^ b) 0]
          exchanges := z.exchanges + 1 }).setSlot f.slot { x with
          inflight := x.inflight.map fun e =>
            if f.frame.handle? = some e.handle then { e with sent := true } else e
          engine := x.engine.map fun e =>
            if f.frame.isEngine then { e with place := .inExchange } else e }).arbitrate g, s.pending⟩) ∧
    ((z.inProgress.isSome = true ∨ z.queue = []) → exec (.exchangeOpen g) s = .next s)

/-- R91, R92, R93, R95: a grant goes to the first category with an eligible producer, and within it to the first
eligible slot after the category's pointer, counting upwards and wrapping; it fills one place and sets the pointer.
Grants end only when no place is free or no producer is eligible. -/
def Obligations.ArbiterGrants : Prop :=
  ∀ (p : Part) (g : SegId),
    let wants (c : Category) (i : SlotId) : Prop := segOf i = g ∧
      match c with
      | .engine => ∃ e, (p.slot i).engine = some e ∧ e.place = .waiting
      | .drop => (p.slot i).waitingDrops ≠ [] ∧ (p.slot i).inflight.length < (p.slot i).window
      | .poll => (p.slot i).pollDue = true
    let first : Category → Category → Prop := fun a b =>
      a = .engine ∧ b ≠ .engine ∨ a = .drop ∧ b = .poll
    let after (c : Category) (i j : SlotId) : Prop :=
      match (p.seg g).ptr c with
      | none => i ≤ j
      | some q => if q < i then i ≤ j ∨ j ≤ q else i ≤ j ∧ j ≤ q
    (∀ c i, wants c i → (∀ b j, wants b j → ¬first b c) → (∀ j, wants c j → after c i j) →
      ∃ q, p.grantOne g = some q ∧ ((p.seg g).queue.length < 16 → p.arbitrate g = q.arbitrate g) ∧
        (q.seg g).ptr c = some i ∧
        (∃ f, (q.seg g).queue = (p.seg g).queue ++ [⟨i, f⟩] ∧
          match c with
          | .engine => (p.slot i).engine.map Engine.frame = some f ∧
              (q.slot i).engine = (p.slot i).engine.map fun e => { e with place := .queued }
          | .drop => ∃ h rest, (p.slot i).waitingDrops = h :: rest ∧ f = .drop h ∧ (q.slot i).waitingDrops = rest ∧
              (q.slot i).inflight = (p.slot i).inflight ++ [⟨.drop, h, p.cfg.bus.completion, false⟩]
          | .poll => f = .poll ∧ (q.slot i).pollDue = false) ∧
        ∀ j, j ≠ i → q.slot j = p.slot j) ∧
    ((∀ c i, ¬wants c i) → p.arbitrate g = p) ∧ (16 ≤ (p.seg g).queue.length → p.arbitrate g = p) ∧
    (16 ≤ ((p.arbitrate g).seg g).queue.length ∨
      ∀ i, segOf i = g → ∀ c, ((p.arbitrate g).slot i).eligible c = false)

/-- R86, R88, R89, R92, R93: a reply window that closes without a reply ends the exchange and counts a missed reply.
Whatever is taken in an orphaned exchange only ends it, a POLL's without a start of the poll timer (log 14); on an idle
segment nothing happens (log 19). -/
def Obligations.WindowCloseCountsMiss : Prop :=
  ∀ (s : State) (g : SegId),
    let p := s.part
    (∀ c : Instr, (c = .replyWindowClose g ∨ c = .replyBreakOff g ∨ (∃ w, c = .pollReply g w) ∨ (∃ b, c = .accept g b) ∨
        (∃ b r, c = .refuse g b r) ∨ (∃ b n x y, c = .digestReply g b n x y) ∨
        ∃ bs, c = .malformedOrUnexpectedReply g bs) →
      ((p.seg g).inProgress = none → exec c s = .next s) ∧
      ∀ e, (p.seg g).inProgress = some e → e.orphan = true → exec c s = .next ⟨p.idled g e, s.pending⟩) ∧
    ∀ e, (p.seg g).inProgress = some e → e.orphan = false → p.ctb.TableLaw →
      ∃ q : Part, (p.idled g e).Missed e q ∧ exec (.replyWindowClose g) s = .next ⟨(q.polled e).follow, s.pending⟩

/-- R86, R87, R102, R204: a reply that breaks off, or whose bytes or fields are outside their coding, is malformed; a
well-formed one that names another slot is a wrong slot; one of a kind the frame does not expect is unexpected. Each
is offered to the fault capture under its kind and counts as a missed reply. -/
def Obligations.BadRepliesCaptured : Prop :=
  ∀ (s : State) (g : SegId) (e : Exchange),
    let p := s.part
    let bad (c : Instr) (k : CaptureKind) : Prop :=
      ∃ q : Part, ((p.idled g e).captured ⟨k, e.slot, none⟩).Missed e q ∧
        exec c s = .next ⟨(q.polled e).follow, s.pending⟩
    let away (b : Byte) : Prop := b.toNat < 24 ∧ b.toNat ≠ e.slot.val
    let here := byteOf e.slot.val
    let broken (w : WirePoll) : Prop := 24 ≤ w.slot.toNat ∨ w.phase.toNat ∉ [1, 2, 3, 4] ∨ 16 ≤ w.cardType.toNat ∨
      w.depth.toNat = 0 ∨ 8 < w.depth.toNat ∨ 1 < w.fatal.toNat ∨ 4 < w.completions.length ∨
      ∃ c ∈ w.completions, 4096 ≤ c.handle.index.toNat ∨ 16 ≤ c.handle.gen.toNat ∨ c.result.toNat ∉ [1, 2]
    (p.seg g).inProgress = some e → e.orphan = false → p.ctb.TableLaw →
    bad (.replyBreakOff g) .malformedReply ∧
    (∀ w, (broken w → bad (.pollReply g w) .malformedReply) ∧
      (¬broken w → away w.slot → bad (.pollReply g w) .wrongSlot) ∧
      (¬broken w → w.slot = here → e.frame ≠ .poll → bad (.pollReply g w) .unexpectedReply)) ∧
    (∀ b, (24 ≤ b.toNat → bad (.accept g b) .malformedReply) ∧ (away b → bad (.accept g b) .wrongSlot)) ∧
    ((e.frame = .poll ∨ e.frame = .digest) → bad (.accept g here) .unexpectedReply) ∧
    (∀ b r, ((24 ≤ b.toNat ∨ r.toNat ∉ [1, 2, 3]) → bad (.refuse g b r) .malformedReply) ∧
      (away b → r.toNat ∈ [1, 2, 3] → bad (.refuse g b r) .wrongSlot) ∧
      (r.toNat ∈ [1, 2, 3] → (∀ h c legs, e.frame ≠ .load h c legs) → (∀ h, e.frame = .drop h → r.toNat ≠ 3) →
        bad (.refuse g here r) .unexpectedReply)) ∧
    (∀ b n x y, ((24 ≤ b.toNat ∨ 512 < n.toNat) → bad (.digestReply g b n x y) .malformedReply) ∧
      (away b → n.toNat ≤ 512 → bad (.digestReply g b n x y) .wrongSlot) ∧
      (n.toNat ≤ 512 → e.frame ≠ .digest → bad (.digestReply g here n x y) .unexpectedReply)) ∧
    (∀ bytes : List Byte, bytes.length < 3 → bad (.malformedOrUnexpectedReply g bytes) .malformedReply) ∧
    (∀ (kind slot len : Byte) (rest : List Byte), rest.length ≤ len.toNat →
      bad (.malformedOrUnexpectedReply g (kind :: slot :: len :: rest)) .malformedReply) ∧
    ∀ (kind slot check : Byte) (body rest : List Byte), body.length ≤ 255 →
      let sound := check = (kind :: slot :: byteOf body.length :: body).foldl (fun c b => c ^^^ b) 0
      let fits := kind = 0x81 ∧ 10 ≤ body.length ∧ body.length = 10 + 4 * (body.getD 9 0).toNat ∨
        kind = 0x82 ∧ body.length = 0 ∨ kind = 0x83 ∧ body.length = 1 ∨ kind = 0x84 ∧ body.length = 9
      ¬(sound ∧ fits) →
      bad (.malformedOrUnexpectedReply g (kind :: slot :: byteOf body.length :: body ++ check :: rest)) .malformedReply

/-- R98, R99, R100: a completion whose handle is that of a sent entry removes the entry and acts by the entry's kind
and the record's flags; one that matches none is a stray, offered to the fault capture. What it makes possible follows
at once: the slot may go on to LINKED (`linkedTest`), and then `follow` is made: queue places are granted (R91), a bring-up
block without a waiting slot ends (R156), and the recovery-complete test is made (R127). That a poll reply makes them after each of its completions, inside its one
change, is the model's reading, DEDUCED (log 8 for the test, log 9 for the grants). R65: a RELINKING
slot with no record PENDING or LOADING goes on to LINKED, its stable timer at 30 s, the change reported; any other
slot stands as it is. -/
def Obligations.CompletionsAndRelinkingEnd : Prop :=
  (∀ (p : Part) (i : SlotId) (h : Handle) (res : Result),
     let x := p.slot i
     ((∀ e ∈ x.inflight, e.handle = h → e.sent = false) →
       p.completion i (h, res) = p.captured ⟨.strayCompletion, i, some h⟩) ∧
     ∀ (a b : List Txn) (e : Txn) (r : Rec), x.inflight = a ++ e :: b → e.handle = h → e.sent = true →
       (∀ y ∈ a ++ b, y.handle ≠ h) → p.ctb.named h = some r → p.ctb.TableLaw →
       let y := { x with
         inflight := a ++ b
         pollTimer := p.cfg.bus.cut x.pollClass { x with inflight := a ++ b }.pollClass x.pollTimer }
       let leaves (r' : Rec) : Prop := ∃ t', p.ctb.Rewritten h.index r' t' ∧
         p.completion i (h, res) = (({ p with ctb := t' }.setSlot i y).linkedTest i).follow
       let freed : Prop := ∃ t', p.ctb.Freed h.index t' ∧
         p.completion i (h, res) = (({ p with ctb := t' }.setSlot i y).linkedTest i).follow
       (e.kind = .drop → freed) ∧
       (e.kind = .load → r.state = .loading →
         (r.retire = true → res = .done → ∃ t',
           p.ctb.Rewritten h.index { r with state := .dropping, reload := false, retire := false } t' ∧
           p.completion i (h, res) = (({ p with ctb := t' }.setSlot i
             { y with waitingDrops := x.waitingDrops ++ [h] }).linkedTest i).follow) ∧
         (r.retire = true → res = .failed → freed) ∧
         (r.retire = false → r.reload = true → leaves { r with state := .pending, reload := false }) ∧
         (r.retire = false → r.reload = false → res = .done → leaves { r with state := .live }) ∧
         (r.retire = false → r.reload = false → res = .failed → ∃ t',
           p.ctb.Rewritten h.index { r with state := .refused, reason := some .loadFailed } t' ∧
           p.completion i (h, res) = ((({ p with
             ctb := t'
             linkA := { p.linkA with pending := p.linkA.pending ||| Notice.recordRefused.flag }
             linkB := { p.linkB with pending := p.linkB.pending ||| Notice.recordRefused.flag } } : Part).setSlot i
               y).linkedTest i).follow))) ∧
  (∀ (p : Part) (i : SlotId),
     let waits : Prop := ∃ k r, p.ctb.get k = some r ∧ r.slot = i ∧ (r.state = .pending ∨ r.state = .loading)
     Sparse.Rising p.ctb.recs →
     ((p.slot i).state = .relinking → ¬waits → p.Entered i .linked (p.linkedTest i) ∧
       (p.linkedTest i).ctb = p.ctb ∧ (p.linkedTest i).slot i = (p.slot i).linkedUp p.cfg.bus) ∧
     (((p.slot i).state ≠ .relinking ∨ waits) → p.linkedTest i = p))

/-- R97, R49, R88, R100: a good poll reply clears the missed count, carries out its completions in their order, and
then, if a DROP among them FAILED, loses the card with no fault kind; otherwise the reply is entered in the slot
record and acted on by the slot's state (`takeGoodPoll`). Each completion makes, inside the one change, the grants and the
recovery-complete test that follow it (log 9, log 8; both DEDUCED). -/
def Obligations.PollReplyInOrder : Prop :=
  ∀ (s : State) (g : SegId) (e : Exchange) (w : WirePoll) (f : PollFields),
    let p := s.part
    let i := e.slot
    let p₁ := (p.idled g e).setSlot i { (p.idled g e).slot i with missed := 0 }
    let p₂ := f.completions.foldl (fun q c => q.completion i c) p₁
    let drops : Prop := ∃ done c rest, f.completions = done ++ c :: rest ∧ c.2 = .failed ∧
      ∃ t ∈ ((done.foldl (fun q c => q.completion i c) p₁).slot i).inflight,
        t.handle = c.1 ∧ t.sent = true ∧ t.kind = .drop
    (p.seg g).inProgress = some e → e.orphan = false → e.frame = .poll → pollReplyOf w = some (i, .poll f) →
    (¬drops → exec (.pollReply g w) s = .next ⟨((p₂.takeGoodPoll i f e.number).polled e).follow, s.pending⟩) ∧
    (drops → (p₂.slot i).state ∈ SlotState.losable → p₂.ctb.TableLaw →
      ∃ q : Part, p₂.Failed i 0 (p₂.Lost i 0) q ∧
        exec (.pollReply g w) s = .next ⟨(q.polled e).follow, s.pending⟩)

/-- R60, R61, R62, R49: a good poll reply of a DARK slot is kept as its last reply. While the supply is down nothing
follows; once it is up a fatal reply power-cycles the card with an attempt, and any other classifies it: no reboot
takes it to AUDITING, or with the hold flag to HELD; a reboot suspends its LIVE records, records the boot count, and
makes the identity check. -/
def Obligations.DarkRepliesClassify : Prop :=
  ∀ (p : Part) (i : SlotId) (f : PollFields) (n : Nat),
    let x := p.slot i
    let y := { x with cardSeen := some ⟨f.card, f.depth⟩, lastReply := some ⟨f.phase, f.bootCount⟩ }
    let q := p.takeGoodPoll i f n
    let b := p.cfg.bus
    let same := (f.phase = .run ∨ f.phase = .aligned) ∧ f.bootCount = x.bootCount ∧ x.identity = some f.card
    let channels := (p.cfg.profiles[f.card.type]).channels
    let fits : Prop := ∀ k r, p.ctb.get k = some r → r.slot = i → r.channel.val < channels
    let suspended (q' : Part) : Prop := p.ctb.Treated (moveFate .live .suspended) i q'.ctb
    x.state = .dark → p.ctb.TableLaw →
    (p.spm.state.up = false → q = p.setSlot i y) ∧
    (p.spm.state.up = true → f.fatal = true → (p.setSlot i y).Failed i 0 (fun q => p.Entered i .off q ∧
      q.slot i = { (y.counted 0).withdrawn .off with offTimer := some b.off } ∧ p.ctb.Treated powerOffFate i q.ctb) q) ∧
    (p.spm.state.up = true → f.fatal = false → same → x.hold = false → ∃ q' : Part, p.Entered i .auditing q' ∧
      q'.slot i = { y.moved b .auditing .fast with
        audit := some .digesting
        engine := some ⟨.digest, 0, .waiting⟩ } ∧ q'.ctb = p.ctb ∧ q = q'.arbitrate (segOf i)) ∧
    (p.spm.state.up = true → f.fatal = false → same → x.hold = true → ∃ q' : Part, p.Entered i .held q' ∧
      q'.slot i = { y.moved b .held .slow with engine := some ⟨.clear, 0, .waiting⟩ } ∧ suspended q' ∧
      q = q'.arbitrate (segOf i)) ∧
    (p.spm.state.up = true → f.fatal = false → ¬same → (x.identity = some f.card ∨ x.identity = none ∧ fits) →
      ∃ q' : Part, p.Entered i .aligning q' ∧
        q'.slot i = { y.moved b .aligning .fast with
          bootCount := f.bootCount
          identity := some f.card
          alignTimer := some b.align
          engine := some ⟨.align x.phase, 0, .waiting⟩ } ∧ suspended q' ∧ q = q'.arbitrate (segOf i)) ∧
    (p.spm.state.up = true → f.fatal = false → ¬same →
      ((∃ c, x.identity = some c ∧ c ≠ f.card) ∨ x.identity = none ∧ ¬fits) →
      p.Entered i .mismatch q ∧ q.slot i = { y.moved b .mismatch .slow with bootCount := f.bootCount } ∧ suspended q)

/-- R63: in ALIGNING a reply counts only where its POLL's exchange opened after the slot's latest ALIGN mark, and no
ALIGN waits unsent (log 10). ALIGNED takes the slot to HELD or, without the hold flag, to RELINKING; ALIGN_FAIL counts
an attempt and calls for ALIGN anew; BOOT and RUN change nothing, and no phase is a reboot. -/
def Obligations.AlignOutcomeTaken : Prop :=
  ∀ (p : Part) (i : SlotId) (f : PollFields) (n : Nat),
    let x := p.slot i
    let y := { x with cardSeen := some ⟨f.card, f.depth⟩ }
    let p' := p.setSlot i y
    let q := p.takeGoodPoll i f n
    let b := p.cfg.bus
    let counts := (∃ m, x.alignMark = some m ∧ m < n) ∧ ∀ e, x.engine = some e → e.tries ≠ 0
    x.state = .aligning → p.ctb.TableLaw → f.fatal = false →
    ((¬counts ∨ f.phase = .boot ∨ f.phase = .run) → q = p') ∧
    (counts → f.phase = .aligned → x.hold = true →
      p.Entered i .held q ∧ q.slot i = y.moved b .held .slow ∧ q.ctb = p.ctb) ∧
    (counts → f.phase = .aligned → x.hold = false → ∃ q' : Part, p.Entered i .relinking q' ∧
      q'.slot i = { y.moved b .relinking .fast with window := p'.computeWindow i } ∧
      p.ctb.Treated (moveFate .suspended .pending) i q'.ctb ∧ q = q'.linkedTest i) ∧
    (counts → f.phase = .alignFail → b.attemptLimit ≤ (y.counted 4).attempts → p'.Failed i 4 (fun _ => True) q) ∧
    (counts → f.phase = .alignFail → (y.counted 4).attempts < b.attemptLimit →
      q = ((p.setSlot i { y.counted 4 with
          alignTimer := some b.align
          engine := some ⟨.align x.phase, 0, .waiting⟩ }).setSeg (segOf i) { p.seg (segOf i) with
          queue := (p.seg (segOf i)).queue.filter fun f => !(decide (f.slot = i) && f.frame.isEngine) }).arbitrate
        (segOf i))

/-- R49, R61, R67, R69, R70, R114: a good poll reply of a slot in service. An unchanged card only updates card seen;
phase ALIGN_FAIL loses the card with ALIGN_FAILED, ahead of the reboot test (log 11); phase BOOT, a changed boot count or
another card is a reboot seen: below the attempt limit its records are suspended or freed, the boot count is recorded
(log 26) and the identity check follows, for a slot without an identity by the channels of the records that are left. A
fatal reply power-cycles the card. In MISMATCH a changed boot count is recorded. -/
def Obligations.RepliesInService : Prop :=
  ∀ (p : Part) (i : SlotId) (f : PollFields) (n : Nat),
    let x := p.slot i
    let y := { x with cardSeen := some ⟨f.card, f.depth⟩ }
    let p' := p.setSlot i y
    let q := p.takeGoodPoll i f n
    let b := p.cfg.bus
    let serves := x.state ∈ [.auditing, .relinking, .linked, .held]
    let rebooted := f.phase = .boot ∨ f.bootCount ≠ x.bootCount ∨ x.identity ≠ some f.card
    let channels := (p.cfg.profiles[f.card.type]).channels
    let fits : Prop := ∀ k r, p.ctb.get k = some r → r.slot = i → (powerOffFate r).isSome = true → r.channel.val < channels
    p.ctb.TableLaw →
    (x.state ∈ SlotState.losable → f.fatal = true → p'.Failed i 0 (fun q => p.Entered i .off q ∧
      q.slot i = { (y.counted 0).withdrawn .off with offTimer := some b.off } ∧ p.ctb.Treated powerOffFate i q.ctb) q) ∧
    (serves → f.fatal = false → f.phase = .alignFail → p'.Failed i 4 (p'.Lost i 4) q) ∧
    (serves → f.fatal = false → f.phase ≠ .alignFail → ¬rebooted → q = p') ∧
    (serves → f.fatal = false → f.phase ≠ .alignFail → rebooted → b.attemptLimit ≤ (y.counted 1).attempts →
      p'.Failed i 1 (fun _ => True) q) ∧
    (serves → f.fatal = false → f.phase ≠ .alignFail → rebooted → (y.counted 1).attempts < b.attemptLimit →
      (x.identity = some f.card ∨ x.identity = none ∧ fits) → ∃ q' : Part, p.Entered i .aligning q' ∧
        q'.slot i = { (y.counted 1).moved b .aligning .fast with
          bootCount := f.bootCount
          identity := some f.card
          alignTimer := some b.align
          engine := some ⟨.align x.phase, 0, .waiting⟩ } ∧
        p.ctb.Treated powerOffFate i q'.ctb ∧ q = q'.arbitrate (segOf i)) ∧
    (serves → f.fatal = false → f.phase ≠ .alignFail → (y.counted 1).attempts < b.attemptLimit →
      ((∃ c, x.identity = some c ∧ c ≠ f.card) ∨ x.identity = none ∧ ¬fits) →
      p.Entered i .mismatch q ∧
        q.slot i = { (y.counted 1).moved b .mismatch .slow with bootCount := f.bootCount } ∧
        p.ctb.Treated powerOffFate i q.ctb) ∧
    (x.state = .mismatch → f.fatal = false → q = p.setSlot i { y with
      bootCount := f.bootCount })

/-- R92, R63, R108, R109, R110: a good ACCEPT of an ALIGN, and of a CLEAR but an audit's, ends the frame's being
pending; of a LOAD or DROP it changes nothing but the missed count. A good DIGEST_REPLY is compared with the digest
over every leg of the slot's LIVE records: equal in all three values takes the slot to RELINKING with its SUSPENDED
records PENDING; else CLEAR is called for. The ACCEPT of that CLEAR turns the LIVE records PENDING and takes the slot
to RELINKING. -/
def Obligations.SlotEngineReplies : Prop :=
  ∀ (s : State) (g : SegId) (e : Exchange),
    let p := s.part
    let i := e.slot
    let b := p.cfg.bus
    let p₀ := p.idled g e
    let x := { p₀.slot i with missed := 0 }
    let here := byteOf i.val
    let done := { x with engine := none }
    (p.seg g).inProgress = some e → e.orphan = false → p.ctb.TableLaw →
    (∀ h c legs, (e.frame = .load h c legs ∨ e.frame = .drop h) →
      exec (.accept g here) s = .next ⟨(p₀.setSlot i x).follow, s.pending⟩) ∧
    ((∃ ph, e.frame = .align ph) ∨ (e.frame = .clear ∧ x.state ≠ .auditing) →
      (∃ y, x.engine = some y ∧ y.place = .inExchange) →
      exec (.accept g here) s = .next ⟨(p₀.setSlot i done).follow, s.pending⟩) ∧
    (e.frame = .clear → x.state = .auditing → x.audit = some .clearing →
      (∃ y, x.engine = some y ∧ y.place = .inExchange) →
      ∃ (t : Ctb) (q : Part), p.ctb.Treated (moveFate .live .pending) i t ∧ p₀.Entered i .relinking q ∧
        q.slot i = { done.moved b .relinking .fast with window := p.computeWindow i } ∧
        t.Treated (moveFate .suspended .pending) i q.ctb ∧
        exec (.accept g here) s = .next ⟨(q.linkedTest i).follow, s.pending⟩) ∧
    ∀ (n : BitVec 16) (s1 : BitVec 24) (s2 : BitVec 32), n.toNat ≤ 512 → e.frame = .digest →
      x.state = .auditing → x.audit = some .digesting → (∃ y, x.engine = some y ∧ y.place = .inExchange) →
      let codes := p.ctb.recs.flatMap fun r =>
        if r.2.slot = i ∧ r.2.state = .live then r.2.legs.map fun l => r.2.channel.val * 8192 + l.highway.val * 2048 +
          l.timeslot.val * 4 + match l.dir with
            | .tx => 1
            | .rx => 2
            | .both => 3
        else []
      let equal := n.toNat = codes.length ∧ s1.toNat = codes.sum % 2 ^ 24 ∧
        s2.toNat = (codes.map fun c => c * c).sum % 2 ^ 32
      (equal → ∃ q : Part, p₀.Entered i .relinking q ∧
        q.slot i = { done.moved b .relinking .fast with window := p.computeWindow i } ∧
        p.ctb.Treated (moveFate .suspended .pending) i q.ctb ∧
        exec (.digestReply g here n s1 s2) s = .next ⟨(q.linkedTest i).follow, s.pending⟩) ∧
      (¬equal → exec (.digestReply g here n s1 s2) s = .next ⟨(((p₀.setSlot i { x with
          audit := some .clearing
          engine := some ⟨.clear, 0, .waiting⟩ }).setSeg (segOf i) { p₀.seg (segOf i) with
          queue := (p₀.seg (segOf i)).queue.filter fun f => !(decide (f.slot = i) && f.frame.isEngine) }).arbitrate
        (segOf i)).follow, s.pending⟩)

/-- R96, R11, R53: a good REFUSE of a LOAD removes its entry, and its record leaves LOADING with its flags cleared:
PENDING with QUEUE_FULL, which lowers the effective window; else REFUSED with the reason, RECORD_REFUSED raised.
QUEUE_FULL of a DROP puts its handle back at the head of the waiting DROPs and lowers the window. -/
def Obligations.RefusesTaken : Prop :=
  ∀ (s : State) (g : SegId) (e : Exchange),
    let p := s.part
    let i := e.slot
    let p₀ := p.idled g e
    let x := { p₀.slot i with missed := 0 }
    let left (h : Handle) : List Txn := x.inflight.filter fun t => !decide (t.handle = h)
    let y (h : Handle) : Slot := { x with
      inflight := left h
      pollTimer := p.cfg.bus.cut x.pollClass { x with inflight := left h }.pollClass x.pollTimer }
    let lowered (h : Handle) : Nat := max 1 (left h).length
    (p.seg g).inProgress = some e → e.orphan = false →
    (∀ h c legs r, e.frame = .load h c legs → p.ctb.get h.index = some r →
      (∃ t', p.ctb.Rewritten h.index { r with state := .pending, reload := false, retire := false, reason := none } t' ∧
        exec (.refuse g (byteOf i.val) 3) s = .next ⟨((({ p₀ with ctb := t' } : Part).setSlot i
          { y h with window := lowered h }).linkedTest i).follow, s.pending⟩) ∧
      ∀ (code : Byte) (why : Reason), (code = 1 ∧ why = .channelRejected ∨ code = 2 ∧ why = .legRejected) →
        ∃ t', p.ctb.Rewritten h.index
            { r with state := .refused, reload := false, retire := false, reason := some why } t' ∧
          exec (.refuse g (byteOf i.val) code) s = .next ⟨((({ p₀ with
            ctb := t'
            linkA := { p₀.linkA with pending := p₀.linkA.pending ||| Notice.recordRefused.flag }
            linkB := { p₀.linkB with pending := p₀.linkB.pending ||| Notice.recordRefused.flag } } : Part).setSlot i
              (y h)).linkedTest i).follow, s.pending⟩) ∧
    ∀ h, e.frame = .drop h → exec (.refuse g (byteOf i.val) 3) s = .next ⟨(p₀.setSlot i
      { y h with waitingDrops := h :: x.waitingDrops, window := lowered h }).follow, s.pending⟩

/-! ### Resets -/

/-- R23, R81, R104, R138, R159, R162, R198: a cold start sets every block to its cold-start values; a slot whose
presence line shows seated is OFF, every other EMPTY. A transfer under select is lost until select is removed. -/
def Obligations.ColdStartValues : Prop :=
  ∀ s : State, ∃ q : Part, exec .coldStart s = .next ⟨q, s.pending⟩ ∧
    (∀ k, q.ctb.get k = none ∧ q.ctb.gen k = 0) ∧ (∀ c, q.ctb.list c = []) ∧
    (∀ i, q.slot i =
      { seated := (s.part.slot i).seated
        state := if (s.part.slot i).seated then .off else .empty
        parked := false
        hold := false
        rank := 2
        phase := 0
        identity := none
        bootCount := 0
        lastReply := none
        cardSeen := none
        attempts := 0
        faults := 0
        window := 1
        waitingDrops := []
        bootTimer := none
        alignTimer := none
        offTimer := none
        stableTimer := none
        pollTimer := none
        pollDue := false
        missed := 0
        inflight := []
        engine := none
        alignMark := none
        audit := none
        inrush := 0 }) ∧
    (∀ ty : CardType, q.cfg.profiles[ty] = ⟨128, 1000, 300, 4, 4⟩) ∧
    q.cfg.bus = ⟨4, 20, 3, 2, 50, 3000, 200, 500, 4⟩ ∧ q.cfg.budget = ⟨20000, 4, 6, 500⟩ ∧
    q.cfg.supply = ⟨580, 500, 600, 8, 8, 80, 100, 2⟩ ∧
    (∀ g, (q.seg g).queue = [] ∧ (q.seg g).inProgress = none ∧ ∀ c, (q.seg g).ptr c = none) ∧
    q.capture = ⟨none, 0⟩ ∧
    q.spm = ⟨.outage, none, 0, 0, 0, 0, true, .stopped, 0, false, false, some 1⟩ ∧
    q.fbu = ⟨0, .clear, .clear⟩ ∧ q.committed = 0 ∧ q.demand = 0 ∧ q.headroom = 0 ∧ q.deficit = false ∧
    q.running = false ∧ q.owner = none ∧
    ∀ l, q.link l = ⟨none, false, false, 1, 0x1FFF, 0, none,
      (s.part.link l).lost || (s.part.link l).transfer.isSome, (s.part.link l).dataOut⟩

/-- R24, R82, R104, R139, R160, R199, R197: a warm reset keeps the table with its records treated as at a card loss,
or as at a power-off where an enabled slot's card is gone, each partner link kept but where the partner became FREE (R12, R15);
it keeps settings, flags, identities, boot counts, attempts
and summaries; it sets each slot state from the enable and presence lines; and it sets the rest as each block's rule
says. A transfer open on either link is lost (R183). RESET from the owner is a warm reset at its transfer's end, with no
response. -/
def Obligations.WarmResetKeepsRetention : Prop :=
  ∀ s : State,
    let p := s.part
    let gone (i : SlotId) : Prop := (p.slot i).enable = true ∧ (p.slot i).seated = false
    p.ctb.TableLaw →
    ∃ q : Part, exec .resetN s = .next ⟨(q.arbitrate .l).arbitrate .r, s.pending⟩ ∧
      (∀ l, p.Heeds l → p.Follows (.reset l) → exec (.reset l) s = exec .resetN
        ⟨p.setLink l { p.link l with transfer := none, dataOut := p.opening l }, s.pending⟩) ∧
      (∀ l, p.Hears l → p.owner ≠ some l → Refuses (.reset l) l s .notOwner) ∧
      (∀ k r, p.ctb.get k = some r → ¬gone r.slot → p.ctb.TreatedAt lossFate q.ctb k r) ∧
      (∀ k r, p.ctb.get k = some r → gone r.slot → p.ctb.TreatedAt powerOffFate q.ctb k r) ∧
      (∀ k, p.ctb.get k = none → p.ctb.KeptAt q.ctb k) ∧ p.ctb.LinksKept q.ctb ∧
      (∀ c, q.ctb.list c = (p.ctb.list c).filter fun k => (q.ctb.get k).isSome) ∧
      q.cfg = p.cfg ∧
      (∀ i,
        let x := p.slot i
        let st : SlotState := if x.seated then (if x.enable then .dark else .off) else .empty
        q.slot i =
          { x with
            state := st
            lastReply := none
            cardSeen := none
            waitingDrops := []
            bootTimer := none
            alignTimer := none
            offTimer := none
            stableTimer := none
            pollTimer := none
            pollDue := decide (st = .dark)
            missed := 0
            inflight := []
            engine := none
            alignMark := none
            audit := none
            inrush := 0 }) ∧
      (∀ g, (q.seg g).queue = [] ∧ (q.seg g).inProgress = none ∧ ∀ c, (q.seg g).ptr c = none) ∧
      q.capture = ⟨none, 0⟩ ∧
      q.spm = ⟨.settling, none, 0, 0, 0, p.spm.episodes, false, .stopped, 0, false, false, some 1⟩ ∧
      q.fbu = ⟨p.cfg.budget.limit * p.cfg.budget.start / 16, .clear, .clear⟩ ∧ q.running = false ∧ q.owner = none ∧
      ∀ l, ∃ flags : BitVec 13, (q.link l) = ⟨none, false, false, flags, 0x1FFF, 0, none,
          (p.link l).lost || (p.link l).transfer.isSome, (p.link l).dataOut⟩ ∧
        flags.getLsbD 0 = (p.link l).pending.getLsbD 0 ∧ flags.getLsbD 1 = true ∧
        ∀ n, 2 ≤ n → flags.getLsbD n = false

/-! ### Laws that every step keeps -/

/-- R2, R10, R11, R14, R16, R17, R19: every step keeps the laws of the Connection Table. -/
def Obligations.TableLawsKept : Prop :=
  ∀ s t : State, s.part.ctb.TableLaw → step s = .next t → t.part.ctb.TableLaw

/-- R8, R9, R48, R94: every step keeps records where their slots let them stand, and keeps transactions and records
answering to each other. -/
def Obligations.RecordsLawKept : Prop :=
  ∀ s t : State, s.part.RecordsLaw → step s = .next t → t.part.RecordsLaw

/-- R49, R53, R54, R56, R92, R94, R105, R145, R168: every step keeps the laws of each slot. -/
def Obligations.SlotLawsKept : Prop :=
  ∀ s t : State, s.part.SlotsLaw → step s = .next t → t.part.SlotsLaw

/-- R83, R91, R102, R181, R183, R188: every step keeps the laws of the links' claims and transfers, the fault capture, the
transmit queues and their arbiters. -/
def Obligations.LinksAndBusLawKept : Prop :=
  ∀ s t : State, s.part.LinksAndBusLaw → step s = .next t → t.part.LinksAndBusLaw

/-- R117, R122, R126, R140, R143, R163: every step keeps the settings in range, the ceiling between 0 and LIMIT and
equal to LIMIT in NORMAL, and the supply's course. -/
def Obligations.SupplyAndCeilingLawKept : Prop :=
  ∀ s t : State, s.part.CeilingLaw → s.part.SupplyLaw → step s = .next t → t.part.CeilingLaw ∧ t.part.SupplyLaw

/-- The laws hold of the machine right after reset: the part at cold start (R23, R81, R104, R138, R159, R198), no card
seated (log 6). -/
def Obligations.LawsHoldAtReset : Prop :=
  let p := State.reset.part
  p.RecordsLaw ∧ p.SlotsLaw ∧ p.LinksAndBusLaw ∧ p.CeilingLaw ∧ p.SupplyLaw ∧ State.reset.pending = []
end

