-- ==== Sys2Proof/Laws/State.lean ====
section
/-! SUPPORT. One lemma per field per update of the part, each true by rfl, and the accessors of slots, segments and links
after an update. -/

namespace Sys2Proof.Machine

variable (p : Part)

/-! ### Slots -/

@[simp] theorem setSlot_ctb (i : SlotId) (x : Slot) : (Part.setSlot i x p).ctb = p.ctb := rfl
@[simp] theorem setSlot_cfg (i : SlotId) (x : Slot) : (Part.setSlot i x p).cfg = p.cfg := rfl
@[simp] theorem setSlot_mbsL (i : SlotId) (x : Slot) : (Part.setSlot i x p).mbsL = p.mbsL := rfl
@[simp] theorem setSlot_mbsR (i : SlotId) (x : Slot) : (Part.setSlot i x p).mbsR = p.mbsR := rfl
@[simp] theorem setSlot_capture (i : SlotId) (x : Slot) : (Part.setSlot i x p).capture = p.capture := rfl
@[simp] theorem setSlot_spm (i : SlotId) (x : Slot) : (Part.setSlot i x p).spm = p.spm := rfl
@[simp] theorem setSlot_fbu (i : SlotId) (x : Slot) : (Part.setSlot i x p).fbu = p.fbu := rfl
@[simp] theorem setSlot_running (i : SlotId) (x : Slot) : (Part.setSlot i x p).running = p.running := rfl
@[simp] theorem setSlot_linkA (i : SlotId) (x : Slot) : (Part.setSlot i x p).linkA = p.linkA := rfl
@[simp] theorem setSlot_linkB (i : SlotId) (x : Slot) : (Part.setSlot i x p).linkB = p.linkB := rfl
@[simp] theorem setSlot_owner (i : SlotId) (x : Slot) : (Part.setSlot i x p).owner = p.owner := rfl
@[simp] theorem setSlot_fillers (i : SlotId) (x : Slot) : (Part.setSlot i x p).fillers = p.fillers := rfl

@[simp] theorem updSlot_ctb (i : SlotId) (f : Slot → Slot) : (Part.updSlot i f p).ctb = p.ctb := rfl
@[simp] theorem updSlot_cfg (i : SlotId) (f : Slot → Slot) : (Part.updSlot i f p).cfg = p.cfg := rfl
@[simp] theorem updSlot_mbsL (i : SlotId) (f : Slot → Slot) : (Part.updSlot i f p).mbsL = p.mbsL := rfl
@[simp] theorem updSlot_mbsR (i : SlotId) (f : Slot → Slot) : (Part.updSlot i f p).mbsR = p.mbsR := rfl
@[simp] theorem updSlot_capture (i : SlotId) (f : Slot → Slot) : (Part.updSlot i f p).capture = p.capture := rfl
@[simp] theorem updSlot_spm (i : SlotId) (f : Slot → Slot) : (Part.updSlot i f p).spm = p.spm := rfl
@[simp] theorem updSlot_fbu (i : SlotId) (f : Slot → Slot) : (Part.updSlot i f p).fbu = p.fbu := rfl
@[simp] theorem updSlot_running (i : SlotId) (f : Slot → Slot) : (Part.updSlot i f p).running = p.running := rfl
@[simp] theorem updSlot_linkA (i : SlotId) (f : Slot → Slot) : (Part.updSlot i f p).linkA = p.linkA := rfl
@[simp] theorem updSlot_linkB (i : SlotId) (f : Slot → Slot) : (Part.updSlot i f p).linkB = p.linkB := rfl
@[simp] theorem updSlot_owner (i : SlotId) (f : Slot → Slot) : (Part.updSlot i f p).owner = p.owner := rfl
@[simp] theorem updSlot_fillers (i : SlotId) (f : Slot → Slot) : (Part.updSlot i f p).fillers = p.fillers := rfl

@[simp] theorem mapSlots_ctb (f : Slot → Slot) : (Part.mapSlots f p).ctb = p.ctb := by simp only [Part.mapSlots]
@[simp] theorem mapSlots_cfg (f : Slot → Slot) : (Part.mapSlots f p).cfg = p.cfg := by simp only [Part.mapSlots]
@[simp] theorem mapSlots_mbsL (f : Slot → Slot) : (Part.mapSlots f p).mbsL = p.mbsL := by simp only [Part.mapSlots]
@[simp] theorem mapSlots_mbsR (f : Slot → Slot) : (Part.mapSlots f p).mbsR = p.mbsR := by simp only [Part.mapSlots]
@[simp] theorem mapSlots_capture (f : Slot → Slot) : (Part.mapSlots f p).capture = p.capture := by simp only [Part.mapSlots]
@[simp] theorem mapSlots_spm (f : Slot → Slot) : (Part.mapSlots f p).spm = p.spm := by simp only [Part.mapSlots]
@[simp] theorem mapSlots_fbu (f : Slot → Slot) : (Part.mapSlots f p).fbu = p.fbu := by simp only [Part.mapSlots]
@[simp] theorem mapSlots_running (f : Slot → Slot) : (Part.mapSlots f p).running = p.running := by simp only [Part.mapSlots]
@[simp] theorem mapSlots_linkA (f : Slot → Slot) : (Part.mapSlots f p).linkA = p.linkA := by simp only [Part.mapSlots]
@[simp] theorem mapSlots_linkB (f : Slot → Slot) : (Part.mapSlots f p).linkB = p.linkB := by simp only [Part.mapSlots]
@[simp] theorem mapSlots_owner (f : Slot → Slot) : (Part.mapSlots f p).owner = p.owner := by simp only [Part.mapSlots]
@[simp] theorem mapSlots_fillers (f : Slot → Slot) : (Part.mapSlots f p).fillers = p.fillers := by simp only [Part.mapSlots]

/-! ### Table, monitor, budget -/

@[simp] theorem onCtb_slots (f : Ctb → Ctb) : (Part.onCtb f p).slots = p.slots := rfl
@[simp] theorem onCtb_cfg (f : Ctb → Ctb) : (Part.onCtb f p).cfg = p.cfg := rfl
@[simp] theorem onCtb_mbsL (f : Ctb → Ctb) : (Part.onCtb f p).mbsL = p.mbsL := rfl
@[simp] theorem onCtb_mbsR (f : Ctb → Ctb) : (Part.onCtb f p).mbsR = p.mbsR := rfl
@[simp] theorem onCtb_capture (f : Ctb → Ctb) : (Part.onCtb f p).capture = p.capture := rfl
@[simp] theorem onCtb_spm (f : Ctb → Ctb) : (Part.onCtb f p).spm = p.spm := rfl
@[simp] theorem onCtb_fbu (f : Ctb → Ctb) : (Part.onCtb f p).fbu = p.fbu := rfl
@[simp] theorem onCtb_running (f : Ctb → Ctb) : (Part.onCtb f p).running = p.running := rfl
@[simp] theorem onCtb_linkA (f : Ctb → Ctb) : (Part.onCtb f p).linkA = p.linkA := rfl
@[simp] theorem onCtb_linkB (f : Ctb → Ctb) : (Part.onCtb f p).linkB = p.linkB := rfl
@[simp] theorem onCtb_owner (f : Ctb → Ctb) : (Part.onCtb f p).owner = p.owner := rfl
@[simp] theorem onCtb_fillers (f : Ctb → Ctb) : (Part.onCtb f p).fillers = p.fillers := rfl
@[simp] theorem onCtb_ctb (f : Ctb → Ctb) : (Part.onCtb f p).ctb = f p.ctb := rfl

@[simp] theorem onSpm_ctb (f : Spm → Spm) : (Part.onSpm f p).ctb = p.ctb := rfl
@[simp] theorem onSpm_slots (f : Spm → Spm) : (Part.onSpm f p).slots = p.slots := rfl
@[simp] theorem onSpm_cfg (f : Spm → Spm) : (Part.onSpm f p).cfg = p.cfg := rfl
@[simp] theorem onSpm_mbsL (f : Spm → Spm) : (Part.onSpm f p).mbsL = p.mbsL := rfl
@[simp] theorem onSpm_mbsR (f : Spm → Spm) : (Part.onSpm f p).mbsR = p.mbsR := rfl
@[simp] theorem onSpm_capture (f : Spm → Spm) : (Part.onSpm f p).capture = p.capture := rfl
@[simp] theorem onSpm_fbu (f : Spm → Spm) : (Part.onSpm f p).fbu = p.fbu := rfl
@[simp] theorem onSpm_running (f : Spm → Spm) : (Part.onSpm f p).running = p.running := rfl
@[simp] theorem onSpm_linkA (f : Spm → Spm) : (Part.onSpm f p).linkA = p.linkA := rfl
@[simp] theorem onSpm_linkB (f : Spm → Spm) : (Part.onSpm f p).linkB = p.linkB := rfl
@[simp] theorem onSpm_owner (f : Spm → Spm) : (Part.onSpm f p).owner = p.owner := rfl
@[simp] theorem onSpm_fillers (f : Spm → Spm) : (Part.onSpm f p).fillers = p.fillers := rfl
@[simp] theorem onSpm_spm (f : Spm → Spm) : (Part.onSpm f p).spm = f p.spm := rfl

@[simp] theorem onFbu_ctb (f : Fbu → Fbu) : (Part.onFbu f p).ctb = p.ctb := rfl
@[simp] theorem onFbu_slots (f : Fbu → Fbu) : (Part.onFbu f p).slots = p.slots := rfl
@[simp] theorem onFbu_cfg (f : Fbu → Fbu) : (Part.onFbu f p).cfg = p.cfg := rfl
@[simp] theorem onFbu_mbsL (f : Fbu → Fbu) : (Part.onFbu f p).mbsL = p.mbsL := rfl
@[simp] theorem onFbu_mbsR (f : Fbu → Fbu) : (Part.onFbu f p).mbsR = p.mbsR := rfl
@[simp] theorem onFbu_capture (f : Fbu → Fbu) : (Part.onFbu f p).capture = p.capture := rfl
@[simp] theorem onFbu_spm (f : Fbu → Fbu) : (Part.onFbu f p).spm = p.spm := rfl
@[simp] theorem onFbu_running (f : Fbu → Fbu) : (Part.onFbu f p).running = p.running := rfl
@[simp] theorem onFbu_linkA (f : Fbu → Fbu) : (Part.onFbu f p).linkA = p.linkA := rfl
@[simp] theorem onFbu_linkB (f : Fbu → Fbu) : (Part.onFbu f p).linkB = p.linkB := rfl
@[simp] theorem onFbu_owner (f : Fbu → Fbu) : (Part.onFbu f p).owner = p.owner := rfl
@[simp] theorem onFbu_fillers (f : Fbu → Fbu) : (Part.onFbu f p).fillers = p.fillers := rfl
@[simp] theorem onFbu_fbu (f : Fbu → Fbu) : (Part.onFbu f p).fbu = f p.fbu := rfl

/-! ### Segments -/

@[simp] theorem setSeg_ctb (g : SegId) (x : Segment) : (Part.setSeg g x p).ctb = p.ctb := by cases g <;> rfl
@[simp] theorem setSeg_slots (g : SegId) (x : Segment) : (Part.setSeg g x p).slots = p.slots := by cases g <;> rfl
@[simp] theorem setSeg_cfg (g : SegId) (x : Segment) : (Part.setSeg g x p).cfg = p.cfg := by cases g <;> rfl
@[simp] theorem setSeg_capture (g : SegId) (x : Segment) : (Part.setSeg g x p).capture = p.capture := by cases g <;> rfl
@[simp] theorem setSeg_spm (g : SegId) (x : Segment) : (Part.setSeg g x p).spm = p.spm := by cases g <;> rfl
@[simp] theorem setSeg_fbu (g : SegId) (x : Segment) : (Part.setSeg g x p).fbu = p.fbu := by cases g <;> rfl
@[simp] theorem setSeg_running (g : SegId) (x : Segment) : (Part.setSeg g x p).running = p.running := by cases g <;> rfl
@[simp] theorem setSeg_linkA (g : SegId) (x : Segment) : (Part.setSeg g x p).linkA = p.linkA := by cases g <;> rfl
@[simp] theorem setSeg_linkB (g : SegId) (x : Segment) : (Part.setSeg g x p).linkB = p.linkB := by cases g <;> rfl
@[simp] theorem setSeg_owner (g : SegId) (x : Segment) : (Part.setSeg g x p).owner = p.owner := by cases g <;> rfl
@[simp] theorem setSeg_fillers (g : SegId) (x : Segment) : (Part.setSeg g x p).fillers = p.fillers := by cases g <;> rfl

@[simp] theorem updSeg_ctb (g : SegId) (f : Segment → Segment) : (Part.updSeg g f p).ctb = p.ctb := by cases g <;> rfl
@[simp] theorem updSeg_slots (g : SegId) (f : Segment → Segment) : (Part.updSeg g f p).slots = p.slots := by cases g <;> rfl
@[simp] theorem updSeg_cfg (g : SegId) (f : Segment → Segment) : (Part.updSeg g f p).cfg = p.cfg := by cases g <;> rfl
@[simp] theorem updSeg_capture (g : SegId) (f : Segment → Segment) : (Part.updSeg g f p).capture = p.capture := by cases g <;> rfl
@[simp] theorem updSeg_spm (g : SegId) (f : Segment → Segment) : (Part.updSeg g f p).spm = p.spm := by cases g <;> rfl
@[simp] theorem updSeg_fbu (g : SegId) (f : Segment → Segment) : (Part.updSeg g f p).fbu = p.fbu := by cases g <;> rfl
@[simp] theorem updSeg_running (g : SegId) (f : Segment → Segment) : (Part.updSeg g f p).running = p.running := by cases g <;> rfl
@[simp] theorem updSeg_linkA (g : SegId) (f : Segment → Segment) : (Part.updSeg g f p).linkA = p.linkA := by cases g <;> rfl
@[simp] theorem updSeg_linkB (g : SegId) (f : Segment → Segment) : (Part.updSeg g f p).linkB = p.linkB := by cases g <;> rfl
@[simp] theorem updSeg_owner (g : SegId) (f : Segment → Segment) : (Part.updSeg g f p).owner = p.owner := by cases g <;> rfl
@[simp] theorem updSeg_fillers (g : SegId) (f : Segment → Segment) : (Part.updSeg g f p).fillers = p.fillers := by cases g <;> rfl

/-! ### Links -/

@[simp] theorem setLink_ctb (l : Link) (x : LinkRec) : (Part.setLink l x p).ctb = p.ctb := by cases l <;> rfl
@[simp] theorem setLink_slots (l : Link) (x : LinkRec) : (Part.setLink l x p).slots = p.slots := by cases l <;> rfl
@[simp] theorem setLink_cfg (l : Link) (x : LinkRec) : (Part.setLink l x p).cfg = p.cfg := by cases l <;> rfl
@[simp] theorem setLink_mbsL (l : Link) (x : LinkRec) : (Part.setLink l x p).mbsL = p.mbsL := by cases l <;> rfl
@[simp] theorem setLink_mbsR (l : Link) (x : LinkRec) : (Part.setLink l x p).mbsR = p.mbsR := by cases l <;> rfl
@[simp] theorem setLink_capture (l : Link) (x : LinkRec) : (Part.setLink l x p).capture = p.capture := by cases l <;> rfl
@[simp] theorem setLink_spm (l : Link) (x : LinkRec) : (Part.setLink l x p).spm = p.spm := by cases l <;> rfl
@[simp] theorem setLink_fbu (l : Link) (x : LinkRec) : (Part.setLink l x p).fbu = p.fbu := by cases l <;> rfl
@[simp] theorem setLink_running (l : Link) (x : LinkRec) : (Part.setLink l x p).running = p.running := by cases l <;> rfl
@[simp] theorem setLink_owner (l : Link) (x : LinkRec) : (Part.setLink l x p).owner = p.owner := by cases l <;> rfl
@[simp] theorem setLink_fillers (l : Link) (x : LinkRec) : (Part.setLink l x p).fillers = p.fillers := by cases l <;> rfl

@[simp] theorem updLink_ctb (l : Link) (f : LinkRec → LinkRec) : (Part.updLink l f p).ctb = p.ctb := by cases l <;> rfl
@[simp] theorem updLink_slots (l : Link) (f : LinkRec → LinkRec) : (Part.updLink l f p).slots = p.slots := by cases l <;> rfl
@[simp] theorem updLink_cfg (l : Link) (f : LinkRec → LinkRec) : (Part.updLink l f p).cfg = p.cfg := by cases l <;> rfl
@[simp] theorem updLink_mbsL (l : Link) (f : LinkRec → LinkRec) : (Part.updLink l f p).mbsL = p.mbsL := by cases l <;> rfl
@[simp] theorem updLink_mbsR (l : Link) (f : LinkRec → LinkRec) : (Part.updLink l f p).mbsR = p.mbsR := by cases l <;> rfl
@[simp] theorem updLink_capture (l : Link) (f : LinkRec → LinkRec) : (Part.updLink l f p).capture = p.capture := by cases l <;> rfl
@[simp] theorem updLink_spm (l : Link) (f : LinkRec → LinkRec) : (Part.updLink l f p).spm = p.spm := by cases l <;> rfl
@[simp] theorem updLink_fbu (l : Link) (f : LinkRec → LinkRec) : (Part.updLink l f p).fbu = p.fbu := by cases l <;> rfl
@[simp] theorem updLink_running (l : Link) (f : LinkRec → LinkRec) : (Part.updLink l f p).running = p.running := by cases l <;> rfl
@[simp] theorem updLink_owner (l : Link) (f : LinkRec → LinkRec) : (Part.updLink l f p).owner = p.owner := by cases l <;> rfl
@[simp] theorem updLink_fillers (l : Link) (f : LinkRec → LinkRec) : (Part.updLink l f p).fillers = p.fillers := by cases l <;> rfl

/-! ### Accessors -/

section

variable (i j : SlotId) (x : Slot) (f : Slot → Slot) (g : SegId) (sg : Segment) (fs : Segment → Segment) (l m : Link)
  (lr : LinkRec) (fl : LinkRec → LinkRec) (fc : Ctb → Ctb) (fm : Spm → Spm) (fb : Fbu → Fbu)

theorem slot_setSlot : (Part.setSlot i x p).slot j = if i = j then x else p.slot j := by
  simp [Part.slot, Part.setSlot, Vector.getElem_set, Fin.ext_iff]

@[simp] theorem slot_setSlot_self : (Part.setSlot i x p).slot i = x := by simp [slot_setSlot]

theorem slot_updSlot : (Part.updSlot i f p).slot j = if i = j then f (p.slot i) else p.slot j := slot_setSlot p i j _

@[simp] theorem slot_updSlot_self : (Part.updSlot i f p).slot i = f (p.slot i) := by simp [slot_updSlot]

theorem slot_updSlot_ne (h : i ≠ j) : (Part.updSlot i f p).slot j = p.slot j := by simp [slot_updSlot, h]

@[simp] theorem slot_mapSlots : (Part.mapSlots f p).slot j = f (p.slot j) := by simp [Part.slot, Part.mapSlots]

@[simp] theorem slot_setSeg : (Part.setSeg g sg p).slot j = p.slot j := by cases g <;> rfl
@[simp] theorem slot_updSeg : (Part.updSeg g fs p).slot j = p.slot j := by cases g <;> rfl
@[simp] theorem slot_setLink : (Part.setLink l lr p).slot j = p.slot j := by cases l <;> rfl
@[simp] theorem slot_updLink : (Part.updLink l fl p).slot j = p.slot j := by cases l <;> rfl
@[simp] theorem slot_onCtb : (Part.onCtb fc p).slot j = p.slot j := rfl
@[simp] theorem slot_onSpm : (Part.onSpm fm p).slot j = p.slot j := rfl
@[simp] theorem slot_onFbu : (Part.onFbu fb p).slot j = p.slot j := rfl

@[simp] theorem seg_setSlot (h : SegId) : (Part.setSlot i x p).seg h = p.seg h := by cases h <;> rfl
@[simp] theorem seg_updSlot (h : SegId) : (Part.updSlot i f p).seg h = p.seg h := by cases h <;> rfl
@[simp] theorem seg_mapSlots (h : SegId) : (Part.mapSlots f p).seg h = p.seg h := by cases h <;> simp [Part.seg]
@[simp] theorem seg_setLink (h : SegId) : (Part.setLink l lr p).seg h = p.seg h := by cases h <;> simp [Part.seg]
@[simp] theorem seg_updLink (h : SegId) : (Part.updLink l fl p).seg h = p.seg h := by cases h <;> simp [Part.seg]
@[simp] theorem seg_onCtb (h : SegId) : (Part.onCtb fc p).seg h = p.seg h := by cases h <;> rfl
@[simp] theorem seg_onSpm (h : SegId) : (Part.onSpm fm p).seg h = p.seg h := by cases h <;> rfl
@[simp] theorem seg_onFbu (h : SegId) : (Part.onFbu fb p).seg h = p.seg h := by cases h <;> rfl

theorem seg_setSeg (h : SegId) : (Part.setSeg g sg p).seg h = if g = h then sg else p.seg h := by
  cases g <;> cases h <;> rfl

theorem seg_updSeg (h : SegId) : (Part.updSeg g fs p).seg h = if g = h then fs (p.seg g) else p.seg h :=
  seg_setSeg p g _ h

@[simp] theorem seg_updSeg_self : (Part.updSeg g fs p).seg g = fs (p.seg g) := by simp [seg_updSeg]

theorem link_setLink : (Part.setLink l lr p).link m = if l = m then lr else p.link m := by
  cases l <;> cases m <;> rfl

@[simp] theorem link_setLink_self : (Part.setLink l lr p).link l = lr := by simp [link_setLink]

theorem link_updLink : (Part.updLink l fl p).link m = if l = m then fl (p.link l) else p.link m := link_setLink p l m _

@[simp] theorem link_updLink_self : (Part.updLink l fl p).link l = fl (p.link l) := by simp [link_updLink]

@[simp] theorem link_setSlot : (Part.setSlot i x p).link m = p.link m := by cases m <;> rfl
@[simp] theorem link_updSlot : (Part.updSlot i f p).link m = p.link m := by cases m <;> rfl
@[simp] theorem link_mapSlots : (Part.mapSlots f p).link m = p.link m := by cases m <;> simp [Part.link]
@[simp] theorem link_setSeg : (Part.setSeg g sg p).link m = p.link m := by cases m <;> simp [Part.link]
@[simp] theorem link_updSeg : (Part.updSeg g fs p).link m = p.link m := by cases m <;> simp [Part.link]
@[simp] theorem link_onCtb : (Part.onCtb fc p).link m = p.link m := by cases m <;> rfl
@[simp] theorem link_onSpm : (Part.onSpm fm p).link m = p.link m := by cases m <;> rfl
@[simp] theorem link_onFbu : (Part.onFbu fb p).link m = p.link m := by cases m <;> rfl

@[simp] theorem other_other : other (other l) = l := by cases l <;> rfl
@[simp] theorem other_ne : other l ≠ l := by cases l <;> simp [other]
@[simp] theorem ne_other : l ≠ other l := by cases l <;> simp [other]

end

/-- Two parts are equal when their fields are; slots, segments and links are compared one by one. -/
theorem Part.ext_access {p q : Part} (ctb : q.ctb = p.ctb) (cfg : q.cfg = p.cfg) (capture : q.capture = p.capture)
    (spm : q.spm = p.spm) (fbu : q.fbu = p.fbu) (running : q.running = p.running) (owner : q.owner = p.owner)
    (fillers : q.fillers = p.fillers) (slots : ∀ i, q.slot i = p.slot i) (segs : ∀ g, q.seg g = p.seg g)
    (links : ∀ l, q.link l = p.link l) : q = p := by
  have hs : q.slots = p.slots := Vector.ext fun n h => slots ⟨n, h⟩
  have hl := segs .l
  have hr := segs .r
  have ha := links .a
  have hb := links .b
  cases p
  cases q
  simp_all [Part.seg, Part.link]

end Sys2Proof.Machine
end

