-- ==== Sys2Proof/Laws/Table.lean ====
section
/-! SUPPORT. The Connection Table's operations: what each reads and writes, and that each keeps the table's laws. -/

namespace Sys2Proof.Machine

/-! ### Sparse tables -/

namespace Sparse

variable {β : Type} (k j : Index) (v : β) (xs : List (Index × β))

@[simp] theorem get_set_self : get k (set k v xs) = some v := by
  induction xs with
  | nil => simp [get, set]
  | cons e xs ih =>
    simp only [set]
    split
    · simp [get]
    · split <;> simp_all [get]

theorem get_set_ne (h : j ≠ k) : get j (set k v xs) = get j xs := by
  induction xs with
  | nil => simp [get, set, h.symm]
  | cons e xs ih =>
    simp only [set]
    split
    · simp [get, h.symm]
    · split
      · rename_i h2
        simp [get, h.symm, h2]
      · simp [get, ih]

theorem get_set : get j (set k v xs) = if j = k then some v else get j xs := by
  split
  · rename_i h
    simp [h]
  · exact get_set_ne k j v xs ‹_›

theorem get_erase : get j (erase k xs) = if j = k then none else get j xs := by
  induction xs with
  | nil => simp [get, erase]
  | cons e xs ih =>
    simp only [erase, List.filter_cons] at ih ⊢
    by_cases h1 : e.1 = k <;> by_cases h2 : e.1 = j <;> simp_all [get]

theorem mem_of_get (h : get k xs = some v) : (k, v) ∈ xs := by
  induction xs with
  | nil => simp [get] at h
  | cons e xs ih =>
    simp only [get] at h
    split at h
    · obtain ⟨a, b⟩ := e
      simp_all
    · exact List.mem_cons_of_mem _ (ih h)

theorem get_none_iff : get k xs = none ↔ ∀ e ∈ xs, e.1 ≠ k := by
  induction xs with
  | nil => simp [get]
  | cons e xs ih =>
    simp only [get]
    split <;> simp_all

variable {k j v xs}

theorem get_of_mem (hr : Rising xs) (h : (k, v) ∈ xs) : get k xs = some v := by
  induction xs with
  | nil => simp at h
  | cons e xs ih =>
    simp only [Rising, List.map_cons, List.pairwise_cons] at hr
    rcases List.mem_cons.1 h with rfl | h
    · simp [get]
    · have := hr.1 k (List.mem_map.2 ⟨_, h, rfl⟩)
      simp [get, ne_of_lt this, ih hr.2 h]

theorem mem_set {e : Index × β} (h : e ∈ set k v xs) : e = (k, v) ∨ e ∈ xs := by
  induction xs with
  | nil => simpa [set] using h
  | cons a xs ih =>
    simp only [set] at h
    split at h
    · simpa using h
    · split at h
      · rcases List.mem_cons.1 h with h | h
        · exact .inl h
        · exact .inr (List.mem_cons_of_mem _ h)
      · rcases List.mem_cons.1 h with h | h
        · exact .inr (h ▸ List.mem_cons_self)
        · exact (ih h).imp_right (List.mem_cons_of_mem _)

theorem rising_set (h : Rising xs) : Rising (set k v xs) := by
  induction xs with
  | nil => simp [set, Rising]
  | cons a xs ih =>
    simp only [set]
    have h' := h
    simp only [Rising, List.map_cons, List.pairwise_cons] at h'
    split
    · rename_i hk
      simp only [Rising, List.map_cons, List.pairwise_cons, List.mem_cons]
      refine ⟨?_, h'.1, h'.2⟩
      rintro b (rfl | hb)
      · exact hk
      · exact hk.trans (h'.1 b hb)
    · split
      · rename_i ha
        simpa [Rising, ← ha] using h
      · rename_i hk ha
        simp only [Rising, List.map_cons, List.pairwise_cons]
        refine ⟨?_, ih h'.2⟩
        intro b hb
        obtain ⟨e, he, rfl⟩ := List.mem_map.1 hb
        rcases mem_set he with rfl | he
        · exact lt_of_le_of_ne (le_of_not_gt hk) ha
        · exact h'.1 _ (List.mem_map.2 ⟨e, he, rfl⟩)

theorem rising_erase (h : Rising xs) : Rising (erase k xs) := by
  unfold Rising erase
  exact List.Pairwise.sublist (List.Sublist.map _ List.filter_sublist) h

end Sparse

/-! ### Records, generations and lists after an update -/

namespace Ctb

variable (t : Ctb) (k j : Index) (r : Rec) (c d : Cls) (g : Gen)

@[simp] theorem get_put : (t.put k r).get j = if j = k then some r else t.get j := Sparse.get_set k j r t.recs
@[simp] theorem gen_put : (t.put k r).gen j = t.gen j := rfl
@[simp] theorem handle_put : (t.put k r).handle j = t.handle j := rfl
@[simp] theorem list_put : (t.put k r).list c = t.list c := by cases c <;> rfl
@[simp] theorem gens_put : (t.put k r).gens = t.gens := rfl

theorem list_setList (xs : List Index) : (t.setList d xs).list c = if c = d then xs else t.list c := by
  cases c <;> cases d <;> rfl

@[simp] theorem get_setList (xs : List Index) : (t.setList d xs).get j = t.get j := by cases d <;> rfl
@[simp] theorem gen_setList (xs : List Index) : (t.setList d xs).gen j = t.gen j := by cases d <;> rfl
@[simp] theorem handle_setList (xs : List Index) : (t.setList d xs).handle j = t.handle j := by cases d <;> rfl
@[simp] theorem recs_setList (xs : List Index) : (t.setList d xs).recs = t.recs := by cases d <;> rfl
@[simp] theorem gens_setList (xs : List Index) : (t.setList d xs).gens = t.gens := by cases d <;> rfl

@[simp] theorem get_enlist : (t.enlist d k).get j = t.get j := get_setList ..
@[simp] theorem gen_enlist : (t.enlist d k).gen j = t.gen j := gen_setList ..
@[simp] theorem handle_enlist : (t.enlist d k).handle j = t.handle j := handle_setList ..
@[simp] theorem recs_enlist : (t.enlist d k).recs = t.recs := recs_setList ..
@[simp] theorem gens_enlist : (t.enlist d k).gens = t.gens := gens_setList ..
@[simp] theorem get_delist : (t.delist d k).get j = t.get j := get_setList ..
@[simp] theorem gen_delist : (t.delist d k).gen j = t.gen j := gen_setList ..
@[simp] theorem handle_delist : (t.delist d k).handle j = t.handle j := handle_setList ..
@[simp] theorem recs_delist : (t.delist d k).recs = t.recs := recs_setList ..
@[simp] theorem gens_delist : (t.delist d k).gens = t.gens := gens_setList ..

theorem list_enlist : (t.enlist d k).list c = if c = d then t.list c ++ [k] else t.list c := by
  rw [enlist, list_setList]
  split <;> simp_all

theorem list_delist :
    (t.delist d k).list c = if c = d then (t.list c).filter fun j => decide (j ≠ k) else t.list c := by
  rw [delist, list_setList]
  split <;> simp_all

theorem get_upd (f : Rec → Rec) : (t.upd k f).get j = if j = k then (t.get k).map f else t.get j := by
  unfold upd
  split
  · rename_i h
    split <;> simp_all
  · rename_i h
    simp [h]

@[simp] theorem gen_upd (f : Rec → Rec) : (t.upd k f).gen j = t.gen j := by
  unfold upd
  split <;> rfl

@[simp] theorem handle_upd (f : Rec → Rec) : (t.upd k f).handle j = t.handle j := by
  unfold upd
  split <;> rfl

@[simp] theorem list_upd (f : Rec → Rec) : (t.upd k f).list c = t.list c := by
  unfold upd
  split <;> simp

@[simp] theorem gens_upd (f : Rec → Rec) : (t.upd k f).gens = t.gens := by
  unfold upd
  split <;> rfl

/-- Clearing the partner field that a partner field names touches that field alone. -/
theorem get_unlink (h : Option Handle) :
    (t.unlink h).get j =
      (t.get j).map fun r => if h.map Handle.index = some j then { r with partner := none } else r := by
  unfold unlink
  cases h with
  | none => cases t.get j <;> simp
  | some h =>
    simp only [get_upd, Option.map_some, Option.some.injEq]
    by_cases e : j = h.index
    · subst e
      simp
    · simp [e, Ne.symm e]

@[simp] theorem gen_unlink (h : Option Handle) : (t.unlink h).gen j = t.gen j := by
  unfold unlink
  split <;> simp

@[simp] theorem handle_unlink (h : Option Handle) : (t.unlink h).handle j = t.handle j := by
  unfold unlink
  split <;> simp

@[simp] theorem list_unlink (h : Option Handle) : (t.unlink h).list c = t.list c := by
  unfold unlink
  split <;> simp

@[simp] theorem gens_unlink (h : Option Handle) : (t.unlink h).gens = t.gens := by
  unfold unlink
  split <;> simp

@[simp] theorem get_setGen : (t.setGen k g).get j = t.get j := rfl
@[simp] theorem list_setGen : (t.setGen k g).list c = t.list c := by cases c <;> rfl
@[simp] theorem recs_setGen : (t.setGen k g).recs = t.recs := rfl

@[simp] theorem gen_setGen : (t.setGen k g).gen j = if j = k then g else t.gen j := by
  unfold setGen gen
  simp only
  split
  · rw [Sparse.get_erase]
    split <;> simp_all
  · rw [Sparse.get_set]
    split <;> simp_all

theorem named_eq_some {t : Ctb} {h : Handle} {r : Rec} :
    t.named h = some r ↔ t.gen h.index = h.gen ∧ t.get h.index = some r := by
  unfold named
  split <;> simp_all

theorem named_handle {t : Ctb} : t.named (t.handle k) = t.get k := by simp [named, handle]

theorem handle_of_named {t : Ctb} {h : Handle} {r : Rec} (e : t.named h = some r) : t.handle h.index = h := by
  obtain ⟨a, b⟩ := h
  simp_all [handle, named_eq_some]

@[simp] theorem get_remove : (t.remove k).get j = if j = k then none else t.get j := Sparse.get_erase k j t.recs
@[simp] theorem gen_remove : (t.remove k).gen j = t.gen j := rfl
@[simp] theorem list_remove : (t.remove k).list c = t.list c := by cases c <;> rfl
@[simp] theorem gens_remove : (t.remove k).gens = t.gens := rfl

/-! ### A record becoming FREE (R7, R12) -/

/-- What freeing a record does to the records: it is gone, its partner loses the link, the rest stand (R12). -/
theorem get_free {r : Rec} (h : t.get k = some r) : (t.free k).get j =
    if j = k then none
    else (t.get j).map fun q => if r.partner.map Handle.index = some j then { q with partner := none } else q := by
  simp [free, h, get_unlink]

/-- A record becoming FREE advances its own generation, and no other (R7). -/
theorem gen_free {r : Rec} (h : t.get k = some r) : (t.free k).gen j = if j = k then t.gen k + 1 else t.gen j := by
  simp [free, h]

theorem free_of_none (h : t.get k = none) : t.free k = t := by simp [free, h]

/-- A record becoming FREE leaves its Class List, and the others join up (R12). -/
theorem list_free {r : Rec} (h : t.get k = some r) :
    (t.free k).list c = if c = r.cls then (t.list c).filter fun j => decide (j ≠ k) else t.list c := by
  simp [free, h, list_delist]

end Ctb

end Sys2Proof.Machine
end

