-- ==== Sys2Proof/Laws/Treat.lean ====
section
/-! SUPPORT. What freeing a record and treating a slot's records do to the table. -/

namespace Sys2Proof.Machine

/-! ### Records and indexes kept -/

namespace Rec.Kept

theorem refl (r : Rec) : r.Kept r := .inl rfl

theorem trans {a b c : Rec} (h : a.Kept b) (g : b.Kept c) : a.Kept c := by
  rcases h with rfl | rfl <;> rcases g with rfl | rfl <;> simp [Rec.Kept]

variable {r q : Rec} (h : r.Kept q)
include h

theorem cls : q.cls = r.cls := by rcases h with rfl | rfl <;> rfl
theorem slot : q.slot = r.slot := by rcases h with rfl | rfl <;> rfl
theorem channel : q.channel = r.channel := by rcases h with rfl | rfl <;> rfl
theorem legs : q.legs = r.legs := by rcases h with rfl | rfl <;> rfl
theorem cost : q.cost = r.cost := by rcases h with rfl | rfl <;> rfl
theorem state : q.state = r.state := by rcases h with rfl | rfl <;> rfl
theorem reload : q.reload = r.reload := by rcases h with rfl | rfl <;> rfl
theorem retire : q.retire = r.retire := by rcases h with rfl | rfl <;> rfl
theorem reason : q.reason = r.reason := by rcases h with rfl | rfl <;> rfl

theorem in_state (st : RecState) : (r.to st).Kept (q.to st) := by rcases h with rfl | rfl <;> simp [Rec.Kept, Rec.to]

end Rec.Kept

namespace Ctb

theorem KeptAt.refl (t : Ctb) (k : Index) : t.KeptAt t k := by
  refine ⟨rfl, ?_⟩
  split
  · assumption
  · exact ⟨_, ‹_›, .refl _⟩

theorem KeptAt.some {t u : Ctb} {k : Index} {r : Rec} (h : t.KeptAt u k) (e : t.get k = some r) :
    ∃ q, u.get k = some q ∧ r.Kept q := by
  have := h.2
  simpa [e] using this

theorem KeptAt.none {t u : Ctb} {k : Index} (h : t.KeptAt u k) (e : t.get k = none) : u.get k = none := by
  have := h.2
  simpa [e] using this

theorem keptAt_of_some {t u : Ctb} {k : Index} {r q : Rec} (hg : u.gen k = t.gen k) (e : t.get k = some r)
    (e' : u.get k = some q) (h : r.Kept q) : t.KeptAt u k := ⟨hg, by simpa [e] using ⟨q, e', h⟩⟩

theorem keptAt_of_none {t u : Ctb} {k : Index} (hg : u.gen k = t.gen k) (e : t.get k = none) (e' : u.get k = none) :
    t.KeptAt u k := ⟨hg, by simpa [e] using e'⟩

theorem KeptAt.trans {t u v : Ctb} {k : Index} (h : t.KeptAt u k) (g : u.KeptAt v k) : t.KeptAt v k := by
  cases e : t.get k with
  | none => exact keptAt_of_none (g.1.trans h.1) e (g.none (h.none e))
  | some r =>
    obtain ⟨q, e', hq⟩ := h.some e
    obtain ⟨s, e'', hs⟩ := g.some e'
    exact keptAt_of_some (g.1.trans h.1) e e'' (hq.trans hs)

/-- Freeing a record leaves every other index as it was, but for a partner link to it (R12). -/
theorem keptAt_free {t : Ctb} {k j : Index} (h : j ≠ k) : t.KeptAt (t.free k) j := by
  cases e : t.get k with
  | none => rw [free_of_none t k e]; exact .refl t j
  | some r =>
    have hg := gen_free t k j e
    have hf := get_free t k j e
    rw [if_neg h] at hg hf
    cases e' : t.get j with
    | none => exact keptAt_of_none hg e' (by simp [hf, e'])
    | some q =>
      refine keptAt_of_some hg e' (by rw [hf, e']; rfl) ?_
      split
      · exact .inr rfl
      · exact .inl rfl

theorem keptAt_put {t : Ctb} {k j : Index} (r : Rec) (h : j ≠ k) : t.KeptAt (t.put k r) j := by
  cases e : t.get j with
  | none => exact keptAt_of_none rfl e (by simp [h, e])
  | some q => exact keptAt_of_some rfl e (by simp [h, e]) (.refl q)

/-! ### Treatments -/

/-- A treatment does not look at the partner field. -/
def PlainFate (f : Fate) : Prop := ∀ r q : Rec, r.Kept q → f q = f r

theorem plain_lossFate : PlainFate lossFate := by rintro r q (rfl | rfl) <;> rfl
theorem plain_powerOffFate : PlainFate powerOffFate := by rintro r q (rfl | rfl) <;> rfl
theorem plain_moveFate (a b : RecState) : PlainFate (moveFate a b) := by rintro r q (rfl | rfl) <;> rfl
theorem plain_freeFate : PlainFate freeFate := by rintro r q (rfl | rfl) <;> rfl

theorem keptAt_treatOne (f : Fate) {t : Ctb} {k j : Index} (h : j ≠ k) : t.KeptAt (treatOne f t k) j := by
  unfold treatOne
  split
  · exact .refl t j
  · split
    · exact keptAt_free h
    · exact keptAt_put _ h

theorem treatedAt_treatOne (f : Fate) {t : Ctb} {k : Index} {r : Rec} (e : t.get k = some r) :
    t.TreatedAt f (treatOne f t k) k r := by
  cases hf : f r with
  | none => simp [TreatedAt, treatOne, e, hf, get_free t k k e, gen_free t k k e]
  | some st => simp [TreatedAt, treatOne, e, hf, Rec.Kept.refl]

theorem TreatedAt.trans {f : Fate} {t u v : Ctb} {k : Index} {r : Rec} (h : t.TreatedAt f u k r) (g : u.KeptAt v k) :
    t.TreatedAt f v k r := by
  unfold TreatedAt at h ⊢
  split
  · rename_i e
    simp only [e] at h
    exact ⟨g.none h.1, g.1.trans h.2⟩
  · rename_i st e
    simp only [e] at h
    obtain ⟨hg, q, e', hq⟩ := h
    obtain ⟨s, e'', hs⟩ := g.some e'
    exact ⟨g.1.trans hg, s, e'', hq.trans hs⟩

theorem KeptAt.treatedAt {f : Fate} (hf : PlainFate f) {t u v : Ctb} {k : Index} {r q : Rec} (h : t.KeptAt u k)
    (hr : r.Kept q) (g : u.TreatedAt f v k q) : t.TreatedAt f v k r := by
  unfold TreatedAt at g ⊢
  rw [hf r q hr] at g
  split
  · rename_i e
    simp only [e] at g
    exact ⟨g.1, by rw [g.2, h.1]⟩
  · rename_i st e
    simp only [e] at g
    obtain ⟨hg, s, e', hs⟩ := g
    exact ⟨hg.trans h.1, s, e', (hr.in_state st).trans hs⟩

/-- A treatment over distinct indexes: the others are kept, and each that holds a record is treated. -/
theorem foldl_treatOne {f : Fate} (hf : PlainFate f) (ks : List Index) (hk : ks.Nodup) (t : Ctb) :
    (∀ j, j ∉ ks → t.KeptAt (ks.foldl (treatOne f) t) j) ∧
      ∀ j r, j ∈ ks → t.get j = some r → t.TreatedAt f (ks.foldl (treatOne f) t) j r := by
  induction ks generalizing t with
  | nil => exact ⟨fun j _ => .refl t j, fun j r h => by simp at h⟩
  | cons k ks ih =>
    obtain ⟨hk, hks⟩ := List.nodup_cons.1 hk
    obtain ⟨ih₁, ih₂⟩ := ih hks (treatOne f t k)
    refine ⟨fun j hj => ?_, fun j r hj e => ?_⟩
    · simp only [List.mem_cons, not_or] at hj
      exact (keptAt_treatOne f hj.1).trans (ih₁ j hj.2)
    · by_cases h : j = k
      · subst h
        exact (treatedAt_treatOne f e).trans (ih₁ j hk)
      · have h1 := keptAt_treatOne (t := t) f h
        obtain ⟨q, e', hq⟩ := h1.some e
        exact h1.treatedAt hf hq (ih₂ j q ((List.mem_cons.1 hj).resolve_left h) e')

theorem mem_onSlot_iff {t : Ctb} (hr : Sparse.Rising t.recs) {i : SlotId} {k : Index} :
    k ∈ (t.onSlot i).map Prod.fst ↔ ∃ r, t.get k = some r ∧ r.slot = i := by
  simp only [onSlot, List.mem_map, List.mem_filter, decide_eq_true_eq, Prod.exists, exists_and_right,
    exists_eq_right]
  constructor
  · rintro ⟨r, h, e⟩
    exact ⟨r, Sparse.get_of_mem hr h, e⟩
  · rintro ⟨r, h, e⟩
    exact ⟨r, Sparse.mem_of_get _ _ _ h, e⟩

theorem nodup_onSlot {t : Ctb} (hr : Sparse.Rising t.recs) (i : SlotId) : ((t.onSlot i).map Prod.fst).Nodup := by
  have h : ((t.onSlot i).map Prod.fst).Pairwise (· < ·) :=
    List.Pairwise.sublist (List.Sublist.map _ List.filter_sublist) hr
  exact h.imp fun h => ne_of_lt h

/-- An index of another slot, or a FREE one, is kept by a treatment. -/
theorem keptAt_treat {f : Fate} (hf : PlainFate f) {t : Ctb} (hr : Sparse.Rising t.recs) {i : SlotId} {k : Index}
    (h : ∀ r, t.get k = some r → r.slot ≠ i) : t.KeptAt (t.treat f i) k :=
  (foldl_treatOne hf _ (nodup_onSlot hr i) t).1 k fun hk => by
    obtain ⟨r, e, hs⟩ := (mem_onSlot_iff hr).1 hk
    exact h r e hs

/-- A record of the slot undergoes the treatment. -/
theorem treatedAt_treat {f : Fate} (hf : PlainFate f) {t : Ctb} (hr : Sparse.Rising t.recs) {i : SlotId} {k : Index}
    {r : Rec} (e : t.get k = some r) (h : r.slot = i) : t.TreatedAt f (t.treat f i) k r :=
  (foldl_treatOne hf _ (nodup_onSlot hr i) t).2 k r ((mem_onSlot_iff hr).2 ⟨r, e, h⟩) e

/-- A record of the whole table undergoes the treatment. -/
theorem treatedAt_treatAll {f : Fate} (hf : PlainFate f) {t : Ctb} (hr : Sparse.Rising t.recs) {k : Index} {r : Rec}
    (e : t.get k = some r) : t.TreatedAt f (t.treatAll f) k r := by
  have hn : (t.recs.map Prod.fst).Nodup := hr.imp fun h => ne_of_lt h
  exact (foldl_treatOne hf _ hn t).2 k r (List.mem_map.2 ⟨_, Sparse.mem_of_get _ _ _ e, rfl⟩) e

theorem keptAt_treatAll {f : Fate} (hf : PlainFate f) {t : Ctb} (hr : Sparse.Rising t.recs) {k : Index}
    (e : t.get k = none) : t.KeptAt (t.treatAll f) k := by
  have hn : (t.recs.map Prod.fst).Nodup := hr.imp fun h => ne_of_lt h
  refine (foldl_treatOne hf _ hn t).1 k fun hk => ?_
  obtain ⟨x, hx, rfl⟩ := List.mem_map.1 hk
  exact (Sparse.get_none_iff _ _).1 e x hx rfl

end Ctb
end Sys2Proof.Machine
end

