-- ==== Sys2Proof/Laws/TableLaws.lean ====
section
/-! SUPPORT. Every operation over the Connection Table keeps the table's laws. -/

namespace Sys2Proof.Machine
namespace Ctb

/-! ### The lists -/

theorem rising_upd {t : Ctb} (h : Sparse.Rising t.recs) (k : Index) (f : Rec → Rec) : Sparse.Rising (t.upd k f).recs := by
  unfold upd
  split
  · exact h
  · exact Sparse.rising_set h

theorem rising_unlink {t : Ctb} (h : Sparse.Rising t.recs) (x : Option Handle) : Sparse.Rising (t.unlink x).recs := by
  unfold unlink
  split
  · exact h
  · exact rising_upd h _ _

/-- The list law reads a record's class and nothing else of it. -/
theorem ListLaw.of_cls {t u : Ctb} (h : t.ListLaw) (hr : Sparse.Rising u.recs) (hg : u.gens = t.gens)
    (hl : ∀ c, u.list c = t.list c) (hc : ∀ k, (u.get k).map Rec.cls = (t.get k).map Rec.cls) : u.ListLaw where
  recs := hr
  gens := hg ▸ h.gens
  noZero := hg ▸ h.noZero
  once c := hl c ▸ h.once c
  member c k := by
    rw [hl, h.member]
    have := hc k
    cases e : t.get k <;> cases e' : u.get k <;> simp_all

theorem ListLaw.gens_setGen {t : Ctb} (h : t.ListLaw) (k : Index) (g : Gen) :
    Sparse.Rising (t.setGen k g).gens ∧ ∀ e ∈ (t.setGen k g).gens, e.2 ≠ 0 := by
  unfold setGen
  simp only
  split
  · exact ⟨Sparse.rising_erase h.gens, fun e he => h.noZero e (List.mem_of_mem_filter he)⟩
  · rename_i hg
    refine ⟨Sparse.rising_set h.gens, fun e he => ?_⟩
    rcases Sparse.mem_set he with rfl | he
    · exact hg
    · exact h.noZero e he

theorem ListLaw.free {t : Ctb} (h : t.ListLaw) (k : Index) : (t.free k).ListLaw := by
  cases e : t.get k with
  | none => rwa [free_of_none t k e]
  | some r =>
    have hd : Sparse.Rising ((t.delist r.cls k).unlink r.partner).recs := rising_unlink (by simpa using h.recs) _
    have hx : (((t.delist r.cls k).unlink r.partner).remove k).gens = t.gens := by simp
    refine ⟨?_, ?_, ?_, fun c => ?_, fun c j => ?_⟩
    · simpa [Ctb.free, e, remove] using Sparse.rising_erase hd
    · simp only [Ctb.free, e, setGen, hx]
      exact (h.gens_setGen k _).1
    · simp only [Ctb.free, e, setGen, hx]
      exact (h.gens_setGen k _).2
    · rw [list_free t k c e]
      split
      · exact (h.once c).filter _
      · exact h.once c
    · rw [list_free t k c e, get_free t k j e]
      have hm := h.member c j
      by_cases hj : j = k
      · subst hj
        by_cases hc : c = r.cls
        · simp [hc]
        · simp [hc, hm, e, Ne.symm hc]
      · have : (j ∈ if c = r.cls then (t.list c).filter fun j => decide (j ≠ k) else t.list c) ↔ j ∈ t.list c := by
          split <;> simp [hj]
        rw [this, hm]
        cases e' : t.get j with
        | none => simp [hj]
        | some q => simp [hj]; split <;> rfl

theorem ListLaw.put {t : Ctb} (h : t.ListLaw) {k : Index} {r q : Rec} (e : t.get k = some r) (hc : q.cls = r.cls) :
    (t.put k q).ListLaw :=
  h.of_cls (Sparse.rising_set h.recs) rfl (fun c => by simp) fun j => by
    rw [get_put]
    split
    · rename_i hj
      simp [hj, e, hc]
    · rfl

/-! ### The laws of the table under a change that keeps content -/

/-- The binding content of a record: what the maps and the partner law read. -/
structure SameBinding (r q : Rec) : Prop where
  cls : q.cls = r.cls
  slot : q.slot = r.slot
  channel : q.channel = r.channel
  legs : q.legs = r.legs

theorem SameBinding.of_kept {r q : Rec} (h : r.Kept q) : SameBinding r q := ⟨h.cls, h.slot, h.channel, h.legs⟩

theorem SameBinding.of_to (st : RecState) (r : Rec) : SameBinding r (r.to st) := ⟨rfl, rfl, rfl, rfl⟩

/-- The map laws hold after a change in which every record left comes from one at its index with the same binding. -/
theorem MapLaw.of_back {t u : Ctb} (h : t.MapLaw)
    (hb : ∀ k q, u.get k = some q → ∃ r, t.get k = some r ∧ SameBinding r q) : u.MapLaw where
  channel j k r q hj hk hs hc := by
    obtain ⟨r', ej, hr⟩ := hb j r hj
    obtain ⟨q', ek, hq⟩ := hb k q hk
    exact h.channel j k r' q' ej ek (by rw [← hr.slot, ← hq.slot, hs]) (by rw [← hr.channel, ← hq.channel, hc])
  timeslot j k r q hw ts hj hk hr hq := by
    obtain ⟨r', ej, br⟩ := hb j r hj
    obtain ⟨q', ek, bq⟩ := hb k q hk
    refine h.timeslot j k r' q' hw ts ej ek ?_ ?_
    · simpa [Rec.holdsTimeslot, br.legs] using hr
    · simpa [Rec.holdsTimeslot, bq.legs] using hq
  legs k q hk := by
    obtain ⟨r, e, hr⟩ := hb k q hk
    rw [hr.legs]
    exact h.legs k r e

theorem back_free {t : Ctb} {k j : Index} {q : Rec} (h : (t.free k).get j = some q) :
    ∃ r, t.get j = some r ∧ r.Kept q := by
  by_cases hj : j = k
  · subst hj
    cases e : t.get j with
    | none => rw [free_of_none t j e, e] at h; cases h
    | some r => rw [get_free t j j e] at h; simp at h
  · have hk := keptAt_free (t := t) hj
    cases e : t.get j with
    | none => rw [hk.none e] at h; cases h
    | some r =>
      obtain ⟨s, e', hs⟩ := hk.some e
      rw [h] at e'
      cases e'
      exact ⟨r, rfl, hs⟩


theorem back_put {t : Ctb} {k j : Index} {r r' q : Rec} (e : t.get k = some r) (hb : SameBinding r r')
    (h : (t.put k r').get j = some q) : ∃ s, t.get j = some s ∧ SameBinding s q := by
  rw [get_put] at h
  split at h
  · rename_i hj
    cases h
    exact ⟨r, hj ▸ e, hb⟩
  · exact ⟨q, h, ⟨rfl, rfl, rfl, rfl⟩⟩

theorem MapLaw.free {t : Ctb} (h : t.MapLaw) (k : Index) : (t.free k).MapLaw :=
  h.of_back fun _ _ e => (back_free e).imp fun _ x => ⟨x.1, .of_kept x.2⟩

theorem MapLaw.put {t : Ctb} (h : t.MapLaw) {k : Index} {r q : Rec} (e : t.get k = some r) (hb : SameBinding r q) :
    (t.put k q).MapLaw := h.of_back fun _ _ e' => back_put e hb e'

/-! ### Flags -/

theorem flagLaw_kept {r q : Rec} (h : r.FlagLaw) (k : r.Kept q) : q.FlagLaw := by
  rcases k with rfl | rfl <;> exact h

/-- A record sent to a state keeps the flag law, unless it were sent to REFUSED from elsewhere. -/
theorem flagLaw_to {r : Rec} (h : r.FlagLaw) {st : RecState} (hs : st = .refused → r.state = .refused) :
    (r.to st).FlagLaw := by
  constructor
  · intro hl
    simp_all [Rec.to]
  · by_cases e : st = .refused
    · simpa [Rec.to, e, hs e] using h.2
    · simp [Rec.to, e]

theorem flagLaw_refuse (why : Reason) (r : Rec) : (r.refuse why).FlagLaw := by simp [Rec.FlagLaw, Rec.refuse, Rec.to]

theorem FlagLaw.free {t : Ctb} (h : t.FlagLaw) (k : Index) : (t.free k).FlagLaw := fun j q e => by
  obtain ⟨r, e', hr⟩ := back_free e
  exact flagLaw_kept (h j r e') hr

theorem FlagLaw.put {t : Ctb} (h : t.FlagLaw) {k : Index} {q : Rec} (hq : q.FlagLaw) : (t.put k q).FlagLaw :=
  fun j r e => by
    rw [get_put] at e
    split at e
    · cases e
      exact hq
    · exact h j r e

/-! ### Partners -/

theorem PartnerLaw.free {t : Ctb} (h : t.PartnerLaw) (k : Index) : (t.free k).PartnerLaw := by
  cases ek : t.get k with
  | none => rwa [free_of_none t k ek]
  | some r =>
    intro j q x e hx
    have hj : j ≠ k := by
      rintro rfl
      rw [get_free t j j ek] at e
      simp at e
    have e0 := e
    rw [get_free t k j ek, if_neg hj] at e0
    obtain ⟨q0, ej, hq⟩ := Option.map_eq_some_iff.1 e0
    have hn : r.partner.map Handle.index ≠ some j := by
      intro hn
      rw [if_pos hn] at hq
      rw [← hq] at hx
      cases hx
    rw [if_neg hn] at hq
    subst hq
    obtain ⟨s, hs, hp, hsl⟩ := h j q0 x ej hx
    obtain ⟨hg, es⟩ := named_eq_some.1 hs
    have hxk : x.index ≠ k := by
      intro hxk
      rw [hxk, ek] at es
      cases es
      rw [hp] at hn
      exact hn rfl
    have hkeep : r.partner.map Handle.index ≠ some x.index := by
      intro hn'
      cases er : r.partner with
      | none => simp [er] at hn'
      | some y =>
        simp only [er, Option.map_some, Option.some.injEq] at hn'
        obtain ⟨s', hs', hp', -⟩ := h k r y ek er
        have := (named_eq_some.1 hs').2
        rw [hn', es] at this
        cases this
        rw [hp] at hp'
        have := congrArg (Option.map Handle.index) hp'
        simp [handle] at this
        exact hj this
    refine ⟨s, named_eq_some.2 ⟨?_, ?_⟩, ?_, hsl⟩
    · rw [gen_free t k _ ek, if_neg hxk, hg]
    · rw [get_free t k _ ek, if_neg hxk, es]
      simp [hkeep]
    · rw [hp, handle, handle, gen_free t k j ek, if_neg hj]

theorem PartnerLaw.put {t : Ctb} (h : t.PartnerLaw) {k : Index} {r q : Rec} (e : t.get k = some r)
    (hs : q.slot = r.slot) (hp : q.partner = r.partner) : (t.put k q).PartnerLaw := by
  have back : ∀ j s, (t.put k q).get j = some s →
      ∃ s', t.get j = some s' ∧ s.slot = s'.slot ∧ s.partner = s'.partner := by
    intro j s hj
    rw [get_put] at hj
    split at hj
    · rename_i hjk
      cases hj
      exact ⟨r, hjk ▸ e, hs, hp⟩
    · exact ⟨s, hj, rfl, rfl⟩
  intro j s x hj hx
  obtain ⟨s', ej, h1, h2⟩ := back j s hj
  obtain ⟨y, hy, hyp, hys⟩ := h j s' x ej (h2 ▸ hx)
  obtain ⟨hg, ey⟩ := named_eq_some.1 hy
  by_cases hxk : x.index = k
  · have : y = r := by
      rw [hxk, e] at ey
      cases ey
      rfl
    subst this
    exact ⟨q, named_eq_some.2 ⟨hg, by simp [hxk]⟩, by rw [hp, hyp]; rfl, by rw [hs, h1]; exact hys⟩
  · exact ⟨y, named_eq_some.2 ⟨hg, by simp [hxk, ey]⟩, by rw [hyp]; rfl, by rw [h1]; exact hys⟩

/-! ### The laws together -/

namespace TableLaw

variable {t : Ctb} (h : t.TableLaw)
include h

theorem free (k : Index) : (t.free k).TableLaw := ⟨h.lists.free k, h.flags.free k, h.maps.free k, h.partners.free k⟩

/-- Writing a record over one with the same binding and partner keeps the laws, given its own flags. -/
theorem put {k : Index} {r q : Rec} (e : t.get k = some r) (hb : SameBinding r q) (hp : q.partner = r.partner)
    (hf : q.FlagLaw) : (t.put k q).TableLaw :=
  ⟨h.lists.put e hb.cls, h.flags.put hf, h.maps.put e hb, h.partners.put e hb.slot hp⟩

theorem put_to {k : Index} {r : Rec} (e : t.get k = some r) {st : RecState} (hs : st = .refused → r.state = .refused) :
    (t.put k (r.to st)).TableLaw := h.put e (.of_to st r) rfl (flagLaw_to (h.flags k r e) hs)

theorem put_refuse {k : Index} {r : Rec} (e : t.get k = some r) (why : Reason) : (t.put k (r.refuse why)).TableLaw :=
  h.put e ⟨rfl, rfl, rfl, rfl⟩ rfl (flagLaw_refuse why r)

theorem upd_to (k : Index) {st : RecState} (hs : st ≠ .refused) : (t.upd k (Rec.to st)).TableLaw := by
  unfold upd
  split
  · exact h
  · exact h.put_to ‹_› fun e => absurd e hs

theorem upd_refuse (k : Index) (why : Reason) : (t.upd k (Rec.refuse why)).TableLaw := by
  unfold upd
  split
  · exact h
  · exact h.put_refuse ‹_› why

end TableLaw

/-- A treatment sends no record to REFUSED that is not there. -/
def KeepsRefused (f : Fate) : Prop := ∀ r, f r = some .refused → r.state = .refused

theorem keepsRefused_lossFate : KeepsRefused lossFate := by
  intro r h
  unfold lossFate at h
  split at h <;> simp_all

theorem keepsRefused_powerOffFate : KeepsRefused powerOffFate := by
  intro r h
  unfold powerOffFate at h
  split at h <;> simp_all

theorem keepsRefused_moveFate (a : RecState) {b : RecState} (hb : b ≠ .refused) : KeepsRefused (moveFate a b) := by
  intro r h
  unfold moveFate at h
  split at h <;> simp_all

theorem keepsRefused_freeFate : KeepsRefused freeFate := by
  intro r h
  simp [freeFate] at h

theorem TableLaw.foldl_treatOne {f : Fate} (hf : KeepsRefused f) (ks : List Index) {t : Ctb} (h : t.TableLaw) :
    (ks.foldl (treatOne f) t).TableLaw := by
  induction ks generalizing t with
  | nil => exact h
  | cons k ks ih =>
    refine ih ?_
    unfold treatOne
    split
    · exact h
    · split
      · exact h.free k
      · rename_i hr
        exact h.put_to ‹_› fun e => hf _ (e ▸ hr)

theorem TableLaw.treat {f : Fate} (hf : KeepsRefused f) {t : Ctb} (h : t.TableLaw) (i : SlotId) :
    (t.treat f i).TableLaw := h.foldl_treatOne hf _

theorem TableLaw.treatAll {f : Fate} (hf : KeepsRefused f) {t : Ctb} (h : t.TableLaw) : (t.treatAll f).TableLaw :=
  h.foldl_treatOne hf _

/-! ### Partner links through a treatment (R12, R15) -/

/-- No handle names a record that did not: records only became FREE. -/
def Shrinks (t u : Ctb) : Prop := ∀ h, (u.named h).isSome = true → (t.named h).isSome = true

theorem Shrinks.refl (t : Ctb) : t.Shrinks t := fun _ h => h

theorem Shrinks.trans {t u v : Ctb} (a : t.Shrinks u) (b : u.Shrinks v) : t.Shrinks v := fun h e => a h (b h e)

/-- It suffices that every index left with a record had one, at the same generation. -/
theorem shrinks_of_left {t u : Ctb} (h : ∀ k q, u.get k = some q → u.gen k = t.gen k ∧ (t.get k).isSome = true) :
    t.Shrinks u := fun x e => by
  obtain ⟨q, hq⟩ := Option.isSome_iff_exists.1 e
  obtain ⟨hg, eq⟩ := named_eq_some.1 hq
  obtain ⟨hg', hs⟩ := h _ q eq
  obtain ⟨r, er⟩ := Option.isSome_iff_exists.1 hs
  exact Option.isSome_iff_exists.2 ⟨r, named_eq_some.2 ⟨hg' ▸ hg, er⟩⟩

theorem LinksKept.refl {t : Ctb} (h : t.PartnerLaw) : t.LinksKept t := fun k r r' e e' => by
  rw [e] at e'
  cases e'
  cases hp : r.partner with
  | none => rfl
  | some x =>
    obtain ⟨q, hq, -⟩ := h k r x e hp
    simp [Option.filter, hq]

theorem LinksKept.trans {t u v : Ctb} (a : t.LinksKept u) (b : u.LinksKept v) (hs : u.Shrinks v) : t.LinksKept v :=
  fun k r r' e e' => by
    obtain ⟨q, hq⟩ := Option.isSome_iff_exists.1 (hs (v.handle k) (by rw [named_handle, e']; rfl))
    have eq := (named_eq_some.1 hq).2
    rw [b k q r' eq e', a k r q e eq]
    cases r.partner with
    | none => rfl
    | some x =>
      have := hs x
      cases hv : (v.named x).isSome <;> cases hu : (u.named x).isSome <;> simp_all [Option.filter]

theorem LinksKept.free {t : Ctb} (h : t.PartnerLaw) (k : Index) : t.LinksKept (t.free k) := by
  cases ek : t.get k with
  | none =>
    rw [free_of_none t k ek]
    exact .refl h
  | some r =>
    intro j q q' e e'
    rw [get_free t k j ek] at e'
    split at e'
    · cases e'
    rename_i hj
    simp only [e, Option.map_some, Option.some.injEq] at e'
    subst e'
    cases hp : q.partner with
    | none => simp only [Option.filter_none]; split <;> simp [hp]
    | some x =>
      obtain ⟨s, hs, hsp, -⟩ := h j q x e hp
      obtain ⟨hg, es⟩ := named_eq_some.1 hs
      by_cases hx : x.index = k
      · have hr : s = r := by
          rw [hx, ek] at es
          exact (Option.some.inj es).symm
        subst hr
        have : (t.free k).named x = none := by
          cases hn : (t.free k).named x with
          | none => rfl
          | some y =>
            have := (named_eq_some.1 hn).2
            rw [hx, get_free t k k ek] at this
            simp at this
        simp [hsp, handle, Option.filter, this]
      · have hn : ((t.free k).named x).isSome = true := by
          unfold named
          rw [gen_free t k _ ek, if_neg hx, hg, if_pos rfl, get_free t k _ ek, if_neg hx, es]
          rfl
        have hc : r.partner.map Handle.index ≠ some j := by
          intro hc
          obtain ⟨y, hy, hyj⟩ := Option.map_eq_some_iff.1 hc
          obtain ⟨s', hs', hp', -⟩ := h k r y ek hy
          have := (named_eq_some.1 hs').2
          rw [hyj, e] at this
          cases this
          rw [hp, Option.some.injEq] at hp'
          exact hx (by rw [hp']; rfl)
        simp [hc, hp, Option.filter, hn]

theorem LinksKept.put {t : Ctb} (h : t.PartnerLaw) {k : Index} {r q : Rec} (e : t.get k = some r)
    (hp : q.partner = r.partner) : t.LinksKept (t.put k q) := fun j s s' es es' => by
  have hn : ∀ x, ((t.put k q).named x).isSome = (t.named x).isSome := fun x => by
    unfold named
    rw [gen_put, get_put]
    split <;> [skip; rfl]
    split
    · rename_i hx
      rw [hx, e]
      rfl
    · rfl
  have : s'.partner = s.partner := by
    rw [get_put] at es'
    split at es'
    · rename_i hj
      rw [hj, e] at es
      cases es
      cases es'
      exact hp
    · rw [es] at es'
      cases es'
      rfl
  simp only [hn, this]
  exact LinksKept.refl h j s s es es

theorem shrinks_treatOne (f : Fate) (t : Ctb) (k : Index) : t.Shrinks (treatOne f t k) := by
  refine shrinks_of_left fun j q e => ?_
  unfold treatOne at e ⊢
  split at e
  · exact ⟨rfl, by rw [e]; rfl⟩
  · rename_i r ek
    split at e
    · rw [get_free t k j ek] at e
      split at e
      · cases e
      · rename_i hj
        refine ⟨by rw [gen_free t k j ek, if_neg hj], ?_⟩
        obtain ⟨s, es, -⟩ := Option.map_eq_some_iff.1 e
        rw [es]
        rfl
    · rw [get_put] at e
      refine ⟨rfl, ?_⟩
      split at e
      · rename_i hj
        rw [hj, ek]
        rfl
      · rw [e]
        rfl

theorem links_treatOne {t : Ctb} (h : t.PartnerLaw) (f : Fate) (k : Index) : t.LinksKept (treatOne f t k) := by
  unfold treatOne
  split
  · exact .refl h
  · rename_i e
    split
    · exact .free h k
    · exact .put h e rfl

/-- Links through the treatment of any indexes, and the handles that still name a record after it. -/
theorem links_foldl_treatOne {f : Fate} (hf : KeepsRefused f) (ks : List Index) {t : Ctb} (h : t.TableLaw) :
    t.LinksKept (ks.foldl (treatOne f) t) ∧ t.Shrinks (ks.foldl (treatOne f) t) := by
  induction ks generalizing t with
  | nil => exact ⟨.refl h.partners, .refl t⟩
  | cons k ks ih =>
    obtain ⟨a, b⟩ := ih (h.foldl_treatOne hf [k])
    exact ⟨(links_treatOne h.partners f k).trans a b, (shrinks_treatOne f t k).trans b⟩

theorem links_treatAll {f : Fate} (hf : KeepsRefused f) {t : Ctb} (h : t.TableLaw) : t.LinksKept (t.treatAll f) :=
  (links_foldl_treatOne hf _ h).1

/-- A table in which each index stands or has undergone a treatment. -/
theorem shrinks_of_each {t u : Ctb} (h : ∀ k, t.KeptAt u k ∨ ∃ f r, t.get k = some r ∧ t.TreatedAt f u k r) : t.Shrinks u := by
  refine shrinks_of_left fun k q e => ?_
  rcases h k with hk | ⟨f, r, er, ht⟩
  · refine ⟨hk.1, ?_⟩
    cases er : t.get k with
    | none => rw [hk.none er] at e; cases e
    | some r => rfl
  · refine ⟨?_, by rw [er]; rfl⟩
    unfold TreatedAt at ht
    split at ht
    · rw [ht.1] at e
      cases e
    · exact ht.1

theorem Treated.shrinks {f : Fate} {i : SlotId} {t u : Ctb} (h : t.Treated f i u) : t.Shrinks u := by
  refine shrinks_of_each fun k => ?_
  by_cases hk : ∃ r, t.get k = some r ∧ r.slot = i
  · obtain ⟨r, er, hs⟩ := hk
    exact .inr ⟨f, r, er, h.slot k r er hs⟩
  · exact .inl (h.others k fun r er hs => hk ⟨r, er, hs⟩)

/-! ### The Class Lists after a treatment -/

variable {f : Fate} {t : Ctb} {k : Index} {c : Cls}

theorem treatOne_of_none (f : Fate) (e : t.get k = none) : treatOne f t k = t := by simp [treatOne, e]

theorem treatOne_to {r : Rec} {st : RecState} (e : t.get k = some r) (h : f r = some st) :
    treatOne f t k = t.put k (r.to st) := by
  simp [treatOne, e, h]

theorem treatOne_free {r : Rec} (e : t.get k = some r) (h : f r = none) : treatOne f t k = t.free k := by
  simp [treatOne, e, h]

/-- A list whose records all stand is as it was. -/
theorem ListLaw.filter_get (h : t.ListLaw) (c : Cls) {u : Ctb} (hu : ∀ j, (t.get j).isSome = true → (u.get j).isSome = true) :
    (t.list c).filter (fun j => (u.get j).isSome) = t.list c := by
  rw [List.filter_eq_self]
  intro j hj
  obtain ⟨r, e, -⟩ := (h.member c j).1 hj
  exact hu j (by rw [e]; rfl)

theorem ListLaw.list_free (h : t.ListLaw) (k : Index) (c : Cls) :
    (t.free k).list c = (t.list c).filter fun j => decide (j ≠ k) := by
  cases e : t.get k with
  | none =>
    rw [free_of_none t k e]
    symm
    rw [List.filter_eq_self]
    intro j hj
    obtain ⟨q, e', -⟩ := (h.member c j).1 hj
    have : j ≠ k := by
      rintro rfl
      rw [e] at e'
      cases e'
    simp [this]
  | some r =>
    rw [Ctb.list_free t k c e]
    split
    · rfl
    · rename_i hc
      symm
      rw [List.filter_eq_self]
      intro j hj
      obtain ⟨q, e', hq⟩ := (h.member c j).1 hj
      have : j ≠ k := by
        rintro rfl
        rw [e] at e'
        cases e'
        exact hc hq.symm
      simp [this]

theorem ListLaw.list_treatOne (h : t.ListLaw) (f : Fate) (k : Index) (c : Cls) :
    (treatOne f t k).list c = (t.list c).filter fun j => ((treatOne f t k).get j).isSome := by
  cases e : t.get k with
  | none => rw [treatOne_of_none f e, h.filter_get c fun _ hj => hj]
  | some r =>
    cases hf : f r with
    | some st =>
      rw [treatOne_to e hf, h.filter_get c (u := t.put k (r.to st)), list_put]
      intro j hj
      rw [get_put]
      split
      · rfl
      · exact hj
    | none =>
      rw [treatOne_free e hf, h.list_free]
      apply List.filter_congr
      intro j hj
      obtain ⟨q, e', -⟩ := (h.member c j).1 hj
      rw [get_free t k j e]
      by_cases hj : j = k <;> simp [hj, e']

theorem none_foldl_treatOne (ks : List Index) {j : Index} (e : t.get j = none) : (ks.foldl (treatOne f) t).get j = none := by
  induction ks generalizing t with
  | nil => exact e
  | cons k ks ih =>
    refine ih ?_
    by_cases h : j = k
    · subst h
      rw [treatOne_of_none f e, e]
    · exact (keptAt_treatOne f h).none e

theorem list_foldl_treatOne (hf : KeepsRefused f) (ks : List Index) (h : t.TableLaw) (c : Cls) :
    (ks.foldl (treatOne f) t).list c = (t.list c).filter fun j => ((ks.foldl (treatOne f) t).get j).isSome := by
  induction ks generalizing t with
  | nil => exact (h.lists.filter_get c fun _ hj => hj).symm
  | cons k ks ih =>
    have h' : (treatOne f t k).TableLaw := h.foldl_treatOne hf [k]
    rw [List.foldl_cons, ih h', h.lists.list_treatOne, List.filter_filter]
    apply List.filter_congr
    intro j _
    cases e : (treatOne f t k).get j with
    | none => rw [none_foldl_treatOne ks e]; rfl
    | some q => simp

/-- A treatment of a slot's records, whole. -/
theorem treated_treat (hp : PlainFate f) (hf : KeepsRefused f) (h : t.TableLaw) (i : SlotId) : t.Treated f i (t.treat f i) where
  slot _ _ e hs := treatedAt_treat hp h.lists.recs e hs
  others _ hk := keptAt_treat hp h.lists.recs hk
  links := (links_foldl_treatOne hf _ h).1
  lists c := list_foldl_treatOne hf _ h c

/-- The record, generation or FREE index at which two treatments one after the other stand for a third. -/
theorem TreatedAt.comp {f g fg : Fate} {t u v : Ctb} {r : Rec} (h : t.TreatedAt f u k r)
    (hfg : ∀ st, f r = some st → fg r = g (r.to st)) (hn : f r = none → fg r = none)
    (hto : ∀ st st', f r = some st → g (r.to st) = some st' → (r.to st).to st' = r.to st')
    (hg : PlainFate g) (h' : ∀ q, u.get k = some q → u.TreatedAt g v k q) (hk : u.get k = none → u.KeptAt v k) :
    t.TreatedAt fg v k r := by
  cases e : f r with
  | none =>
    simp only [TreatedAt, e] at h
    simp only [TreatedAt, hn e]
    have := hk h.1
    exact ⟨this.none h.1, this.1.trans h.2⟩
  | some st =>
    simp only [TreatedAt, e] at h
    obtain ⟨hgen, q, eq, hq⟩ := h
    have hh := h' q eq
    unfold TreatedAt at hh ⊢
    rw [hfg st e]
    rw [hg _ _ hq] at hh
    split
    · rename_i en
      rw [en] at hh
      exact ⟨hh.1, by rw [hh.2, hgen]⟩
    · rename_i st' en
      rw [en] at hh
      obtain ⟨hh1, s, es, hs⟩ := hh
      refine ⟨hh1.trans hgen, s, es, ?_⟩
      rw [← hto st st' e en]
      exact (hq.in_state st').trans hs

theorem Treated.comp {f g fg : Fate} {t u v : Ctb} {i : SlotId} (h : t.Treated f i u) (h' : u.Treated g i v)
    (hfg : ∀ r st, f r = some st → fg r = g (r.to st)) (hn : ∀ r, f r = none → fg r = none)
    (hto : ∀ r st st', f r = some st → g (r.to st) = some st' → (r.to st).to st' = r.to st')
    (hg : PlainFate g) : t.Treated fg i v where
  slot k r e hs := by
    refine (h.slot k r e hs).comp (hfg r) (hn r) (hto r) hg ?_ ?_
    · intro q eq
      refine h'.slot k q eq ?_
      have := h.slot k r e hs
      cases ef : f r with
      | none =>
        simp only [TreatedAt, ef] at this
        rw [this.1] at eq
        cases eq
      | some st =>
        simp only [TreatedAt, ef] at this
        obtain ⟨-, q', eq', hq'⟩ := this
        rw [eq] at eq'
        cases eq'
        rw [hq'.slot]
        exact hs
    · intro en
      exact h'.others k fun q eq => by rw [en] at eq; cases eq
  others k hk := by
    have := h.others k hk
    refine this.trans (h'.others k fun q eq => ?_)
    cases e : t.get k with
    | none => rw [this.none e] at eq; cases eq
    | some r =>
      obtain ⟨q', eq', hq'⟩ := this.some e
      rw [eq] at eq'
      cases eq'
      rw [hq'.slot]
      exact hk r e
  links := h.links.trans h'.links h'.shrinks
  lists c := by
    rw [h'.lists, h.lists, List.filter_filter]
    apply List.filter_congr
    intro j _
    cases e : u.get j with
    | none =>
      have := (h'.others j fun q eq => by rw [e] at eq; cases eq).none e
      simp [this]
    | some q => simp

/-- At a reboot seen, the loss treatment and the suspension of what it leaves LIVE make the power-off treatment (R70). -/
theorem treated_reboot (h : t.TableLaw) (i : SlotId) :
    t.Treated powerOffFate i ((t.treat lossFate i).treat (moveFate .live .suspended) i) := by
  refine (treated_treat plain_lossFate keepsRefused_lossFate h i).comp
    (treated_treat (plain_moveFate _ _) (keepsRefused_moveFate _ (by decide)) (h.treat keepsRefused_lossFate i) i) ?_ ?_ ?_
    (plain_moveFate _ _)
  · intro r st
    rcases r with ⟨_, _, _, _, _, _, _, _ | _ | _ | _ | _ | _, _, _ | _, _⟩ <;> simp [lossFate, powerOffFate, moveFate, Rec.to] <;>
      rintro rfl <;> simp
  · intro r
    rcases r with ⟨_, _, _, _, _, _, _, _ | _ | _ | _ | _ | _, _, _ | _, _⟩ <;> simp [lossFate, powerOffFate]
  · intro r st st'
    rcases r with ⟨_, _, _, _, _, _, _, _ | _ | _ | _ | _ | _, _, _ | _, _⟩ <;> simp [lossFate, moveFate, Rec.to] <;>
      rintro rfl <;> simp <;> rintro rfl <;> simp

end Ctb
end Sys2Proof.Machine
end

