-- ==== Sys2Proof/Laws/Maps.lean ====
section
/-! SUPPORT. The Channel Map and the Timeslot Map read from the records, and that ESTABLISH and MODIFY keep the table's
laws. -/

namespace Sys2Proof.Machine
namespace Ctb

/-! ### The maps -/

theorem channelMap_none {t : Ctb} {i : SlotId} {c : Channel} (h : t.channelMap i c = none) {j : Index} {q : Rec}
    (e : t.get j = some q) : ¬(q.slot = i ∧ q.channel = c) := by
  simp only [channelMap, Option.map_eq_none_iff, List.find?_eq_none] at h
  simpa using h _ (Sparse.mem_of_get _ _ _ e)

theorem channelMap_of_get {t : Ctb} (h : t.TableLaw) {j : Index} {q : Rec} (e : t.get j = some q) :
    t.channelMap q.slot q.channel = some (t.handle j) := by
  unfold channelMap
  cases ef : t.recs.find? fun e => decide (e.2.slot = q.slot ∧ e.2.channel = q.channel) with
  | none => exact absurd (List.find?_eq_none.1 ef _ (Sparse.mem_of_get _ _ _ e)) (by simp)
  | some x =>
    have hx := List.find?_some ef
    have hm := Sparse.get_of_mem h.lists.recs (List.mem_of_find?_eq_some ef)
    simp only [decide_eq_true_eq] at hx
    have := h.maps.channel x.1 j x.2 q hm e hx.1 hx.2
    simp [this]

theorem timeslotMap_none {t : Ctb} {hw : Fin 4} {ts : Fin 512} (h : t.timeslotMap hw ts = none) {j : Index} {q : Rec}
    (e : t.get j = some q) : q.holdsTimeslot hw ts = false := by
  simp only [timeslotMap, Option.map_eq_none_iff, List.find?_eq_none] at h
  simpa using h _ (Sparse.mem_of_get _ _ _ e)

theorem timeslotMap_some {t : Ctb} (hr : Sparse.Rising t.recs) {hw : Fin 4} {ts : Fin 512} {x : Handle}
    (h : t.timeslotMap hw ts = some x) : ∃ q, t.named x = some q ∧ q.holdsTimeslot hw ts = true := by
  obtain ⟨e, he, rfl⟩ := Option.map_eq_some_iff.1 h
  exact ⟨e.2, by rw [named_handle]; exact Sparse.get_of_mem hr (List.mem_of_find?_eq_some he), by
    simpa using List.find?_some he⟩

theorem channelMap_some {t : Ctb} (hr : Sparse.Rising t.recs) {i : SlotId} {c : Channel} {x : Handle}
    (h : t.channelMap i c = some x) : ∃ q, t.named x = some q ∧ q.slot = i ∧ q.channel = c := by
  obtain ⟨e, he, rfl⟩ := Option.map_eq_some_iff.1 h
  exact ⟨e.2, by rw [named_handle]; exact Sparse.get_of_mem hr (List.mem_of_find?_eq_some he), by
    simpa using List.find?_some he⟩

theorem timeslotMap_of_get {t : Ctb} (h : t.TableLaw) {j : Index} {q : Rec} (e : t.get j = some q) {hw : Fin 4}
    {ts : Fin 512} (hq : q.holdsTimeslot hw ts = true) : t.timeslotMap hw ts = some (t.handle j) := by
  cases ef : t.timeslotMap hw ts with
  | none => simp [timeslotMap_none ef e] at hq
  | some x =>
    obtain ⟨s, hs, hh⟩ := timeslotMap_some h.lists.recs ef
    have := h.maps.timeslot x.index j s q hw ts (named_eq_some.1 hs).2 e hh hq
    rw [← this, handle_of_named hs]

/-- No sending leg meets an entry of a record that is not accepted: none of them is held by another record. -/
theorem not_timeslotClash {t : Ctb} (h : t.TableLaw) {mine : Handle → Bool} {r : Rec}
    (hc : t.timeslotClash mine r.legs = false) {j : Index} {q : Rec} (e : t.get j = some q) {hw : Fin 4} {ts : Fin 512}
    (hq : q.holdsTimeslot hw ts = true) (hr : r.holdsTimeslot hw ts = true) : mine (t.handle j) = true := by
  simp only [Rec.holdsTimeslot, List.any_eq_true, Bool.and_eq_true, decide_eq_true_eq] at hr
  obtain ⟨g, hg, ⟨h1, h2⟩, hs⟩ := hr
  simp only [timeslotClash, List.any_eq_false, Bool.and_eq_true, not_and, Bool.not_eq_true] at hc
  have := hc g hg hs
  rw [h1, h2, timeslotMap_of_get h e hq] at this
  simpa using this

/-! ### Partner fields -/

variable (t : Ctb) (k j : Index)

/-- Linking writes one record's partner field. -/
theorem get_linkPartner (x : Option Handle) :
    (t.linkPartner x k).get j =
      (t.get j).map fun r => if x.map Handle.index = some j then { r with partner := some (t.handle k) } else r := by
  unfold linkPartner
  cases x with
  | none => cases t.get j <;> simp
  | some x =>
    simp only [get_upd, Option.map_some, Option.some.injEq]
    by_cases e : j = x.index
    · subst e
      simp
    · simp [e, Ne.symm e]

@[simp] theorem gen_linkPartner (x : Option Handle) : (t.linkPartner x k).gen j = t.gen j := by
  unfold linkPartner
  split <;> simp

@[simp] theorem handle_linkPartner (x : Option Handle) : (t.linkPartner x k).handle j = t.handle j := by
  unfold linkPartner
  split <;> simp

@[simp] theorem list_linkPartner (c : Cls) (x : Option Handle) : (t.linkPartner x k).list c = t.list c := by
  unfold linkPartner
  split <;> simp

@[simp] theorem gens_linkPartner (x : Option Handle) : (t.linkPartner x k).gens = t.gens := by
  unfold linkPartner
  split <;> simp

variable {t k j}

theorem rising_linkPartner (h : Sparse.Rising t.recs) (x : Option Handle) : Sparse.Rising (t.linkPartner x k).recs := by
  unfold linkPartner
  split
  · exact h
  · exact rising_upd h _ _

/-- A change of partner fields alone keeps every law but the partners'. -/
theorem TableLaw.of_partners {u : Ctb} (h : t.TableLaw) (hr : Sparse.Rising u.recs) (hg : u.gens = t.gens)
    (hl : ∀ c, u.list c = t.list c)
    (hu : ∀ j, ∃ f : Rec → Option Handle, u.get j = (t.get j).map fun r => { r with partner := f r })
    (hp : u.PartnerLaw) : u.TableLaw := by
  have back : ∀ j q, u.get j = some q → ∃ r, t.get j = some r ∧ ∃ x, q = { r with partner := x } := by
    intro j q e
    obtain ⟨f, hf⟩ := hu j
    rw [hf] at e
    obtain ⟨r, er, rfl⟩ := Option.map_eq_some_iff.1 e
    exact ⟨r, er, _, rfl⟩
  refine ⟨h.lists.of_cls hr hg hl fun j => ?_, fun j q e => ?_, h.maps.of_back fun j q e => ?_, hp⟩
  · obtain ⟨f, hf⟩ := hu j
    rw [hf]
    cases t.get j <;> rfl
  · obtain ⟨r, er, x, rfl⟩ := back j q e
    exact h.flags j r er
  · obtain ⟨r, er, x, rfl⟩ := back j q e
    exact ⟨r, er, ⟨rfl, rfl, rfl, rfl⟩⟩

/-! ### ESTABLISH -/

/-- The facts an ESTABLISH's checks leave: a FREE index, a free channel, free timeslots, legs that fit together, and a
partner that fits (R28, R29). -/
structure Fits (t : Ctb) (k : Index) (r : Rec) : Prop where
  free : t.get k = none
  flags : r.FlagLaw
  legs : 1 ≤ r.legs.length ∧ r.legs.length ≤ 4 ∧ legConflict r.legs = false
  channel : ∀ j q, t.get j = some q → ¬(q.slot = r.slot ∧ q.channel = r.channel)
  timeslot : ∀ j q hw ts, t.get j = some q → q.holdsTimeslot hw ts = true → r.holdsTimeslot hw ts = false
  partner : ∀ x, r.partner = some x → ∃ q, t.named x = some q ∧ q.partner = none ∧ q.slot ≠ r.slot

theorem get_establish (t : Ctb) (k : Index) (r : Rec) (hk : r.partner.map Handle.index ≠ some k) (j : Index) :
    (((t.put k r).enlist r.cls k).linkPartner r.partner k).get j =
      if j = k then some r
      else (t.get j).map fun q =>
        if r.partner.map Handle.index = some j then { q with partner := some (t.handle k) } else q := by
  rw [get_linkPartner]
  simp only [get_enlist, get_put, handle_enlist, handle_put]
  by_cases h : j = k
  · subst h
    simp [hk]
  · simp [h]

theorem Fits.partner_ne {t : Ctb} {k : Index} {r : Rec} (f : t.Fits k r) : r.partner.map Handle.index ≠ some k := by
  intro h
  obtain ⟨x, ex, hx⟩ := Option.map_eq_some_iff.1 h
  obtain ⟨q, hq, -⟩ := f.partner x ex
  have := (named_eq_some.1 hq).2
  rw [hx, f.free] at this
  cases this

theorem TableLaw.establish (h : t.TableLaw) {r : Rec} (f : t.Fits k r) :
    (((t.put k r).enlist r.cls k).linkPartner r.partner k).TableLaw := by
  have hget := get_establish t k r f.partner_ne
  generalize hu : ((t.put k r).enlist r.cls k).linkPartner r.partner k = u at hget ⊢
  have hgen : ∀ j, u.gen j = t.gen j := fun j => by simp [← hu]
  have hlist : ∀ c, u.list c = if c = r.cls then t.list c ++ [k] else t.list c := fun c => by
    simp [← hu, list_enlist]
  have hrec : Sparse.Rising u.recs := by
    rw [← hu]
    exact rising_linkPartner (by rw [recs_enlist]; exact Sparse.rising_set h.lists.recs) _
  have hgens : u.gens = t.gens := by simp [← hu]
  have hnot : ∀ c, k ∉ t.list c := fun c hc => by
    obtain ⟨q, e, -⟩ := (h.lists.member c k).1 hc
    rw [f.free] at e
    cases e
  have back : ∀ j q, u.get j = some q →
      (j = k ∧ q = r) ∨ (j ≠ k ∧ ∃ q0, t.get j = some q0 ∧
        q = if r.partner.map Handle.index = some j then { q0 with partner := some (t.handle k) } else q0) := by
    intro j q e
    rw [hget] at e
    split at e
    · exact .inl ⟨‹_›, by simpa using e.symm⟩
    · obtain ⟨q0, e0, e1⟩ := Option.map_eq_some_iff.1 e
      exact .inr ⟨‹_›, q0, e0, e1.symm⟩
  have same : ∀ j q, u.get j = some q → j ≠ k → ∃ q0, t.get j = some q0 ∧ ∃ x, q = { q0 with partner := x } := by
    intro j q e hj
    rcases back j q e with ⟨rfl, -⟩ | ⟨-, q0, e0, rfl⟩
    · exact absurd rfl hj
    · refine ⟨q0, e0, ?_⟩
      split
      · exact ⟨_, rfl⟩
      · exact ⟨q0.partner, rfl⟩
  refine ⟨⟨hrec, hgens ▸ h.lists.gens, hgens ▸ h.lists.noZero, fun c => ?_, fun c j => ?_⟩, ?_, ⟨?_, ?_, ?_⟩, ?_⟩
  · rw [hlist]
    split
    · exact List.Nodup.append (h.lists.once c) (List.nodup_singleton k) (by simpa using hnot c)
    · exact h.lists.once c
  · rw [hlist, hget]
    have hm := h.lists.member c j
    by_cases hj : j = k
    · subst hj
      by_cases hc : c = r.cls
      · simp [hc]
      · simp [hc, Ne.symm hc, hnot c]
    · have : (j ∈ if c = r.cls then t.list c ++ [k] else t.list c) ↔ j ∈ t.list c := by split <;> simp [hj]
      rw [this, hm, if_neg hj]
      cases e : t.get j with
      | none => simp
      | some q0 => simp; split <;> rfl
  · intro j q e
    rcases back j q e with ⟨-, rfl⟩ | ⟨hj, -⟩
    · exact f.flags
    · obtain ⟨q0, e0, x, rfl⟩ := same j q e hj
      exact h.flags j q0 e0
  · intro a b p q ea eb hs hc
    rcases back a p ea with ⟨rfl, rfl⟩ | ⟨ha, -⟩ <;> rcases back b q eb with ⟨rfl, rfl⟩ | ⟨hb, -⟩
    · rfl
    · obtain ⟨q0, e0, x, rfl⟩ := same b q eb hb
      exact absurd ⟨hs.symm, hc.symm⟩ (f.channel b q0 e0)
    · obtain ⟨q0, e0, x, rfl⟩ := same a p ea ha
      exact absurd ⟨hs, hc⟩ (f.channel a q0 e0)
    · obtain ⟨p0, ep, x, rfl⟩ := same a p ea ha
      obtain ⟨q0, eq, y, rfl⟩ := same b q eb hb
      exact h.maps.channel a b p0 q0 ep eq hs hc
  · intro a b p q hw ts ea eb hp hq
    rcases back a p ea with ⟨rfl, rfl⟩ | ⟨ha, -⟩ <;> rcases back b q eb with ⟨rfl, rfl⟩ | ⟨hb, -⟩
    · rfl
    · obtain ⟨q0, e0, x, rfl⟩ := same b q eb hb
      rw [f.timeslot b q0 hw ts e0 hq] at hp
      cases hp
    · obtain ⟨q0, e0, x, rfl⟩ := same a p ea ha
      rw [f.timeslot a q0 hw ts e0 hp] at hq
      cases hq
    · obtain ⟨p0, ep, x, rfl⟩ := same a p ea ha
      obtain ⟨q0, eq, y, rfl⟩ := same b q eb hb
      exact h.maps.timeslot a b p0 q0 hw ts ep eq hp hq
  · intro j q e
    rcases back j q e with ⟨-, rfl⟩ | ⟨hj, -⟩
    · exact f.legs
    · obtain ⟨q0, e0, x, rfl⟩ := same j q e hj
      exact h.maps.legs j q0 e0
  · intro j q x e hx
    have hnamed : ∀ y s, t.named y = some s → y.index ≠ k → r.partner.map Handle.index ≠ some y.index →
        u.named y = some s := by
      intro y s hy hyk hyp
      obtain ⟨hg, es⟩ := named_eq_some.1 hy
      refine named_eq_some.2 ⟨by rw [hgen, hg], ?_⟩
      rw [hget, if_neg hyk, es]
      simp [hyp]
    have hhandle : ∀ j, u.handle j = t.handle j := fun j => by simp [handle, hgen]
    rcases back j q e with ⟨rfl, rfl⟩ | ⟨hj, q0, e0, rfl⟩
    · obtain ⟨s, hs, hp, hsl⟩ := f.partner x hx
      obtain ⟨hg, es⟩ := named_eq_some.1 hs
      have hxk : x.index ≠ j := fun hxk => f.partner_ne (by simp [hx, hxk])
      refine ⟨{ s with partner := some (t.handle j) }, named_eq_some.2 ⟨by rw [hgen, hg], ?_⟩, by rw [hhandle], hsl⟩
      rw [hget, if_neg hxk, es]
      simp [hx]
    · split at hx
      · rename_i hp
        obtain ⟨y, ey, hy⟩ := Option.map_eq_some_iff.1 hp
        obtain ⟨s, hs, -, hsl⟩ := f.partner y ey
        have es := (named_eq_some.1 hs).2
        rw [hy, e0] at es
        cases es
        cases hx
        refine ⟨r, named_eq_some.2 ⟨by simp [handle, hgen], by simp [handle, hget]⟩, ?_, ?_⟩
        · rw [ey, hhandle, ← hy, handle_of_named hs]
        · rw [if_pos hp]
          exact hsl.symm
      · rename_i hp
        rw [if_neg hp]
        obtain ⟨s, hs, hsp, hsl⟩ := h.partners j q0 x e0 hx
        refine ⟨s, hnamed x s hs ?_ ?_, by rw [hsp, hhandle], hsl⟩
        · intro hxk
          have := (named_eq_some.1 hs).2
          rw [hxk, f.free] at this
          cases this
        · intro hxp
          obtain ⟨y, ey, hy⟩ := Option.map_eq_some_iff.1 hxp
          obtain ⟨s', hs', hn, -⟩ := f.partner y ey
          have e1 := (named_eq_some.1 hs).2
          have e2 := (named_eq_some.1 hs').2
          rw [hy, e1] at e2
          cases e2
          rw [hsp] at hn
          cases hn

end Ctb
end Sys2Proof.Machine
end

