-- ==== Sys2Proof/Laws/Requests.lean ====
section
/-! SUPPORT. The course of a request: what `Part.request` gives in each case of R183, so that a statement about a request
is a statement about what its block does. -/

namespace Sys2Proof.Machine

variable {p : Part} {l : Link} {s : State} {c : Instr} {run : Part → Answer} {fits change : Bool}

theorem request_unread (h : (p.link l).buffer.isSome = true) : p.request l fits change run = p.discard l := by
  simp [Part.request, h]

theorem request_badFrame (h : p.Hears l) : p.request l false change run = p.answer l (refusal .badFrame) p := by
  have h : (p.link l).buffer = none := h.1
  simp [Part.request, h]

theorem request_notOwner (h : p.Hears l) (ho : p.owner ≠ some l) :
    p.request l true true run = p.answer l (refusal .notOwner) p := by
  have h : (p.link l).buffer = none := h.1
  simp [Part.request, h, ho]

theorem request_run (h : p.Hears l) (ho : change = true → p.owner = some l) :
    p.request l true change run = p.answer l (run p).2 (run p).1 := by
  have h : (p.link l).buffer = none := h.1
  cases change <;> simp_all [Part.request]

theorem Part.Heeds.hears (h : p.Heeds l) : p.Hears l := h.1

/-! ### Transfers (R182, R183) -/

/-- All that a transfer can do: nothing, where a lost one ends or its bytes cannot follow; else what its end does. -/
theorem transfer_cases (l : Link) (bytes : List Byte) (ends : Part → Part) (p : Part) :
    p.transfer l bytes ends = (p.updLink l fun x => { x with lost := false }) ∧ (p.link l).lost = true ∨
    p.transfer l bytes ends = p ∧ (p.link l).lost = false ∧ goesOn ((p.link l).transfer.getD []) bytes = false ∨
    p.transfer l bytes ends = ends p ∧ (p.link l).lost = false ∧ goesOn ((p.link l).transfer.getD []) bytes = true := by
  unfold Part.transfer
  cases (p.link l).lost <;> cases goesOn ((p.link l).transfer.getD []) bytes <;> simp

theorem transfer_read {bytes : List Byte} (h : (p.link l).lost = false)
    (hg : goesOn ((p.link l).transfer.getD []) bytes = true) (ends : Part → Part) : p.transfer l bytes ends = ends p := by
  simp [Part.transfer, h, hg]

/-- Where no transfer is open, every command's bytes may come. -/
theorem follows_of_closed (h : ∀ l, (p.link l).transfer = none) (c : Instr) : p.Follows c := fun l bytes _ => by
  simp [h l, goesOn]

theorem transfer_lost (h : (p.link l).lost = true) (bytes : List Byte) (ends : Part → Part) :
    p.transfer l bytes ends = p.setLink l { p.link l with lost := false } := by
  simp [Part.transfer, h, Part.updLink]

theorem clocked_request {code : Byte} {fields : List Byte} (h : encodeRequest c = some (l, code, fields)) :
    c.clocked = some (l, requestBytes code fields) := by
  cases c <;> simp_all [Instr.clocked, encodeRequest]

theorem sent_eq {bytes : List Byte} (h : c.clocked = some (l, bytes)) (ends : Part → Part) :
    p.sent c ends = p.transfer l bytes ends := by
  simp [Part.sent, h]

theorem sent_read (h : (p.link l).lost = false) (hf : p.Follows c) (hc : (encodeRequest c).map Prod.fst = some l)
    (ends : Part → Part) : p.sent c ends = ends p := by
  obtain ⟨⟨m, code, fields⟩, he, rfl⟩ := Option.map_eq_some_iff.1 hc
  rw [sent_eq (clocked_request he), transfer_read h (hf _ _ (clocked_request he))]

/-- A request that its block refuses. -/
theorem refuses_of_run (he : exec c s = .next (s.lift (Part.sent c (Part.request l fits change run)))) (hf : fits = true)
    (h : s.part.Hears l) (ho : change = true → s.part.owner = some l) {st : Status}
    (hr : run s.part = s.part.refused st) (hc : (encodeRequest c).map Prod.fst = some l := by rfl) : Refuses c l s st := by
  subst hf
  intro hf
  rw [he, State.lift, sent_read h.2 hf hc, request_run h ho, hr]
  rfl

/-- A request that its block carries out. -/
theorem accepts_of_run (he : exec c s = .next (s.lift (Part.sent c (Part.request l fits change run)))) (hf : fits = true)
    (h : s.part.Hears l) (ho : change = true → s.part.owner = some l) {body : List Byte} {q : Part}
    (hr : run s.part = (q, okay body)) (hc : (encodeRequest c).map Prod.fst = some l := by rfl) : Accepts c l s body q := by
  subst hf
  intro hf
  rw [he, State.lift, sent_read h.2 hf hc, request_run h ho, hr]

/-- The slot byte of a request, in range. -/
theorem fin?_byteOf {n : Nat} (hn : n ≤ 256) (i : Fin n) : fin? n (byteOf i.val).toNat = some i := by
  have : (byteOf i.val).toNat = i.val := by
    simp only [byteOf, BitVec.toNat_ofNat]
    exact Nat.mod_eq_of_lt (by omega)
  simp [fin?, this]

theorem fin?_none {n x : Nat} (h : n ≤ x) : fin? n x = none := by simp [fin?, Nat.not_lt.2 h]

theorem handleOf_wire (h : Handle) : handleOf h.wire = some h := by
  have h1 : h.wire.index.toNat = h.index.val := by
    simp only [Handle.wire, BitVec.toNat_ofNat]
    exact Nat.mod_eq_of_lt (by omega)
  have h2 : h.wire.gen.toNat = h.gen.val := by
    simp only [Handle.wire, byteOf, BitVec.toNat_ofNat]
    exact Nat.mod_eq_of_lt (by omega)
  simp [handleOf, fin?, h1, h2]

theorem handleOf_none {w : WireHandle} (h : 4096 ≤ w.index.toNat ∨ 16 ≤ w.gen.toNat) : handleOf w = none := by
  rcases h with h | h
  · simp [handleOf, fin?_none h]
  · unfold handleOf
    rw [fin?_none h]
    split <;> simp_all

theorem onNamed_bad {w : WireHandle} {f : Handle → Rec → Part → Answer} (h : handleOf w = none) :
    p.onNamed w f = p.refused .badField := by
  simp [Part.onNamed, h]

theorem onNamed_stale {h : Handle} {f : Handle → Rec → Part → Answer} (hn : p.ctb.named h = none) :
    p.onNamed h.wire f = p.refused .staleHandle := by
  simp [Part.onNamed, handleOf_wire, hn]

theorem onNamed_run {h : Handle} {r : Rec} {f : Handle → Rec → Part → Answer} (hn : p.ctb.named h = some r) :
    p.onNamed h.wire f = f h r p := by
  simp [Part.onNamed, handleOf_wire, hn]

/-- An answer, field by field. -/
theorem answer_eq (l : Link) (r : Response) (p q : Part) :
    p.answer l r q = q.setLink l { q.link l with buffer := some r, transfer := none, dataOut := p.opening l } := rfl

/-- A request any link may make, carried out. -/
theorem accepts_plain {c : Instr} {l : Link} {s : State} {run : Part → Answer} {body : List Byte} {q : Part}
    (h : s.part.Hears l) (he : exec c s = .next (s.lift (Part.sent c (Part.request l true false run))))
    (hr : run s.part = (q, okay body)) (hc : (encodeRequest c).map Prod.fst = some l := by rfl) : Accepts c l s body q :=
  accepts_of_run he rfl h (by simp) hr hc

/-- A change request of the owner, carried out. -/
theorem accepts_change {c : Instr} {l : Link} {s : State} {run : Part → Answer} {body : List Byte} {q : Part}
    (h : s.part.Heeds l) (he : exec c s = .next (s.lift (Part.sent c (Part.request l true true run))))
    (hr : run s.part = (q, okay body)) (hc : (encodeRequest c).map Prod.fst = some l := by rfl) : Accepts c l s body q :=
  accepts_of_run he rfl h.hears (fun _ => h.2) hr hc

/-- A request any link may make, refused by its block. -/
theorem refuses_plain {c : Instr} {l : Link} {s : State} {run : Part → Answer} {st : Status}
    (h : s.part.Hears l) (he : exec c s = .next (s.lift (Part.sent c (Part.request l true false run))))
    (hr : run s.part = s.part.refused st) (hc : (encodeRequest c).map Prod.fst = some l := by rfl) : Refuses c l s st :=
  refuses_of_run he rfl h (by simp) hr hc

/-- A change request of the owner, refused by its block. -/
theorem refuses_change {c : Instr} {l : Link} {s : State} {run : Part → Answer} {st : Status}
    (h : s.part.Heeds l) (he : exec c s = .next (s.lift (Part.sent c (Part.request l true true run))))
    (hr : run s.part = s.part.refused st) (hc : (encodeRequest c).map Prod.fst = some l := by rfl) : Refuses c l s st :=
  refuses_of_run he rfl h.hears (fun _ => h.2) hr hc

theorem bytesOf_two (n : Nat) : bytesOf 2 n = [byteOf (n / 256), byteOf n] := by simp [bytesOf]
theorem bytesOf_three (n : Nat) : bytesOf 3 n = [byteOf (n / 65536), byteOf (n / 256), byteOf n] := by simp [bytesOf]
theorem handle_bytes (h : Handle) : h.bytes = [byteOf (h.index.val / 256), byteOf h.index.val, byteOf h.gen.val] := by
  simp [Handle.bytes, bytesOf]

end Sys2Proof.Machine
end

