-- ==== Sys2Proof/Laws/Enter.lean ====
section
/-! SUPPORT. The entry of a slot into a state: everything `Part.enter` can do, and what the entries built on it do. -/

namespace Sys2Proof.Machine

variable {p q : Part} {i j : SlotId} {st : SlotState} {x : Slot} {b : BusCfg}

/-! ### The slot -/

/-- The poll timer alone follows the interval (R93). -/
theorem recut_eq (b : BusCfg) (before : PollClass) (x : Slot) :
    x.recut b before = { x with pollTimer := b.cut before x.pollClass x.pollTimer } := by
  unfold Slot.recut BusCfg.cut
  split
  · rfl
  · split <;> simp_all

/-- An entry withdraws the enable. -/
theorem into_withdrawn (h : st.driven = false) : (x.into st).recut b x.pollClass = x.withdrawn st := by
  have hc : ∀ c, b.cut c .none (none : Timer) = none := fun c => by unfold BusCfg.cut; split <;> rfl
  rw [recut_eq]
  cases st <;> simp [SlotState.driven] at h <;>
    (show { x.into _ with pollTimer := b.cut x.pollClass .none none } = _
     rw [hc]
     rfl)

/-- An entry to DARK. -/
theorem into_dark (boot : Timer) :
    { (x.into .dark).recut b x.pollClass with bootTimer := boot } = x.darkened b boot := by
  rw [recut_eq]
  rfl

/-- The poll interval of a state an entry moves to. -/
def SlotState.movedClass : SlotState → PollClass
  | .held | .mismatch => .slow
  | .aligning | .auditing | .relinking | .empty | .off | .dark | .linked | .faulted => .fast

/-- An entry to a state with the enable driven, other than DARK and LINKED. -/
theorem into_moved (h : st ∈ [.aligning, .auditing, .relinking, .held, .mismatch]) :
    (x.into st).recut b x.pollClass = x.moved b st st.movedClass := by
  rw [recut_eq]
  simp only [List.mem_cons, List.not_mem_nil, or_false] at h
  rcases h with rfl | rfl | rfl | rfl | rfl <;> rfl

/-- The move from RELINKING to LINKED. -/
theorem into_linked : { (x.into .linked).recut b x.pollClass with stableTimer := some 30000 } = x.linkedUp b := by
  rw [recut_eq]
  rfl

/-! ### The part -/

@[simp] theorem ctb_enter : (p.enter i st).ctb = p.ctb := by
  unfold Part.enter Part.reportSlot Part.purge
  simp only
  split <;> simp

theorem slot_enter : (p.enter i st).slot i = ((p.slot i).into st).recut p.cfg.bus (p.slot i).pollClass := by
  unfold Part.enter Part.reportSlot Part.purge
  simp only
  split <;> simp

theorem purges_eq_ends (f : Frame) : st.purges f = st.ends f := by
  cases st <;> simp [SlotState.purges, SlotState.ends, SlotState.driven]

theorem reported_iff : st.reported = true ↔ st = .linked ∨ st = .faulted ∨ st = .mismatch ∨ st = .empty := by
  cases st <;> simp [SlotState.reported]

theorem link_reportSlot (l : Link) : (p.reportSlot i).link l = (p.link l).slotChanged i := by
  cases l <;> rfl

theorem entered_enter (p : Part) (i : SlotId) (st : SlotState) : p.Entered i st (p.enter i st) := by
  have hx : ∀ q : Part, q.reportSlot i = (q.updLink .a (LinkRec.slotChanged i)).updLink .b (LinkRec.slotChanged i) :=
    fun _ => rfl
  have hp : ∀ f, st.purges f = st.ends f := purges_eq_ends
  by_cases h : st.reported = true
  · have hi := reported_iff.1 h
    constructor <;> simp only [Part.enter, h, if_true, hi]
    · intro j hj
      simp [hx, slot_updSlot_ne, hj.symm, Part.purge]
    · simp [hx, Part.purge, Segment.purge, hp]
    · simp [hx, Part.purge, Segment.purge, hp]
    · intro c; cases c <;> simp [hx, Part.purge, Segment.purge, Segment.ptr]
    · simp [hx, Part.purge, Segment.purge]
    · intro g hg
      simp [hx, Part.purge, seg_updSeg, hg.symm]
    · intro l
      rw [link_reportSlot]
      simp [Part.purge]
    all_goals simp [hx, Part.purge]
  · have hi := mt reported_iff.2 h
    constructor <;> simp only [Part.enter, h, hi, if_false, Bool.false_eq_true]
    · intro j hj
      simp [slot_updSlot_ne, hj.symm, Part.purge]
    · simp [Part.purge, Segment.purge, hp]
    · simp [Part.purge, Segment.purge, hp]
    · intro c; cases c <;> simp [Part.purge, Segment.purge, Segment.ptr]
    · simp [Part.purge, Segment.purge]
    · intro g hg
      simp [Part.purge, seg_updSeg, hg.symm]
    all_goals simp [Part.purge]

namespace Part.Entered

variable (h : p.Entered i st q)
include h

/-- The entered slot may be rewritten. -/
theorem updSlot (f : Slot → Slot) : p.Entered i st (q.updSlot i f) := by
  constructor <;> simp [h.queue, h.exchange, h.pointers, h.sent, h.links, h.cfg, h.capture, h.spm, h.fbu, h.running, h.owner,
    h.fillers]
  · intro j hj
    rw [slot_updSlot_ne _ _ _ _ (Ne.symm hj), h.slots j hj]
  · exact h.segment

/-- The table may be rewritten. -/
theorem onCtb (f : Ctb → Ctb) : p.Entered i st (q.onCtb f) := by
  constructor <;> simp [h.queue, h.exchange, h.pointers, h.sent, h.links, h.cfg, h.capture, h.spm, h.fbu, h.running, h.owner,
    h.fillers]
  · exact h.slots
  · exact h.segment

end Part.Entered

/-- What is entered from a part with its slot rewritten is entered from the part. -/
theorem Part.Entered.of_updSlot {f : Slot → Slot} (h : (p.updSlot i f).Entered i st q) : p.Entered i st q := by
  constructor
  · intro j hj
    rw [h.slots j hj, slot_updSlot_ne _ _ _ _ hj.symm]
  · simpa using h.queue
  · simpa using h.exchange
  · simpa using h.pointers
  · simpa using h.sent
  · simpa using h.segment
  · simpa using h.links
  · exact h.cfg
  · exact h.capture
  · exact h.spm
  · exact h.fbu
  · exact h.running
  · exact h.owner
  · exact h.fillers

theorem Part.Entered.of_setSlot {y : Slot} (h : (p.setSlot i y).Entered i st q) : p.Entered i st q :=
  Part.Entered.of_updSlot (f := fun _ => y) h

theorem Part.Entered.of_onCtb {f : Ctb → Ctb} (h : (p.onCtb f).Entered i st q) : p.Entered i st q := by
  constructor
  · simpa using h.slots
  · simpa using h.queue
  · simpa using h.exchange
  · simpa using h.pointers
  · simpa using h.sent
  · simpa using h.segment
  · simpa using h.links
  · exact h.cfg
  · exact h.capture
  · exact h.spm
  · exact h.fbu
  · exact h.running
  · exact h.owner
  · exact h.fillers

/-! ### The treatments with their entries -/

/-- `Part.treat` is the table's treatment. -/
@[simp] theorem ctb_treat (f : Fate) : (p.treat f i).ctb = p.ctb.treat f i := rfl

/-- A card goes dark: the entry, the slot and the records (R55). -/
theorem darken_spec (boot : Timer) : p.Entered i .dark (p.darken i boot) ∧
    (p.darken i boot).slot i = (p.slot i).darkened p.cfg.bus boot ∧ (p.darken i boot).ctb = p.ctb.treat lossFate i := by
  refine ⟨((entered_enter _ i .dark).of_onCtb).updSlot _, ?_, ?_⟩
  · rw [Part.darken, slot_updSlot_self, slot_enter]
    exact into_dark boot
  · simp [Part.darken]

/-- A card's enable is withdrawn: the entry, the slot and the records (R56). -/
theorem powerOff_spec (h : st.driven = false) (off : Timer) : p.Entered i st (p.powerOff i st off) ∧
    (p.powerOff i st off).slot i = { (p.slot i).withdrawn st with offTimer := off } ∧
    (p.powerOff i st off).ctb = p.ctb.treat powerOffFate i := by
  refine ⟨((entered_enter _ i st).of_onCtb).updSlot _, ?_, ?_⟩
  · rw [Part.powerOff, slot_updSlot_self, slot_enter, into_withdrawn h]
    rfl
  · simp [Part.powerOff]

end Sys2Proof.Machine
end

