-- ==== Sys2Proof/Laws/Arbiter.lean ====
section
/-! SUPPORT. The admission arbiter and what follows a change: everything a grant can do, an induction over grants, and the
fields that grants and the tests of `Part.follow` leave. -/

namespace Sys2Proof.Machine

variable {p q : Part} {i j : SlotId} {g : SegId} {c : Category}

theorem mem_segSlots : i ∈ segSlots g ↔ segOf i = g := by
  simp [segSlots, allSlots]

theorem mem_grantOrder {ptr : Option SlotId} : i ∈ grantOrder g ptr ↔ segOf i = g := by
  unfold grantOrder
  split
  · exact mem_segSlots
  · simp only [List.mem_append, List.mem_filter, mem_segSlots, decide_eq_true_eq]
    constructor
    · rintro (h | h) <;> exact h.1
    · intro h
      rcases lt_or_ge ‹SlotId› i with h' | h'
      · exact .inl ⟨h, h'⟩
      · exact .inr ⟨h, h'⟩

/-- The slot a category is granted to is served by the segment and eligible. -/
theorem of_pick (h : p.pick g c = some i) : segOf i = g ∧ (p.slot i).eligible c = true :=
  ⟨mem_grantOrder.1 (List.mem_of_find?_eq_some h), by simpa using List.find?_some h⟩

/-- No slot of a segment is picked in a category exactly when none is eligible. -/
theorem pick_none : p.pick g c = none ↔ ∀ i, segOf i = g → (p.slot i).eligible c = false := by
  simp only [Part.pick, List.find?_eq_none, mem_grantOrder, Bool.not_eq_true]

/-- A grant goes to an eligible slot of the segment, and sets the category's pointer. -/
theorem of_grantOne (h : p.grantOne g = some q) : ∃ c i, segOf i = g ∧ (p.slot i).eligible c = true ∧
    q = (p.grant i c).updSeg g (Segment.setPtr c i) := by
  simp only [Part.grantOne, List.findSome?_cons, List.findSome?_nil] at h
  have one : ∀ c, (p.pick g c).map (fun i => (p.grant i c).updSeg g (Segment.setPtr c i)) = some q →
      ∃ c i, segOf i = g ∧ (p.slot i).eligible c = true ∧ q = (p.grant i c).updSeg g (Segment.setPtr c i) := by
    intro c hc
    obtain ⟨i, hi, rfl⟩ := Option.map_eq_some_iff.1 hc
    exact ⟨c, i, (of_pick hi).1, (of_pick hi).2, rfl⟩
  split at h
  · exact one _ (by rw [← h]; assumption)
  · split at h
    · exact one _ (by rw [← h]; assumption)
    · split at h
      · exact one _ (by rw [← h]; assumption)
      · cases h

theorem grantOne_none : p.grantOne g = none ↔ ∀ i, segOf i = g → ∀ c, (p.slot i).eligible c = false := by
  have : p.grantOne g = none ↔ ∀ c, p.pick g c = none := by
    simp only [Part.grantOne, List.findSome?_eq_none_iff, List.mem_cons, List.not_mem_nil, or_false, Option.map_eq_none_iff]
    constructor
    · intro h c
      exact h c (by cases c <;> simp)
    · intro h c _
      exact h c
  rw [this]
  simp only [pick_none]
  exact ⟨fun h i hi c => h c i hi, fun h c i hi => h i hi c⟩

/-- What every grant keeps, the arbiter keeps. -/
theorem arbitrate_induct {P : Part → Prop} (h : ∀ q c i, P q → (q.seg g).queue.length < 16 → segOf i = g →
    (q.slot i).eligible c = true → P ((q.grant i c).updSeg g (Segment.setPtr c i))) (hp : P p) : P (p.arbitrate g) := by
  unfold Part.arbitrate
  generalize Config.queueRoom = n
  induction n generalizing p with
  | zero => exact hp
  | succ n ih =>
    simp only [Part.grants]
    split
    · rename_i hl
      split
      · exact hp
      · rename_i q hq
        obtain ⟨c, i, hi, he, rfl⟩ := of_grantOne hq
        exact ih (h p c i hp hl hi he)
    · exact hp

/-! ### What a grant leaves -/

@[simp] theorem slot_enqueue (f : Frame) : (p.enqueue i f).slot j = p.slot j := by simp [Part.enqueue]

theorem seg_enqueue (f : Frame) (h : SegId) : (p.enqueue i f).seg h =
    if segOf i = h then { p.seg h with queue := (p.seg h).queue ++ [⟨i, f⟩] } else p.seg h := by
  simp only [Part.enqueue, seg_updSeg]
  split
  · rename_i e
    rw [e]
  · rfl

section

variable {α : Type}

/-- A part's field that slots and segments do not touch. -/
structure Outside (φ : Part → α) : Prop where
  slot : ∀ p i x, φ (Part.setSlot i x p) = φ p
  seg : ∀ p g x, φ (Part.setSeg g x p) = φ p

theorem Outside.updSlot {φ : Part → α} (h : Outside φ) (f : Slot → Slot) : φ (p.updSlot i f) = φ p := h.slot _ _ _
theorem Outside.updSeg {φ : Part → α} (h : Outside φ) (f : Segment → Segment) : φ (p.updSeg g f) = φ p := h.seg _ _ _

theorem Outside.grant {φ : Part → α} (h : Outside φ) : φ (p.grant i c) = φ p := by
  cases c <;> simp only [Part.grant]
  · split
    · rfl
    · rw [Part.enqueue, h.updSeg, h.updSlot]
  · split
    · rfl
    · rw [Part.enqueue, h.updSeg, Part.setInflight, h.updSlot, h.updSlot]
  · rw [Part.enqueue, h.updSeg, h.updSlot]

theorem Outside.arbitrate {φ : Part → α} (h : Outside φ) : φ (p.arbitrate g) = φ p :=
  arbitrate_induct (P := fun q => φ q = φ p) (fun q c i hq _ _ _ => by rw [h.updSeg, h.grant, hq]) rfl

end

theorem outside_ctb : Outside Part.ctb := ⟨fun _ _ _ => rfl, fun p g x => setSeg_ctb p g x⟩
theorem outside_cfg : Outside Part.cfg := ⟨fun _ _ _ => rfl, fun p g x => setSeg_cfg p g x⟩
theorem outside_capture : Outside Part.capture := ⟨fun _ _ _ => rfl, fun p g x => setSeg_capture p g x⟩
theorem outside_spm : Outside Part.spm := ⟨fun _ _ _ => rfl, fun p g x => setSeg_spm p g x⟩
theorem outside_fbu : Outside Part.fbu := ⟨fun _ _ _ => rfl, fun p g x => setSeg_fbu p g x⟩
theorem outside_running : Outside Part.running := ⟨fun _ _ _ => rfl, fun p g x => setSeg_running p g x⟩
theorem outside_linkA : Outside Part.linkA := ⟨fun _ _ _ => rfl, fun p g x => setSeg_linkA p g x⟩
theorem outside_linkB : Outside Part.linkB := ⟨fun _ _ _ => rfl, fun p g x => setSeg_linkB p g x⟩
theorem outside_owner : Outside Part.owner := ⟨fun _ _ _ => rfl, fun p g x => setSeg_owner p g x⟩
theorem outside_fillers : Outside Part.fillers := ⟨fun _ _ _ => rfl, fun p g x => setSeg_fillers p g x⟩

@[simp] theorem arbitrate_ctb : (p.arbitrate g).ctb = p.ctb := outside_ctb.arbitrate
@[simp] theorem arbitrate_cfg : (p.arbitrate g).cfg = p.cfg := outside_cfg.arbitrate
@[simp] theorem arbitrate_capture : (p.arbitrate g).capture = p.capture := outside_capture.arbitrate
@[simp] theorem arbitrate_spm : (p.arbitrate g).spm = p.spm := outside_spm.arbitrate
@[simp] theorem arbitrate_fbu : (p.arbitrate g).fbu = p.fbu := outside_fbu.arbitrate
@[simp] theorem arbitrate_running : (p.arbitrate g).running = p.running := outside_running.arbitrate
@[simp] theorem arbitrate_linkA : (p.arbitrate g).linkA = p.linkA := outside_linkA.arbitrate
@[simp] theorem arbitrate_linkB : (p.arbitrate g).linkB = p.linkB := outside_linkB.arbitrate
@[simp] theorem arbitrate_owner : (p.arbitrate g).owner = p.owner := outside_owner.arbitrate
@[simp] theorem arbitrate_fillers : (p.arbitrate g).fillers = p.fillers := outside_fillers.arbitrate
@[simp] theorem arbitrate_link (l : Link) : (p.arbitrate g).link l = p.link l := by cases l <;> simp [Part.link]

/-- A slot after grants: only its work, its slot-engine frame's place, its poll timer and its POLL due may differ (R91). -/
def Slot.granted (x y : Slot) : Prop :=
  ∃ (engine : Option Engine) (drops : List Handle) (entries : List Txn) (timer : Timer) (due : Bool),
    y = { x with engine := engine, waitingDrops := drops, inflight := entries, pollTimer := timer, pollDue := due }

theorem Slot.granted.refl (x : Slot) : x.granted x := ⟨_, _, _, _, _, rfl⟩

theorem Slot.granted.trans {x y z : Slot} (h : x.granted y) (h' : y.granted z) : x.granted z := by
  obtain ⟨a, b, c, d, e, rfl⟩ := h
  obtain ⟨a', b', c', d', e', rfl⟩ := h'
  exact ⟨a', b', c', d', e', rfl⟩

theorem slot_grant (h : j ≠ i) : (p.grant i c).slot j = p.slot j := by
  cases c <;> simp only [Part.grant]
  · split
    · rfl
    · rw [slot_enqueue, slot_updSlot_ne _ _ _ _ h.symm]
  · split
    · rfl
    · rw [slot_enqueue, Part.setInflight, slot_updSlot_ne _ _ _ _ h.symm, slot_updSlot_ne _ _ _ _ h.symm]
  · rw [slot_enqueue, slot_updSlot_ne _ _ _ _ h.symm]

theorem granted_grant : (p.slot j).granted ((p.grant i c).slot j) := by
  by_cases h : j = i
  · subst h
    cases c <;> simp only [Part.grant]
    · split
      · exact .refl _
      · rw [slot_enqueue, slot_updSlot_self]
        exact ⟨_, _, _, _, _, rfl⟩
    · split
      · exact .refl _
      · rw [slot_enqueue, Part.setInflight, slot_updSlot_self, recut_eq, slot_updSlot_self]
        exact ⟨_, _, _, _, _, rfl⟩
    · rw [slot_enqueue, slot_updSlot_self]
      exact ⟨_, _, _, _, _, rfl⟩
  · rw [slot_grant h]
    exact .refl _

theorem granted_arbitrate : (p.slot j).granted ((p.arbitrate g).slot j) :=
  arbitrate_induct (P := fun q => (p.slot j).granted (q.slot j))
    (fun q c i hq _ _ _ => hq.trans (by rw [slot_updSeg]; exact granted_grant)) (.refl _)

/-- Grants on a segment leave the slots of the other. -/
theorem slot_arbitrate (h : segOf j ≠ g) : (p.arbitrate g).slot j = p.slot j :=
  arbitrate_induct (P := fun q => q.slot j = p.slot j) (fun q c i hq _ hi _ => by
    rw [slot_updSeg, slot_grant (show j ≠ i from fun e => h (by rw [e]; exact hi)), hq]) rfl

theorem seg_grant_ne {k : SegId} (h : k ≠ segOf i) : (p.grant i c).seg k = p.seg k := by
  cases c <;> simp only [Part.grant]
  · split
    · rfl
    · rw [seg_enqueue, if_neg h.symm, seg_updSlot]
  · split
    · rfl
    · rw [seg_enqueue, if_neg h.symm, Part.setInflight, seg_updSlot, seg_updSlot]
  · rw [seg_enqueue, if_neg h.symm, seg_updSlot]

theorem seg_arbitrate {k : SegId} (h : k ≠ g) : (p.arbitrate g).seg k = p.seg k :=
  arbitrate_induct (P := fun q => q.seg k = p.seg k) (fun q c i hq _ hi _ => by
    rw [seg_updSeg, if_neg h.symm, seg_grant_ne (hi ▸ h), hq]) rfl

/-! ### What follows a change -/

@[simp] theorem stallCheck_slot : p.stallCheck.slot j = p.slot j := by unfold Part.stallCheck; split <;> rfl
@[simp] theorem stallCheck_seg (k : SegId) : p.stallCheck.seg k = p.seg k := by
  unfold Part.stallCheck; split <;> cases k <;> rfl
@[simp] theorem stallCheck_ctb : p.stallCheck.ctb = p.ctb := by unfold Part.stallCheck; split <;> rfl
@[simp] theorem stallCheck_cfg : p.stallCheck.cfg = p.cfg := by unfold Part.stallCheck; split <;> rfl
@[simp] theorem stallCheck_capture : p.stallCheck.capture = p.capture := by unfold Part.stallCheck; split <;> rfl
@[simp] theorem stallCheck_spm : p.stallCheck.spm = p.spm := by unfold Part.stallCheck; split <;> rfl
@[simp] theorem stallCheck_running : p.stallCheck.running = p.running := by unfold Part.stallCheck; split <;> rfl
@[simp] theorem stallCheck_owner : p.stallCheck.owner = p.owner := by unfold Part.stallCheck; split <;> rfl
@[simp] theorem stallCheck_fillers : p.stallCheck.fillers = p.fillers := by unfold Part.stallCheck; split <;> rfl
@[simp] theorem stallCheck_link (l : Link) : p.stallCheck.link l = p.link l := by
  unfold Part.stallCheck; split <;> cases l <;> rfl
@[simp] theorem stallCheck_ceiling : p.stallCheck.fbu.ceiling = p.fbu.ceiling := by unfold Part.stallCheck; split <;> rfl
@[simp] theorem stallCheck_load : p.stallCheck.fbu.load = p.fbu.load := by unfold Part.stallCheck; split <;> rfl

@[simp] theorem raise_slot (n : Notice) : (p.raise n).slot j = p.slot j := rfl
@[simp] theorem raise_seg (n : Notice) (k : SegId) : (p.raise n).seg k = p.seg k := by cases k <;> rfl
@[simp] theorem raise_ctb (n : Notice) : (p.raise n).ctb = p.ctb := rfl
@[simp] theorem raise_cfg (n : Notice) : (p.raise n).cfg = p.cfg := rfl
@[simp] theorem raise_capture (n : Notice) : (p.raise n).capture = p.capture := rfl
@[simp] theorem raise_spm (n : Notice) : (p.raise n).spm = p.spm := rfl
@[simp] theorem raise_fbu (n : Notice) : (p.raise n).fbu = p.fbu := rfl
@[simp] theorem raise_running (n : Notice) : (p.raise n).running = p.running := rfl
@[simp] theorem raise_owner (n : Notice) : (p.raise n).owner = p.owner := rfl
@[simp] theorem raise_fillers (n : Notice) : (p.raise n).fillers = p.fillers := rfl
theorem link_raise (n : Notice) (l : Link) : (p.raise n).link l = (p.link l).raise n := by cases l <;> rfl

@[simp] theorem recoveryTest_slot : p.recoveryTest.slot j = p.slot j := by unfold Part.recoveryTest; split <;> rfl
@[simp] theorem recoveryTest_seg (k : SegId) : p.recoveryTest.seg k = p.seg k := by
  unfold Part.recoveryTest; split <;> cases k <;> rfl
@[simp] theorem recoveryTest_ctb : p.recoveryTest.ctb = p.ctb := by unfold Part.recoveryTest; split <;> rfl
@[simp] theorem recoveryTest_cfg : p.recoveryTest.cfg = p.cfg := by unfold Part.recoveryTest; split <;> rfl
@[simp] theorem recoveryTest_capture : p.recoveryTest.capture = p.capture := by unfold Part.recoveryTest; split <;> rfl
@[simp] theorem recoveryTest_fbu : p.recoveryTest.fbu = p.fbu := by unfold Part.recoveryTest; split <;> rfl
@[simp] theorem recoveryTest_running : p.recoveryTest.running = p.running := by unfold Part.recoveryTest; split <;> rfl
@[simp] theorem recoveryTest_owner : p.recoveryTest.owner = p.owner := by unfold Part.recoveryTest; split <;> rfl
@[simp] theorem recoveryTest_fillers : p.recoveryTest.fillers = p.fillers := by unfold Part.recoveryTest; split <;> rfl

@[simp] theorem follow_ctb : p.follow.ctb = p.ctb := by simp [Part.follow]
@[simp] theorem follow_cfg : p.follow.cfg = p.cfg := by simp [Part.follow]
@[simp] theorem follow_capture : p.follow.capture = p.capture := by simp [Part.follow]
@[simp] theorem follow_running : p.follow.running = p.running := by simp [Part.follow]
@[simp] theorem follow_owner : p.follow.owner = p.owner := by simp [Part.follow]
@[simp] theorem follow_fillers : p.follow.fillers = p.fillers := by simp [Part.follow]

theorem granted_follow : (p.slot j).granted (p.follow.slot j) := by
  simp only [Part.follow, recoveryTest_slot, stallCheck_slot]
  exact granted_arbitrate.trans granted_arbitrate

@[simp] theorem follow_state : (p.follow.slot j).state = (p.slot j).state := by
  obtain ⟨_, _, _, _, _, h⟩ := granted_follow (p := p) (j := j)
  rw [h]

@[simp] theorem arbitrate_state : ((p.arbitrate g).slot j).state = (p.slot j).state := by
  obtain ⟨_, _, _, _, _, h⟩ := granted_arbitrate (p := p) (g := g) (j := j)
  rw [h]

/-- Calling for a slot-engine frame: the one pending is replaced, its queued frame leaves the queue, and grants follow (R92). -/
theorem callEngine_eq (f : Frame) : p.callEngine i f =
    ((p.setSlot i { p.slot i with engine := some ⟨f, 0, .waiting⟩ }).setSeg (segOf i) { p.seg (segOf i) with
      queue := (p.seg (segOf i)).queue.filter fun q => !(decide (q.slot = i) && q.frame.isEngine) }).arbitrate (segOf i) := by
  unfold Part.callEngine
  cases segOf i <;> rfl

end Sys2Proof.Machine
end

