-- ==== Sys2Proof/Laws/SlotRules.lean ====
section
/-! SUPPORT. The Slot Controller's shared operations: everything a counted failure, a lost card, an entry to ALIGNING,
AUDITING, HELD or RELINKING, and the test that ends relinking can do. -/

namespace Sys2Proof.Machine

variable {p q : Part} {i j : SlotId} {st : SlotState} {x : Slot}

theorem updSlot_updSlot (f g : Slot → Slot) : (p.updSlot i f).updSlot i g = p.updSlot i fun x => g (f x) := by
  unfold Part.updSlot Part.setSlot
  simp [Part.slot]

theorem setSlot_setSlot (x y : Slot) : (p.setSlot i x).setSlot i y = p.setSlot i y := by simp [Part.setSlot]

theorem updSlot_eq (f : Slot → Slot) : p.updSlot i f = p.setSlot i (f (p.slot i)) := rfl

theorem setSlot_slot : p.setSlot i (p.slot i) = p := by simp [Part.setSlot, Part.slot]

/-! ### Counted failures (R68) -/

/-- The summary bits of a cause; none where it has no kind. -/
def faultBits : Option FaultKind → BitVec 5
  | none => 0
  | some k => BitVec.twoPow 5 k.bit

theorem counted_eq (k : Option FaultKind) :
    (p.addFault i k).countAttempt i = p.setSlot i ((p.slot i).counted (faultBits k)) := by
  cases k with
  | none =>
    have h0 : (p.slot i).faults ||| 0 = (p.slot i).faults := BitVec.or_zero
    simp only [Part.addFault, Part.countAttempt, updSlot_eq, faultBits, Slot.counted, h0]
    rfl
  | some k =>
    simp only [Part.addFault, Part.countAttempt, updSlot_updSlot]
    rfl

theorem failed_eq (k : Option FaultKind) (onward : Part → Part) :
    p.failed i k onward = if p.cfg.bus.attemptLimit ≤ ((p.slot i).counted (faultBits k)).attempts
      then (p.setSlot i ((p.slot i).counted (faultBits k))).fault i
      else onward (p.setSlot i ((p.slot i).counted (faultBits k))) := by
  simp [Part.failed, counted_eq, Part.atLimit]

theorem fault_spec (h : p.ctb.TableLaw) : p.Entered i .faulted (p.fault i) ∧ (p.fault i).slot i = (p.slot i).withdrawn .faulted ∧
    p.ctb.Treated powerOffFate i (p.fault i).ctb := by
  obtain ⟨h1, h2, h3⟩ := powerOff_spec (p := p) (i := i) (st := .faulted) rfl none
  exact ⟨h1, h2, by rw [Part.fault, h3]; exact Ctb.treated_treat Ctb.plain_powerOffFate Ctb.keepsRefused_powerOffFate h i⟩

/-- A counted failure, with what its own rule gives below the limit. -/
theorem failed_spec (h : p.ctb.TableLaw) (k : Option FaultKind) {onward : Part → Part} {after : Part → Prop}
    (ha : ((p.slot i).counted (faultBits k)).attempts < p.cfg.bus.attemptLimit →
      after (onward (p.setSlot i ((p.slot i).counted (faultBits k))))) :
    p.Failed i (faultBits k) after (p.failed i k onward) := by
  refine ⟨fun hl => ?_, fun hl => ?_⟩
  · rw [failed_eq, if_pos hl]
    obtain ⟨h1, h2, h3⟩ := fault_spec (i := i) (p := p.setSlot i ((p.slot i).counted (faultBits k))) h
    exact ⟨h1.of_setSlot, by simpa using h2, h3⟩
  · rw [failed_eq, if_neg (by omega)]
    exact ha hl

/-- A card's power is cycled, cooling for the off time (R61, R79). -/
theorem cool_spec (h : p.ctb.TableLaw) : p.Entered i .off (p.cool i) ∧
    (p.cool i).slot i = { (p.slot i).withdrawn .off with offTimer := some p.cfg.bus.off } ∧
    p.ctb.Treated powerOffFate i (p.cool i).ctb := by
  obtain ⟨h1, h2, h3⟩ := powerOff_spec (p := p) (i := i) (st := .off) rfl (some p.cfg.bus.off)
  exact ⟨h1, h2, by rw [Part.cool, h3]; exact Ctb.treated_treat Ctb.plain_powerOffFate Ctb.keepsRefused_powerOffFate h i⟩

/-- A card is power-cycled with an attempt (R61). -/
theorem cycleFailed_spec (h : p.ctb.TableLaw) (k : Option FaultKind) :
    p.Failed i (faultBits k) (fun q => p.Entered i .off q ∧
      q.slot i = { ((p.slot i).counted (faultBits k)).withdrawn .off with offTimer := some p.cfg.bus.off } ∧
      p.ctb.Treated powerOffFate i q.ctb) (p.cycleFailed i k) := by
  refine failed_spec h k fun _ => ?_
  obtain ⟨h1, h2, h3⟩ := cool_spec (i := i) (p := p.setSlot i ((p.slot i).counted (faultBits k))) h
  exact ⟨h1.of_setSlot, by simpa using h2, h3⟩

/-- A card-lost event in a state in which a card may be lost (R69). -/
theorem cardLost_spec (h : p.ctb.TableLaw) (hs : (p.slot i).state ∈ SlotState.losable) (k : Option FaultKind) :
    p.Failed i (faultBits k) (p.Lost i (faultBits k)) (p.cardLost i k) := by
  have e : p.cardLost i k = p.failed i k fun p => p.darken i (some p.cfg.bus.boot) := by
    unfold Part.cardLost
    simp only [SlotState.losable, List.mem_cons, List.not_mem_nil, or_false] at hs
    rcases hs with e | e | e | e | e | e <;> rw [e]
  rw [e]
  refine failed_spec h k fun _ => ?_
  obtain ⟨h1, h2, h3⟩ := darken_spec (i := i) (p := p.setSlot i ((p.slot i).counted (faultBits k))) (some p.cfg.bus.boot)
  refine ⟨h1.of_setSlot, by simpa using h2, ?_⟩
  show p.ctb.Treated lossFate i (Part.ctb (Part.darken i (some p.cfg.bus.boot) _))
  rw [h3]
  exact Ctb.treated_treat Ctb.plain_lossFate Ctb.keepsRefused_lossFate h i

/-! ### Entries that call for a slot-engine frame -/

/-- Once a slot's slot-engine frame has ended, calling for one takes none out of the queue. -/
theorem Part.Entered.callEngine (h : p.Entered i st q) (f : Frame) :
    q.callEngine i f = (q.setSlot i { q.slot i with engine := some ⟨f, 0, .waiting⟩ }).arbitrate (segOf i) := by
  rw [callEngine_eq]
  congr 1
  have hq : (q.seg (segOf i)).queue.filter (fun f => !(decide (f.slot = i) && f.frame.isEngine)) = (q.seg (segOf i)).queue := by
    rw [h.queue, List.filter_filter]
    apply List.filter_congr
    intro f _
    cases hi : decide (f.slot = i) <;> cases he : f.frame.isEngine <;> simp [SlotState.ends, he]
  rw [hq]
  cases segOf i <;> rfl

/-- Entry to ALIGNING (R63). -/
theorem enterAligning_spec : ∃ q : Part, p.Entered i .aligning q ∧
    q.slot i = { (p.slot i).moved p.cfg.bus .aligning .fast with
      alignTimer := some p.cfg.bus.align
      engine := some ⟨.align (p.slot i).phase, 0, .waiting⟩ } ∧
    q.ctb = p.ctb ∧ p.enterAligning i = q.arbitrate (segOf i) := by
  have h := (entered_enter p i .aligning).updSlot fun x => { x with alignTimer := some p.cfg.bus.align }
  have hs : (p.enter i .aligning).slot i = (p.slot i).moved p.cfg.bus .aligning .fast := by
    rw [slot_enter, into_moved (by simp)]
    rfl
  refine ⟨_, h.updSlot fun x => { x with engine := some ⟨.align (p.slot i).phase, 0, .waiting⟩ }, ?_, by simp, ?_⟩
  · rw [slot_updSlot_self, slot_updSlot_self, hs]
  · have hc : (p.enter i .aligning).cfg = p.cfg := (entered_enter p i .aligning).cfg
    unfold Part.enterAligning Part.callAlign
    rw [hc, h.callEngine, hs]
    rfl

/-- A call for ALIGN: the align timer from full, the frame pending, an older one out of the queue (R63, R92). -/
theorem callAlign_eq : p.callAlign i = ((p.setSlot i { p.slot i with
    alignTimer := some p.cfg.bus.align
    engine := some ⟨.align (p.slot i).phase, 0, .waiting⟩ }).setSeg (segOf i) { p.seg (segOf i) with
      queue := (p.seg (segOf i)).queue.filter fun q => !(decide (q.slot = i) && q.frame.isEngine) }).arbitrate (segOf i) := by
  unfold Part.callAlign
  rw [callEngine_eq, updSlot_eq, slot_setSlot_self, setSlot_setSlot]
  simp only [seg_setSlot]

/-- A failed alignment below the attempt limit (R63). -/
theorem alignFailed_again (h : ((p.slot i).counted 4).attempts < p.cfg.bus.attemptLimit) :
    p.alignFailed i = ((p.setSlot i { (p.slot i).counted 4 with
      alignTimer := some p.cfg.bus.align
      engine := some ⟨.align (p.slot i).phase, 0, .waiting⟩ }).setSeg (segOf i) { p.seg (segOf i) with
        queue := (p.seg (segOf i)).queue.filter fun q => !(decide (q.slot = i) && q.frame.isEngine) }).arbitrate (segOf i) := by
  have e : faultBits (some .alignFailed) = 4 := rfl
  unfold Part.alignFailed
  rw [failed_eq, e, if_neg (Nat.not_le.2 h), callAlign_eq, slot_setSlot_self, setSlot_setSlot]
  simp only [seg_setSlot]
  rfl

/-- Entry to AUDITING (R64, R106). -/
theorem enterAuditing_spec : ∃ q : Part, p.Entered i .auditing q ∧
    q.slot i = { (p.slot i).moved p.cfg.bus .auditing .fast with
      audit := some .digesting
      engine := some ⟨.digest, 0, .waiting⟩ } ∧
    q.ctb = p.ctb ∧ p.enterAuditing i = q.arbitrate (segOf i) := by
  have h := (entered_enter p i .auditing).updSlot fun x => { x with audit := some .digesting }
  have hs : (p.enter i .auditing).slot i = (p.slot i).moved p.cfg.bus .auditing .fast := by
    rw [slot_enter, into_moved (by simp)]
    rfl
  refine ⟨_, h.updSlot fun x => { x with engine := some ⟨.digest, 0, .waiting⟩ }, ?_, by simp, ?_⟩
  · rw [slot_updSlot_self, slot_updSlot_self, hs]
  · unfold Part.enterAuditing
    rw [h.callEngine]
    rfl

/-- Entry to HELD with a CLEAR (R60, R66, R76). -/
theorem enterHeldClearing_spec : ∃ q : Part, p.Entered i .held q ∧
    q.slot i = { (p.slot i).moved p.cfg.bus .held .slow with engine := some ⟨.clear, 0, .waiting⟩ } ∧
    q.ctb = p.ctb ∧ p.enterHeldClearing i = q.arbitrate (segOf i) := by
  have h := entered_enter p i .held
  have hs : (p.enter i .held).slot i = (p.slot i).moved p.cfg.bus .held .slow := by
    rw [slot_enter, into_moved (by simp)]
    rfl
  refine ⟨_, h.updSlot fun x => { x with engine := some ⟨.clear, 0, .waiting⟩ }, ?_, by simp, ?_⟩
  · rw [slot_updSlot_self, hs]
  · unfold Part.enterHeldClearing
    rw [h.callEngine]
    rfl

/-- Entry to RELINKING, up to the test that may end it (R65). -/
theorem enterRelinking_spec (h : p.ctb.TableLaw) : ∃ q : Part, p.Entered i .relinking q ∧
    q.slot i = { (p.slot i).moved p.cfg.bus .relinking .fast with window := p.computeWindow i } ∧
    p.ctb.Treated (moveFate .suspended .pending) i q.ctb ∧ p.enterRelinking i = q.linkedTest i := by
  have he := (entered_enter p i .relinking).onCtb (Ctb.treat (moveFate .suspended .pending) i)
  have hs : ((p.enter i .relinking).onCtb (Ctb.treat (moveFate .suspended .pending) i)).slot i =
      (p.slot i).moved p.cfg.bus .relinking .fast := by
    rw [slot_onCtb, slot_enter, into_moved (by simp)]
    rfl
  have hw : ((p.enter i .relinking).treat (moveFate .suspended .pending) i).computeWindow i = p.computeWindow i := by
    unfold Part.computeWindow Part.treat
    rw [hs, he.cfg]
    simp only [Part.profile, he.cfg]
    rfl
  refine ⟨_, he.updSlot fun x => { x with window := p.computeWindow i }, ?_, ?_, ?_⟩
  · rw [slot_updSlot_self, hs]
  · rw [updSlot_ctb, onCtb_ctb, ctb_enter]
    exact Ctb.treated_treat (Ctb.plain_moveFate _ _) (Ctb.keepsRefused_moveFate _ (by decide)) h i
  · unfold Part.enterRelinking Part.rewindow
    rw [hw]
    rfl

/-! ### The test that ends relinking (R65) -/

theorem allLoaded_iff {t : Ctb} (h : Sparse.Rising t.recs) : t.allLoaded i = true ↔
    ¬∃ k r, t.get k = some r ∧ r.slot = i ∧ (r.state = .pending ∨ r.state = .loading) := by
  simp only [Ctb.allLoaded, Ctb.onSlot, List.all_eq_true, List.mem_filter, decide_eq_true_eq, Prod.forall, and_imp, not_exists,
    not_and, not_or]
  constructor
  · intro hh k r e hs
    exact hh k r (Sparse.mem_of_get _ _ _ e) hs
  · intro hh k r hm hs
    exact hh k r (Sparse.get_of_mem h hm) hs

theorem linkedTest_links (hs : (p.slot i).state = .relinking) (hl : p.ctb.allLoaded i = true) :
    p.Entered i .linked (p.linkedTest i) ∧ (p.linkedTest i).ctb = p.ctb ∧
      (p.linkedTest i).slot i = (p.slot i).linkedUp p.cfg.bus := by
  have e : p.linkedTest i = (p.enter i .linked).updSlot i fun x => { x with stableTimer := some Config.stableTime } := by
    rw [Part.linkedTest, if_pos ⟨hs, hl⟩]
  rw [e]
  refine ⟨(entered_enter p i .linked).updSlot _, by simp, ?_⟩
  rw [slot_updSlot_self, slot_enter]
  exact into_linked

theorem linkedTest_stays (h : ¬((p.slot i).state = .relinking ∧ p.ctb.allLoaded i = true)) : p.linkedTest i = p := by
  rw [Part.linkedTest, if_neg h]

@[simp] theorem linkedTest_ctb : (p.linkedTest i).ctb = p.ctb := by
  unfold Part.linkedTest
  split <;> simp

/-- The slot state after the test, of a slot just entered to RELINKING. -/
theorem linkedTest_state (hs : (p.slot i).state = .relinking) :
    ((p.linkedTest i).slot i).state = if p.ctb.allLoaded i then .linked else .relinking := by
  split
  · rename_i hl
    rw [(linkedTest_links hs hl).2.2]
    rfl
  · rename_i hl
    rw [linkedTest_stays fun h => hl h.2, hs]

/-! ### Identity (R62) -/

/-- A channel count lies above the slot's channel high mark when it lies above every channel of its records (R3). -/
theorem fitsChannels_iff {t : Ctb} (h : Sparse.Rising t.recs) {i : SlotId} {n : Nat} : t.fitsChannels i n = true ↔
    ∀ k r, t.get k = some r → r.slot = i → r.channel.val < n := by
  have key : (∀ k r, t.get k = some r → r.slot = i → r.channel.val < n) ↔ ∀ x ∈ (t.onSlot i).map fun e => e.2.channel.val, x < n := by
    simp only [Ctb.onSlot, List.mem_map, List.mem_filter, decide_eq_true_eq, forall_exists_index, and_imp, Prod.forall]
    constructor
    · rintro hh x k r hm hs rfl
      exact hh k r (Sparse.get_of_mem h hm) hs
    · intro hh k r e hs
      exact hh _ k r (Sparse.mem_of_get _ _ _ e) hs rfl
  rw [key]
  unfold Ctb.fitsChannels Ctb.highMark
  cases e : ((t.onSlot i).map fun e => e.2.channel.val).max? with
  | none => simp [List.max?_eq_none_iff.1 e]
  | some m =>
    rw [List.max?_eq_some_iff] at e
    simp only [decide_eq_true_eq]
    exact ⟨fun hm x hx => lt_of_le_of_lt (e.2 x hx) hm, fun hh => hh m e.1⟩

end Sys2Proof.Machine
end

