-- ==== Sys2Proof/Laws/Actions.lean ====
section
/-! SUPPORT. The slot actions: the course of a SLOT_ACTION, and what each action gives by the slot's state. -/

namespace Sys2Proof.Machine

/-- An action its slot accepts. -/
theorem action_ok {c : Instr} {l : Link} {s : State} {act : SlotId → Part → Except Status Part} {i : SlotId} {q : Part}
    {body : List Byte} (he : exec c s = .next (s.lift (Part.sent c (Part.actionRequest l act (byteOf i.val)))))
    (h : s.part.Heeds l) (hr : act i s.part = .ok q) (hb : body = [(q.slot i).state.code])
    (hc : (encodeRequest c).map Prod.fst = some l := by rfl) : Accepts c l s body q := by
  refine accepts_of_run he rfl h.hears (fun _ => h.2) ?_ hc
  rw [Part.slotAction, fin?_byteOf (by decide)]
  simp only [hr, hb]

/-- An action its slot refuses. -/
theorem action_error {c : Instr} {l : Link} {s : State} {act : SlotId → Part → Except Status Part} {i : SlotId}
    {st : Status} (he : exec c s = .next (s.lift (Part.sent c (Part.actionRequest l act (byteOf i.val)))))
    (h : s.part.Heeds l) (hr : act i s.part = .error st) (hc : (encodeRequest c).map Prod.fst = some l := by rfl) :
    Refuses c l s st := by
  refine refuses_of_run he rfl h.hears (fun _ => h.2) ?_ hc
  rw [Part.slotAction, fin?_byteOf (by decide)]
  simp only [hr]

theorem park_ok {p : Part} {i : SlotId} (h : (p.slot i).state ∈ [.off, .empty, .faulted]) :
    Part.park i p = .ok (p.setSlot i { p.slot i with parked := true }).follow := by
  unfold Part.park
  simp only [updSlot_eq]
  split <;> simp_all

theorem park_off {p : Part} {i : SlotId} (h : (p.slot i).state ∈ [.held, .mismatch]) :
    Part.park i p = .ok ((p.setSlot i { p.slot i with parked := true }).powerOff i .off none).follow := by
  unfold Part.park
  simp only [updSlot_eq]
  split <;> simp_all

theorem park_busy {p : Part} {i : SlotId} (h : (p.slot i).state ∈ [.dark, .aligning, .auditing, .relinking, .linked]) :
    Part.park i p = .error .slotBusy := by
  unfold Part.park
  simp only
  split <;> simp_all

theorem cyclePower_ok {p : Part} {i : SlotId} (h : (p.slot i).state ∈ [.dark, .aligning, .held, .mismatch, .linked]) :
    Part.cyclePower i p = .ok (p.cool i).follow := by
  unfold Part.cyclePower
  split <;> simp_all

theorem cyclePower_busy {p : Part} {i : SlotId} (h : (p.slot i).state ∉ [.dark, .aligning, .held, .mismatch, .linked]) :
    Part.cyclePower i p = .error .slotBusy := by
  unfold Part.cyclePower
  split <;> simp_all

theorem holdSlot_entry {p : Part} {i : SlotId} (h : (p.slot i).state ∈ [.relinking, .linked, .auditing]) :
    Part.holdSlot i p =
      .ok (((p.setSlot i { p.slot i with hold := true }).treat powerOffFate i).enterHeldClearing i).follow := by
  unfold Part.holdSlot
  simp only [updSlot_eq]
  split <;> simp_all

theorem holdSlot_flag {p : Part} {i : SlotId} (h : (p.slot i).state ∉ [.relinking, .linked, .auditing]) :
    Part.holdSlot i p = .ok (p.setSlot i { p.slot i with hold := true }) := by
  unfold Part.holdSlot
  simp only [updSlot_eq]
  split <;> simp_all

/-- The state a slot shows once what follows its entry is done. -/
theorem state_arb {q : Part} {i : SlotId} {y : Slot} (h : q.slot i = y) (g : SegId) :
    (((q.arbitrate g).follow).slot i).state = y.state := by rw [follow_state, arbitrate_state, h]

theorem computeWindow_congr {p q : Part} {i : SlotId} (hc : q.cfg = p.cfg) (h1 : (q.slot i).identity = (p.slot i).identity)
    (h2 : (q.slot i).cardSeen = (p.slot i).cardSeen) : q.computeWindow i = p.computeWindow i := by
  unfold Part.computeWindow Part.profile
  rw [hc, h1, h2]

end Sys2Proof.Machine
end

