-- ==== Sys2Proof/Laws/Step.lean ====
section
/-! SUPPORT. Every command is one change of the part: the change, command by command, and that `exec` is it. -/

namespace Sys2Proof.Machine

/-- What the end of a request's transfer does to the part; nothing for a command that is no request. -/
def Part.asked : Instr → Part → Part
  | .establish l body => Part.request l (lengthFits 0x10 body.length) true (Part.establish body)
  | .modify l body => Part.request l (lengthFits 0x11 body.length) true (Part.modify body)
  | .retire l w => Part.request l true true (Part.onNamed w Part.retire)
  | .revive l w => Part.request l true true (Part.onNamed w Part.revive)
  | .lookup l w => Part.request l true false (Part.onNamed w fun h r p => (p, okay (r.bytes h)))
  | .findChannel l slot channel => Part.request l true false (Part.findChannel slot channel)
  | .findTimeslot l highway timeslot => Part.request l true false (Part.findTimeslot highway timeslot)
  | .list l cls filter cursor => Part.request l true false (Part.listRecords cls filter cursor)
  | .park l slot => Part.actionRequest l Part.park slot
  | .unpark l slot => Part.actionRequest l Part.unpark slot
  | .hold l slot => Part.actionRequest l Part.holdSlot slot
  | .releaseHold l slot => Part.actionRequest l Part.releaseHold slot
  | .adopt l slot => Part.actionRequest l Part.adopt slot
  | .vacate l slot => Part.actionRequest l Part.vacate slot
  | .clearFault l slot => Part.actionRequest l Part.clearFault slot
  | .audit l slot => Part.actionRequest l Part.auditSlot slot
  | .powerCycle l slot => Part.actionRequest l Part.cyclePower slot
  | .slotSet l slot rank phase => Part.request l true true (Part.setSlotKeys slot rank phase)
  | .profileSet l f => Part.request l true true (Part.setProfile f)
  | .busSet l f => Part.request l true true (Part.setBus f)
  | .budgetSet l f => Part.request l true true (Part.setBudget f)
  | .supplySet l f => Part.request l true true (Part.setSupply f)
  | .status l => Part.request l true false fun p => (p, okay p.statusBody)
  | .notices l clear => Part.request l true false (Part.readNotices l clear)
  | .noticeMask l mask => Part.request l true false (Part.setMask l mask)
  | .captureQuery l => Part.request l true false fun p => (p, okay p.capture.body)
  | .captureClear l => Part.request l true true fun p => ({ p with capture := .empty }, okay [])
  | .claim l => Part.request l true false (Part.claim l)
  | .release l => Part.request l true false (Part.release l)
  | .takeover l => Part.request l true false (Part.takeover l)
  | .reset l => Part.resetRequest l
  | _ => id

/-- What a command does to the part: a request is a transfer, and what its end does. -/
def Part.effect : Instr → Part → Part
  | .coldStart => Part.coldStart
  | .resetN => Part.warmReset
  | .insertion i => Part.insert i
  | .removal i => Part.remove i
  | .statusRead x => x.held.elim (Part.transfer x.link [] (Part.ended x.link)) (Part.stayOpen x.link)
  | .responseRead l clocked => Part.sent (.responseRead l clocked) (Part.readResponse l clocked)
  | .requestDiscarded l kind bytes => Part.takeTransfer l kind bytes
  | .badFrame l kind bytes => Part.takeTransfer l kind bytes
  | .unknownRequest l code fields => Part.takeTransfer l kindRequest (code :: byteOf fields.length :: fields)
  | .supplySample code => Part.sample code.toNat
  | .signalLoss => Part.signalLoss
  | .settleTimerExpiry => Part.settleExpiry
  | .budgetTick => Part.budgetTick
  | .bringUpStallExpiry => fun p =>
    match p.fbu.bringUp with
    | .timing _ => (p.onFbu fun f => { f with bringUp := .stalled }).raise .budgetStall
    | .clear | .stalled => p
  | .loadStallExpiry => fun p =>
    match p.fbu.load with
    | .timing _ => (p.onFbu fun f => { f with load := .stalled }).raise .budgetStall
    | .clear | .stalled => p
  | .bringUpTrial => Part.trial
  | .selection => Part.selection
  | .bootTimerExpiry i => Part.bootExpiry i
  | .alignTimerExpiry i => Part.alignExpiry i
  | .offTimerExpiry i => Part.offExpiry i
  | .stableTimerExpiry i => Part.stableExpiry i
  | .pollTimerExpiry i => Part.pollExpiry i
  | .completionTimeout i index gen => Part.deadlineExpiry i ⟨index, gen⟩
  | .exchangeOpen g => Part.openExchange g
  | .replyWindowClose g => Part.windowClose g
  | .replyBreakOff g => Part.takeReply g none
  | .pollReply g w => Part.takeReply g (pollReplyOf w)
  | .accept g slot => Part.takeReply g (acceptReply slot)
  | .refuse g slot reason => Part.takeReply g (refuseReply slot reason)
  | .digestReply g slot count s1 s2 => Part.takeReply g (digestReplyOf slot count.toNat s1.toNat s2.toNat)
  | .malformedOrUnexpectedReply g bytes => Part.takeReply g (replyOfBytes bytes)
  | c => Part.sent c (Part.asked c)

theorem exec_eq (c : Instr) (s : State) : exec c s = .next (s.lift (Part.effect c)) := by
  cases c <;> rfl

/-- A request command is the transfer of its frame. -/
theorem effect_request {c : Instr} (h : (encodeRequest c).isSome = true) : Part.effect c = Part.sent c (Part.asked c) := by
  cases c <;> first | (simp only [encodeRequest, Option.isSome_none, Bool.false_eq_true] at h; done) | rfl

/-- A command's next state from its change of the part. -/
theorem exec_next {c : Instr} {s : State} {q : Part} (h : Part.effect c s.part = q) : exec c s = .next ⟨q, s.pending⟩ := by
  rw [exec_eq, State.lift, h]

/-- A command that changes nothing. -/
theorem exec_same {c : Instr} {s : State} (h : Part.effect c s.part = s.part) : exec c s = .next s := by
  rw [exec_eq, State.lift, h]

/-- A request carried out from a transfer is the request's own change. -/
theorem runRequest_eq {i : Instr} (h : (encodeRequest i).isSome = true) (p : Part) : Part.runRequest i p = Part.effect i p := by
  cases i <;> first | (simp only [encodeRequest, Option.isSome_none, Bool.false_eq_true] at h; done) | rfl

theorem step_cons {c : Instr} {cs : List Instr} {s : State} (h : s.pending = c :: cs) :
    step s = .next ⟨Part.effect c s.part, cs⟩ := by
  simp [step, h, exec_eq, State.lift]

/-- A law of the part that every command keeps is kept by every step. -/
theorem kept_by_step {Inv : Part → Prop} (h : ∀ c p, Inv p → Inv (Part.effect c p)) {s t : State}
    (hs : Inv s.part) (ht : step s = .next t) : Inv t.part := by
  cases e : s.pending with
  | nil =>
    have : t = s := by
      simp only [step, e, Host.Outcome.next.injEq] at ht
      exact ht.symm
    exact this ▸ hs
  | cons c cs =>
    rw [step_cons e, Host.Outcome.next.injEq] at ht
    exact ht ▸ h c _ hs

end Sys2Proof.Machine
end

