-- ==== Sys2Proof/Laws/Replies.lean ====
section
/-! SUPPORT. Replies and exchanges: the end of an exchange, missed replies, good and bad replies, and what a good poll reply
does to its slot. -/

namespace Sys2Proof.Machine

/-! ### Good poll replies -/

theorem takeGoodPoll_eq {p : Part} {i : SlotId} {f : PollFields} {n : Nat} {y : Slot}
    (hy : (p.slot i).enterReply f = y) : p.takeGoodPoll i f n =
      if f.fatal then (p.setSlot i y).fatalReply i else (p.setSlot i y).actOnReply i f n := by
  subst hy
  rfl

theorem enterReply_driven {x : Slot} (f : PollFields) (h : x.enable = true) (hd : x.state ≠ .dark) :
    x.enterReply f = { x with cardSeen := some ⟨f.card, f.depth⟩ } := by
  unfold Slot.enterReply
  rw [if_pos h, if_neg hd]

theorem enterReply_dark {x : Slot} (f : PollFields) (hd : x.state = .dark) :
    x.enterReply f = { x with cardSeen := some ⟨f.card, f.depth⟩, lastReply := some ⟨f.phase, f.bootCount⟩ } := by
  unfold Slot.enterReply
  rw [if_pos (by rw [Slot.enable, hd]; rfl), if_pos hd]

/-- The identity check, where the card is or becomes the identity. -/
theorem identityCheck_aligning {p : Part} {i : SlotId} {seen : CardSeen} (hs : (p.slot i).cardSeen = some seen)
    (h : (p.slot i).identity = some seen.card ∨
      (p.slot i).identity = none ∧ p.ctb.fitsChannels i (p.cfg.profiles[seen.card.type]).channels = true) :
    p.identityCheck i = (p.setSlot i { p.slot i with identity := some seen.card }).enterAligning i := by
  unfold Part.identityCheck
  rw [hs]
  rcases h with h | ⟨h, hf⟩
  · simp only [h, if_true]
    have : p.setSlot i { p.slot i with identity := some seen.card } = p := by rw [← h]; exact setSlot_slot
    rw [this]
  · simp only [h, hf, if_true]
    rfl

/-- The identity check, where the card is another or has too few channels. -/
theorem identityCheck_mismatch {p : Part} {i : SlotId} {seen : CardSeen} (hs : (p.slot i).cardSeen = some seen)
    (h : (∃ c, (p.slot i).identity = some c ∧ c ≠ seen.card) ∨
      (p.slot i).identity = none ∧ p.ctb.fitsChannels i (p.cfg.profiles[seen.card.type]).channels = false) :
    p.identityCheck i = p.enter i .mismatch := by
  unfold Part.identityCheck
  rw [hs]
  rcases h with ⟨c, h, hc⟩ | ⟨h, hf⟩
  · simp only [h, if_neg hc]
  · simp only [h, hf]
    rfl
/-- Records that change state alone leave the channel high mark. -/
theorem fitsChannels_move {t : Ctb} (h : t.TableLaw) {i : SlotId} (a : RecState) {b : RecState} (hb : b ≠ .refused) (n : Nat) :
    (t.treat (moveFate a b) i).fitsChannels i n = true ↔ ∀ k r, t.get k = some r → r.slot = i → r.channel.val < n := by
  have ht := Ctb.treated_treat (Ctb.plain_moveFate a b) (Ctb.keepsRefused_moveFate a hb) h i
  rw [fitsChannels_iff (h.treat (Ctb.keepsRefused_moveFate a hb) i).lists.recs]
  constructor
  · intro hh k r e hs
    obtain ⟨-, r', e', hk⟩ := ht.slot k r e hs
    have := hh k r' e' (by rw [hk.slot]; exact hs)
    rw [hk.channel] at this
    exact this
  · intro hh k r' e' hs
    cases e : t.get k with
    | none =>
      rw [(ht.others k fun r er => by rw [e] at er; cases er).none e] at e'
      cases e'
    | some r =>
      by_cases hr : r.slot = i
      · obtain ⟨-, r'', e'', hk⟩ := ht.slot k r e hr
        rw [e'] at e''
        cases e''
        rw [hk.channel]
        exact hh k r e hr
      · obtain ⟨r'', e'', hk⟩ := (ht.others k fun q eq => by rw [e] at eq; cases eq; exact hr).some e
        rw [e'] at e''
        cases e''
        rw [hk.slot] at hs
        exact absurd hs hr

/-! ### The end of an exchange -/

variable {p q : Part} {i : SlotId} {g : SegId} {e : Exchange} {r : SlotReply}

theorem idled_eq : (p.updSeg g fun x => { x with inProgress := none }).updSlot e.slot (Slot.markAlign e) = p.idled g e := by
  unfold Part.idled Part.updSeg
  rw [updSlot_eq, slot_setSeg]
  congr 1
  unfold Slot.markAlign
  cases e.frame <;> rfl

@[simp] theorem idled_ctb : (p.idled g e).ctb = p.ctb := by simp [Part.idled]
@[simp] theorem idled_cfg : (p.idled g e).cfg = p.cfg := by simp [Part.idled]
@[simp] theorem idled_spm : (p.idled g e).spm = p.spm := by simp [Part.idled]
@[simp] theorem idled_capture : (p.idled g e).capture = p.capture := by simp [Part.idled]
@[simp] theorem captured_ctb (f : Captured) : (p.captured f).ctb = p.ctb := by unfold Part.captured; split <;> rfl
@[simp] theorem captured_slot (f : Captured) (j : SlotId) : (p.captured f).slot j = p.slot j := by
  unfold Part.captured; split <;> rfl

theorem restartPoll_eq : q.restartPoll e = q.polled e := rfl

theorem withExchange_idle {handle : Exchange → Part → Part} (h : (p.seg g).inProgress = none) : p.withExchange g handle = p := by
  simp only [Part.withExchange, h]

theorem withExchange_orphan {handle : Exchange → Part → Part} (h : (p.seg g).inProgress = some e) (ho : e.orphan = true) :
    p.withExchange g handle = p.idled g e := by
  simp only [Part.withExchange, h, Part.endExchange, ho, if_true, idled_eq]

theorem withExchange_open {handle : Exchange → Part → Part} (h : (p.seg g).inProgress = some e) (ho : e.orphan = false) :
    p.withExchange g handle = ((handle e (p.idled g e)).polled e).follow := by
  simp only [Part.withExchange, h, Part.endExchange, ho, idled_eq]
  rfl

theorem offer_eq (f : Captured) : p.offer f = p.captured f := by
  unfold Part.offer Part.captured
  cases e : p.capture.fault with
  | none => rw [if_pos rfl]; rfl
  | some f => simp; rfl

theorem takeReply_bad {k : CaptureKind} (h : (p.seg g).inProgress = some e) (ho : e.orphan = false)
    (hj : judge e r = .error k) : p.takeReply g r =
      (((((p.idled g e).captured ⟨k, e.slot, none⟩).missedReply e)).polled e).follow := by
  unfold Part.takeReply
  rw [withExchange_open h ho, hj]
  simp only [Part.badReply, offer_eq]

theorem takeReply_good {x : Reply} (h : (p.seg g).inProgress = some e) (ho : e.orphan = false)
    (hj : judge e r = .ok x) : p.takeReply g r = (((p.idled g e).goodReply e x).polled e).follow := by
  unfold Part.takeReply
  rw [withExchange_open h ho, hj]

theorem polled_of_ne (h : e.frame ≠ .poll) : q.polled e = q := by
  unfold Part.polled
  cases hf : e.frame <;> simp_all

/-! ### Missed replies (R88, R92) -/

theorem countMiss_eq (hd : (p.slot i).state ≠ .dark) (hu : p.spm.state.up = true) :
    p.countMiss i =
      if p.cfg.bus.missedLimit ≤ min 7 ((p.slot i).missed + 1)
      then (p.setSlot i { p.slot i with missed := min 7 ((p.slot i).missed + 1) }).cardLost i (some .missedLimit)
      else p.setSlot i { p.slot i with missed := min 7 ((p.slot i).missed + 1) } := by
  unfold Part.countMiss Part.missCounts
  rw [if_pos (by simp [hd, hu])]
  simp only [slot_updSlot_self]
  rfl

theorem countMiss_none (h : (p.slot i).state = .dark ∨ p.spm.state.up = false) : p.countMiss i = p := by
  unfold Part.countMiss Part.missCounts
  rw [if_neg]
  rcases h with h | h <;> simp [h]

/-- A lost card has no slot-engine frame. -/
theorem engine_failed {k : BitVec 5} (h : p.Failed i k (p.Lost i k) q) : (q.slot i).engine = none := by
  rcases Nat.lt_or_ge ((p.slot i).counted k).attempts p.cfg.bus.attemptLimit with hl | hl
  · rw [(h.2 hl).2.1]; rfl
  · rw [(h.1 hl).2.1]; rfl

theorem retryEngine_none (h : (p.slot i).engine = none) : p.retryEngine i = p := by
  unfold Part.retryEngine
  rw [h]

theorem retryEngine_eq {x : Engine} (h : (p.slot i).engine = some x) (hx : x.place = .inExchange) : p.retryEngine i =
    if p.cfg.bus.missedLimit ≤ min 7 (x.tries + 1)
    then (p.setSlot i { p.slot i with engine := some { x with tries := min 7 (x.tries + 1), place := .waiting } }).cardLost i
      (some .missedLimit)
    else p.setSlot i { p.slot i with engine := some { x with tries := min 7 (x.tries + 1), place := .waiting } } := by
  unfold Part.retryEngine
  rw [h]
  simp only [hx, if_true]
  rfl

/-- A missed reply, as R88 and R92 have it. -/
theorem missedReply_spec (ht : p.ctb.TableLaw) : p.Missed e (p.missedReply e) := by
  have hm (hf : e.frame.isEngine = false) : p.missedReply e = p.countMiss e.slot := by
    unfold Part.missedReply
    simp [hf]
  have he (hf : e.frame.isEngine = true) : p.missedReply e = (p.countMiss e.slot).retryEngine e.slot := by
    unfold Part.missedReply
    simp [hf]
  constructor
  · intro h hf
    rw [hm hf, countMiss_none h]
  · intro hd hu hf hl
    rw [hm hf, countMiss_eq hd hu, if_neg (Nat.not_le.2 hl)]
  · intro hs hu hl
    have hd : (p.slot e.slot).state ≠ .dark := by
      intro h
      rw [h] at hs
      revert hs
      decide
    have hf := cardLost_spec (p := p.setSlot e.slot { p.slot e.slot with missed := min 7 ((p.slot e.slot).missed + 1) })
      (i := e.slot) ht (by rw [slot_setSlot_self]; exact hs) (some .missedLimit)
    refine ⟨_, rfl, ?_⟩
    cases hb : e.frame.isEngine with
    | false => rw [hm hb, countMiss_eq hd hu, if_pos hl]; exact hf
    | true =>
      rw [he hb, countMiss_eq hd hu, if_pos hl, retryEngine_none (engine_failed hf)]
      exact hf
  · intro x hx hp hf hd hu hl hl'
    rw [he hf, countMiss_eq hd hu, if_neg (Nat.not_le.2 hl), retryEngine_eq (x := x) (by rw [slot_setSlot_self]; exact hx) hp,
      setSlot_cfg, if_neg (Nat.not_le.2 hl'), slot_setSlot_self, setSlot_setSlot]
  · intro x hx hp hf hs hu hl hl'
    have hd : (p.slot e.slot).state ≠ .dark := by
      intro h
      rw [h] at hs
      revert hs
      decide
    refine ⟨_, rfl, ?_⟩
    rw [he hf, countMiss_eq hd hu, if_neg (Nat.not_le.2 hl), retryEngine_eq (x := x) (by rw [slot_setSlot_self]; exact hx) hp,
      setSlot_cfg, if_pos hl', slot_setSlot_self, setSlot_setSlot]
    exact cardLost_spec (p := p.setSlot e.slot { p.slot e.slot with
      missed := min 7 ((p.slot e.slot).missed + 1)
      engine := some { x with tries := min 7 (x.tries + 1), place := .waiting } }) ht
        (by rw [slot_setSlot_self]; exact hs) (some .missedLimit)

/-! ### Completions (R97 to R100) -/

/-- The completions of a reply, carried out one after the other, and whether a DROP among them FAILED (R97). -/
theorem completions_eq (i : SlotId) (cs : List (Handle × Result)) (p : Part) :
    (Part.completions i cs p).1 = cs.foldl (fun q c => q.completion i c) p ∧
    ((Part.completions i cs p).2 = true ↔ ∃ done c rest, cs = done ++ c :: rest ∧
      (done.foldl (fun q c => q.completion i c) p).failsDrop i c = true) := by
  induction cs generalizing p with
  | nil => simp [Part.completions]
  | cons c cs ih =>
    obtain ⟨h1, h2⟩ := ih (p.completion i c)
    refine ⟨h1, ?_⟩
    show (p.failsDrop i c || (Part.completions i cs (p.completion i c)).2) = true ↔ _
    rw [Bool.or_eq_true, h2]
    constructor
    · rintro (h | ⟨done, d, rest, rfl, h⟩)
      · exact ⟨[], c, cs, rfl, h⟩
      · exact ⟨c :: done, d, rest, rfl, h⟩
    · rintro ⟨done, d, rest, he, h⟩
      cases done with
      | nil =>
        simp only [List.nil_append, List.cons.injEq] at he
        obtain ⟨rfl, rfl⟩ := he
        exact .inl h
      | cons x done =>
        simp only [List.cons_append, List.cons.injEq] at he
        obtain ⟨rfl, rfl⟩ := he
        exact .inr ⟨done, d, rest, rfl, h⟩

/-- A record written in place. -/
theorem rewritten_put {t : Ctb} {k : Index} {r : Rec} : t.Rewritten k r (t.put k r) :=
  ⟨by simp, fun j hj => by simp [hj], fun j => by simp, fun c => by simp⟩

/-- A record that becomes FREE (R7, R12). -/
theorem freed_free {t : Ctb} (h : t.ListLaw) {k : Index} {r : Rec} (e : t.get k = some r) : t.Freed k (t.free k) where
  gone := by rw [Ctb.get_free t k k e]; simp
  gen j := by
    rw [Ctb.gen_free t k j e]
    split
    · rename_i h; rw [h]
    · rfl
  list c := h.list_free k c
  others j hj := by rw [Ctb.get_free t k j e, if_neg hj, e]; rfl

/-- An in-flight list replaced; the poll timer follows the interval (R93). -/
theorem setInflight_eq {p : Part} {i : SlotId} {l : List Txn} : p.setInflight i l = p.setSlot i { p.slot i with
    inflight := l
    pollTimer := p.cfg.bus.cut (p.slot i).pollClass { p.slot i with inflight := l }.pollClass (p.slot i).pollTimer } := by
  unfold Part.setInflight
  rw [updSlot_eq, recut_eq]

/-- The one sent entry of a handle is found, and the rest stay. -/
theorem find?_sent {a b : List Txn} {e : Txn} {h : Handle} (hh : e.handle = h) (hs : e.sent = true) (hn : ∀ y ∈ a ++ b, y.handle ≠ h) :
    (a ++ e :: b).find? (fun e => decide (e.handle = h) && e.sent) = some e ∧
      (a ++ e :: b).filter (fun e => !decide (e.handle = h)) = a ++ b := by
  constructor
  · rw [List.find?_append]
    have : a.find? (fun e => decide (e.handle = h) && e.sent) = none := by
      rw [List.find?_eq_none]
      intro y hy
      simp [hn y (List.mem_append_left _ hy)]
    rw [this]
    simp [hh, hs]
  · rw [List.filter_append, List.filter_cons_of_neg (by simp [hh])]
    congr 1 <;> rw [List.filter_eq_self] <;> intro y hy
    · simp [hn y (List.mem_append_left _ hy)]
    · simp [hn y (List.mem_append_right _ hy)]

end Sys2Proof.Machine
end

