-- ==== Sys2Proof/Laws/Budget.lean ====
section
/-! SUPPORT. The budget's figures and what is done for every slot: the head waiting slot, and a change of each slot in its turn. -/

namespace Sys2Proof.Machine

/-! ### The head waiting slot (R57, R153) -/

/-- What stands before an entry of a rising list lies below it. -/
theorem le_of_split {n : Nat} {as bs : List (Fin n)} {a x : Fin n} (h : List.finRange n = as ++ a :: bs) (hx : x ∉ as) : a ≤ x := by
  have hp : (as ++ a :: bs).Pairwise (· < ·) := h ▸ List.pairwise_lt_finRange n
  have hm : x ∈ as ++ a :: bs := h ▸ List.mem_finRange x
  rw [List.mem_append, List.mem_cons] at hm
  rcases hm with hm | rfl | hm
  · exact absurd hm hx
  · exact le_refl _
  · exact le_of_lt (List.rel_of_pairwise_cons (List.pairwise_append.1 hp).2.1 hm)

theorem headWaiting_none {p : Part} : p.headWaiting = none ↔ ∀ i, (p.slot i).waiting = false := by
  unfold Part.headWaiting
  simp only [List.findSome?_eq_none_iff, List.find?_eq_none, allSlots, List.mem_finRange, true_implies, Bool.and_eq_true, decide_eq_true_eq, not_and]
  constructor
  · intro h i
    have := h (p.slot i).rank i
    cases hw : (p.slot i).waiting
    · rfl
    · exact absurd rfl (this hw)
  · intro h r i hw
    rw [h i] at hw; cases hw

/-- The head waiting slot waits, and none that waits comes before it. -/
theorem of_headWaiting {p : Part} {i : SlotId} (h : p.headWaiting = some i) : (p.slot i).waiting = true ∧
    ∀ j, (p.slot j).waiting = true → (p.slot i).rank < (p.slot j).rank ∨ (p.slot i).rank = (p.slot j).rank ∧ i ≤ j := by
  unfold Part.headWaiting at h
  rw [List.findSome?_eq_some_iff] at h
  obtain ⟨rs, r, rs', hr, hf, hn⟩ := h
  rw [List.find?_eq_some_iff_append] at hf
  obtain ⟨hi, as, bs, ha, hb⟩ := hf
  simp only [Bool.and_eq_true, decide_eq_true_eq] at hi
  refine ⟨hi.1, fun j hj => ?_⟩
  have h1 : (p.slot j).rank ∉ rs := by
    intro hm
    have := hn _ hm
    rw [List.find?_eq_none] at this
    simpa [hj] using this j (List.mem_finRange j)
  have h2 := le_of_split hr h1
  rw [hi.2]
  rcases lt_or_eq_of_le h2 with h3 | h3
  · exact .inl h3
  · refine .inr ⟨h3, le_of_split ha fun hm => ?_⟩
    have := hb j hm
    simp [hj, ← h3] at this

/-- The head waiting slot is the first of those that wait, by rank and then by number. -/
theorem mem_headWaiting {p : Part} {i : SlotId} : p.headWaiting = some i ↔ (p.slot i).waiting = true ∧
    ∀ j, (p.slot j).waiting = true → (p.slot i).rank < (p.slot j).rank ∨ (p.slot i).rank = (p.slot j).rank ∧ i ≤ j := by
  refine ⟨of_headWaiting, fun h => ?_⟩
  cases e : p.headWaiting with
  | none => rw [headWaiting_none.1 e i] at h; cases h.1
  | some j =>
    have hj := of_headWaiting e
    have h1 := h.2 j hj.1
    have h2 := hj.2 i h.1
    congr 1
    rcases h1 with h1 | h1 <;> rcases h2 with h2 | h2
    · exact absurd (lt_trans h1 h2) (lt_irrefl _)
    · rw [h2.1] at h1; exact absurd h1 (lt_irrefl _)
    · rw [h1.1] at h2; exact absurd h2 (lt_irrefl _)
    · exact le_antisymm h2.2 h1.2

theorem waiting_iff {x : Slot} : x.waiting = true ↔ x.state = .off ∧ x.parked = false ∧ x.offTimer = none := by
  simp [Slot.waiting, Bool.and_eq_true, and_assoc]

theorem up_iff {s : Supply} : s.up = true ↔ s = .normal ∨ s = .recovery := by cases s <;> simp [Supply.up]

/-! ### Every slot in its turn -/

/-- A change of each slot that looks at that slot alone, and at nothing that slots hold, is made of all slots at once. -/
theorem eachSlot_eq {f : SlotId → Part → Part} {y : SlotId → Slot → Slot}
    {p : Part} (hf : ∀ i (q : Part), { q with slots := p.slots } = p → f i q = q.setSlot i (y i (q.slot i))) :
    p.eachSlot f = { p with slots := Vector.ofFn fun i => y i (p.slot i) } := by
  have key : ∀ (xs : List SlotId) (q : Part), { q with slots := p.slots } = p → xs.Nodup →
      (xs.foldl (fun p i => f i p) q) = { q with slots := Vector.ofFn fun i => if i ∈ xs then y i (q.slot i) else q.slot i } := by
    intro xs
    induction xs with
    | nil =>
      intro q _ _
      have : q.slots = Vector.ofFn fun i => q.slot i := by
        apply Vector.ext; intro i hi; simp [Part.slot]
      simp [← this]
    | cons k xs ih =>
      intro q hq hn
      obtain ⟨hk, hn⟩ := List.nodup_cons.1 hn
      rw [List.foldl_cons, hf k q hq, ih (q.setSlot k _) hq hn]
      have : (Vector.ofFn fun i => if i ∈ xs then y i ((q.setSlot k (y k (q.slot k))).slot i) else (q.setSlot k (y k (q.slot k))).slot i) =
          Vector.ofFn fun i => if i ∈ k :: xs then y i (q.slot i) else q.slot i := by
        congr 1
        funext i
        by_cases hi : k = i
        · subst hi
          simp [hk]
        · simp [slot_setSlot, hi, Ne.symm hi]
      rw [this]
      rfl
  have := key allSlots p rfl (List.nodup_finRange 24)
  unfold Part.eachSlot
  rw [this]
  simp [allSlots]

/-! ### Rounding -/

/-- A rounded quotient is nearest, and on a tie even (00_scope.md, Rounding). -/
theorem roundEven_spec (n : Int) (k : Nat) : 2 * (roundEven n k * 2 ^ k - n).natAbs ≤ 2 ^ k ∧
    (2 * (roundEven n k * 2 ^ k - n).natAbs = 2 ^ k → roundEven n k % 2 = 0) := by
  have hm : (0 : Int) < 2 ^ k := by positivity
  have hc : ((2 ^ k : Nat) : Int) = (2 : Int) ^ k := by push_cast; rfl
  have hn : (2 : Nat) ^ k = ((2 : Int) ^ k).natAbs := by rw [← hc]; rfl
  rw [hn]
  unfold roundEven
  simp only [hc]
  generalize (2 : Int) ^ k = m at hm
  have h1 := Int.mul_ediv_add_emod n m
  have h2 := Int.emod_nonneg n (ne_of_gt hm)
  have h3 := Int.emod_lt_of_pos n hm
  have e : ∀ q : Int, q = n / m → q * m = n - n % m := fun q hq => by rw [hq, mul_comm]; omega
  have e1 : ∀ q : Int, q = n / m → (q + 1) * m = n - n % m + m := fun q hq => by rw [add_mul, e q hq]; omega
  split
  · rw [e _ rfl]; constructor <;> omega
  · split
    · rw [e1 _ rfl]; constructor <;> omega
    · split
      · rw [e _ rfl]; constructor <;> omega
      · rw [e1 _ rfl]; constructor <;> omega

/-- Two nearest quotients that are even on a tie are one. -/
theorem nearest_unique {n d q m : Int} (hm : 0 < m) (h : 2 * (d * m - n).natAbs ≤ m.natAbs)
    (ht : 2 * (d * m - n).natAbs = m.natAbs → d % 2 = 0) (g : 2 * (q * m - n).natAbs ≤ m.natAbs)
    (gt : 2 * (q * m - n).natAbs = m.natAbs → q % 2 = 0) : q = d := by
  have hd : d = q ∨ d = q + 1 ∨ q = d + 1 := by
    by_contra hne
    rcases lt_or_ge d q with hl | hl
    · have h2 : d + 2 ≤ q := by omega
      have h3 := mul_le_mul_of_nonneg_right h2 (le_of_lt hm)
      rw [add_mul] at h3
      omega
    · have h2 : q + 2 ≤ d := by omega
      have h3 := mul_le_mul_of_nonneg_right h2 (le_of_lt hm)
      rw [add_mul] at h3
      omega
  rcases hd with rfl | rfl | rfl
  · rfl
  · rw [add_mul] at h ht
    have h1 : 2 * (q * m + 1 * m - n).natAbs = m.natAbs := by omega
    have h2 : 2 * (q * m - n).natAbs = m.natAbs := by omega
    have := ht h1; have := gt h2
    omega
  · rw [add_mul] at g gt
    have h1 : 2 * (d * m + 1 * m - n).natAbs = m.natAbs := by omega
    have h2 : 2 * (d * m - n).natAbs = m.natAbs := by omega
    have := gt h1; have := ht h2
    omega

/-- The nearest quotient, even on a tie, is the rounded one. -/
theorem roundEven_unique {n d : Int} {k : Nat} (h : 2 * (d * 2 ^ k - n).natAbs ≤ 2 ^ k)
    (ht : 2 * (d * 2 ^ k - n).natAbs = 2 ^ k → d % 2 = 0) : roundEven n k = d := by
  obtain ⟨g, gt⟩ := roundEven_spec n k
  have hn : (2 : Nat) ^ k = ((2 : Int) ^ k).natAbs := by
    have hc : ((2 ^ k : Nat) : Int) = (2 : Int) ^ k := by push_cast; rfl
    rw [← hc]; rfl
  exact nearest_unique (by positivity) (hn ▸ h) (hn ▸ ht) (hn ▸ g) (hn ▸ gt)

end Sys2Proof.Machine
end

