-- ==== Sys2Proof/Laws/EachSlot.lean ====
section
/-! SUPPORT. What is done for every slot in its turn with the records of some: the slots, the table and the rest after it. -/

namespace Sys2Proof.Machine

variable {p q : Part} {i : SlotId} {F : Fate}

/-- One slot's turn: the slot becomes `y`, its records are treated where `on` says, and slots, records and fields else stand. -/
structure Part.Turn (F : Fate) (on : Prop) (y : Slot) (i : SlotId) (p q : Part) : Prop where
  slot : q.slot i = y
  slots : ∀ j, j ≠ i → q.slot j = p.slot j
  treated : on → p.ctb.Treated F i q.ctb
  kept : ¬on → q.ctb = p.ctb
  law : p.ctb.TableLaw → q.ctb.TableLaw
  cfg : q.cfg = p.cfg
  capture : q.capture = p.capture
  spm : q.spm = p.spm
  fbu : q.fbu = p.fbu
  running : q.running = p.running
  owner : q.owner = p.owner
  fillers : q.fillers = p.fillers

/-- An entry with a treatment is a turn. -/
theorem Part.Entered.turn {st : SlotState} {y : Slot} {on : Prop} (h : p.Entered i st q) (hy : q.slot i = y)
    (ht : on → p.ctb.Treated F i q.ctb) (hk : ¬on → q.ctb = p.ctb) (hl : p.ctb.TableLaw → q.ctb.TableLaw) :
    p.Turn F on y i q :=
  ⟨hy, h.slots, ht, hk, hl, h.cfg, h.capture, h.spm, h.fbu, h.running, h.owner, h.fillers⟩

/-- The turns of some slots, each once. -/
structure Part.Turns (F : Fate) (on : SlotId → Prop) (y : SlotId → Slot) (xs : List SlotId) (p q : Part) : Prop where
  slot : ∀ i ∈ xs, q.slot i = y i
  slots : ∀ i, i ∉ xs → q.slot i = p.slot i
  treated : ∀ k r, p.ctb.get k = some r → r.slot ∈ xs → on r.slot → p.ctb.TreatedAt F q.ctb k r
  kept : ∀ k, (∀ r, p.ctb.get k = some r → ¬(r.slot ∈ xs ∧ on r.slot)) → p.ctb.KeptAt q.ctb k
  links : p.ctb.LinksKept q.ctb
  lists : ∀ c, q.ctb.list c = (p.ctb.list c).filter fun k => (q.ctb.get k).isSome
  law : q.ctb.TableLaw
  cfg : q.cfg = p.cfg
  capture : q.capture = p.capture
  spm : q.spm = p.spm
  fbu : q.fbu = p.fbu
  running : q.running = p.running
  owner : q.owner = p.owner
  fillers : q.fillers = p.fillers

theorem Part.Turns.refl (h : p.ctb.TableLaw) (on : SlotId → Prop) (y : SlotId → Slot) : p.Turns F on y [] p where
  slot _ h := absurd h List.not_mem_nil
  slots _ _ := rfl
  treated _ _ _ h := absurd h List.not_mem_nil
  kept k _ := .refl _ k
  links := .refl h.partners
  lists c := (h.lists.filter_get c fun _ h => h).symm
  law := h
  cfg := rfl
  capture := rfl
  spm := rfl
  fbu := rfl
  running := rfl
  owner := rfl
  fillers := rfl

/-- One more turn. -/
theorem Part.Turns.snoc (hF : Ctb.PlainFate F) {on : SlotId → Prop} {y : SlotId → Slot} {xs : List SlotId} {q' : Part}
    (h : p.Turns F on y xs q) (hi : i ∉ xs) (t : q.Turn F (on i) (y i) i q') :
    p.Turns F on y (xs ++ [i]) q' := by
  have key : ∀ k, (∀ r, q.ctb.get k = some r → ¬(r.slot = i ∧ on i)) → q.ctb.KeptAt q'.ctb k := by
    intro k hk
    by_cases ho : on i
    · exact (t.treated ho).others k fun r e hs => hk r e ⟨hs, ho⟩
    · rw [t.kept ho]
      exact .refl _ k
  constructor
  · intro j hj
    rw [List.mem_append, List.mem_singleton] at hj
    by_cases e : j = i
    · rw [e, t.slot]
    · rw [t.slots j e, h.slot j (hj.resolve_right e)]
  · intro j hj
    rw [List.mem_append, List.mem_singleton, not_or] at hj
    rw [t.slots j hj.2, h.slots j hj.1]
  · intro k r e hr ho
    rw [List.mem_append, List.mem_singleton] at hr
    by_cases hx : r.slot ∈ xs
    · refine (h.treated k r e hx ho).trans (key k fun r' e' hs => ?_)
      have ht := h.treated k r e hx ho
      unfold Ctb.TreatedAt at ht
      split at ht
      · rw [ht.1] at e'; cases e'
      · obtain ⟨-, r'', e'', hk⟩ := ht
        rw [e'] at e''
        cases e''
        have : r.slot = i := by rw [← hs.1]; exact hk.slot.symm
        exact hi (this ▸ hx)
    · have hs : r.slot = i := hr.resolve_left hx
      have hk := h.kept k fun r' e' hh => by
        rw [e] at e'
        cases e'
        exact hx hh.1
      obtain ⟨r', e', hr'⟩ := hk.some e
      exact hk.treatedAt hF hr' ((t.treated (hs ▸ ho)).slot k r' e' (by rw [hr'.slot, hs]))
  · intro k hk
    have h1 := h.kept k fun r e hh => hk r e ⟨List.mem_append_left _ hh.1, hh.2⟩
    refine h1.trans (key k fun r' e' hs => ?_)
    cases e : p.ctb.get k with
    | none => rw [h1.none e] at e'; cases e'
    | some r =>
      obtain ⟨r'', e'', hr⟩ := h1.some e
      rw [e'] at e''
      cases e''
      have hs' : r.slot = i := by rw [← hs.1, hr.slot]
      exact hk r e ⟨by simp [hs'], hs' ▸ hs.2⟩
  · by_cases ho : on i
    · exact h.links.trans (t.treated ho).links (t.treated ho).shrinks
    · rw [t.kept ho]
      exact h.links
  · intro c
    have h2 : q'.ctb.list c = (q.ctb.list c).filter fun k => (q'.ctb.get k).isSome := by
      by_cases ho : on i
      · exact (t.treated ho).lists c
      · rw [t.kept ho]
        exact (h.law.lists.filter_get c fun _ h => h).symm
    rw [h2, h.lists, List.filter_filter]
    apply List.filter_congr
    intro k _
    cases e : q.ctb.get k with
    | some r => simp
    | none =>
      have := (key k fun r e' => by rw [e] at e'; cases e').none e
      simp [this]
  · exact t.law h.law
  · rw [t.cfg, h.cfg]
  · rw [t.capture, h.capture]
  · rw [t.spm, h.spm]
  · rw [t.fbu, h.fbu]
  · rw [t.running, h.running]
  · rw [t.owner, h.owner]
  · rw [t.fillers, h.fillers]

theorem Part.Turns.shrinks {on : SlotId → Prop} {y : SlotId → Slot} {xs : List SlotId} (h : p.Turns F on y xs q) :
    p.ctb.Shrinks q.ctb := by
  refine Ctb.shrinks_of_each fun k => ?_
  by_cases hk : ∃ r, p.ctb.get k = some r ∧ r.slot ∈ xs ∧ on r.slot
  · obtain ⟨r, er, hx, ho⟩ := hk
    exact .inr ⟨F, r, er, h.treated k r er hx ho⟩
  · exact .inl (h.kept k fun r er hh => hk ⟨r, er, hh⟩)

/-- Every slot has its turn. -/
theorem turns_eachSlot (hF : Ctb.PlainFate F) (h : p.ctb.TableLaw) {on : SlotId → Prop} {y : SlotId → Slot}
    {f : SlotId → Part → Part}
    (hf : ∀ i (q : Part), q.slot i = p.slot i → q.cfg = p.cfg → q.spm = p.spm → q.ctb.TableLaw → q.Turn F (on i) (y i) i (f i q)) :
    p.Turns F on y allSlots (p.eachSlot f) := by
  unfold Part.eachSlot
  have go : ∀ (ys xs : List SlotId) (q : Part), (xs ++ ys).Nodup → p.Turns F on y xs q →
      p.Turns F on y (xs ++ ys) (ys.foldl (fun p i => f i p) q) := by
    intro ys
    induction ys with
    | nil => intro xs q _ h; simpa using h
    | cons i ys ih =>
      intro xs q hn hq
      have hi : i ∉ xs := by
        rw [List.nodup_append] at hn
        intro hx
        exact hn.2.2 i hx i List.mem_cons_self rfl
      have := ih (xs ++ [i]) (f i q) (by simpa using hn)
        (hq.snoc hF hi (hf i q (hq.slots i hi) hq.cfg hq.spm hq.law))
      simpa using this
  simpa using go allSlots [] p (by simpa [allSlots] using List.nodup_finRange 24) (.refl h on y)

/-! ### The segments and links after every slot's turn -/

variable {st : SlotState} {g : SegId} {x : Segment}

theorem stripped_stripped (a b : SlotId → Bool) :
    (x.stripped a st).stripped b st = x.stripped (fun i => a i || b i) st := by
  unfold Segment.stripped
  congr 1
  · simp only [List.filter_filter]
    congr 1
    funext f
    cases a f.slot <;> cases b f.slot <;> cases st.ends f.frame <;> rfl
  · cases x.inProgress with
    | none => rfl
    | some e => cases ha : a e.slot <;> cases hb : b e.slot <;> cases he : st.ends e.frame <;> simp [ha, hb, he]

theorem stripped_none {a : SlotId → Bool} (h : ∀ i, a i = false) : x.stripped a st = x := by
  unfold Segment.stripped
  cases x with
  | mk queue inProgress => cases inProgress <;> simp [h]

/-- An entry strips the slot's segment of the slot's frames, and no other. -/
theorem Part.Entered.stripped (h : p.Entered i st q) (g : SegId) :
    q.seg g = (p.seg g).stripped (fun j => decide (segOf j = g) && decide (j = i)) st := by
  by_cases hg : g = segOf i
  · subst hg
    have hf : ∀ j, (decide (segOf j = segOf i) && decide (j = i)) = decide (j = i) := fun j => by
      by_cases hj : j = i <;> simp [hj]
    have h1 := h.queue
    have h2 := h.exchange
    have e := h.pointers .engine
    have d := h.pointers .drop
    have o := h.pointers .poll
    have h4 := h.sent
    revert h1 h2 e d o h4
    cases q.seg (segOf i)
    cases p.seg (segOf i)
    simp only [Segment.ptr, Segment.stripped, hf]
    rintro rfl rfl rfl rfl rfl ⟨rfl, rfl⟩
    simp [Bool.and_eq_true]
  · rw [h.segment g hg, stripped_none]
    intro j
    by_cases hj : j = i
    · subst hj
      simp [Ne.symm hg]
    · simp [hj]

/-- Where every slot's turn is an entry to a state that is not reported, or leaves segments and links, the segments lose the
frames the entries end, and the links stand. -/
theorem stripped_eachSlot {on : SlotId → Bool} {f : SlotId → Part → Part}
    (hst : ¬(st = .linked ∨ st = .faulted ∨ st = .mismatch ∨ st = .empty))
    (hf : ∀ i (q : Part), q.slot i = p.slot i → (on i = true ∧ q.Entered i st (f i q)) ∨
      (on i = false ∧ (∀ j, j ≠ i → (f i q).slot j = q.slot j) ∧ (∀ g, (f i q).seg g = q.seg g) ∧
        ∀ l, (f i q).link l = q.link l)) :
    (∀ g, (p.eachSlot f).seg g = (p.seg g).stripped (fun i => decide (segOf i = g) && on i) st) ∧
      ∀ l, (p.eachSlot f).link l = p.link l := by
  unfold Part.eachSlot
  have go : ∀ (xs : List SlotId) (q : Part), xs.Nodup → (∀ i ∈ xs, q.slot i = p.slot i) →
      (∀ g, (xs.foldl (fun p i => f i p) q).seg g =
        (q.seg g).stripped (fun i => decide (segOf i = g) && (decide (i ∈ xs) && on i)) st) ∧
      ∀ l, (xs.foldl (fun p i => f i p) q).link l = q.link l := by
    intro xs
    induction xs with
    | nil => exact fun q _ _ => ⟨fun g => (stripped_none fun i => by simp).symm, fun l => rfl⟩
    | cons i xs ih =>
      intro q hn hq
      obtain ⟨hi, hn⟩ := List.nodup_cons.1 hn
      have hne : ∀ j ∈ xs, j ≠ i := fun j hj e => hi (e ▸ hj)
      rcases hf i q (hq i List.mem_cons_self) with ⟨ho, he⟩ | ⟨ho, hs, hg, hl⟩
      · obtain ⟨a, b⟩ := ih (f i q) hn fun j hj => by rw [he.slots j (hne j hj), hq j (List.mem_cons_of_mem _ hj)]
        refine ⟨fun g => ?_, fun l => by rw [List.foldl_cons, b, he.links, if_neg hst]⟩
        rw [List.foldl_cons, a, he.stripped, stripped_stripped]
        congr 1
        funext j
        by_cases hj : j = i
        · simp [hj, ho, hi]
        · simp [hj]
      · obtain ⟨a, b⟩ := ih (f i q) hn fun j hj => by rw [hs j (hne j hj), hq j (List.mem_cons_of_mem _ hj)]
        refine ⟨fun g => ?_, fun l => by rw [List.foldl_cons, b, hl]⟩
        rw [List.foldl_cons, a, hg]
        congr 1
        funext j
        by_cases hj : j = i
        · simp [hj, ho]
        · simp [hj]
  obtain ⟨a, b⟩ := go allSlots p (by simpa [allSlots] using List.nodup_finRange 24) fun _ _ => rfl
  refine ⟨fun g => ?_, b⟩
  rw [a]
  congr 1
  funext i
  simp [allSlots]

theorem mem_allSlots (i : SlotId) : i ∈ allSlots := List.mem_finRange i

end Sys2Proof.Machine
end

