-- ==== Sys2Proof/Laws/Frames.lean ====
section
/-! SUPPORT. The request codes and frames of R201: which codes name requests, and that decoding undoes encoding. -/

namespace Sys2Proof

/-- The codes that name requests (R201). -/
def requestCodes : List Byte :=
  [0x10, 0x11, 0x12, 0x13, 0x20, 0x21, 0x22, 0x23, 0x30, 0x31, 0x32, 0x33, 0x40, 0x41, 0x50, 0x51, 0x52, 0x53, 0x54, 0x60,
    0x61, 0x62, 0x6F]

theorem mem_requestCodes : ∀ code : Byte, (legalLength code).isSome = true → code ∈ requestCodes := by decide

theorem code_of_lengthFits {code : Byte} {n : Nat} (h : lengthFits code n = true) : code ∈ requestCodes := by
  refine mem_requestCodes code ?_
  unfold lengthFits at h
  split at h
  · rename_i e
    simp [e]
  · simp at h

theorem toNat_word16 (x y : Byte) : (word16 x y).toNat = x.toNat * 256 + y.toNat := by
  unfold word16
  rw [BitVec.toNat_append, ← Nat.shiftLeft_add_eq_or_of_lt y.isLt, Nat.shiftLeft_eq]

theorem toNat_hi8 (w : BitVec 16) : (hi8 w).toNat = w.toNat / 256 := by
  have := w.isLt
  simp only [hi8, BitVec.extractLsb'_toNat, Nat.shiftRight_eq_div_pow]
  omega

theorem toNat_lo8 (w : BitVec 16) : (lo8 w).toNat = w.toNat % 256 := by
  simp [lo8, BitVec.extractLsb'_toNat]

theorem word16_split (w : BitVec 16) : word16 (hi8 w) (lo8 w) = w := by
  apply BitVec.eq_of_toNat_eq
  rw [toNat_word16, toNat_hi8, toNat_lo8]
  omega

theorem wireHandle_split (w : WireHandle) : wireHandle (hi8 w.index) (lo8 w.index) w.gen = w := by
  simp [wireHandle, word16_split]

/-- Decoding undoes encoding, for a request whose fields have a length its code can have. -/
theorem decodeRequest_encodeRequest {i : Instr} {l : Link} {code : Byte} {fields : List Byte} (hw : i.wellFormed = true)
    (h : encodeRequest i = some (l, code, fields)) :
    lengthFits code fields.length = true ∧ fields.length ≤ 255 ∧ decodeRequest l code fields = some i := by
  cases i <;> simp only [encodeRequest, Option.some.injEq, Prod.mk.injEq, reduceCtorEq] at h <;>
    (obtain ⟨rfl, rfl, rfl⟩ := h)
  all_goals first
    | exact ⟨rfl, Nat.le_of_ble_eq_true rfl, rfl⟩
    | (refine ⟨rfl, Nat.le_of_ble_eq_true rfl, ?_⟩
       simp only [decodeRequest, decodeThree, decodeTwo, WireHandle.bytes]
       simp [lengthFits, legalLength, requestTable, List.lookup, wireHandle_split, word16_split])
    | (refine ⟨hw, ?_, ?_⟩
       · simp [Instr.wellFormed, lengthFits, legalLength, requestTable, List.lookup] at hw
         omega
       · simp only [Instr.wellFormed] at hw
         simp [decodeRequest]
         exact hw)

/-- A SLOT_ACTION names one of nine actions; the bytes of any other action spell no request. -/
theorem slotAction_none {l : Link} {slot action : Byte} (h : action.toNat ∉ [1, 2, 3, 4, 5, 6, 7, 8, 9]) :
    decodeRequest l 0x30 [slot, action] = none := by
  have hne : ∀ n : Nat, n ∈ [1, 2, 3, 4, 5, 6, 7, 8, 9] → (action == BitVec.ofNat 8 n) = false := by
    intro n hn
    rw [beq_eq_false_iff_ne]
    rintro rfl
    apply h
    have : (BitVec.ofNat 8 n).toNat = n := by
      rw [BitVec.toNat_ofNat]; apply Nat.mod_eq_of_lt
      simp at hn; omega
    rw [this]; exact hn
  have e : decodeRequest l 0x30 [slot, action] = slotAction l slot action := rfl
  rw [e]
  unfold slotAction
  simp only [List.lookup]
  have h1 := hne 1 (by decide); have h2 := hne 2 (by decide); have h3 := hne 3 (by decide)
  have h4 := hne 4 (by decide); have h5 := hne 5 (by decide); have h6 := hne 6 (by decide)
  have h7 := hne 7 (by decide); have h8 := hne 8 (by decide); have h9 := hne 9 (by decide)
  simp only [BitVec.ofNat_eq_ofNat] at *
  simp only [h1, h2, h3, h4, h5, h6, h7, h8, h9]

end Sys2Proof
end

