-- ==== Sys2Proof/Laws/Layouts.lean ====
section
/-! SUPPORT. The readers of R200 and R202: each reads back what it is written as, and takes nothing else. -/

namespace Sys2Proof.Machine

/-- A number below 256 stands in one byte. -/
theorem byte_len {n : Nat} (h : n ≤ 255) : (byteOf n).toNat = n := by
  simp only [byteOf, BitVec.toNat_ofNat]; exact Nat.mod_eq_of_lt (by omega)

/-- A handle read from its bytes. -/
theorem readHandle_bytes (h : Handle) (bs : List Byte) : readHandle (h.bytes ++ bs) = some (h, bs) := by
  have hw := handleOf_wire h
  have e1 : wireHandle (byteOf (h.index.val / 256)) (byteOf h.index.val) (byteOf h.gen.val) = h.wire := by
    unfold wireHandle Handle.wire
    congr 1
    apply BitVec.eq_of_toNat_eq
    rw [toNat_word16]
    have := h.index.isLt
    simp only [byteOf, BitVec.toNat_ofNat]
    omega
  rw [handle_bytes]
  show (handleOf (wireHandle _ _ _)).map _ = _
  rw [e1, hw]
  rfl

/-- A leg read from its bytes. -/
theorem readLeg_bytes (g : Leg) (bs : List Byte) : readLeg (g.bytes ++ bs) = some (g, bs) := by
  unfold Leg.bytes
  rw [bytesOf_two]
  show readLeg (byteOf g.highway.val :: g.dir.code :: byteOf (g.timeslot.val / 256) :: byteOf g.timeslot.val :: bs) = _
  unfold readLeg
  simp only
  rw [fin?_byteOf (by decide)]
  have hd : dirOf g.dir.code = some g.dir := by cases g.dir <;> rfl
  have ht : fin? 512 (word16 (byteOf (g.timeslot.val / 256)) (byteOf g.timeslot.val)).toNat = some g.timeslot := by
    have : (word16 (byteOf (g.timeslot.val / 256)) (byteOf g.timeslot.val)).toNat = g.timeslot.val := by
      rw [toNat_word16]
      have := g.timeslot.isLt
      simp only [byteOf, BitVec.toNat_ofNat]
      omega
    rw [this]; simp [fin?]
  simp only [hd, ht]

/-- Legs read from their bytes. -/
theorem readLegs_bytes (gs : List Leg) (bs : List Byte) : readLegs gs.length (legBytes gs ++ bs) = some (gs, bs) := by
  induction gs with
  | nil => rfl
  | cons g gs ih =>
    unfold legBytes at *
    rw [List.flatMap_cons, List.append_assoc, List.length_cons, readLegs, readLeg_bytes]
    simp only [ih]
    rfl

/-- A leg list read from its count and its bytes. -/
theorem readLegList_bytes (gs : List Leg) (bs : List Byte) (h : 1 ≤ gs.length ∧ gs.length ≤ 4) :
    readLegList (byteOf gs.length :: (legBytes gs ++ bs)) = some (gs, bs) := by
  unfold readLegList
  simp only
  rw [byte_len (by omega), if_pos h, readLegs_bytes]

/-- A tag read from its bytes. -/
theorem readTag_bytes (t : BitVec 32) (bs : List Byte) : readTag (tagBytes t ++ bs) = some (t, bs) := by
  unfold tagBytes
  show some (_, bs) = _
  congr 2
  apply BitVec.eq_of_getLsbD_eq
  intro i hi
  simp only [BitVec.getLsbD_append, BitVec.getLsbD_extractLsb']
  by_cases h1 : i < 8
  · simp [h1]
  · by_cases h2 : i < 16
    · have : i - 8 < 8 := by omega
      simp [h1, this, show 8 + (i - 8) = i by omega]
    · by_cases h3 : i < 24
      · have a : ¬ i - 8 < 8 := by omega
        have b : i - 8 - 8 < 8 := by omega
        simp [h1, a, b, show 16 + (i - 8 - 8) = i by omega]
      · have a : ¬ i - 8 < 8 := by omega
        have b : ¬ i - 8 - 8 < 8 := by omega
        have c : i - 8 - 8 - 8 < 8 := by omega
        simp [h1, a, b, c, show 24 + (i - 8 - 8 - 8) = i by omega]

theorem legBytes_length (gs : List Leg) : (legBytes gs).length = 4 * gs.length := by
  induction gs with
  | nil => rfl
  | cons g gs ih =>
    unfold legBytes at *
    rw [List.flatMap_cons, List.length_append, ih]
    simp [Leg.bytes, bytesOf]
    omega

theorem clsOf_code (c : Cls) : clsOf c.code = some c := by cases c <;> rfl

theorem cost_byte (c : Fin 256) : (byteOf c.val).toFin = c := by
  apply Fin.ext
  show (byteOf c.val).toNat = c.val
  exact byte_len (by omega)

/-! ### What a reader took -/

/-- A handle that was read stands in front as its bytes. -/
theorem bytes_of_readHandle {bs rest : List Byte} {h : Handle} (e : readHandle bs = some (h, rest)) : bs = h.bytes ++ rest := by
  unfold readHandle at e
  split at e
  · rename_i b2 b1 b0 bs
    obtain ⟨x, hx, hy⟩ := Option.map_eq_some_iff.1 e
    cases hy
    unfold handleOf at hx
    split at hx
    · rename_i k g hk hg
      cases hx
      rw [handle_bytes]
      unfold fin? at hk hg
      split at hk
      · split at hg
        · cases hk
          cases hg
          have h1 := toNat_word16 b2 b1
          have a1 := b1.isLt
          have a2 := b2.isLt
          simp only [List.cons_append, List.nil_append, List.cons.injEq, and_true]
          refine ⟨?_, ?_, ?_⟩
          · apply BitVec.eq_of_toNat_eq
            simp only [byteOf, BitVec.toNat_ofNat, wireHandle, h1]
            omega
          · apply BitVec.eq_of_toNat_eq
            simp only [byteOf, BitVec.toNat_ofNat, wireHandle, h1]
            omega
          · apply BitVec.eq_of_toNat_eq
            simp only [byteOf, BitVec.toNat_ofNat, wireHandle]
            have := b0.isLt
            omega
        · cases hg
      · cases hk
    · cases hx
  · cases e

theorem code_of_clsOf {b : Byte} {c : Cls} (h : clsOf b = some c) : b = c.code := by
  revert h; revert c; revert b; decide

theorem code_of_dirOf {b : Byte} {d : Dir} (h : dirOf b = some d) : b = d.code := by
  revert h; revert d; revert b; decide

theorem byteOf_of_fin? {n : Nat} {b : Byte} {i : Fin n} (h : fin? n b.toNat = some i) : b = byteOf i.val := by
  unfold fin? at h
  split at h
  · cases h
    apply BitVec.eq_of_toNat_eq
    simp only [byteOf, BitVec.toNat_ofNat]
    have := b.isLt
    omega
  · cases h

/-- A leg that was read stands in front as its bytes. -/
theorem bytes_of_readLeg {bs rest : List Byte} {g : Leg} (e : readLeg bs = some (g, rest)) : bs = g.bytes ++ rest := by
  unfold readLeg at e
  split at e
  · rename_i hw d t1 t0 bs
    split at e
    · rename_i x y z h1 h2 h3
      cases e
      unfold Leg.bytes
      rw [bytesOf_two, ← byteOf_of_fin? h1, ← code_of_dirOf h2]
      unfold fin? at h3
      split at h3
      · cases h3
        have h4 := toNat_word16 t1 t0
        have a1 := t1.isLt
        have a2 := t0.isLt
        simp only [List.cons_append, List.nil_append, List.cons.injEq, and_true, true_and]
        constructor
        · apply BitVec.eq_of_toNat_eq
          simp only [byteOf, BitVec.toNat_ofNat, h4]
          omega
        · apply BitVec.eq_of_toNat_eq
          simp only [byteOf, BitVec.toNat_ofNat, h4]
          omega
      · cases h3
    · cases e
  · cases e

/-- Legs that were read stand in front as their bytes. -/
theorem bytes_of_readLegs {n : Nat} {bs rest : List Byte} {gs : List Leg} (e : readLegs n bs = some (gs, rest)) :
    gs.length = n ∧ bs = legBytes gs ++ rest := by
  induction n generalizing bs gs with
  | zero => cases e; exact ⟨rfl, rfl⟩
  | succ n ih =>
    rw [readLegs] at e
    split at e
    · cases e
    · rename_i g bs' h
      obtain ⟨⟨gs', r'⟩, h1, h2⟩ := Option.map_eq_some_iff.1 e
      cases h2
      obtain ⟨h3, h4⟩ := ih h1
      refine ⟨by rw [List.length_cons, h3], ?_⟩
      rw [bytes_of_readLeg h, h4]
      simp [legBytes, List.flatMap_cons]

/-- A leg list that was read stands in front as its count and its bytes. -/
theorem bytes_of_readLegList {bs rest : List Byte} {gs : List Leg} (e : readLegList bs = some (gs, rest)) :
    (1 ≤ gs.length ∧ gs.length ≤ 4) ∧ bs = byteOf gs.length :: (legBytes gs ++ rest) := by
  unfold readLegList at e
  split at e
  · cases e
  · rename_i n bs
    split at e
    · rename_i h
      obtain ⟨h1, h2⟩ := bytes_of_readLegs e
      refine ⟨by omega, ?_⟩
      rw [h2, h1]
      congr 1
      apply BitVec.eq_of_toNat_eq
      simp only [byteOf, BitVec.toNat_ofNat]
      omega
    · cases e

/-- A tag that was read stands in front as its bytes. -/
theorem bytes_of_readTag {bs rest : List Byte} {t : BitVec 32} (e : readTag bs = some (t, rest)) : bs = tagBytes t ++ rest := by
  unfold readTag at e
  split at e
  · rename_i b3 b2 b1 b0 bs
    cases e
    unfold tagBytes
    simp only [List.cons_append, List.nil_append, List.cons.injEq, and_true]
    have a0 := b0.isLt; have a1 := b1.isLt; have a2 := b2.isLt; have a3 := b3.isLt
    have hn : (b3 ++ b2 ++ b1 ++ b0).toNat = ((b3.toNat * 256 + b2.toNat) * 256 + b1.toNat) * 256 + b0.toNat := by
      simp only [BitVec.toNat_append]
      rw [← Nat.shiftLeft_add_eq_or_of_lt (by omega), ← Nat.shiftLeft_add_eq_or_of_lt (by omega), ← Nat.shiftLeft_add_eq_or_of_lt (by omega)]
      simp only [Nat.shiftLeft_eq]
    refine ⟨?_, ?_, ?_, ?_⟩ <;>
      (apply BitVec.eq_of_toNat_eq
       simp only [BitVec.extractLsb'_toNat, Nat.shiftRight_eq_div_pow, hn]
       omega)
  · cases e

end Sys2Proof.Machine
end

