-- ==== Sys2Proof/Laws/PerInstr.lean ====
section
/-! SUPPORT. One law per command: a well-formed command that is a request fits the lengths of its code, and its frame
reads back as the command (R200, R201). Of a command that is no request the law says nothing. -/

namespace Sys2Proof.Laws.RequestFrames

/-- The law: the frame of a well-formed request has a length its code can have, and reads back as the request. -/
def Statement (i : Instr) : Prop :=
  ∀ (l : Link) (code : Byte) (fields : List Byte), i.wellFormed = true → encodeRequest i = some (l, code, fields) →
    lengthFits code fields.length = true ∧ fields.length ≤ 255 ∧ decodeRequest l code fields = some i

theorem of_frames (i : Instr) : Statement i := fun _ _ _ hw h => decodeRequest_encodeRequest hw h

theorem coldStart : Statement (.coldStart) :=
  of_frames _

theorem resetN : Statement (.resetN) :=
  of_frames _

theorem insertion (slot : SlotId) : Statement (.insertion slot) :=
  of_frames _

theorem removal (slot : SlotId) : Statement (.removal slot) :=
  of_frames _

theorem statusRead (select : Select) : Statement (.statusRead select) :=
  of_frames _

theorem responseRead (link : Link) (clocked : Nat) : Statement (.responseRead link clocked) :=
  of_frames _

theorem requestDiscarded (link : Link) (kind : Byte) (bytes : List Byte) : Statement (.requestDiscarded link kind bytes) :=
  of_frames _

theorem badFrame (link : Link) (kind : Byte) (bytes : List Byte) : Statement (.badFrame link kind bytes) :=
  of_frames _

theorem unknownRequest (link : Link) (code : Byte) (fields : List Byte) : Statement (.unknownRequest link code fields) :=
  of_frames _

theorem establish (link : Link) (body : List Byte) : Statement (.establish link body) :=
  of_frames _

theorem modify (link : Link) (body : List Byte) : Statement (.modify link body) :=
  of_frames _

theorem retire (link : Link) (handle : WireHandle) : Statement (.retire link handle) :=
  of_frames _

theorem revive (link : Link) (handle : WireHandle) : Statement (.revive link handle) :=
  of_frames _

theorem lookup (link : Link) (handle : WireHandle) : Statement (.lookup link handle) :=
  of_frames _

theorem findChannel (link : Link) (slot channel : Byte) : Statement (.findChannel link slot channel) :=
  of_frames _

theorem findTimeslot (link : Link) (highway : Byte) (timeslot : BitVec 16) : Statement (.findTimeslot link highway timeslot) :=
  of_frames _

theorem list (link : Link) (cls filter : Byte) (cursor : WireHandle) : Statement (.list link cls filter cursor) :=
  of_frames _

theorem park (link : Link) (slot : Byte) : Statement (.park link slot) :=
  of_frames _

theorem unpark (link : Link) (slot : Byte) : Statement (.unpark link slot) :=
  of_frames _

theorem hold (link : Link) (slot : Byte) : Statement (.hold link slot) :=
  of_frames _

theorem releaseHold (link : Link) (slot : Byte) : Statement (.releaseHold link slot) :=
  of_frames _

theorem adopt (link : Link) (slot : Byte) : Statement (.adopt link slot) :=
  of_frames _

theorem vacate (link : Link) (slot : Byte) : Statement (.vacate link slot) :=
  of_frames _

theorem clearFault (link : Link) (slot : Byte) : Statement (.clearFault link slot) :=
  of_frames _

theorem audit (link : Link) (slot : Byte) : Statement (.audit link slot) :=
  of_frames _

theorem powerCycle (link : Link) (slot : Byte) : Statement (.powerCycle link slot) :=
  of_frames _

theorem slotSet (link : Link) (slot rank phase : Byte) : Statement (.slotSet link slot rank phase) :=
  of_frames _

theorem profileSet (link : Link) (fields : WireProfile) : Statement (.profileSet link fields) :=
  of_frames _

theorem busSet (link : Link) (fields : WireBus) : Statement (.busSet link fields) :=
  of_frames _

theorem budgetSet (link : Link) (fields : WireBudget) : Statement (.budgetSet link fields) :=
  of_frames _

theorem supplySet (link : Link) (fields : WireSupply) : Statement (.supplySet link fields) :=
  of_frames _

theorem status (link : Link) : Statement (.status link) :=
  of_frames _

theorem notices (link : Link) (clear : BitVec 16) : Statement (.notices link clear) :=
  of_frames _

theorem noticeMask (link : Link) (mask : BitVec 16) : Statement (.noticeMask link mask) :=
  of_frames _

theorem captureQuery (link : Link) : Statement (.captureQuery link) :=
  of_frames _

theorem captureClear (link : Link) : Statement (.captureClear link) :=
  of_frames _

theorem claim (link : Link) : Statement (.claim link) :=
  of_frames _

theorem release (link : Link) : Statement (.release link) :=
  of_frames _

theorem takeover (link : Link) : Statement (.takeover link) :=
  of_frames _

theorem reset (link : Link) : Statement (.reset link) :=
  of_frames _

theorem supplySample (code : BitVec 10) : Statement (.supplySample code) :=
  of_frames _

theorem signalLoss : Statement (.signalLoss) :=
  of_frames _

theorem settleTimerExpiry : Statement (.settleTimerExpiry) :=
  of_frames _

theorem budgetTick : Statement (.budgetTick) :=
  of_frames _

theorem bringUpStallExpiry : Statement (.bringUpStallExpiry) :=
  of_frames _

theorem loadStallExpiry : Statement (.loadStallExpiry) :=
  of_frames _

theorem bringUpTrial : Statement (.bringUpTrial) :=
  of_frames _

theorem selection : Statement (.selection) :=
  of_frames _

theorem bootTimerExpiry (slot : SlotId) : Statement (.bootTimerExpiry slot) :=
  of_frames _

theorem alignTimerExpiry (slot : SlotId) : Statement (.alignTimerExpiry slot) :=
  of_frames _

theorem offTimerExpiry (slot : SlotId) : Statement (.offTimerExpiry slot) :=
  of_frames _

theorem stableTimerExpiry (slot : SlotId) : Statement (.stableTimerExpiry slot) :=
  of_frames _

theorem pollTimerExpiry (slot : SlotId) : Statement (.pollTimerExpiry slot) :=
  of_frames _

theorem completionTimeout (slot : SlotId) (index : Index) (gen : Gen) : Statement (.completionTimeout slot index gen) :=
  of_frames _

theorem exchangeOpen (seg : SegId) : Statement (.exchangeOpen seg) :=
  of_frames _

theorem replyWindowClose (seg : SegId) : Statement (.replyWindowClose seg) :=
  of_frames _

theorem replyBreakOff (seg : SegId) : Statement (.replyBreakOff seg) :=
  of_frames _

theorem pollReply (seg : SegId) (reply : WirePoll) : Statement (.pollReply seg reply) :=
  of_frames _

theorem accept (seg : SegId) (slot : Byte) : Statement (.accept seg slot) :=
  of_frames _

theorem refuse (seg : SegId) (slot reason : Byte) : Statement (.refuse seg slot reason) :=
  of_frames _

theorem digestReply (seg : SegId) (slot : Byte) (count : BitVec 16) (s1 : BitVec 24) (s2 : BitVec 32) : Statement (.digestReply seg slot count s1 s2) :=
  of_frames _

theorem malformedOrUnexpectedReply (seg : SegId) (bytes : List Byte) : Statement (.malformedOrUnexpectedReply seg bytes) :=
  of_frames _

end Sys2Proof.Laws.RequestFrames
end

