-- ==== Sys2Proof/Laws/Selection.lean ====
section
/-! SUPPORT. The walk of a selection: which record it ends at. -/

namespace Sys2Proof.Machine

/-- A record the walk looks at. -/
def Part.Pending (p : Part) (k : Index) (r : Rec) : Prop := p.ctb.get k = some r ∧ r.state = .pending

/-- No PENDING record of the slot among these fails its slot tests. -/
def Part.OpenSlot (p : Part) (xs : List Index) (i : SlotId) : Prop := ∀ j x, j ∈ xs → p.Pending j x → x.slot = i → p.slotTests x = true

/-- The record passes its slot tests and stands behind no failed one of its slot (R166). -/
def Part.Passes (p : Part) (pre : List Index) (k : Index) (r : Rec) : Prop :=
  p.Pending k r ∧ p.slotTests r = true ∧ p.OpenSlot pre r.slot

/-- How a walk ends, told of the list it walks and of what it has already walked (R166, R172). -/
theorem walk_spec (p : Part) : ∀ (ks pre : List Index) (blocked : List SlotId),
    (∀ i, i ∈ blocked ↔ ¬p.OpenSlot pre i) → (∀ a j b x, pre = a ++ j :: b → ¬p.Passes a j x) →
    (∃ mid k post r, ks = mid ++ k :: post ∧ p.Passes (pre ++ mid) k r ∧ (∀ a j b x, pre ++ mid = a ++ j :: b → ¬p.Passes a j x) ∧
      p.walkFrom blocked ks = if p.loadTest r then .issue k else .budget) ∨
    ((∀ a j b x, pre ++ ks = a ++ j :: b → ¬p.Passes a j x) ∧ p.walkFrom blocked ks = .quiet) := by
  intro ks
  induction ks with
  | nil => intro pre blocked _ h; exact .inr ⟨by simpa using h, rfl⟩
  | cons k ks ih =>
    intro pre blocked hb hp
    have step : ∀ blocked', (∀ i, i ∈ blocked' ↔ ¬p.OpenSlot (pre ++ [k]) i) → (∀ x, ¬p.Passes pre k x) →
        p.walkFrom blocked (k :: ks) = p.walkFrom blocked' ks → 
        (∃ mid k' post r, k :: ks = mid ++ k' :: post ∧ p.Passes (pre ++ mid) k' r ∧ (∀ a j b x, pre ++ mid = a ++ j :: b → ¬p.Passes a j x) ∧
          p.walkFrom blocked (k :: ks) = if p.loadTest r then .issue k' else .budget) ∨
        ((∀ a j b x, pre ++ k :: ks = a ++ j :: b → ¬p.Passes a j x) ∧ p.walkFrom blocked (k :: ks) = .quiet) := by
      intro blocked' hb' hk he
      have hpre : ∀ a j b x, pre ++ [k] = a ++ j :: b → ¬p.Passes a j x := by
        intro a j b x e
        rcases List.eq_nil_or_concat b with rfl | ⟨b', y, rfl⟩
        · obtain ⟨rfl, e2⟩ := List.append_inj' e rfl
          cases e2
          exact hk x
        · have : pre ++ [k] = (a ++ j :: b') ++ [y] := by simpa using e
          obtain ⟨e1, e2⟩ := List.append_inj' this rfl
          exact hp a j b' x e1
      rcases ih (pre ++ [k]) blocked' hb' hpre with ⟨mid, k', post, r, e, h1, h2, h3⟩ | ⟨h1, h2⟩
      · exact .inl ⟨k :: mid, k', post, r, by simp [e], by simpa using h1, by simpa using h2, he.trans h3⟩
      · exact .inr ⟨by simpa using h1, he.trans h2⟩
    have same : (∀ x, ¬p.Pending k x ∨ x.slot ∈ blocked) → ∀ i, i ∈ blocked ↔ ¬p.OpenSlot (pre ++ [k]) i := by
      intro hx i
      rw [hb, not_iff_not]
      constructor
      · intro ho j x hj hp' hs
        rw [List.mem_append, List.mem_singleton] at hj
        rcases hj with hj | rfl
        · exact ho j x hj hp' hs
        · rcases hx x with h | h
          · exact absurd hp' h
          · rw [hs] at h
            exact absurd ho ((hb i).1 h)
      · intro ho j x hj
        exact ho j x (List.mem_append_left _ hj)
    cases e : p.ctb.get k with
    | none =>
      have hn : ∀ x, ¬p.Pending k x := fun x h => by rw [h.1] at e; cases e
      refine step blocked (same fun x => .inl (hn x)) (fun x h => hn x h.1) ?_
      rw [Part.walkFrom, e]
    | some r =>
      have hr : ∀ x, p.Pending k x → x = r := fun x h => by have := h.1; rw [e] at this; cases this; rfl
      by_cases h1 : r.state ≠ .pending ∨ r.slot ∈ blocked
      · refine step blocked (same fun x => ?_) (fun x h => ?_) ?_
        · by_cases hx : p.Pending k x
          · cases hr x hx
            exact h1.imp (fun h => absurd hx.2 h) id
          · exact .inl hx
        · cases hr x h.1
          rcases h1 with h1 | h1
          · exact h1 h.1.2
          · exact (hb _).1 h1 h.2.2
        · rw [Part.walkFrom, e]
          simp only
          rw [if_pos h1]
      · have h2 : r.state = .pending := by by_contra h; exact h1 (.inl h)
        have h3 : r.slot ∉ blocked := fun h => h1 (.inr h)
        have ho : p.OpenSlot pre r.slot := by by_contra h; exact h3 ((hb _).2 h)
        by_cases h4 : p.slotTests r = true
        · refine .inl ⟨[], k, ks, r, rfl, by simpa using ⟨⟨e, h2⟩, h4, ho⟩, by simpa using hp, ?_⟩
          rw [Part.walkFrom, e]
          simp only
          rw [if_neg h1, if_pos h4]
        · refine step (r.slot :: blocked) (fun i => ?_) (fun x h => ?_) ?_
          · rw [List.mem_cons, hb]
            constructor
            · rintro (rfl | h) ho'
              · exact h4 (ho' k r (by simp) ⟨e, h2⟩ rfl)
              · exact h fun j x hj => ho' j x (List.mem_append_left _ hj)
            · intro h
              by_contra hc
              rw [not_or, not_not] at hc
              refine h fun j x hj hp' hs => ?_
              rw [List.mem_append, List.mem_singleton] at hj
              rcases hj with hj | rfl
              · exact hc.2 j x hj hp' hs
              · cases hr x hp'
                exact absurd hs.symm hc.1
          · cases hr x h.1
            exact h4 h.2.1
          · rw [Part.walkFrom, e]
            simp only
            rw [if_neg h1, if_neg h4]

/-- A selection ends at the first record that passes, or at none (R165, R166, R172). -/
theorem select_spec (p : Part) :
    (∃ pre k post r, p.ctb.walk = pre ++ k :: post ∧ p.Passes pre k r ∧ (∀ a j b x, pre = a ++ j :: b → ¬p.Passes a j x) ∧
      p.select = if p.loadTest r then .issue k else .budget) ∨
    ((∀ a j b x, p.ctb.walk = a ++ j :: b → ¬p.Passes a j x) ∧ p.select = .quiet) := by
  have := walk_spec p p.ctb.walk [] [] (fun i => by simp [Part.OpenSlot]) (by simp)
  simp only [List.nil_append] at this
  exact this

/-- The first record that passes is one. -/
theorem first_unique {p : Part} {pre pre' post post' : List Index} {k k' : Index} {r r' : Rec}
    (e : pre ++ k :: post = pre' ++ k' :: post') (h : p.Passes pre k r) (h' : p.Passes pre' k' r')
    (f : ∀ a j b x, pre = a ++ j :: b → ¬p.Passes a j x) (f' : ∀ a j b x, pre' = a ++ j :: b → ¬p.Passes a j x) : k = k' ∧ r = r' := by
  have hk : k = k' := by
    rw [List.append_eq_append_iff] at e
    rcases e with ⟨c, e1, e2⟩ | ⟨c, e1, e2⟩
    · cases c with
      | nil => simp at e2; exact e2.1
      | cons y c => simp at e2; obtain ⟨rfl, -⟩ := e2; exact absurd h (f' _ _ _ _ e1)
    · cases c with
      | nil => simp at e2; exact e2.1.symm
      | cons y c => simp at e2; obtain ⟨rfl, -⟩ := e2; exact absurd h' (f _ _ _ _ e1)
  subst hk
  have h1 := h.1.1
  rw [h'.1.1] at h1
  cases h1
  exact ⟨rfl, rfl⟩

end Sys2Proof.Machine
end

