-- ==== Sys2Proof/Laws/TableCheck.lean ====
section
/-! SUPPORT. A check of the table's laws that evaluates: what it passes keeps them. -/

namespace Sys2Proof.Machine

/-- The flag law of one record, evaluated. -/
def Rec.flagCheck (r : Rec) : Bool :=
  (decide (r.state = .loading) || (!r.reload && !r.retire)) && (decide (r.state = .refused) == r.reason.isSome)

/-- Two records hold no channel and no sending timeslot in common, evaluated. -/
def Rec.apart (r q : Rec) : Bool :=
  !decide (r.slot = q.slot ∧ r.channel = q.channel) &&
    r.legs.all fun g => !(g.sends && q.holdsTimeslot g.highway g.timeslot)

/-- The partner law of one record, evaluated. -/
def Ctb.partnerFits (t : Ctb) (k : Index) (r : Rec) : Bool :=
  match r.partner with
  | none => true
  | some h =>
    match t.named h with
    | none => false
    | some q => decide (q.partner = some (t.handle k)) && decide (q.slot ≠ r.slot)

/-- The laws of the table, evaluated. -/
def Ctb.lawful (t : Ctb) : Bool :=
  decide (Sparse.Rising t.recs) && decide (Sparse.Rising t.gens) && (t.gens.all fun e => decide (e.2 ≠ 0)) &&
    ([Cls.c0, .c1, .c2, .c3].all fun c =>
      decide (t.list c).Nodup && (t.list c).all fun k => decide ((t.get k).map Rec.cls = some c)) &&
    (t.recs.all fun e =>
      decide (e.1 ∈ t.list e.2.cls) && e.2.flagCheck && decide (1 ≤ e.2.legs.length) && decide (e.2.legs.length ≤ 4) &&
        !legConflict e.2.legs && t.partnerFits e.1 e.2) &&
    t.recs.all fun e => t.recs.all fun x => decide (e.1 = x.1) || e.2.apart x.2

theorem Rec.flagLaw_of_check {r : Rec} (h : r.flagCheck = true) : r.FlagLaw := by
  simp only [flagCheck, Bool.and_eq_true, Bool.or_eq_true, decide_eq_true_eq, Bool.not_eq_true', beq_iff_eq] at h
  refine ⟨fun hn => h.1.resolve_left hn, ?_⟩
  rw [← h.2, decide_eq_true_iff]

theorem Rec.not_holds_of_apart {r q : Rec} (h : r.apart q = true) {hw : Fin 4} {ts : Fin 512}
    (hr : r.holdsTimeslot hw ts = true) : q.holdsTimeslot hw ts = false := by
  simp only [apart, Bool.and_eq_true, List.all_eq_true] at h
  simp only [holdsTimeslot, List.any_eq_true, Bool.and_eq_true, decide_eq_true_eq] at hr
  obtain ⟨g, hg, ⟨h1, h2⟩, hs⟩ := hr
  have := h.2 g hg
  rw [h1, h2, hs] at this
  simpa using this

theorem Ctb.tableLaw_of_lawful {t : Ctb} (h : t.lawful = true) : t.TableLaw := by
  simp only [lawful, Bool.and_eq_true, decide_eq_true_eq, List.all_eq_true] at h
  obtain ⟨⟨⟨⟨⟨hr, hg⟩, hz⟩, hl⟩, hs⟩, hp⟩ := h
  have hmem : ∀ c, (t.list c).Nodup ∧ ∀ k ∈ t.list c, (t.get k).map Rec.cls = some c := fun c =>
    hl c (by cases c <;> decide)
  have hrec : ∀ k r, t.get k = some r → _ := fun k r e => hs (k, r) (Sparse.mem_of_get _ _ _ e)
  have hpair : ∀ j k r q, t.get j = some r → t.get k = some q → j ≠ k → r.apart q = true := by
    intro j k r q e1 e2 hn
    have := hp (j, r) (Sparse.mem_of_get _ _ _ e1) (k, q) (Sparse.mem_of_get _ _ _ e2)
    simpa [hn] using this
  refine ⟨⟨hr, hg, hz, fun c => (hmem c).1, fun c k => ⟨fun hk => ?_, ?_⟩⟩, fun k r e => ?_, ⟨?_, ?_, ?_⟩, ?_⟩
  · obtain ⟨r, e, hc⟩ := Option.map_eq_some_iff.1 ((hmem c).2 k hk)
    exact ⟨r, e, hc⟩
  · rintro ⟨r, e, rfl⟩
    exact (hrec k r e).1.1.1.1.1
  · exact Rec.flagLaw_of_check (hrec k r e).1.1.1.1.2
  · intro j k r q e1 e2 h1 h2
    by_contra hn
    have := hpair j k r q e1 e2 hn
    simp [Rec.apart, h1, h2] at this
  · intro j k r q hw ts e1 e2 h1 h2
    by_contra hn
    rw [Rec.not_holds_of_apart (hpair j k r q e1 e2 hn) h1] at h2
    cases h2
  · intro k r e
    have := hrec k r e
    exact ⟨this.1.1.1.2, this.1.1.2, by simpa using this.1.2⟩
  · intro k r x e hx
    have := (hrec k r e).2
    simp only [partnerFits, hx] at this
    cases en : t.named x with
    | none => simp [en] at this
    | some q =>
      simp only [en, Bool.and_eq_true, decide_eq_true_eq] at this
      exact ⟨q, rfl, this⟩

end Sys2Proof.Machine
end

