-- ==== Sys2Proof/Laws/Transfers.lean ====
section
/-! SUPPORT. The transfers of the links: encoding undoes decoding, every command of a link is a transfer of its own bytes, and
what such a transfer can do. -/

namespace Sys2Proof

theorem hi8_word16 (x y : Byte) : hi8 (word16 x y) = x := by
  apply BitVec.eq_of_toNat_eq
  have := x.isLt
  have := y.isLt
  rw [toNat_hi8, toNat_word16]
  omega

theorem lo8_word16 (x y : Byte) : lo8 (word16 x y) = y := by
  apply BitVec.eq_of_toNat_eq
  have := y.isLt
  rw [toNat_lo8, toNat_word16]
  omega

theorem bytes_wireHandle (x y z : Byte) : (wireHandle x y z).bytes = [x, y, z] := by
  simp [wireHandle, WireHandle.bytes, hi8_word16, lo8_word16]

theorem mem_of_lookup {α β : Type} [BEq α] [LawfulBEq α] {k : α} {v : β} :
    ∀ {xs : List (α × β)}, List.lookup k xs = some v → (k, v) ∈ xs
  | (j, w) :: xs, h => by
    rw [List.lookup_cons] at h
    split at h
    · rename_i e
      cases h
      rw [eq_of_beq e]
      exact List.mem_cons_self
    · exact List.mem_cons_of_mem _ (mem_of_lookup h)

/-- Encoding undoes decoding. -/
theorem encodeRequest_decodeRequest {l : Link} {code : Byte} {fields : List Byte} {i : Instr}
    (h : decodeRequest l code fields = some i) : encodeRequest i = some (l, code, fields) := by
  unfold decodeRequest at h
  split at h
  · cases h
  split at h
  · cases h
    subst_vars
    rfl
  split at h
  · cases h
    subst_vars
    rfl
  split at h
  case h_8 => cases h
  case h_2 =>
    unfold decodeTwo at h
    split at h
    · have := mem_of_lookup h
      simp only [List.mem_cons, Prod.mk.injEq, List.not_mem_nil, or_false] at this
      casesm* _ ∨ _, _ ∧ _ <;> subst_vars <;> rfl
    · have := mem_of_lookup h
      simp only [List.mem_cons, Prod.mk.injEq, List.not_mem_nil, or_false] at this
      casesm* _ ∨ _, _ ∧ _ <;> subst_vars <;> simp [encodeRequest, hi8_word16, lo8_word16]
  all_goals
    have := mem_of_lookup h
    simp only [List.mem_cons, Prod.mk.injEq, List.not_mem_nil, or_false] at this
    casesm* _ ∨ _, _ ∧ _ <;> subst_vars <;> simp [encodeRequest, hi8_word16, lo8_word16, bytes_wireHandle]

/-- What a frame's judgement says of its bytes where it is a request. -/
theorem judgeFrame_request {kind code : Byte} {bytes fields : List Byte} (h : judgeFrame kind bytes = .request code fields) :
    kind :: bytes = requestBytes code fields := by
  unfold judgeFrame at h
  split at h
  · cases h
  split at h
  · split at h
    · cases h
    split at h
    · cases h
    split at h
    · cases h
      have hl := Decidable.not_not.1 ‹¬fields.length ≠ _›
      rw [requestBytes, hl, byteOf, BitVec.ofNat_toNat, BitVec.setWidth_eq, Decidable.not_not.1 ‹¬kind ≠ _›]
    · cases h
  · cases h

/-- Of the bytes of a READ only their count tells. -/
theorem goesOn_read (taken : List Byte) {bs bs' : List Byte} (h : bs.length = bs'.length) :
    goesOn taken (kindRead :: bs) = goesOn taken (kindRead :: bs') := by
  cases taken with
  | nil => rfl
  | cons k ts =>
    by_cases hk : k = kindRead <;> simp [goesOn, hk, h]

end Sys2Proof

namespace Sys2Proof.Machine

variable {p : Part} {l : Link} {c : Instr} {bytes : List Byte}

/-- A transfer with its kind byte and the bytes after it is one transfer of these bytes. -/
theorem takeTransfer_eq (l : Link) (kind : Byte) (bytes : List Byte) :
    ∃ ends : Part → Part, ∀ p : Part, p.takeTransfer l kind bytes = p.transfer l (kind :: bytes) ends := by
  unfold Part.takeTransfer
  split
  · exact ⟨_, fun _ => rfl⟩
  split
  · exact ⟨_, fun _ => rfl⟩
  · exact ⟨_, fun _ => rfl⟩
  · rename_i hj
    split
    · rename_i hd
      have he := encodeRequest_decodeRequest hd
      exact ⟨_, fun p => by
        rw [runRequest_eq (by rw [he]; rfl), effect_request (by rw [he]; rfl), sent_eq (clocked_request he),
          judgeFrame_request hj]⟩
    · exact ⟨_, fun _ => rfl⟩

/-- Every command that ends a transfer is one transfer of its bytes on its link. -/
theorem effect_transfer (h : c.clocked = some (l, bytes)) :
    ∃ ends : Part → Part, ∀ p : Part, Part.effect c p = p.transfer l bytes ends := by
  have request (he : (encodeRequest c).isSome = true) :
      ∃ ends : Part → Part, ∀ p : Part, Part.effect c p = p.transfer l bytes ends :=
    ⟨_, fun p => by rw [effect_request he, sent_eq h]⟩
  cases c with
  | statusRead x =>
    obtain ⟨m, held⟩ := x
    cases held with
    | none => cases h; exact ⟨_, fun _ => rfl⟩
    | some => cases h
  | responseRead => cases h; exact ⟨_, fun _ => rfl⟩
  | requestDiscarded => cases h; exact takeTransfer_eq _ _ _
  | badFrame => cases h; exact takeTransfer_eq _ _ _
  | unknownRequest => cases h; exact takeTransfer_eq _ _ _
  | _ => first | exact request rfl | cases h

end Sys2Proof.Machine
end

