-- ==== Sys2Proof/Laws/Trials.lean ====
section
/-! SUPPORT. Bring-up trials: what each trial of the head waiting slot gives, and that a pass is followed by the trial made from
where it leads. -/

namespace Sys2Proof.Machine

variable {p : Part} {i j : SlotId}

/-- Grants leave which slots wait. -/
theorem Slot.granted.waiting {x y : Slot} (h : x.granted y) : y.waiting = x.waiting := by
  obtain ⟨_, _, _, _, _, rfl⟩ := h
  rfl

theorem slot_enable (h : j ≠ i) : (p.enable i).slot j = p.slot j := by
  unfold Part.enable
  simp only
  rw [slot_updSlot_ne _ _ _ _ (Ne.symm h), (entered_enter p i .dark).slots j h]

theorem enable_state : ((p.enable i).slot i).state = .dark := by
  unfold Part.enable
  rw [slot_updSlot_self, slot_enter, recut_eq]
  rfl

theorem waiting_bringUp : ((p.bringUp i).slot j).waiting = (decide (j ≠ i) && (p.slot j).waiting) := by
  unfold Part.bringUp
  rw [granted_follow.waiting, slot_onFbu]
  by_cases h : j = i
  · subst h
    simp [Slot.waiting, enable_state]
  · simp [slot_enable h, h]

theorem bringUp_up (h : p.spm.state.up = true) : (p.bringUp i).spm.state.up = true := by
  have he : (p.enable i).spm = p.spm := by
    unfold Part.enable
    exact (entered_enter p i .dark).spm
  unfold Part.bringUp Part.follow Part.recoveryTest
  split
  · rfl
  · simpa [he] using h

theorem countP_without {α : Type} [DecidableEq α] {f : α → Bool} {a : α} (ha : f a = true) :
    ∀ {xs : List α}, xs.Nodup → a ∈ xs → (xs.countP fun x => decide (x ≠ a) && f x) + 1 = xs.countP f
  | x :: xs, hn, hm => by
    obtain ⟨hx, hn⟩ := List.nodup_cons.1 hn
    by_cases e : x = a
    · subst e
      have : xs.countP (fun y => decide (y ≠ x) && f y) = xs.countP f :=
        List.countP_congr fun y hy => by simp [show y ≠ x by rintro rfl; exact hx hy]
      rw [List.countP_cons, List.countP_cons, this]
      simp [ha]
    · have hm : a ∈ xs := (List.mem_cons.1 hm).resolve_left (Ne.symm e)
      have := countP_without ha hn hm
      rw [List.countP_cons, List.countP_cons, ← this, decide_eq_true e, Bool.true_and]
      omega

/-- A pass takes one slot out of those that wait. -/
theorem waitingCount_bringUp (h : (p.slot i).waiting = true) : (p.bringUp i).waitingCount + 1 = p.waitingCount := by
  simp only [Part.waitingCount, ← List.countP_eq_length_filter, waiting_bringUp]
  exact countP_without (f := fun j => (p.slot j).waiting) h (List.nodup_finRange 24) (List.mem_finRange i)

theorem trial_down (h : p.spm.state.up = false) : p.trial = p := by simp [Part.trial, h]

theorem trials_none (h : p.headWaiting = none) (n : Nat) : p.trials n = p := by cases n <;> simp [Part.trials, h]

theorem trial_none (h : p.headWaiting = none) : p.trial = p := by simp [Part.trial, trials_none h]

theorem waitingCount_pos (h : p.headWaiting = some i) : ∃ n, p.waitingCount = n + 1 :=
  ⟨_, (waitingCount_bringUp (of_headWaiting h).1).symm⟩

/-- A trial that passes is the enable of the head, and the trial made from there (R57). -/
theorem trial_pass (hu : p.spm.state.up = true) (h : p.headWaiting = some i) (ht : p.enableTest i = true) :
    p.trial = (p.bringUp i).trial := by
  simp only [Part.trial, hu, bringUp_up hu, if_true, ← waitingCount_bringUp (of_headWaiting h).1, Part.trials, h, ht]

/-- A trial that fails begins or continues the bring-up block, and enables no other slot (R57, R156). -/
theorem trial_fail (hu : p.spm.state.up = true) (h : p.headWaiting = some i) (ht : p.enableTest i = false) :
    p.trial = p.onFbu fun f => { f with bringUp := f.bringUp.block p.cfg.budget.stall } := by
  obtain ⟨n, hn⟩ := waitingCount_pos h
  simp [Part.trial, hu, hn, Part.trials, h, ht]

end Sys2Proof.Machine
end

