-- ==== Sys2Proof/Tests/Slice0.lean ====
section
/-! SUPPORT. Tests: the well-formedness smoke, one small step for each group of commands with figures from the manual, and
for each statement of Certificates/Slice0/Obligations.lean that has hypotheses a state and operands that meet them. -/

namespace Sys2Proof.Tests

-- The tests are checked one after the other.
set_option Elab.async false

open Sys2Proof.Machine

/-! ### Small states -/

/-- The state a command gives. -/
def after (c : Instr) (s : State) : State :=
  match exec c s with
  | .next t => t
  | .fault _ | .refused _ => s

/-- A part with no command waiting. -/
def alone (p : Part) : State := ⟨p, []⟩

/-- The cold part with link A its owner. -/
def owned : Part := { Part.cold with owner := some .a }

/-- A slot with a card seated, in a state. -/
def slotIn (st : SlotState) : Slot := { Slot.cold (decide (st ≠ .empty)) with state := st }

/-- The owned part with one slot as given. -/
def partWith (i : SlotId) (x : Slot) : Part := owned.setSlot i x

/-- The owned part with one slot in a state. -/
def partIn (i : SlotId) (st : SlotState) : Part := partWith i (slotIn st)

/-- A leg on highway 0. -/
def legAt (ts : Fin 512) (d : Dir) : Leg := ⟨0, ts, d⟩

/-- A record of class C1 on slot 0, channel 0, with one sending leg. -/
def recIn (st : RecState) : Rec :=
  ⟨.c1, 0, 0, [legAt 0 .both], 9, none, none, st, false, false, if st = .refused then some .loadFailed else none⟩

/-- A table of records of class C1. -/
def tableOf (rs : List (Index × Rec)) : Ctb := ⟨[], rs, [], rs.map Prod.fst, [], []⟩

/-- A table with one record at index 0. -/
def oneRec (st : RecState) : Ctb := tableOf [(0, recIn st)]

/-- The part with a table of one record and its slot 0 in a state. -/
def withRec (st : RecState) (x : SlotState) : Part := { partIn 0 x with ctb := oneRec st }

/-- A card. -/
def card : Card := ⟨3, 77⟩

/-- A waiting response on link A. -/
def unread : Part := owned.setLink .a { LinkRec.fresh 1 with buffer := some ⟨.ok, [7, 8]⟩ }

/-- The owned part with a transfer on link A open under select, these bytes taken. -/
def held (bytes : List Byte) (p : Part) : Part :=
  p.setLink .a { p.link .a with transfer := some bytes, dataOut := [p.statusByte .a] }

/-- An exchange of slot 0 on the left segment. -/
def inExchange (f : Frame) (orphan : Bool) (p : Part) : Part :=
  p.setSeg .l { Segment.idle with inProgress := some ⟨0, f, orphan, 5⟩ }

/-! ### Well-formedness: an ill-formed term for each check -/

theorem test_illFormed_establish : (Instr.establish .a (List.replicate 9 0)).wellFormed = false := by
  decide +kernel
theorem test_illFormed_modify : (Instr.modify .a (List.replicate 31 0)).wellFormed = false := by
  decide +kernel
theorem test_illFormed_discarded : (Instr.requestDiscarded .a 0xA5 []).wellFormed = false := by decide +kernel
theorem test_illFormed_badFrame : (Instr.badFrame .a 0x5A [0x50, 0]).wellFormed = false := by decide +kernel
theorem test_illFormed_unknown : (Instr.unknownRequest .a 0x50 []).wellFormed = false := by decide +kernel
theorem test_wellFormed_some : ([.establish .a (List.replicate 10 0), .modify .a (List.replicate 30 0),
    .requestDiscarded .a 0x5A [], .badFrame .b 0x5A [0x50], .unknownRequest .b 0x70 [1]] : List Instr).all
      Instr.wellFormed = true := by decide +kernel

/-! ### Figures of the manual -/

/-- R119: halves go to the even neighbour, for steps of either sign. -/
theorem test_rounding : [roundEven (-5) 1, roundEven (-7) 1, roundEven 365 1, roundEven (-57) 1] = [-2, -4, 182, -28] := by
  decide

/-- R146: at 12 with shift 3 the half rounds up to 2; at 4 it rounds down to 0 and the charge clears. -/
theorem test_decay : decay 3 12 = 10 ∧ decay 3 10 = 9 ∧ decay 3 4 = 0 := by decide +kernel

/-- R108, the worked audit: three codes and their digest. -/
theorem test_digest : digestOf [41031, 76577, 80673] = ⟨3, 198281, 1170810931⟩ := by decide +kernel

/-- R140: RAMP_START of the cold-start settings, and of the worked example. -/
theorem test_rampStart : BudgetCfg.cold.rampStart = 5000 ∧ (⟨12000, 4, 6, 500⟩ : BudgetCfg).rampStart = 3000 := by
  decide +kernel

/-! ### One step -/

theorem test_claim : (after (.claim .a) State.reset).part.owner = some .a := by decide +kernel
theorem test_coldStart : (after .coldStart (alone (partIn 3 .linked))).part.slot 3 = slotIn .off := by
  decide +kernel
theorem test_resetN : (((after .resetN (alone (partIn 3 .linked))).part.slot 3).state,
    (after .resetN (alone (partIn 3 .linked))).part.mbsL.queue) = (.dark, [⟨3, .poll⟩]) := by
  decide +kernel
theorem test_insertion : ((after (.insertion 5) State.reset).part.slot 5).state = .off := by decide +kernel
theorem test_removal : ((after (.removal 5) (alone (partIn 5 .linked))).part.slot 5).state = .empty := by
  decide +kernel
theorem test_statusRead : ((after (.statusRead ⟨.a, none⟩) (alone unread)).part.link .a).dataOut = [0xD0] := by
  decide +kernel
/-- R182: the status byte is taken at the transfer's opening; a notice raised under select shows in the next one. -/
theorem test_statusByteLatched :
    let s := after .signalLoss (after (.statusRead ⟨.b, some [0x5A]⟩) (alone { Part.cold with owner := some .b }))
    (((after (.notices .b 0xFFFF) s).part.link .b).dataOut, ((after (.statusRead ⟨.b,
      none⟩) State.reset).part.link .b).dataOut) =
      ([0x50], [0x40]) := by decide +kernel

/-- R183: a transfer open at a reset is lost; its last bytes do nothing, and the next transfer is taken. -/
theorem test_transferLost :
    let s := after .resetN (after (.statusRead ⟨.a, some [0x5A, 0x63]⟩) (alone owned))
    let t := after (.claim .a) s
    ((s.part.link .a).lost, t.part.owner, (t.part.link .a).lost, (after (.claim .a) t).part.owner) =
      (true, none, false, some .a) := by decide +kernel

/-- R185: a READ that is cut short under select and goes on shows the response once, and consumes it. -/
theorem test_readUnderSelect :
    let s := after (.statusRead ⟨.a, some [0xA5, 0, 0]⟩) (alone unread)
    ((s.part.link .a).dataOut, ((after (.responseRead .a 4) s).part.link .a).dataOut,
      ((after (.responseRead .a 4) s).part.link .a).buffer.isNone) = ([0xD0, 0, 2], [0xD0, 0, 2, 7, 8], true) := by
  decide +kernel

theorem test_responseRead : ((after (.responseRead .a 4) (alone unread)).part.link .a).dataOut =
    [0xD0, 0x00, 2, 7, 8] := by decide +kernel
theorem test_badFrame : ((after (.badFrame .a 0x5A [0x50, 1]) (alone owned)).part.link .a).buffer =
    some ⟨.badFrame, []⟩ := by decide +kernel
theorem test_unknown : ((after (.unknownRequest .b 0x70 []) (alone owned)).part.link .b).buffer =
    some ⟨.unknownRequest, []⟩ := by decide +kernel

/-- R201, R202: an ESTABLISH frame written out byte by byte, taken as a transfer. -/
theorem test_establishFrame :
    (after (.badFrame .a 0x5A [0x10, 10, 1, 4, 9, 50, 0, 1, 2, 3, 1, 2]) (alone owned)).part.ctb.get 0 =
      some ⟨.c1, 4, 9, [⟨2, 258, .both⟩], 50, none, none, .suspended, false, false, none⟩ := by
  decide +kernel
theorem test_retireFrame :
    ((after (.badFrame .a 0x5A [0x12, 3, 0, 0, 0]) (alone (withRec .live .dark))).part.ctb.get 0).isNone = true := by
  decide +kernel
theorem test_retireGeneration : (after (.retire .a ⟨0, 0⟩) (alone (withRec .live .dark))).part.ctb.gen 0 = 1 := by
  decide +kernel
theorem test_modify : ((after (.modify .a [0, 0, 0, 4, 3]) (alone (withRec .live .linked))).part.ctb.c3,
    ((after (.modify .a [0, 0, 0, 4, 3]) (alone (withRec .live .linked))).part.ctb.get 0).map Rec.state) =
      ([0], some .pending) := by decide +kernel
theorem test_revive : ((after (.revive .a ⟨0, 0⟩) (alone (withRec .refused .off))).part.ctb.get 0).map Rec.state =
    some .suspended := by decide +kernel
theorem test_lookup : ((after (.lookup .b ⟨0, 0⟩) (alone (withRec .live .dark))).part.link .b).buffer =
    some ⟨.ok, [0, 0, 0, 1, 0, 0, 9, 4, 0, 0, 0, 0, 0, 0, 0, 0, 0, 1, 0, 3, 0, 0]⟩ := by decide +kernel
theorem test_list : ((after (.list .b 1 0x08 ⟨0xFFFF, 0xFF⟩) (alone (withRec .live .dark))).part.link .b).buffer =
    some ⟨.ok, [1, 0, 0, 0, 0xFF, 0xFF, 0xFF]⟩ := by decide +kernel
theorem test_hold : ((after (.hold .a 0) (alone (withRec .live .linked))).part.slot 0).engine =
    some ⟨.clear, 0, .queued⟩ := by decide +kernel
theorem test_busSet : ((after (.busSet .a ⟨9, 21, 0, 0, 9, 3099, 9, 49, 0⟩) (alone owned)).part.cfg.bus) =
    ⟨8, 50, 1, 1, 10, 3000, 10, 50, 1⟩ := by decide +kernel
theorem test_supplySet : ((after (.supplySet .a ⟨580, 600, 570, 0, 8, 8, 100, 9⟩) (alone owned)).part.cfg.supply) =
    ⟨580, 580, 588, 1, 8, 8, 100, 4⟩ := by decide +kernel
theorem test_sample : (after (.supplySample 640) State.reset).part.spm.avg16 = some 10240 := by decide +kernel
theorem test_trial :
    let p := { partIn 0 .off with spm := { Spm.cold with state := .normal }, fbu := ⟨20000, .clear, .clear⟩ }
    ((after .bringUpTrial (alone p)).part.slot 0).inrush = 1000 ∧
      (after .bringUpTrial (alone p)).part.headroom = 18700 := by decide +kernel
/-- R57: a pass is followed at once by the trial of the new head, here a pass for one ceiling and a block for the other. -/
theorem test_furtherTrial :
    let p (ceiling : Nat) := { (partIn 0 .off).setSlot 3 (slotIn .off) with
      spm := { Spm.cold with state := .normal }, fbu := ⟨ceiling, .stalled, .clear⟩ }
    let run (ceiling : Nat) :=
      let q := (after .bringUpTrial (alone (p ceiling))).part
      ((q.slot 0).state, (q.slot 3).state, q.fbu.bringUp)
    (run 2600, run 2599) = ((.dark, .dark, .clear), (.dark, .off, .timing 500)) := by decide +kernel

theorem test_selection :
    let p := { withRec .pending .relinking with running := true, fbu := ⟨9, .clear, .clear⟩ }
    (after .selection (alone p)).part.fbu.load = .timing 500 ∧
      (after .selection (alone { p with fbu := ⟨309, .clear, .clear⟩ })).part.mbsL.queue =
        [⟨0, .load ⟨0, 0⟩ 0 [legAt 0 .both]⟩] := by decide +kernel

/-- R204: a POLL frame of slot 5, driven with its check byte. -/
theorem test_exchangeOpen : (after (.exchangeOpen .l)
    (alone (owned.setSeg .l { Segment.idle with queue := [⟨5, .poll⟩] }))).part.mbsL.sent = [1, 5, 0, 4] := by
  decide +kernel
theorem test_missed : ((after (.replyWindowClose .l) (alone (inExchange .poll false
    { partIn 0 .linked with spm := { Spm.cold with state := .normal } }))).part.slot 0).missed = 1 := by
  decide +kernel
theorem test_breakOff : ((after (.replyBreakOff .l) (alone (inExchange .poll false owned))).part.capture.fault) =
    some ⟨.malformedReply, 0, none⟩ := by decide +kernel

/-! ### Witnesses: the queue and the links -/

/-- A link as after a cold start is heard. -/
theorem hears {p : Part} {l : Link} (h : p.link l = LinkRec.fresh Notice.coldStart.flag) : p.Hears l := by
  unfold Part.Hears
  rw [h]
  exact ⟨rfl, rfl⟩

/-- The owner's link, as after a cold start, is heeded. -/
theorem heeds {p : Part} {l : Link} (h : p.link l = LinkRec.fresh Notice.coldStart.flag) (ho : p.owner = some l) : p.Heeds l :=
  ⟨hears h, ho⟩

/-- With no transfer open, any command's bytes may come; with one open, those that go on from what it has taken. -/
theorem test_witness_Follows : (∀ c, owned.Follows c) ∧ (held [0x5A, 0x60] owned).Follows (.claim .a) :=
  ⟨follows_of_closed fun l => by cases l <;> rfl, fun l bytes h => by
    cases h
    decide⟩

theorem test_witness_StepTakesFront : ∃ (s u : State) (c : Instr) (cs : List Instr),
    s.pending = c :: cs ∧ u.pending = [] := ⟨⟨owned, [.budgetTick, .selection]⟩, alone owned, _, _, rfl, rfl⟩

theorem test_witness_UnreadResponseDiscardsRequest :
    (unread.link .a).buffer.isSome = true ∧ (unread.link .a).lost = false ∧ (unread.link .a).transfer = none ∧
      encodeRequest (.status .a) = some (.a, 0x50, []) ∧
      encodeRequest (.reset .a) = some (.a, 0x6F, []) ∧ (0x5A : Byte) ≠ 0xA5 ∧ (0x00 : Byte) ≠ 0xA5 := by
  decide +kernel

theorem test_witness_OtherLinkRefused :
    (owned.link .b).buffer = none ∧ owned.owner ≠ some .b ∧
      (∀ c ∈ [((Instr.establish .b (List.replicate 10 0)), (0x10 : Byte)), (.reset .b, 0x6F)],
        ∃ fields, encodeRequest c.1 = some (.b, c.2, fields) ∧ lengthFits c.2 fields.length = true) :=
  ⟨rfl, by decide +kernel, by
    intro c hc
    simp only [List.mem_cons, List.not_mem_nil, or_false] at hc
    rcases hc with rfl | rfl
    · exact ⟨_, rfl, by decide +kernel⟩
    · exact ⟨_, rfl, by decide +kernel⟩⟩

theorem test_witness_WrongFramesRefused :
    (owned.link .a).buffer = none ∧ (0x5B : Byte) ≠ 0x5A ∧ (0x5B : Byte) ≠ 0xA5 ∧ ([0x50] : List Byte).length < 2 ∧
      ([1] : List Byte).length ≠ (2 : Byte).toNat ∧ legalLength 0x12 = some (3, 3) ∧
      ([1, 2] : List Byte).length < 3 ∧ 3 < ([1, 2, 3, 4] : List Byte).length ∧
      (List.replicate 9 (0 : Byte)).length < 10 ∧ 29 < (List.replicate 30 (0 : Byte)).length ∧
      (List.replicate 3 (0 : Byte)).length < 4 ∧ 30 < (List.replicate 31 (0 : Byte)).length ∧
      legalLength 0x0F = none ∧ legalLength 0x70 = none ∧ (List.replicate 255 (0 : Byte)).length ≤ 255 := by
  decide +kernel

/-- The least and the greatest ESTABLISH body. -/
def shortest : EstablishReq := ⟨.c0, 0, 0, 0, [legAt 0 .tx], none, none⟩
def longest : EstablishReq :=
  ⟨.c3, 23, 127, 255, [legAt 0 .tx, legAt 1 .tx, legAt 2 .tx, legAt 511 .both], some ⟨4095, 15⟩, some 0xFFFFFFFF⟩

/-- The least and the greatest MODIFY body. -/
def costOnly : ModifyReq := ⟨⟨0, 0⟩, none, some 255, none, none, none⟩
def everyPart : ModifyReq := ⟨⟨0, 0⟩, some longest.legs, some 0, some .c0, some (some 1), some (some ⟨1, 0⟩)⟩

theorem test_witness_RequestsReadBack :
    (∀ q ∈ [shortest, longest], (Instr.establish .a q.bytes).wellFormed = true ∧
      encodeRequest (.establish .a q.bytes) = some (.a, 0x10, q.bytes) ∧ 1 ≤ q.legs.length ∧ q.legs.length ≤ 4) ∧
    (shortest.bytes.length, longest.bytes.length, costOnly.bytes.length, everyPart.bytes.length) = (10, 29, 5, 30) ∧
    ∀ q ∈ [costOnly, everyPart], (∀ g ∈ q.legs, 1 ≤ g.length ∧ g.length ≤ 4) ∧
      (q.legs.isSome || q.cost.isSome || q.cls.isSome || q.tag.isSome || q.partner.isSome) = true := by
  decide +kernel

theorem test_witness_RawBytesRunTheirCommand :
    (Instr.status .a).wellFormed = true ∧ encodeRequest (.status .a) = some (.a, 0x50, []) ∧ owned.Heeds .a ∧
      (0 : Byte).toNat ∉ [1, 2, 3, 4, 5, 6, 7, 8, 9] ∧ (10 : Byte).toNat ∉ [1, 2, 3, 4, 5, 6, 7, 8, 9] ∧
      ∃ w : WirePoll, w.slot = 5 ∧ w.completions.length = 61 :=
  ⟨rfl, rfl, heeds rfl rfl, by decide +kernel, by decide +kernel, ⟨5, 1, 0, 0, 0, 1, 0, List.replicate 61 ⟨⟨0, 0⟩,
    1⟩⟩, rfl, by simp⟩

/-- Each way a transfer stands and each way bytes follow it, or cannot; and a lost one. -/
theorem test_witness_StatusReadsAndOpenTransfers :
    let reading := held [0xA5, 1] unread
    let sending := held [0x5A, 0x50] owned
    let lost := (after .resetN (alone sending)).part
    (owned.link .a).lost = false ∧ (owned.link .a).transfer.getD [] = [] ∧
      (reading.link .a).transfer.getD [] = 0xA5 :: [1] ∧ ([1] : List Byte).length ≤ ([0, 2] : List Byte).length ∧
      (sending.link .a).transfer.getD [] = [0x5A, 0x50] ∧ ([0x5A, 0x50] : List Byte) <+: [0x5A, 0x50, 0] ∧
      ¬([0x5A, 0x50] : List Byte) <+: [0x5A] ∧ ([0x5A, 0x50] : List Byte).head? ≠ some 0xA5 ∧
      (owned.link .a).transfer = none ∧ (Instr.status .a).clocked = some (.a, [0x5A, 0x50, 0]) ∧
        (Instr.statusRead ⟨.a, none⟩).clocked = some (.a, []) ∧
      (lost.link .a).lost = true := by decide +kernel

theorem test_witness_ResponseRead :
    (unread.link .a).lost = false ∧ (unread.link .a).transfer.getD [] = [] ∧
      ((held [0xA5, 0] unread).link .a).transfer = some (0xA5 :: [0]) ∧
      ((held [0xA5, 0] owned).link .a).buffer = none ∧ (unread.link .a).buffer = some ⟨.ok, [7, 8]⟩ ∧ 2 + ([7,
        8] : List Byte).length ≤ 4 ∧
      3 < 2 + ([7, 8] : List Byte).length ∧ (owned.link .a).buffer = none := by decide +kernel

theorem test_witness_ArgumentsChecked :
    owned.Heeds .a ∧ owned.Hears .b ∧ 4096 ≤ (⟨4096, 0⟩ : WireHandle).index.toNat ∧
      16 ≤ (⟨0, 16⟩ : WireHandle).gen.toNat ∧ owned.ctb.get 4095 = none ∧ (oneRec .live).gen 0 ≠ 1 ∧
      24 ≤ (24 : Byte).toNat ∧ 16 ≤ (16 : Byte).toNat :=
  ⟨heeds rfl rfl, hears rfl, by decide +kernel⟩

/-! ### Witnesses: requests on records -/

/-- A table whose index 0 may be a partner of a record on another slot. -/
def partnered : Ctb := oneRec .suspended

/-- An ESTABLISH on slot 1 that names that partner. -/
def partnerReq : EstablishReq := ⟨.c2, 1, 127, 9, [legAt 0 .rx, legAt 1 .tx, legAt 2 .tx, legAt 511 .tx], some ⟨0, 0⟩, none⟩

theorem test_witness_EstablishCreatesRecord :
    let p := { owned with ctb := partnered }
    p.Heeds .a ∧ p.ctb.TableLaw ∧ partnerReq.legs.length = 4 ∧ partnerReq.channel.val < p.channelLimit partnerReq.slot ∧
      legConflict partnerReq.legs = false ∧ p.ctb.channelMap 1 127 = none ∧
      (∀ g ∈ partnerReq.legs, g.sends = true → p.ctb.timeslotMap g.highway g.timeslot = none) ∧
      ((p.ctb.named ⟨0, 0⟩).map fun r => decide (r.slot ≠ 1 ∧ r.partner = none)) = some true ∧
      p.ctb.get 1 = none ∧ p.ctb.get 0 ≠ none ∧ shortest.legs.length = 1 ∧ owned.ctb.get 0 = none :=
  ⟨heeds rfl rfl, Ctb.tableLaw_of_lawful (by decide +kernel), by decide +kernel⟩

/-- Every index, in rising order. -/
@[irreducible] def allIndexes : List Index := List.finRange 4096

theorem mem_allIndexes (k : Index) : k ∈ allIndexes := by
  unfold allIndexes
  exact List.mem_finRange k

theorem rising_allIndexes : allIndexes.Pairwise (· < ·) := by
  unfold allIndexes
  exact List.pairwise_lt_finRange 4096

/-- A record that receives only. -/
def rxOnly : Rec := { recIn .live with legs := [legAt 0 .rx] }

/-- A table that is full: 4096 records on slot 0 that receive only. -/
def full : Ctb := ⟨[], allIndexes.map fun k => (k, rxOnly), [], [], [], []⟩

theorem get_map {xs : List Index} (r : Rec) {k : Index} (h : k ∈ xs) :
    Sparse.get k (xs.map fun j => (j, r)) = some r := by
  induction xs with
  | nil => simp at h
  | cons j xs ih =>
    by_cases hj : j = k
    · simp [Sparse.get, hj]
    · rcases List.mem_cons.1 h with rfl | h
      · exact absurd rfl hj
      · simp [Sparse.get, hj, ih h]

theorem get_full (k : Index) : full.get k = some rxOnly := get_map _ (mem_allIndexes k)

theorem rising_map (r : Rec) {xs : List Index} (h : xs.Pairwise (· < ·)) : Sparse.Rising (xs.map fun k => (k, r)) := by
  have : (xs.map fun k => (k, r)).map Prod.fst = xs := by simp [Function.comp_def]
  rw [Sparse.Rising, this]
  exact h

theorem rising_full : Sparse.Rising full.recs := rising_map rxOnly rising_allIndexes

theorem test_witness_EstablishChecksInOrder :
    owned.Heeds .a ∧ Sparse.Rising full.recs ∧ (∀ k, full.get k ≠ none) ∧
      (∀ j r, full.get j = some r → ¬(r.slot = shortest.slot ∧ r.channel = (1 : Channel)) ∧
        ∀ g ∈ shortest.legs, r.holdsTimeslot g.highway g.timeslot = false) ∧
      (∀ q : EstablishReq, ([9, 0, 0, 0, 0, 1, 0, 1, 0, 0] : List Byte) ≠ q.bytes) ∧
      (let p := { owned with cfg := { owned.cfg with profiles := owned.cfg.profiles.set 3 ⟨128, 0, 0, 1, 1⟩ } }
       p.channelLimit 0 ≤ 128 ∧ 127 < p.channelLimit 0) ∧
      1 < ([legAt 0 .rx, legAt 1 .both].filter Leg.receives).length ∧
      ¬([legAt 0 .tx, legAt 0 .rx].map fun g => (g.highway, g.timeslot)).Nodup ∧
      ((oneRec .live).get 0).map (fun r => (r.slot, r.channel, r.holdsTimeslot 0 0)) = some (0, 0, true) ∧
      (oneRec .live).named ⟨0, 1⟩ = none ∧ ((oneRec .live).named ⟨0, 0⟩).map Rec.slot = some 0 := by
  refine ⟨heeds rfl rfl, rising_full, fun k => ?_, fun j r h => ?_, fun q => ?_, by decide +kernel⟩
  · rw [get_full]
    exact Option.some_ne_none _
  · rw [get_full] at h
    cases h
    decide +kernel
  · intro h
    have h0 : (9 : Byte) = q.cls.code := by
      have := congrArg List.head? h
      simpa [EstablishReq.bytes] using this
    cases hc : q.cls <;> rw [hc] at h0 <;> exact absurd h0 (by decide +kernel)

theorem test_witness_ModifyWritesRecord :
    let p := withRec .live .linked
    let t := tableOf [(0, recIn .live), (1, { recIn .live with slot := 1, legs := [legAt 9 .tx] })]
    p.Heeds .a ∧ p.ctb.TableLaw ∧ p.ctb.named costOnly.handle = some (recIn .live) ∧
      (∀ g ∈ everyPart.legs, legConflict g = false ∧
        ∀ x ∈ g, x.sends = true → ∀ h ∈ p.ctb.timeslotMap x.highway x.timeslot, h = everyPart.handle) ∧
      t.TableLaw ∧ (t.named ⟨1, 0⟩).map (fun x => (x.slot, x.partner)) = some (1, none) ∧
      (recIn .loading).state ≠ .dropping ∧ (recIn .loading).retire = false :=
  ⟨heeds rfl rfl, Ctb.tableLaw_of_lawful (by decide +kernel), by decide +kernel, by decide +kernel,
    Ctb.tableLaw_of_lawful (by decide +kernel), by decide +kernel⟩

theorem test_witness_ModifyChecksInOrder :
    let t := tableOf [(0, recIn .live), (1, { recIn .live with slot := 1, legs := [legAt 9 .tx] })]
    owned.Heeds .a ∧ Sparse.Rising t.recs ∧ (∀ q : ModifyReq, ([0xFF, 0xFF, 0, 2, 9] : List Byte) ≠ q.bytes) ∧
      owned.ctb.named costOnly.handle = none ∧ t.named costOnly.handle = some (recIn .live) ∧
      (recIn .dropping).state = .dropping ∧ ({ recIn .loading with retire := true } : Rec).retire = true ∧
      1 < ([legAt 0 .rx, legAt 1 .both].filter Leg.receives).length ∧
      t.timeslotMap 0 9 = some ⟨1, 0⟩ ∧ (⟨1, 0⟩ : Handle) ≠ costOnly.handle ∧ t.named ⟨1, 1⟩ = none ∧
      (t.named ⟨1, 0⟩).map Rec.slot = some 1 ∧ (t.named ⟨0, 0⟩).map Rec.slot = some 0 := by
  refine ⟨heeds rfl rfl, by decide +kernel, fun q h => ?_, by decide +kernel⟩
  have h0 : (0xFF : Byte) = byteOf (q.handle.index.val / 256) := by
    have := congrArg List.head? h
    simpa [ModifyReq.bytes, Handle.bytes, bytesOf] using this
  have h1 : (255 : Nat) = _ := congrArg BitVec.toNat h0
  have h2 := q.handle.index.isLt
  simp only [byteOf, BitVec.toNat_ofNat] at h1
  omega

theorem test_witness_RetireByState :
    (∀ st ∈ [RecState.suspended, .pending, .refused, .live, .loading, .dropping], ∀ x ∈ [SlotState.linked, .dark],
      (withRec st x).owner = some .a ∧ ((withRec st x).link .a).buffer = none ∧ (withRec st x).ctb.lawful = true ∧
        (withRec st x).ctb.named ⟨0, 0⟩ = some (recIn st)) ∧
    (SlotState.linked.running, SlotState.dark.running) = (true, false) := by decide +kernel

theorem test_witness_ReviveLiftsRefusal :
    let p := withRec .refused .linked
    p.Heeds .a ∧ 4096 ≤ (⟨4096, 0⟩ : WireHandle).index.toNat ∧ 16 ≤ (⟨0, 16⟩ : WireHandle).gen.toNat ∧
      p.ctb.named ⟨0, 1⟩ = none ∧ p.ctb.named ⟨0, 0⟩ = some (recIn .refused) ∧ (recIn .live).state ≠ .refused :=
  ⟨heeds rfl rfl, by decide +kernel⟩

theorem test_witness_LookupAnswersRecord :
    let p := withRec .refused .linked
    p.Hears .b ∧ 4096 ≤ (⟨4096, 0⟩ : WireHandle).index.toNat ∧ 16 ≤ (⟨0, 16⟩ : WireHandle).gen.toNat ∧
      p.ctb.named ⟨4095, 15⟩ = none ∧ p.ctb.named ⟨0, 0⟩ = some (recIn .refused) :=
  ⟨hears rfl, by decide +kernel⟩

theorem test_witness_MapLookups :
    let p := withRec .live .dark
    p.Hears .b ∧ p.ctb.TableLaw ∧ 24 ≤ (24 : Byte).toNat ∧ 128 ≤ (128 : Byte).toNat ∧ 4 ≤ (4 : Byte).toNat ∧
      512 ≤ (512 : BitVec 16).toNat ∧ p.ctb.get 0 = some (recIn .live) ∧ (recIn .live).slot = 0 ∧
      (recIn .live).channel = 0 ∧ legAt 0 .both ∈ (recIn .live).legs ∧ (∀ k r, owned.ctb.get k = some r → False) :=
  ⟨hears rfl, Ctb.tableLaw_of_lawful (by decide +kernel), by
    and_intros <;> first | decide +kernel | simp [owned, Part.cold, Ctb.cold, Ctb.get, Sparse.get]⟩

/-- A table of sixteen records on slot 0. -/
def sixteen : Ctb := tableOf <|
  [(0, 0), (1, 1), (2, 2), (3, 3), (4, 4), (5, 5), (6, 6), (7, 7), (8, 8), (9, 9), (10, 10), (11, 11), (12, 12), (13, 13),
    (14, 14), (15, 15)].map fun e => (e.1, { recIn .live with channel := e.2, legs := [legAt 0 .rx] })

theorem test_witness_ListPagesAndRefusals :
    let p := { owned with ctb := sixteen }
    p.Hears .b ∧ p.ctb.TableLaw ∧ (0x08 : Byte) ≠ 0 ∧ (0x3F : Byte).toNat < 64 ∧ 64 ≤ (64 : Byte).toNat ∧
      4 ≤ (4 : Byte).toNat ∧ p.ctb.list .c1 = (sixteen.c1.take 15) ++ 15 :: [] ∧ (sixteen.c1.take 15).length = 15 ∧
      sixteen.listed 0x08 15 = true ∧ (⟨4096, 0⟩ : WireHandle) ≠ ⟨0xFFFF, 0xFF⟩ ∧ sixteen.named ⟨0, 1⟩ = none ∧
      (sixteen.named ⟨0, 0⟩).map Rec.cls = some .c1 :=
  ⟨hears rfl, Ctb.tableLaw_of_lawful (by decide +kernel), by decide +kernel⟩

/-! ### Witnesses: slot actions and settings -/

/-- The owned part with a record on slot 0 in every slot state: the hypotheses of the slot actions. -/
theorem test_witness_slotActions : ∀ x ∈ [SlotState.empty, .off, .dark, .aligning, .auditing, .relinking, .linked, .held,
    .mismatch, .faulted], (withRec .refused x).owner = some .a ∧ ((withRec .refused x).link .a).buffer = none ∧
      (withRec .refused x).ctb.lawful = true ∧ ((withRec .refused x).slot 0).state = x := by decide +kernel

/-- HELD with and without a CLEAR pending; LINKED with work and without; in the terms of HoldReleaseAndAudit. -/
theorem test_witness_HoldReleaseAndAudit :
    ({ slotIn .held with engine := some ⟨.clear, 0, .queued⟩ } : Slot).engine.isSome = true ∧
      (slotIn .held).engine = none ∧ (slotIn .linked).inflight = [] ∧ (slotIn .linked).waitingDrops = [] ∧
      ({ slotIn .linked with waitingDrops := [⟨0, 0⟩] } : Slot).waitingDrops ≠ [] := by decide +kernel

/-- A slot in MISMATCH with a card seen whose type has the channel count given. -/
def mismatched (channels : Nat) : Part :=
  { partWith 0 { slotIn .mismatch with cardSeen := some ⟨card, 4⟩ } with
    ctb := oneRec .suspended
    cfg := { owned.cfg with profiles := owned.cfg.profiles.set 3 ⟨channels, 0, 0, 1, 1⟩ } }

theorem test_witness_AdoptAndVacate :
    (mismatched 1).Heeds .a ∧ (mismatched 1).ctb.TableLaw ∧ ((mismatched 1).slot 0).cardSeen = some ⟨card, 4⟩ ∧
      (∀ e ∈ (mismatched 1).ctb.recs, e.2.channel.val < ((mismatched 1).cfg.profiles[card.type]).channels) ∧
      (∃ e ∈ (mismatched 0).ctb.recs, e.2.slot = 0 ∧
        ((mismatched 0).cfg.profiles[card.type]).channels ≤ e.2.channel.val) :=
  ⟨heeds rfl rfl, Ctb.tableLaw_of_lawful (by decide +kernel), by decide +kernel⟩

/-- Two partners, on slots 0 and 1, the first in a state. -/
def pairIn (st : RecState) : Ctb :=
  tableOf [(0, { recIn st with partner := some ⟨1, 0⟩ }),
    (1, { recIn .live with slot := 1, legs := [legAt 9 .tx], partner := some ⟨0, 0⟩ })]

/-- The loss treatment of slot 0 keeps the link of a partner it leaves, and clears that of a partner it frees (R12, R15). -/
theorem test_partnersThroughLoss :
    (pairIn .pending).TableLaw ∧ (pairIn .dropping).TableLaw ∧
    (((pairIn .pending).treat lossFate 0).get 0).map Rec.partner = some (some ⟨1, 0⟩) ∧
    (((pairIn .pending).treat lossFate 0).get 1).map Rec.partner = some (some ⟨0, 0⟩) ∧
    ((pairIn .dropping).treat lossFate 0).get 0 = none ∧
    (((pairIn .dropping).treat lossFate 0).get 1).map Rec.partner = some none :=
  ⟨Ctb.tableLaw_of_lawful (by decide +kernel), Ctb.tableLaw_of_lawful (by decide +kernel), by decide +kernel,
    by decide +kernel, by decide +kernel, by decide +kernel⟩

/-- The laws of a table of one record in each state, in the terms of TreatmentsAtSupplyEntries. -/
theorem test_witness_TreatmentsAtSupplyEntries : ∀ st ∈ [RecState.suspended, .pending, .loading, .live, .dropping,
    .refused], (recIn st).state = st ∧ ({ recIn st with retire := true } : Rec).retire = true ∧
      (recIn st).retire = false ∧ (oneRec st).lawful = true := by decide +kernel

theorem test_witness_settings :
    owned.Heeds .a ∧ (3 : Fin 4).val = min 3 (255 : Byte).toNat ∧ (15 : Fin 16).val = min 15 (255 : Byte).toNat ∧
      (0 : Fin 4).val = min 3 (0 : Byte).toNat ∧ (⟨15, 0, 0, 0, 0, 0⟩ : WireProfile).cardType = byteOf 15 :=
  ⟨heeds rfl rfl, by decide +kernel⟩

/-! ### Witnesses: ownership, notices, capture, supply and budget -/

theorem test_witness_ownership :
    Part.cold.Hears .a ∧ Part.cold.owner = none ∧ owned.Hears .a ∧ owned.owner = some .a ∧ owned.Hears .b ∧
      owned.owner = some (other .b) ∧ (owned.link .b).claim = false ∧
      ((owned.setLink .b { LinkRec.fresh 1 with claim := true }).link .b).claim = true :=
  ⟨hears rfl, rfl, hears rfl, rfl, hears rfl, rfl, by decide +kernel⟩

theorem test_witness_CaptureRequests :
    owned.Heeds .a ∧ owned.Hears .b ∧ owned.owner ≠ some .b ∧ owned.capture.fault = none ∧
      ({ owned with capture := ⟨some ⟨.strayCompletion, 23, some ⟨4095, 15⟩⟩, 255⟩ } : Part).capture.fault =
        some ⟨.strayCompletion, 23, some ⟨4095, 15⟩⟩ :=
  ⟨heeds rfl rfl, hears rfl, by decide +kernel⟩

/-- The owned part in a supply state, with its average and counters. -/
def supplyAt (st : Supply) (avg : Option Nat) (n : Nat) : Part :=
  { owned with spm := { Spm.cold with state := st, avg16 := avg, dip := n, cut := n, rest := n } }

/-- A part in RECOVERY with the signal lost and nothing left to recover. -/
def afterLoss : Part :=
  { owned with
    spm := { (supplyAt .recovery (some 10240) 0).spm with lost := true }
    fbu := ⟨20000, .clear, .clear⟩ }

/-- A sample that begins a SAG darkens a LINKED slot, and one that begins an OUTAGE powers it off (R71, R72, R130, R131). -/
theorem test_sampleDarkens :
    let p (st : Supply) (avg : Nat) : Part := (supplyAt st (some avg) 7).setSlot 0 (slotIn .linked)
    ((after (.supplySample 579) (alone (p .normal 9264))).part.slot 0).state = .dark ∧
    ((after (.supplySample 499) (alone (p .normal 7984))).part.slot 0).state = .off ∧
    ((after (.supplySample 499) (alone (p .sag 7984))).part.slot 0).state = .off ∧
    ((after (.supplySample 600) (alone (p .normal 9600))).part.slot 0).state = .linked := by
  decide +kernel

/-- Samples that take each rule's branches: a dip at its count, a cut at its count, a rise at its count, and none. -/
theorem test_witness_SampleMovesSupplyState :
    (∀ st ∈ [Supply.normal, .recovery, .sag, .settling], (supplyAt st none 0).spm.state = st ∧
      (after (.supplySample 579) (alone (supplyAt st (some 9264) 7))).part.spm.dip = 8 ∧
      (after (.supplySample 579) (alone (supplyAt st (some 9264) 7))).part.spm.cut = 0 ∧
      (after (.supplySample 580) (alone (supplyAt st (some 9280) 7))).part.spm.dip = 0) ∧
    ((afterLoss.spm.state, afterLoss.spm.lost) = (.recovery, true) ∧ afterLoss.fbu.ceiling = afterLoss.cfg.budget.limit ∧
      (∀ i, (afterLoss.slot i).state = .empty) ∧
      (after (.supplySample 640) (alone afterLoss)).part.spm.state = .normal) ∧
    (after (.supplySample 499) (alone (supplyAt .sag (some 7984) 7))).part.spm.cut = 8 ∧
    (after (.supplySample 600) (alone (supplyAt .outage (some 9600) 79))).part.spm.rest = 80 ∧
    (after (.supplySample 599) (alone (supplyAt .outage (some 9584) 79))).part.spm.rest = 0 := by
  decide +kernel

/-- A DARK slot whose last reply and card seen stand, while the settle timer runs. -/
def settling : Part :=
  { partWith 0 { slotIn .dark with lastReply := some ⟨.run, 0⟩, cardSeen := some ⟨card, 4⟩, identity := some card } with
    spm := { Spm.cold with state := .settling, settle := .running 0 } }

theorem test_witness_SignalLossAndSettleExpiry :
    owned.spm.signalTimer.isSome = true ∧ ({ Spm.cold with signalTimer := none } : Spm).signalTimer = none ∧
      settling.spm.state = .settling ∧ settling.spm.settle = .running 0 ∧ (settling.slot 0).state = .dark ∧
      (settling.slot 0).lastReply = some ⟨.run, 0⟩ ∧ (settling.slot 0).cardSeen = some ⟨card, 4⟩ ∧
      (partIn 0 .dark).spm.settle = .stopped ∧ ((partIn 0 .dark).slot 0).lastReply = none := by
  decide +kernel

theorem test_witness_TicksAndStallExpiries :
    (⟨9, .timing 0, .stalled⟩ : Fbu).bringUp = .timing 0 ∧ (⟨9, .stalled, .timing 500⟩ : Fbu).load = .timing 500 ∧
      Fbu.cold.bringUp = .clear ∧ Fbu.cold.load = .clear ∧
      (2 * (((2 : Nat) : Int) * 2 ^ 3 - (12 : Nat)).natAbs = 2 ^ 3 ∧ (2 : Nat) % 2 = 0) := by decide +kernel

/-- The recovery-complete test's conditions met, and one of them not. -/
def recovered : Part := { owned with
  spm := { Spm.cold with state := .recovery }
  fbu := ⟨20000, .clear, .clear⟩ }

theorem test_witness_BudgetTests :
    recovered.spm.state = .recovery ∧ recovered.spm.lost = false ∧ recovered.fbu.ceiling = recovered.cfg.budget.limit ∧
      (∀ i, (recovered.slot i).state = .empty) ∧ recovered.headWaiting = none ∧
      (partIn 23 .off).headWaiting = some 23 ∧ ((partIn 23 .off).slot 23).offTimer = none ∧
      ((partIn 23 .off).slot 23).parked = false ∧ (recIn .live).cost.val ≠ 0 := by decide +kernel

theorem test_witness_BringUpTrial :
    let p := { partIn 0 .off with spm := { Spm.cold with state := .normal } }
    p.spm.state = .normal ∧ p.headWaiting = some 0 ∧ p.requirement 0 = 1300 ∧
      ({ p with fbu := ⟨1300, .clear, .clear⟩ } : Part).headroom = 1300 ∧
      ({ p with fbu := ⟨1299, .clear, .clear⟩ } : Part).headroom = 1299 ∧ owned.headWaiting = none := by
  decide +kernel

/-- A RELINKING slot 0 with one PENDING record, the scheduler running, and a ceiling. -/
def toLoad (ceiling : Nat) : Part :=
  { withRec .pending .relinking with running := true, fbu := ⟨ceiling, .clear, .clear⟩ }

theorem test_witness_SelectionIssuesFirst :
    (toLoad 309).ctb.walk = [] ++ 0 :: [] ∧ (toLoad 309).ctb.get 0 = some (recIn .pending) ∧
      ((toLoad 309).slot 0).waitingDrops = [] ∧ ((toLoad 309).slot 0).inflight.length < ((toLoad 309).slot 0).window ∧
      ((toLoad 309).seg .l).queue.length < 16 ∧ (recIn .pending).partner = none ∧
      (toLoad 309).loadTest (recIn .pending) = true ∧ (toLoad 308).loadTest (recIn .pending) = false ∧
      owned.running = false ∧ owned.ctb.walk = [] := by decide +kernel

/-! ### Witnesses: presence, timers and the segments -/

theorem test_witness_PresenceAndSlotTimers :
    (oneRec .refused).TableLaw ∧ (owned.slot 0).state = .empty ∧ ((partIn 0 .linked).slot 0).enable = true ∧
      ((partIn 0 .off).slot 0).enable = false ∧ ({ slotIn .off with offTimer := some 0 } : Slot).offTimer.isSome = true ∧
      ({ slotIn .linked with stableTimer := some 0 } : Slot).stableTimer.isSome = true ∧
      ({ slotIn .linked with pollTimer := some 0 } : Slot).pollTimer.isSome = true ∧
      (slotIn .linked).stableTimer = none ∧ (slotIn .linked).pollTimer = none ∧ (slotIn .off).offTimer = none :=
  ⟨Ctb.tableLaw_of_lawful (by decide +kernel), by decide +kernel⟩

theorem test_witness_TimersFailSlots :
    (oneRec .loading).TableLaw ∧ ({ slotIn .dark with bootTimer := some 0 } : Slot).bootTimer.isSome = true ∧
      ({ slotIn .aligning with alignTimer := some 0 } : Slot).alignTimer.isSome = true ∧
      owned.cfg.bus.attemptLimit ≤ ({ slotIn .aligning with attempts := 3 } : Slot).attempts + 1 ∧
      (Slot.counted 4 { slotIn .aligning with attempts := 2 }).attempts < owned.cfg.bus.attemptLimit ∧
      owned.cfg.bus.attemptLimit ≤ (Slot.counted 4 { slotIn .aligning with attempts := 3 }).attempts ∧
      (∀ x ∈ SlotState.losable, (slotIn x).state = x) ∧
      (∃ e ∈ ({ slotIn .linked with inflight := [⟨.load, ⟨0, 0⟩, 0, true⟩] } : Slot).inflight, e.handle = ⟨0, 0⟩) ∧
      (∀ e ∈ (slotIn .linked).inflight, e.handle ≠ ⟨0, 0⟩) :=
  ⟨Ctb.tableLaw_of_lawful (by decide +kernel), by decide +kernel⟩

theorem test_witness_ExchangeOpens :
    (owned.seg .l).inProgress = none ∧ (owned.seg .l).queue = [] ∧
      ((inExchange .poll false owned).seg .l).inProgress.isSome = true ∧
      ((owned.setSeg .l { Segment.idle with queue := [⟨5, .poll⟩] }).seg .l).queue = ⟨5, .poll⟩ :: [] := by
  decide +kernel

/-- A slot with a producer of every category. -/
def producer : Slot :=
  { slotIn .auditing with engine := some ⟨.digest, 0, .waiting⟩, waitingDrops := [⟨0, 0⟩], pollDue := true }

theorem test_witness_ArbiterGrants :
    segOf 11 = .l ∧ segOf 12 = .r ∧ (∀ c ∈ [Category.engine, .drop, .poll], producer.eligible c = true) ∧
      (∀ i, ∀ c ∈ [Category.engine, .drop, .poll], (owned.slot i).eligible c = false) ∧
      ((owned.setSeg .l { Segment.idle with queue := List.replicate 16 ⟨0, .poll⟩ }).seg .l).queue.length = 16 ∧
      ((owned.setSeg .l { Segment.idle with queue := List.replicate 15 ⟨0, .poll⟩ }).seg .l).queue.length < 16 := by
  decide +kernel

theorem test_witness_WindowCloseCountsMiss :
    (owned.seg .l).inProgress = none ∧ ((inExchange .poll true owned).seg .l).inProgress = some ⟨0, .poll, true, 5⟩ ∧
      ((inExchange .digest false owned).seg .l).inProgress = some ⟨0, .digest, false, 5⟩ ∧ (oneRec .live).TableLaw ∧
      (∀ x ∈ SlotState.losable, ((partIn 0 x).slot 0).state ≠ .dark) ∧ Supply.recovery.up = true ∧ Supply.sag.up = false ∧
      min 7 (1 + 1) < owned.cfg.bus.missedLimit ∧ owned.cfg.bus.missedLimit ≤ min 7 (2 + 1) ∧
      ({ slotIn .auditing with engine := some ⟨.digest, 2, .inExchange⟩ } : Slot).engine =
        some ⟨.digest, 2, .inExchange⟩ :=
  ⟨by decide +kernel, by decide +kernel, by decide +kernel, Ctb.tableLaw_of_lawful (by decide +kernel), by decide +kernel⟩

/-- A poll reply of slot 0 that is sound. -/
def sound : WirePoll := ⟨0, 4, 0, 3, 77, 4, 0, []⟩

theorem test_witness_BadRepliesCaptured :
    ((inExchange .poll false owned).seg .l).inProgress = some ⟨0, .poll, false, 5⟩ ∧ owned.ctb.lawful = true ∧
      24 ≤ ({ sound with slot := 24 } : WirePoll).slot.toNat ∧
      (∀ n ∈ [(0 : Byte), 5], n.toNat ∉ [1, 2, 3, 4]) ∧ 16 ≤ (16 : Byte).toNat ∧ 8 < (9 : Byte).toNat ∧
        1 < (2 : Byte).toNat ∧
      4 < (List.replicate 5 (⟨⟨0, 0⟩, 1⟩ : WireCompletion)).length ∧ (∀ n ∈ [(0 : Byte), 3], n.toNat ∉ [1, 2]) ∧
      ((23 : Byte).toNat < 24 ∧ (23 : Byte).toNat ≠ 0) ∧ (∀ n ∈ [(0 : Byte), 4], n.toNat ∉ [1, 2, 3]) ∧
      512 < (513 : BitVec 16).toNat ∧ (512 : BitVec 16).toNat ≤ 512 ∧ ([1, 2] : List Byte).length < 3 ∧
      ([1] : List Byte).length ≤ (1 : Byte).toNat ∧ (0 : Byte) ≠ ([0x82, 0, 0] : List Byte).foldl (fun c b => c ^^^ b) 0 ∧
      (∃ f, pollReplyOf sound = some (0, .poll f)) :=
  by and_intros <;> first | exact ⟨_, rfl⟩ | decide +kernel

/-- A RELINKING slot 0 with a record of its own in flight. -/
def loading (kind : TxnKind) (st : RecState) : Part :=
  { partWith 0 { slotIn .relinking with inflight := [⟨kind, ⟨0, 0⟩, 20, true⟩] } with ctb := oneRec st }

theorem test_witness_CompletionsAndRelinkingEnd :
    ((loading .load .loading).slot 0).inflight = [] ++ ⟨.load, ⟨0, 0⟩, 20, true⟩ :: [] ∧
      (loading .load .loading).ctb.named ⟨0, 0⟩ = some (recIn .loading) ∧ (oneRec .loading).TableLaw ∧
      (oneRec .dropping).TableLaw ∧ (tableOf [(0, { recIn .loading with retire := true, reload := true })]).TableLaw ∧
      (∀ e ∈ ((loading .load .loading).slot 0).inflight, e.handle = ⟨0, 1⟩ → e.sent = false) ∧
      Sparse.Rising (oneRec .live).recs ∧ ((withRec .live .relinking).slot 0).state = .relinking ∧
      (withRec .live .relinking).ctb.allLoaded 0 = true ∧ (withRec .pending .relinking).ctb.allLoaded 0 = false :=
  ⟨by decide +kernel, by decide +kernel, Ctb.tableLaw_of_lawful (by decide +kernel),
    Ctb.tableLaw_of_lawful (by decide +kernel),
    Ctb.tableLaw_of_lawful (by decide +kernel), by decide +kernel⟩

/-- A poll reply of slot 0 that says a DROP FAILED. -/
def dropFailed : WirePoll := { sound with completions := [⟨⟨0, 0⟩, 2⟩] }

theorem test_witness_PollReplyInOrder :
    let p := inExchange .poll false (loading .drop .dropping)
    (p.seg .l).inProgress = some ⟨0, .poll, false, 5⟩ ∧ (∃ f, pollReplyOf dropFailed = some (0, .poll f)) ∧
      p.failsDrop 0 (⟨0, 0⟩, .failed) = true ∧
      ((p.completion 0 (⟨0, 0⟩, .failed)).slot 0).state ∈ SlotState.losable ∧
      (p.completion 0 (⟨0, 0⟩, .failed)).ctb.lawful = true :=
  ⟨by decide +kernel, ⟨_, rfl⟩, by decide +kernel⟩

theorem test_witness_DarkRepliesClassify :
    (∀ h : Bool, ({ slotIn .dark with hold := h, identity := some card } : Slot).state = .dark) ∧
      (oneRec .live).TableLaw ∧ Supply.sag.up = false ∧ Supply.recovery.up = true ∧ (slotIn .dark).identity = none ∧
      (∀ e ∈ (oneRec .live).recs, e.2.channel.val < 1) ∧ (∃ e ∈ (oneRec .live).recs, 0 ≤ e.2.channel.val) ∧
      (⟨4, 77⟩ : Card) ≠ card ∧ (⟨.run, 0, card, 4, false, []⟩ : PollFields).phase = .run :=
  ⟨by decide +kernel, Ctb.tableLaw_of_lawful (by decide +kernel), by decide +kernel⟩

theorem test_witness_AlignOutcomeTaken :
    let x := { slotIn .aligning with alignMark := some 4 }
    x.state = .aligning ∧ x.alignCounts 5 = true ∧ x.alignCounts 4 = false ∧
      ({ x with engine := some ⟨.align 0, 0, .queued⟩ } : Slot).alignCounts 5 = false ∧
      ({ x with engine := some ⟨.align 0, 1, .waiting⟩ } : Slot).alignCounts 5 = true ∧ x.hold = false ∧
      (oneRec .suspended).lawful = true := by decide +kernel

theorem test_witness_RepliesInService :
    let x := { slotIn .linked with identity := some card, attempts := 2 }
    x.state ∈ [SlotState.auditing, .relinking, .linked, .held] ∧ x.identity = some card ∧ (⟨4, 77⟩ : Card) ≠ card ∧
      (x.counted 1).attempts < owned.cfg.bus.attemptLimit ∧
      owned.cfg.bus.attemptLimit ≤ (({ x with attempts := 3 } : Slot).counted 1).attempts ∧
      x.rebooted ⟨.run, 0, card, 4, false, []⟩ = false ∧ x.rebooted ⟨.boot, 0, card, 4, false, []⟩ = true ∧
      (slotIn .linked).identity = none ∧ (∀ e ∈ (oneRec .live).recs, e.2.channel.val < 1) ∧
      (∃ e ∈ (oneRec .live).recs, 0 ≤ e.2.channel.val) ∧
      (slotIn .mismatch).state ∈ SlotState.losable ∧ (oneRec .live).lawful = true := by decide +kernel

theorem test_witness_SlotEngineReplies :
    let p := inExchange .digest false { partWith 0
      { slotIn .auditing with audit := some .digesting, engine := some ⟨.digest, 0, .inExchange⟩ } with
      ctb := oneRec .live }
    let q := inExchange .clear false { partWith 0
      { slotIn .auditing with audit := some .clearing, engine := some ⟨.clear, 0, .inExchange⟩ } with ctb := oneRec .live }
    (p.seg .l).inProgress = some ⟨0, .digest, false, 5⟩ ∧ (p.slot 0).engine = some ⟨.digest, 0, .inExchange⟩ ∧
      (q.seg .l).inProgress = some ⟨0, .clear, false, 5⟩ ∧ (q.slot 0).audit = some .clearing ∧
      p.ctb.expectedDigest 0 = ⟨1, 3, 9⟩ ∧ (1 : BitVec 16).toNat ≤ 512 ∧ p.ctb.lawful = true ∧
      ((inExchange (.align 15) false owned).seg .l).inProgress = some ⟨0, .align 15, false, 5⟩ ∧
      ((inExchange (.drop ⟨0, 0⟩) false owned).seg .l).inProgress = some ⟨0, .drop ⟨0, 0⟩, false, 5⟩ := by
  decide +kernel

theorem test_witness_RefusesTaken :
    let f := Frame.load ⟨0, 0⟩ 0 [legAt 0 .both]
    let p := inExchange f false (loading .load .loading)
    (p.seg .l).inProgress = some ⟨0, f, false, 5⟩ ∧ p.ctb.get 0 = some (recIn .loading) ∧
      ((inExchange (.drop ⟨0, 0⟩) false (loading .drop .dropping)).seg .l).inProgress =
        some ⟨0, .drop ⟨0, 0⟩, false, 5⟩ := by decide +kernel

/-! ### Witnesses: resets and the laws -/

theorem test_witness_WarmResetKeepsRetention :
    (withRec .live .linked).ctb.TableLaw ∧ (withRec .live .linked).Heeds .a ∧ (withRec .live .linked).Hears .b ∧
      (withRec .live .linked).owner ≠ some .b ∧
      ({ slotIn .linked with seated := false } : Slot).enable = true ∧ (slotIn .linked).seated = true :=
  ⟨Ctb.tableLaw_of_lawful (by decide +kernel), heeds rfl rfl, hears rfl, by decide +kernel⟩

theorem test_witness_TableLawsKept : ∃ s t : State, s.part.ctb.TableLaw ∧ s.part.ctb.get 0 ≠ none ∧ step s = .next t :=
  ⟨⟨withRec .live .linked, [.resetN]⟩, _, Ctb.tableLaw_of_lawful (by decide +kernel), by decide +kernel, rfl⟩

theorem get_oneRec {st : RecState} {k : Index} {r : Rec} (h : (oneRec st).get k = some r) : k = 0 ∧ r = recIn st := by
  simp only [oneRec, tableOf, Ctb.get, Sparse.get] at h
  split at h
  · rename_i e
    exact ⟨e.symm, by simpa using h.symm⟩
  · cases h

theorem test_witness_RecordsLawKept : ∃ s t : State, s.part.RecordsLaw ∧ step s = .next t := by
  let p := loading .load .loading
  have hq : ∀ g, (p.seg g).queue = [] := fun g => by cases g <;> rfl
  have hx : ∀ g, (p.seg g).inProgress = none := fun g => by cases g <;> rfl
  have he : ∀ i, (p.slot i).engine = none := by decide +kernel
  refine ⟨⟨p, [.resetN]⟩, _, ⟨Ctb.tableLaw_of_lawful (by decide +kernel), fun k r h => ?_, ?_⟩, rfl⟩
  · obtain ⟨rfl, rfl⟩ := get_oneRec h
    show p.slotRuns 0 = true
    decide
  · refine ⟨fun i e hi => ⟨recIn .loading, ?_⟩, by decide +kernel, by decide +kernel, fun k r h _ => ?_,
    fun k r h hs => ?_, ?_, ?_, ?_, ?_⟩
    · revert e
      revert i
      decide
    · obtain ⟨rfl, rfl⟩ := get_oneRec h
      decide
    · obtain ⟨rfl, rfl⟩ := get_oneRec h
      cases hs
    · intro g f hf
      rw [hq g] at hf
      cases hf
    · intro g
      rw [hq g]
      exact List.nodup_nil
    · intro g e h
      rw [hx g] at h
      cases h
    · intro i e h
      rw [he i] at h
      cases h

theorem inRange_cold : Settings.cold.InRange where
  profiles := fun ty => by
    have : ∀ ty : CardType, Settings.cold.profiles[ty] = .unknown := by decide +kernel
    rw [this ty]
    constructor <;> decide +kernel
  bus := by constructor <;> decide +kernel
  budget := by constructor <;> decide +kernel
  supply := by constructor <;> decide +kernel

theorem law_slotIn {st : SlotState} (h : st = .empty ∨ st = .off ∨ st = .linked) : (slotIn st).Law := by
  rcases h with rfl | rfl | rfl <;> constructor <;> decide +kernel

theorem test_witness_SlotLawsKept : ∃ s t : State, s.part.SlotsLaw ∧ step s = .next t := by
  refine ⟨⟨partIn 7 .linked, [.resetN]⟩, _, ⟨inRange_cold, fun i => ?_⟩, rfl⟩
  have : ∀ i, (partIn 7 .linked).slot i = slotIn .linked ∨ (partIn 7 .linked).slot i = slotIn .empty := by
    decide +kernel
  rcases this i with h | h <;> rw [h]
  · exact law_slotIn (.inr (.inr rfl))
  · exact law_slotIn (.inl rfl)

theorem test_witness_LinksAndBusLawKept : ∃ s t : State, s.part.LinksAndBusLaw ∧ step s = .next t := by
  let p := owned.setLink .b { LinkRec.fresh 1 with claim := true }
  refine ⟨⟨p, [.resetN]⟩, _, ⟨fun l => ?_, fun l => ?_, by constructor <;> decide +kernel, fun g => ?_, fun g => ?_⟩, rfl⟩
  · cases l <;> decide
  · cases l <;> decide
  · cases g <;> decide
  · have : ∀ i, ∀ c ∈ [Category.engine, .drop, .poll], (p.slot i).eligible c = false := by
      decide +kernel
    intro _ i _ c
    exact this i c (by cases c <;> decide)

theorem test_witness_SupplyAndCeilingLawKept :
    ∃ s t : State, s.part.CeilingLaw ∧ s.part.SupplyLaw ∧ step s = .next t := by
  refine ⟨⟨{ recovered with running := true }, [.resetN]⟩, _, ⟨inRange_cold, ?_, ?_⟩, ?_, rfl⟩
  · decide +kernel
  · decide +kernel
  · constructor <;> first | decide +kernel | exact fun _ h => nomatch h | exact ⟨fun _ h => (nomatch h),
    fun _ h => (nomatch h)⟩

end Sys2Proof.Tests
end

section
namespace Sys2Proof.Machine

/-! ### A POLL on the segment that does not serve its slot -/

/-- A record of slot 12 that is being loaded. -/
def awayRec : Rec :=
  ⟨.c0, 12, 0, [⟨0, 0, .both⟩], 9, none, none, .loading, false, false, none⟩

/-- The LINKED slot 12, whose LOAD has been sent. -/
def awaySlot : Slot :=
  { Slot.cold true with
    state := .linked
    identity := some ⟨3, 77⟩
    inflight := [⟨.load, ⟨0, 0⟩, 20, true⟩] }

/-- The LOAD of slot 12 is in its exchange on MBS-R, and MBS-L, which does not serve slot 12, is in the exchange of a POLL
addressed to it. -/
def awayPoll : Part :=
  { Part.cold with
    ctb := ⟨[], [(0, awayRec)], [0], [], [], []⟩
    slots := (Vector.replicate 24 (.cold false)).set 12 awaySlot
    mbsL := { Segment.idle with inProgress := some ⟨12, .poll, false, 1⟩ }
    mbsR := { Segment.idle with inProgress := some ⟨12, .load ⟨0, 0⟩ 0 awayRec.legs, false, 1⟩ } }

/-- The card's answer to that POLL: it has completed the LOAD. -/
def awayReply : WirePoll := ⟨12, 4, 0, 3, 77, 4, 0, [⟨⟨0, 0⟩, 1⟩]⟩

theorem get_awayPoll {k : Index} {r : Rec} (h : awayPoll.ctb.get k = some r) : k = 0 ∧ r = awayRec := by
  simp only [awayPoll, Ctb.get, Sparse.get] at h
  split at h
  · rename_i e
    exact ⟨e.symm, by simpa using h.symm⟩
  · cases h

theorem transactionLaw_awayPoll : awayPoll.TransactionLaw where
  entries := by
    have : ∀ i, ∀ e ∈ (awayPoll.slot i).inflight, i = 12 ∧ e = ⟨.load, ⟨0, 0⟩, 20, true⟩ := by decide +kernel
    intro i e he
    obtain ⟨rfl, rfl⟩ := this i e he
    exact ⟨awayRec, by decide +kernel⟩
  drops := by
    have : ∀ i, (awayPoll.slot i).waitingDrops = [] := by decide +kernel
    intro i h hh
    rw [this i] at hh
    cases hh
  once := by decide +kernel
  loading k r h _ := by
    obtain ⟨rfl, rfl⟩ := get_awayPoll h
    decide +kernel
  dropping k r h hs := by
    obtain ⟨rfl, rfl⟩ := get_awayPoll h
    cases hs
  queued g f hf := by cases g <;> cases hf
  apart g := by cases g <;> exact List.nodup_nil
  exchange g e h _ x hx := by
    cases g <;> cases h <;> cases hx
    decide +kernel
  engine := by
    have : ∀ i, (awayPoll.slot i).engine = none := by decide +kernel
    intro i e h
    rw [this i] at h
    cases h

theorem recordsLaw_awayPoll : awayPoll.RecordsLaw where
  table := Ctb.tableLaw_of_lawful (by decide +kernel)
  place k r h := by
    obtain ⟨rfl, rfl⟩ := get_awayPoll h
    show awayPoll.slotRuns 12 = true
    decide +kernel
  transactions := transactionLaw_awayPoll

/-- The completion takes the LOAD's entry out of the in-flight list, while the LOAD's own exchange stays open on MBS-R. -/
theorem awayPoll_completes :
    ((Part.effect (.pollReply .l awayReply) awayPoll).seg .r).inProgress =
        some ⟨12, .load ⟨0, 0⟩ 0 awayRec.legs, false, 1⟩ ∧
      ((Part.effect (.pollReply .l awayReply) awayPoll).slot 12).inflight = [] := by decide +kernel

/-- Refutes O56: the law ties LOADs and DROPs to the segment that serves their slot, and POLLs to none. In `awayPoll`, which
meets the law, the reply to a POLL on MBS-L completes a LOAD whose exchange is open on MBS-R; the step leaves that exchange
without its entry. -/
theorem not_recordsLawKept : ¬Obligations.RecordsLawKept := by
  intro h
  have hkept := h ⟨awayPoll, [.pollReply .l awayReply]⟩ _ recordsLaw_awayPoll (step_cons rfl)
  obtain ⟨hopen, hempty⟩ := awayPoll_completes
  obtain ⟨-, t, ht, -⟩ := hkept.transactions.exchange .r _ hopen rfl _ rfl
  rw [hempty] at ht
  cases ht

end Sys2Proof.Machine
end

section
/-! MODIFY keeps the laws of the Connection Table: partner links made and cleared, a record rewritten, and what the checks of the two
requests that write records leave. -/

namespace Sys2Proof.Machine
namespace Ctb

variable {t u v : Ctb} {k : Index} {r : Rec}

/-! ### Partner links made and cleared (R14, R15) -/

/-- The partner law reads the records and the generations alone. -/
theorem PartnerLaw.congr (h : t.PartnerLaw) (hget : ∀ j, u.get j = t.get j) (hgen : ∀ j, u.gen j = t.gen j) :
    u.PartnerLaw := by
  intro j q x e hx
  obtain ⟨s, hs, hp, hsl⟩ := h j q x (hget j ▸ e) hx
  obtain ⟨hg, es⟩ := named_eq_some.1 hs
  exact ⟨s, named_eq_some.2 ⟨by rw [hgen, hg], by rw [hget, es]⟩, by rw [hp, handle, handle, hgen], hsl⟩

/-- Clearing the partner fields at both ends of a record's link keeps the partner law. -/
theorem PartnerLaw.clear (h : t.PartnerLaw) (ek : t.get k = some r)
    (hget : ∀ j, u.get j = (t.get j).map fun q =>
      { q with partner := if j = k ∨ r.partner.map Handle.index = some j then none else q.partner })
    (hgen : ∀ j, u.gen j = t.gen j) : u.PartnerLaw := by
  intro j q x e hx
  rw [hget] at e
  obtain ⟨q0, ej, rfl⟩ := Option.map_eq_some_iff.1 e
  have hends : ¬(j = k ∨ r.partner.map Handle.index = some j) := by
    intro hj
    simp only [if_pos hj] at hx
    cases hx
  simp only [if_neg hends] at hx
  rw [not_or] at hends
  obtain ⟨s, hs, hp, hsl⟩ := h j q0 x ej hx
  obtain ⟨hg, es⟩ := named_eq_some.1 hs
  have hfar : ¬(x.index = k ∨ r.partner.map Handle.index = some x.index) := by
    rintro (hxk | hxr)
    · rw [hxk, ek] at es
      cases es
      exact hends.2 (by rw [hp]; rfl)
    · obtain ⟨y, hy, hyx⟩ := Option.map_eq_some_iff.1 hxr
      obtain ⟨s', hs', hp', -⟩ := h k r y ek hy
      have es' := (named_eq_some.1 hs').2
      rw [hyx, es] at es'
      cases es'
      rw [hp] at hp'
      exact hends.1 (congrArg Handle.index (Option.some.inj hp'))
  have us : u.get x.index = some s := by
    rw [hget, es, Option.map_some]
    simp only [if_neg hfar]
  exact ⟨s, named_eq_some.2 ⟨by rw [hgen, hg], us⟩, by rw [hp, handle, handle, hgen], hsl⟩

/-- Linking two records on different slots that have no partner keeps the partner law. -/
theorem PartnerLaw.link (h : t.PartnerLaw) {x : Handle} {q : Rec} (ek : t.get k = some r) (hr : r.partner = none)
    (hx : t.named x = some q) (hq : q.partner = none) (hs : q.slot ≠ r.slot)
    (hget : ∀ j, u.get j = (t.get j).map fun s =>
      { s with partner := if j = k then some x else if j = x.index then some (t.handle k) else s.partner })
    (hgen : ∀ j, u.gen j = t.gen j) : u.PartnerLaw := by
  obtain ⟨hxg, ex⟩ := named_eq_some.1 hx
  have hxk : x.index ≠ k := by
    intro e
    rw [e, ek] at ex
    cases ex
    exact hs rfl
  have uk : u.get k = some { r with partner := some x } := by
    rw [hget, ek, Option.map_some]
    simp only [if_true]
  have ux : u.get x.index = some { q with partner := some (t.handle k) } := by
    rw [hget, ex, Option.map_some]
    simp only [if_neg hxk, if_true]
  have hh : ∀ j, u.handle j = t.handle j := fun j => by rw [handle, handle, hgen]
  intro j s y ej hy
  by_cases hjk : j = k
  · subst hjk
    rw [uk] at ej
    cases ej
    cases hy
    exact ⟨_, named_eq_some.2 ⟨by rw [hgen, hxg], ux⟩, by rw [hh], hs⟩
  by_cases hjx : j = x.index
  · subst hjx
    rw [ux] at ej
    cases ej
    cases hy
    exact ⟨_, named_eq_some.2 ⟨by simp [handle, hgen], uk⟩, by rw [hh, handle_of_named hx], hs.symm⟩
  · rw [hget] at ej
    obtain ⟨s0, es, rfl⟩ := Option.map_eq_some_iff.1 ej
    simp only [if_neg hjk, if_neg hjx] at hy
    obtain ⟨z, hz, hp, hsl⟩ := h j s0 y es hy
    obtain ⟨hg, ez⟩ := named_eq_some.1 hz
    have hyk : y.index ≠ k := by
      intro e
      rw [e, ek] at ez
      cases ez
      rw [hr] at hp
      cases hp
    have hyx : y.index ≠ x.index := by
      intro e
      rw [e, ex] at ez
      cases ez
      rw [hq] at hp
      cases hp
    have uz : u.get y.index = some z := by
      rw [hget, ez, Option.map_some]
      simp only [if_neg hyk, if_neg hyx]
    exact ⟨z, named_eq_some.2 ⟨by rw [hgen, hg], uz⟩, by rw [hp, hh], hsl⟩

/-- A record's link is cleared at its far end, and its own partner field is written. -/
theorem get_relink (t : Ctb) (k : Index) (far y : Option Handle) (j : Index) :
    ((t.unlink far).upd k fun x => { x with partner := y }).get j = (t.get j).map fun q =>
      { q with partner := if j = k then y else if far.map Handle.index = some j then none else q.partner } := by
  rw [get_upd]
  by_cases hj : j = k
  · subst hj
    rw [if_pos rfl, get_unlink]
    cases t.get j with
    | none => rfl
    | some q =>
      simp only [Option.map_some, if_true]
      split <;> rfl
  · rw [if_neg hj, get_unlink]
    cases t.get j with
    | none => rfl
    | some q =>
      simp only [Option.map_some, if_neg hj]
      split <;> rfl

/-- A record's link is moved to a new far end. -/
theorem get_relinkPartner (t : Ctb) (k : Index) (far : Option Handle) (x : Handle) (j : Index) :
    (((t.unlink far).upd k fun s => { s with partner := some x }).linkPartner (some x) k).get j = (t.get j).map fun q =>
      { q with partner :=
          if j = x.index then some (t.handle k)
          else if j = k then some x else if far.map Handle.index = some j then none else q.partner } := by
  rw [get_linkPartner, get_relink, handle_upd, handle_unlink]
  cases t.get j with
  | none => rfl
  | some q =>
    by_cases hj : j = x.index
    · simp [hj]
    · simp [hj, Ne.symm hj]

/-! ### MODIFY (R33, R34, R36) -/

/-- The facts a MODIFY's checks leave of the record it writes: the slot, channel and partner it had, flags and legs that keep
their laws, and timeslots that no other record holds (R33). -/
structure Rewrites (t : Ctb) (k : Index) (r q : Rec) : Prop where
  old : t.get k = some r
  slot : q.slot = r.slot
  channel : q.channel = r.channel
  partner : q.partner = r.partner
  flags : q.FlagLaw
  legs : 1 ≤ q.legs.length ∧ q.legs.length ≤ 4 ∧ legConflict q.legs = false
  timeslot : ∀ j s hw ts, j ≠ k → t.get j = some s → s.holdsTimeslot hw ts = true → q.holdsTimeslot hw ts = false

variable {q : Rec}

@[simp] theorem get_reclass (a b : Cls) (j : Index) : (t.reclass a b k).get j = t.get j := by
  unfold reclass
  split <;> simp

@[simp] theorem gen_reclass (a b : Cls) (j : Index) : (t.reclass a b k).gen j = t.gen j := by
  unfold reclass
  split <;> simp

@[simp] theorem gens_reclass (a b : Cls) : (t.reclass a b k).gens = t.gens := by
  unfold reclass
  split <;> simp

@[simp] theorem recs_reclass (a b : Cls) : (t.reclass a b k).recs = t.recs := by
  unfold reclass
  split <;> simp

/-- A record is in the list of its new class, and in no other (R20). -/
theorem list_reclass (a b c : Cls) : (t.reclass a b k).list c =
    if a = b then t.list c
    else if c = b then (t.list c) ++ [k]
    else if c = a then (t.list c).filter fun j => decide (j ≠ k) else t.list c := by
  unfold reclass
  by_cases hab : a = b
  · simp [hab]
  · rw [if_neg hab, if_neg hab, list_enlist]
    by_cases hc : c = b
    · subst hc
      simp [list_delist, Ne.symm hab]
    · simp [hc, list_delist]

theorem ListLaw.rewrite (h : t.ListLaw) (e : t.get k = some r) (q : Rec) :
    ((t.put k q).reclass r.cls q.cls k).ListLaw := by
  have hin : ∀ c, k ∈ t.list c ↔ r.cls = c := fun c => by
    rw [h.member, e]
    simp
  refine ⟨by rw [recs_reclass]; exact Sparse.rising_set h.recs, by simpa using h.gens, by simpa using h.noZero,
    fun c => ?_, fun c j => ?_⟩
  · rw [list_reclass]
    simp only [list_put]
    split
    · exact h.once c
    · rename_i hne
      split
      · rename_i hc
        refine List.Nodup.append (h.once c) (List.nodup_singleton k) ?_
        simpa [hin] using fun h => hne (h.trans hc)
      · split
        · exact (h.once c).filter _
        · exact h.once c
  · rw [list_reclass, get_reclass, get_put]
    simp only [list_put]
    by_cases hj : j = k
    · subst hj
      have hr := hin c
      by_cases hne : r.cls = q.cls
      · simp [hne, hr.trans (by rw [hne])]
      · by_cases hc : c = q.cls
        · simp [hne, hc]
        · by_cases ha : c = r.cls <;> simp_all [eq_comm]
    · rw [if_neg hj, ← h.member]
      split
      · rfl
      · split
        · simp [hj]
        · split <;> simp [hj]

theorem MapLaw.rewrite (h : t.MapLaw) (w : t.Rewrites k r q) (hget : ∀ j, u.get j = if j = k then some q else t.get j) :
    u.MapLaw where
  channel a b x y ea eb hs hc := by
    have back : ∀ j s, u.get j = some s → ∃ s0, t.get j = some s0 ∧ s0.slot = s.slot ∧ s0.channel = s.channel := by
      intro j s ej
      rw [hget] at ej
      split at ej
      · rename_i hj
        cases ej
        exact ⟨r, hj ▸ w.old, w.slot.symm, w.channel.symm⟩
      · exact ⟨s, ej, rfl, rfl⟩
    obtain ⟨x0, ex, hx1, hx2⟩ := back a x ea
    obtain ⟨y0, ey, hy1, hy2⟩ := back b y eb
    exact h.channel a b x0 y0 ex ey (by rw [hx1, hy1, hs]) (by rw [hx2, hy2, hc])
  timeslot a b x y hw ts ea eb hx hy := by
    rw [hget] at ea eb
    split at ea <;> split at eb
    · rename_i ha hb
      rw [ha, hb]
    · rename_i ha hb
      cases ea
      rw [w.timeslot b y hw ts hb eb hy] at hx
      cases hx
    · rename_i ha hb
      cases eb
      rw [w.timeslot a x hw ts ha ea hx] at hy
      cases hy
    · exact h.timeslot a b x y hw ts ea eb hx hy
  legs j s ej := by
    rw [hget] at ej
    split at ej
    · cases ej
      exact w.legs
    · exact h.legs j s ej

/-- Rewriting a record, with the move to its new list where the class differs. -/
theorem TableLaw.rewrite (h : t.TableLaw) (w : t.Rewrites k r q) : ((t.put k q).reclass r.cls q.cls k).TableLaw where
  lists := h.lists.rewrite w.old q
  flags := fun j s e => h.flags.put (k := k) w.flags j s (by simpa using e)
  maps := h.maps.rewrite w fun j => by simp
  partners := (h.partners.put w.old w.slot w.partner).congr (fun j => by simp) fun j => by simp

/-- The partner part of a MODIFY, on the record it has rewritten: the new partner, where one is set, is on another slot and has
none, or has this record (R15, R33). -/
theorem TableLaw.repartner (h : t.TableLaw) (ek : t.get k = some q) (hp : q.partner = r.partner)
    {part : Option (Option Handle)}
    (hnew : ∀ x, part = some (some x) → ∃ s, t.named x = some s ∧ s.slot ≠ q.slot ∧
      (s.partner = none ∨ s.partner = some (t.handle k))) : (t.repartner k r part).TableLaw := by
  unfold Ctb.repartner
  rw [← hp]
  have rising : ∀ f : Rec → Rec, Sparse.Rising ((t.unlink q.partner).upd k f).recs := fun f =>
    rising_upd (rising_unlink h.lists.recs _) k f
  have cleared : ((t.unlink q.partner).upd k fun x => { x with partner := none }).PartnerLaw :=
    h.partners.clear ek (fun j => by rw [get_relink]; simp only [ite_or]) fun j => by simp
  split
  · exact h
  · exact h.of_partners (rising _) (by simp) (fun c => by simp) (fun j => ⟨_, get_relink t k _ _ j⟩) cleared
  · rename_i x
    split
    · exact h
    rename_i hne
    obtain ⟨s, hs, hsl, hsp⟩ := hnew x rfl
    obtain ⟨hg, es⟩ := named_eq_some.1 hs
    have hxk : x.index ≠ k := by
      intro e
      rw [e, ek] at es
      cases es
      exact hsl rfl
    have hnone : s.partner = none := hsp.resolve_right fun hk => by
      obtain ⟨y, hy, hyx, -⟩ := h.partners x.index s _ es hk
      have : y = q := by
        have := named_handle k ▸ hy
        rw [ek] at this
        exact (Option.some.inj this).symm
      rw [this, handle_of_named hs] at hyx
      exact hne hyx
    refine h.of_partners (rising_linkPartner (rising _) _) (by simp) (fun c => by simp)
      (fun j => ⟨_, get_relinkPartner t k _ x j⟩) ?_
    have uk : ((t.unlink q.partner).upd k fun x => { x with partner := none }).get k = some { q with partner := none } := by
      rw [get_relink, ek]
      simp
    have ux : ((t.unlink q.partner).upd k fun x => { x with partner := none }).get x.index = some { s with partner := none } := by
      rw [get_relink, es]
      simp [hnone]
    refine cleared.link uk rfl (named_eq_some.2 ⟨by simpa using hg, ux⟩) rfl hsl (fun j => ?_) fun j => by simp
    rw [get_relinkPartner, get_relink]
    cases t.get j with
    | none => rfl
    | some z =>
      by_cases hj : j = k
      · subst hj
        simp [Ne.symm hxk]
      · simp [hj]

end Ctb

/-! ### What the checks of ESTABLISH and MODIFY leave -/

/-- An ESTABLISH that is read has one to four legs (R27). -/
theorem legs_of_readEstablish {body : List Byte} {q : EstablishReq} (h : readEstablish body = some q) :
    1 ≤ q.legs.length ∧ q.legs.length ≤ 4 := by
  unfold readEstablish at h
  split at h <;> [skip; cases h]
  split at h <;> [skip; cases h]
  split at h <;> [skip; cases h]
  split at h <;> [cases h; skip]
  rename_i hl
  split at h <;> [cases h; skip]
  split at h <;> [skip; cases h]
  cases h
  exact (bytes_of_readLegList hl).1

/-- A part that is read only where it is present was read, or is absent. -/
theorem of_readIf {α : Type} {present : Bool} {rd : Reader α} {bs rest : List Byte} {x : Option α}
    (h : readIf present rd bs = some (x, rest)) : ∀ y, x = some y → rd bs = some (y, rest) := by
  unfold readIf at h
  split at h
  · obtain ⟨⟨y, r⟩, hy, e⟩ := Option.map_eq_some_iff.1 h
    cases e
    rintro _ ⟨⟩
    exact hy
  · cases h
    rintro _ ⟨⟩

/-- A MODIFY that is read writes one to four legs, where it writes any (R32). -/
theorem legs_of_readModify {body : List Byte} {q : ModifyReq} (h : readModify body = some q) :
    ∀ legs, q.legs = some legs → 1 ≤ legs.length ∧ legs.length ≤ 4 := by
  unfold readModify at h
  split at h <;> [skip; cases h]
  split at h <;> [skip; cases h]
  split at h <;> [cases h; skip]
  rename_i hl
  split at h <;> [cases h; skip]
  split at h <;> [cases h; skip]
  split at h <;> [cases h; skip]
  split at h <;> [skip; cases h]
  cases h
  exact fun legs e => (bytes_of_readLegList (of_readIf hl legs e)).1

theorem Ctb.get_of_freeFrom {t : Ctb} {k : Index} : ∀ {fuel n : Nat}, t.freeFrom fuel n = some k → t.get k = none
  | 0, _, h => by cases h
  | fuel + 1, n, h => by
    unfold Ctb.freeFrom at h
    split at h <;> [skip; cases h]
    split at h
    · rename_i hf
      cases h
      exact Option.isNone_iff_eq_none.1 hf
    · exact Ctb.get_of_freeFrom h

/-- An ESTABLISH that passes its checks fits the table at the lowest FREE index (R28, R29). -/
theorem fits_of_establishCheck {p : Part} {q : EstablishReq} {k : Index} (h : p.ctb.TableLaw)
    (hc : p.establishCheck q = none) (hk : p.ctb.lowestFree = some k) (hl : 1 ≤ q.legs.length ∧ q.legs.length ≤ 4)
    {st : RecState} (hs : st ≠ .refused) : p.ctb.Fits k (q.record st) := by
  unfold Part.establishCheck at hc
  split at hc <;> [cases hc; skip]
  split at hc <;> [cases hc; skip]
  rename_i hconflict
  split at hc <;> [cases hc; skip]
  rename_i hchannel
  split at hc <;> [cases hc; skip]
  rename_i htimeslot
  split at hc <;> [cases hc; skip]
  rename_i hpartner
  rw [Bool.not_eq_true] at hconflict htimeslot
  rw [Bool.not_eq_true, Option.isSome_eq_false_iff, Option.isNone_iff_eq_none] at hchannel
  refine ⟨Ctb.get_of_freeFrom hk, ?_, ⟨hl.1, hl.2, hconflict⟩, fun j s e => ?_, fun j s hw ts e hh => ?_,
    fun x hx => ?_⟩
  · simp [Rec.FlagLaw, EstablishReq.record, hs]
  · exact Ctb.channelMap_none hchannel e
  · by_contra hr
    have := Ctb.not_timeslotClash h (r := q.record st) htimeslot e hh (by simpa using hr)
    cases this
  · have hx : q.partner = some x := hx
    rw [hx, Option.bind_some] at hpartner
    unfold Ctb.partnerCheck at hpartner
    split at hpartner
    · cases hpartner
    · rename_i s hn
      split at hpartner <;> [cases hpartner; skip]
      rename_i hfit
      rw [not_or] at hfit
      exact ⟨s, hn, by simpa using hfit.2, hfit.1⟩

theorem Ctb.SameBinding.holdsTimeslot {r q : Rec} (h : Ctb.SameBinding r q) (hw : Fin 4) (ts : Fin 512) :
    q.holdsTimeslot hw ts = r.holdsTimeslot hw ts := by rw [Rec.holdsTimeslot, Rec.holdsTimeslot, h.legs]

theorem Rec.modified_binding (running : Bool) (r : Rec) : Ctb.SameBinding r (r.modified running) := by
  unfold Rec.modified
  split <;> [split; skip; skip; skip; skip; skip] <;> exact ⟨rfl, rfl, rfl, rfl⟩

theorem Rec.modified_partner (running : Bool) (r : Rec) : (r.modified running).partner = r.partner := by
  unfold Rec.modified
  split <;> [split; skip; skip; skip; skip; skip] <;> rfl

theorem Rec.modified_flagLaw (running : Bool) {r : Rec} (h : r.FlagLaw) : (r.modified running).FlagLaw := by
  unfold Rec.modified
  split
  · split
    · exact Ctb.flagLaw_to h fun e => by cases e
    · exact h
  · rename_i hs
    exact ⟨fun hn => absurd hs hn, h.2⟩
  all_goals exact h

/-- A MODIFY that passes its checks may be written over its record (R33). -/
theorem rewrites_of_modifyCheck {p : Part} {q : ModifyReq} {r : Rec} (h : p.ctb.TableLaw)
    (hn : p.ctb.named q.handle = some r) (hc : p.modifyCheck q r = none)
    (hl : ∀ legs, q.legs = some legs → 1 ≤ legs.length ∧ legs.length ≤ 4) :
    p.ctb.Rewrites q.handle.index r ((q.content r).modified (p.slotRuns r.slot)) := by
  obtain ⟨-, er⟩ := Ctb.named_eq_some.1 hn
  unfold Part.modifyCheck at hc
  split at hc <;> [cases hc; skip]
  split at hc <;> [cases hc; skip]
  rename_i hconflict
  split at hc <;> [cases hc; skip]
  rename_i hclash
  have hb := Rec.modified_binding (p.slotRuns r.slot) (q.content r)
  refine ⟨er, hb.slot, hb.channel, Rec.modified_partner _ _, Rec.modified_flagLaw _ (h.flags _ r er), ?_,
    fun j s hw ts hj e hh => ?_⟩
  · rw [hb.legs]
    cases e : q.legs with
    | none => simpa [ModifyReq.content, e] using h.maps.legs _ r er
    | some legs =>
      have := hl legs e
      simp only [e, Option.map_some, Option.getD_some, Bool.not_eq_true] at hconflict
      simpa [ModifyReq.content, e] using ⟨this.1, this.2, hconflict⟩
  · by_contra hr
    rw [hb.holdsTimeslot, Bool.not_eq_false] at hr
    cases el : q.legs with
    | none =>
      refine hj (h.maps.timeslot j _ s r hw ts e er hh ?_)
      simpa [Rec.holdsTimeslot, ModifyReq.content, el] using hr
    | some legs =>
      simp only [el, Option.map_some, Option.getD_some, Bool.not_eq_true] at hclash
      have := Ctb.not_timeslotClash h (r := q.content r) (by simpa [ModifyReq.content, el] using hclash) e hh hr
      simp only [decide_eq_true_eq] at this
      exact hj (congrArg Handle.index this)

/-- The partner a MODIFY sets is on another slot, and has no partner or this record (R33 step 6). -/
theorem partner_of_modifyCheck {p : Part} {q : ModifyReq} {r : Rec} (hc : p.modifyCheck q r = none) {x : Handle}
    (hx : q.partner = some (some x)) : ∃ s, p.ctb.named x = some s ∧ s.slot ≠ r.slot ∧ x.index ≠ q.handle.index ∧
      (s.partner = none ∨ s.partner = some (p.ctb.handle q.handle.index)) := by
  unfold Part.modifyCheck at hc
  split at hc <;> [cases hc; skip]
  split at hc <;> [cases hc; skip]
  split at hc <;> [cases hc; skip]
  rw [hx, Option.join_some, Option.bind_some] at hc
  unfold Ctb.newPartnerCheck at hc
  split at hc
  · cases hc
  · rename_i s hn
    split at hc <;> [cases hc; skip]
    rename_i hfit
    simp only [not_or, not_and, Decidable.not_not] at hfit
    obtain ⟨hslot, hindex, hpartner⟩ := hfit
    refine ⟨s, hn, hslot, hindex, ?_⟩
    cases e : s.partner with
    | none => exact .inl rfl
    | some y => exact .inr (by rw [← e]; exact hpartner (by rw [e]; rfl))

theorem tableLaw_modifyAt {p : Part} {q : ModifyReq} {r : Rec} (h : p.ctb.TableLaw)
    (hn : p.ctb.named q.handle = some r) (hc : p.modifyCheck q r = none)
    (hl : ∀ legs, q.legs = some legs → 1 ≤ legs.length ∧ legs.length ≤ 4) : (p.modifyAt q r).ctb.TableLaw := by
  have w := rewrites_of_modifyCheck h hn hc hl
  refine (h.rewrite w).repartner (q := (q.content r).modified (p.slotRuns r.slot)) (by simp) w.partner fun x hx => ?_
  obtain ⟨s, hs, hslot, hindex, hpartner⟩ := partner_of_modifyCheck hc hx
  obtain ⟨hg, es⟩ := Ctb.named_eq_some.1 hs
  exact ⟨s, Ctb.named_eq_some.2 ⟨by simpa using hg, by simpa [hindex] using es⟩, fun e => hslot (e.trans w.slot), by
    simpa [Ctb.handle] using hpartner⟩

end Sys2Proof.Machine
end

section
/-! Every operation of the part keeps the laws of the Connection Table, and so every step does (O55). -/

namespace Sys2Proof.Machine

variable {p : Part} {i : SlotId} {g : SegId}

/-! ### Operations that leave the table -/

@[simp] theorem setInflight_ctb (l : List Txn) : (p.setInflight i l).ctb = p.ctb := rfl

@[simp] theorem callEngine_ctb (f : Frame) : (p.callEngine i f).ctb = p.ctb := by rw [callEngine_eq]; simp

@[simp] theorem callAlign_ctb : (p.callAlign i).ctb = p.ctb := by simp [Part.callAlign]

@[simp] theorem enterAligning_ctb : (p.enterAligning i).ctb = p.ctb := by simp [Part.enterAligning]

@[simp] theorem enterAuditing_ctb : (p.enterAuditing i).ctb = p.ctb := by simp [Part.enterAuditing]

@[simp] theorem enterHeldClearing_ctb : (p.enterHeldClearing i).ctb = p.ctb := by simp [Part.enterHeldClearing]

@[simp] theorem rewindow_ctb : (p.rewindow i).ctb = p.ctb := rfl

@[simp] theorem setIdentity_ctb (c : Card) : (p.setIdentity i c).ctb = p.ctb := rfl

@[simp] theorem recordBoot_ctb (n : BitVec 8) : (p.recordBoot i n).ctb = p.ctb := rfl

@[simp] theorem identityCheck_ctb : (p.identityCheck i).ctb = p.ctb := by
  unfold Part.identityCheck
  split
  · rfl
  · split <;> split <;> simp

@[simp] theorem offer_ctb (f : Captured) : (p.offer f).ctb = p.ctb := by rw [offer_eq, captured_ctb]

@[simp] theorem reportSlot_ctb : (p.reportSlot i).ctb = p.ctb := by simp [Part.reportSlot]

@[simp] theorem restartPoll_ctb (e : Exchange) : (p.restartPoll e).ctb = p.ctb := by
  unfold Part.restartPoll
  split <;> rfl

@[simp] theorem enable_ctb : (p.enable i).ctb = p.ctb := by simp [Part.enable]

@[simp] theorem bringUp_ctb : (p.bringUp i).ctb = p.ctb := by simp [Part.bringUp]

theorem trials_ctb (n : Nat) : (p.trials n).ctb = p.ctb := by
  induction n generalizing p with
  | zero => rfl
  | succ n ih =>
    unfold Part.trials
    split
    · rfl
    · split
      · rw [ih, bringUp_ctb]
      · rfl

@[simp] theorem openExchange_ctb : (p.openExchange g).ctb = p.ctb := by
  unfold Part.openExchange
  split <;> simp

@[simp] theorem discard_ctb (l : Link) : (p.discard l).ctb = p.ctb := by simp [Part.discard]

@[simp] theorem answer_ctb (l : Link) (r : Response) (q : Part) : (p.answer l r q).ctb = q.ctb := by simp [Part.answer]

@[simp] theorem ended_ctb (l : Link) : (p.ended l).ctb = p.ctb := by simp [Part.ended]

@[simp] theorem readOut_ctb (l : Link) (n : Nat) : (p.readOut l n).ctb = p.ctb := by simp [Part.readOut]

@[simp] theorem readResponse_ctb (l : Link) (n : Nat) : (p.readResponse l n).ctb = p.ctb := by simp [Part.readResponse]

@[simp] theorem raiseOn_ctb (l : Link) (n : Notice) : (p.raiseOn l n).ctb = p.ctb := by simp [Part.raiseOn]

/-! ### The slots' operations -/

/-- The table at cold start. -/
theorem tableLaw_cold : Ctb.cold.TableLaw := Ctb.tableLaw_of_lawful (by decide +kernel)

/-- An action in MISMATCH is one on the card seen. -/
theorem of_inMismatch {act : Card → Except Status Part} {q : Part} (e : p.inMismatch i act = .ok q) : ∃ c, act c = .ok q := by
  unfold Part.inMismatch at e
  split at e
  · exact ⟨_, e⟩
  · cases e

section

variable (h : p.ctb.TableLaw)
include h

theorem tableLaw_darken (boot : Timer) : (p.darken i boot).ctb.TableLaw := by
  rw [(darken_spec boot).2.2]
  exact h.treat Ctb.keepsRefused_lossFate i

theorem tableLaw_powerOff (st : SlotState) (off : Timer) : (p.powerOff i st off).ctb.TableLaw := by
  simpa [Part.powerOff] using h.treat Ctb.keepsRefused_powerOffFate i

/-- A counted failure keeps the laws where what its own rule does below the limit keeps them (R68). -/
theorem tableLaw_failed (k : Option FaultKind) {onward : Part → Part}
    (ho : ∀ q : Part, q.ctb = p.ctb → (onward q).ctb.TableLaw) : (p.failed i k onward).ctb.TableLaw := by
  rw [failed_eq]
  split
  · exact tableLaw_powerOff (by exact h) _ _
  · exact ho _ rfl

theorem tableLaw_cardLost (k : Option FaultKind) : (p.cardLost i k).ctb.TableLaw := by
  unfold Part.cardLost
  split
  case h_7 | h_8 | h_9 | h_10 => exact h
  all_goals exact tableLaw_failed h k fun q e => tableLaw_darken (e ▸ h) _

theorem tableLaw_cycleFailed (k : Option FaultKind) : (p.cycleFailed i k).ctb.TableLaw :=
  tableLaw_failed h k fun _ e => tableLaw_powerOff (e ▸ h) _ _

theorem tableLaw_alignFailed : (p.alignFailed i).ctb.TableLaw :=
  tableLaw_failed h _ fun q e => by rw [callAlign_ctb, e]; exact h

theorem tableLaw_enterRelinking : (p.enterRelinking i).ctb.TableLaw := by
  simpa [Part.enterRelinking] using h.treat (Ctb.keepsRefused_moveFate _ (by decide)) i

theorem tableLaw_classify : (p.classify i).ctb.TableLaw := by
  have hm : (p.ctb.treat (moveFate .live .suspended) i).TableLaw :=
    h.treat (Ctb.keepsRefused_moveFate _ (by decide)) i
  unfold Part.classify
  split
  · exact h
  · split
    · split
      · simpa using hm
      · simpa using h
    · simpa using hm

theorem tableLaw_rebootSeen (n : BitVec 8) : (p.rebootSeen i n).ctb.TableLaw :=
  tableLaw_failed h _ fun q e => by
    simpa [e] using (h.treat Ctb.keepsRefused_lossFate i).treat (Ctb.keepsRefused_moveFate .live (b := .suspended) (by decide)) i

theorem tableLaw_alignOutcome (f : PollFields) (n : Nat) : (p.alignOutcome i f n).ctb.TableLaw := by
  unfold Part.alignOutcome
  split
  · split
    · split
      · simpa using h
      · exact tableLaw_enterRelinking h
    · exact tableLaw_alignFailed h
    all_goals exact h
  · exact h

theorem tableLaw_actOnReply (f : PollFields) (n : Nat) : (p.actOnReply i f n).ctb.TableLaw := by
  unfold Part.actOnReply
  split
  · split
    · exact tableLaw_classify h
    · exact h
  · exact tableLaw_alignOutcome h f n
  case h_7 => split <;> exact h
  case h_8 | h_9 | h_10 => exact h
  all_goals
    split
    · exact tableLaw_cardLost h _
    · split
      · exact tableLaw_rebootSeen h _
      · exact h

theorem tableLaw_takeGoodPoll (f : PollFields) (n : Nat) : (p.takeGoodPoll i f n).ctb.TableLaw := by
  rw [takeGoodPoll_eq rfl]
  split
  · unfold Part.fatalReply
    split
    · exact tableLaw_cycleFailed (by exact h) _
    · exact h
  · exact tableLaw_actOnReply (by exact h) f n

theorem tableLaw_insert : (p.insert i).ctb.TableLaw := by
  unfold Part.insert
  simp only
  split <;> simpa using h

theorem tableLaw_remove : (p.remove i).ctb.TableLaw := by
  unfold Part.remove
  simp only
  split
  · exact h
  · split
    · rw [follow_ctb]
      exact tableLaw_powerOff (by exact h) _ _
    · simpa using h

theorem tableLaw_bootExpiry : (p.bootExpiry i).ctb.TableLaw := by
  unfold Part.bootExpiry
  split
  · rw [follow_ctb]
    exact tableLaw_cycleFailed h _
  · exact h

theorem tableLaw_alignExpiry : (p.alignExpiry i).ctb.TableLaw := by
  unfold Part.alignExpiry
  split
  · rw [follow_ctb]
    exact tableLaw_alignFailed h
  · exact h

theorem tableLaw_deadlineExpiry (x : Handle) : (p.deadlineExpiry i x).ctb.TableLaw := by
  unfold Part.deadlineExpiry
  split
  · rw [follow_ctb]
    exact tableLaw_cardLost h _
  · exact h

/-! ### Replies -/

theorem tableLaw_missedReply (e : Exchange) : (p.missedReply e).ctb.TableLaw := by
  have hm : (p.countMiss e.slot).ctb.TableLaw := by
    unfold Part.countMiss
    split
    · simp only
      split
      · exact tableLaw_cardLost (by exact h) _
      · exact h
    · exact h
  unfold Part.missedReply
  simp only
  split
  · unfold Part.retryEngine
    split
    · exact hm
    · split
      · simp only
        split
        · exact tableLaw_cardLost (by exact hm) _
        · exact hm
      · exact hm
  · exact hm

theorem tableLaw_loadCompleted (x : Handle) (res : Result) : (p.loadCompleted i x res).ctb.TableLaw := by
  unfold Part.loadCompleted
  split
  · exact h
  · rename_i r hn
    have er := (Ctb.named_eq_some.1 hn).2
    split
    · exact h.free _
    · rename_i r' ho
      have hput : (p.ctb.put x.index r').TableLaw := by
        cases res with
        | done =>
          cases ho
          split
          · exact h.put_to er fun e => by cases e
          · split <;> exact h.put_to er fun e => by cases e
        | failed =>
          simp only [loadOutcome] at ho
          split at ho
          · cases ho
          · cases ho
            split
            · exact h.put_to er fun e => by cases e
            · exact h.put_refuse er _
      simp only
      split <;> exact hput

theorem tableLaw_completion (c : Handle × Result) : (p.completion i c).ctb.TableLaw := by
  unfold Part.completion
  split
  · simpa using h
  · simp only [follow_ctb, linkedTest_ctb]
    split
    · exact tableLaw_loadCompleted (by exact h) _ _
    · exact h.free _

theorem tableLaw_takePoll (f : PollFields) (n : Nat) : (p.takePoll i f n).ctb.TableLaw := by
  have hc : (Part.completions i f.completions p).1.ctb.TableLaw := by
    rw [(completions_eq i f.completions p).1]
    exact List.foldlRecOn (motive := fun q : Part => q.ctb.TableLaw) _ _ h fun q hq c _ => tableLaw_completion hq c
  unfold Part.takePoll
  simp only
  split
  · exact tableLaw_cardLost hc _
  · exact tableLaw_takeGoodPoll hc f n

theorem tableLaw_refuseLoad (x : Handle) (why : RefuseReason) : (p.refuseLoad i x why).ctb.TableLaw := by
  unfold Part.refuseLoad
  simp only [linkedTest_ctb]
  cases why with
  | queueFull => exact h.upd_to _ (by decide)
  | channelRejected => exact h.upd_refuse _ _
  | legRejected => exact h.upd_refuse _ _

theorem tableLaw_takeDigest (d : Digest) : (p.takeDigest i d).ctb.TableLaw := by
  unfold Part.takeDigest
  split
  · split
    · exact tableLaw_enterRelinking h
    · simpa [Part.auditMismatch] using h
  · exact h

theorem tableLaw_auditCleared : (p.auditCleared i).ctb.TableLaw := by
  unfold Part.auditCleared
  split
  · exact tableLaw_enterRelinking (h.treat (Ctb.keepsRefused_moveFate _ (by decide)) i)
  · exact h

theorem tableLaw_goodReply (e : Exchange) (r : Reply) : (p.goodReply e r).ctb.TableLaw := by
  unfold Part.goodReply
  simp only
  split
  · exact tableLaw_takePoll (by exact h) _ _
  · exact h
  · exact tableLaw_auditCleared (by exact h)
  · exact tableLaw_takeDigest (by exact h) _
  · exact tableLaw_refuseLoad (by exact h) _ _
  · exact h
  · exact h

/-- The end of an exchange keeps the laws where its handling does. -/
theorem tableLaw_withExchange {handle : Exchange → Part → Part}
    (hh : ∀ e (q : Part), q.ctb.TableLaw → (handle e q).ctb.TableLaw) : (p.withExchange g handle).ctb.TableLaw := by
  unfold Part.withExchange
  split
  · exact h
  · unfold Part.endExchange
    simp only
    split
    · simpa using h
    · rw [follow_ctb, restartPoll_ctb]
      exact hh _ _ (by simpa using h)

theorem tableLaw_takeReply (r : SlotReply) : (p.takeReply g r).ctb.TableLaw :=
  tableLaw_withExchange h fun e q hq => by
    split
    · exact tableLaw_missedReply (by simpa using hq) e
    · exact tableLaw_goodReply hq e _

/-! ### The supply -/

theorem tableLaw_eachSlot {f : SlotId → Part → Part} (hf : ∀ i (q : Part), q.ctb.TableLaw → (f i q).ctb.TableLaw) :
    (p.eachSlot f).ctb.TableLaw :=
  List.foldlRecOn (motive := fun q : Part => q.ctb.TableLaw) _ _ h fun q hq i _ => hf i q hq

theorem tableLaw_enterSag (fresh : Bool) : (p.enterSag fresh).ctb.TableLaw := by
  have hb : (p.beginSag fresh).ctb.TableLaw := by
    unfold Part.beginSag
    split <;> exact h
  simp only [Part.enterSag, follow_ctb, onFbu_ctb]
  refine tableLaw_eachSlot hb fun i q hq => ?_
  unfold Part.sagSlot
  split
  case h_7 | h_8 | h_9 | h_10 => exact hq
  all_goals exact tableLaw_darken hq _

theorem tableLaw_enterOutage : p.enterOutage.ctb.TableLaw := by
  rw [Part.enterOutage, follow_ctb, onFbu_ctb]
  refine tableLaw_eachSlot (by exact h) fun i q hq => ?_
  unfold Part.outageSlot
  split
  · exact tableLaw_powerOff hq _ _
  · exact hq

theorem tableLaw_enterRecovery : p.enterRecovery.ctb.TableLaw := by
  unfold Part.enterRecovery
  simp only [follow_ctb]
  refine tableLaw_eachSlot (by split <;> exact h) fun i q hq => ?_
  unfold Part.recoverSlot
  split
  · split
    · exact hq
    · exact tableLaw_classify hq
  · exact hq

theorem tableLaw_supplyRule : p.supplyRule.ctb.TableLaw := by
  have rule : ∀ q : Part, q.ctb.TableLaw → q.sagRule.ctb.TableLaw := fun q hq => by
    unfold Part.sagRule
    split
    · exact tableLaw_enterOutage hq
    · split <;> exact hq
  unfold Part.supplyRule
  split
  case h_3 => exact rule p h
  case h_4 => split <;> exact h
  all_goals
    split
    · exact rule _ (tableLaw_enterSag h _)
    · exact h

theorem tableLaw_sample (code : Nat) : (p.sample code).ctb.TableLaw := by
  have hr : ((p.onSpm fun m => (m.hear.startSettle p.cfg.supply).measure p.cfg.supply code).supplyRule).ctb.TableLaw :=
    tableLaw_supplyRule (by exact h)
  unfold Part.sample
  simp only
  split
  · rw [recoveryTest_ctb]
    exact hr
  · exact hr

theorem tableLaw_rampTick : p.rampTick.ctb.TableLaw := by
  unfold Part.rampTick
  split
  · simp only
    split
    · exact h
    · rw [recoveryTest_ctb]
      exact h
  · exact h

/-! ### Selection -/

theorem tableLaw_selection : p.selection.ctb.TableLaw := by
  unfold Part.selection
  split
  · split
    · unfold Part.issue
      split
      · exact h
      · rename_i er
        simpa [Part.enqueue] using h.put_to er fun e => by cases e
    · exact h
    · exact h
  · exact h

/-! ### Requests -/

/-- A request keeps the laws where carrying it out does. -/
theorem tableLaw_request {l : Link} {fits change : Bool} {run : Part → Answer}
    (hr : (run p).1.ctb.TableLaw) : (p.request l fits change run).ctb.TableLaw := by
  unfold Part.request
  split
  · simpa using h
  · split
    · simpa using h
    · split
      · simpa using h
      · simpa using hr

theorem tableLaw_establish (body : List Byte) : (p.establish body).1.ctb.TableLaw := by
  unfold Part.establish
  split
  · exact h
  · rename_i q hq
    split
    · exact h
    · exact h
    · rename_i hc hk
      refine h.establish (fits_of_establishCheck h hc hk (legs_of_readEstablish hq) ?_)
      unfold Part.waitingState
      split <;> decide

theorem tableLaw_modify (body : List Byte) : (p.modify body).1.ctb.TableLaw := by
  unfold Part.modify
  split
  · exact h
  · rename_i q hq
    split
    · exact h
    · rename_i hn
      split
      · exact h
      · exact tableLaw_modifyAt h hn ‹_› (legs_of_readModify hq)

theorem tableLaw_onNamed {w : WireHandle} {run : Handle → Rec → Part → Answer}
    (hr : ∀ x r, p.ctb.get x.index = some r → (run x r p).1.ctb.TableLaw) : (p.onNamed w run).1.ctb.TableLaw := by
  unfold Part.onNamed
  split
  · exact h
  · split
    · exact h
    · rename_i hn
      exact hr _ _ (Ctb.named_eq_some.1 hn).2

theorem tableLaw_retire {x : Handle} {r : Rec} (e : p.ctb.get x.index = some r) : (p.retire x r).1.ctb.TableLaw := by
  have hf : (((p.onCtb (Ctb.free x.index)).linkedTest r.slot).follow).ctb.TableLaw := by
    rw [follow_ctb, linkedTest_ctb]
    exact h.free _
  show (p.retireAt x r).ctb.TableLaw
  unfold Part.retireAt
  simp only
  split
  case h_4 =>
    split
    · rw [follow_ctb]
      exact h.put_to e fun e => by cases e
    · exact hf
  case h_5 hs => exact h.put e ⟨rfl, rfl, rfl, rfl⟩ rfl ⟨fun hn => absurd hs hn, (h.flags _ r e).2⟩
  case h_6 => exact h
  all_goals exact hf

theorem tableLaw_revive {x : Handle} {r : Rec} (e : p.ctb.get x.index = some r) : (p.revive x r).1.ctb.TableLaw := by
  unfold Part.revive
  split
  · rename_i hs
    exact h.put_to e fun _ => hs
  · exact h

theorem tableLaw_listRecords (cls filter : Byte) (cursor : WireHandle) : (p.listRecords cls filter cursor).1.ctb.TableLaw := by
  unfold Part.listRecords
  simp only
  split
  · exact h
  · split
    · exact h
    · split
      · exact h
      · refine tableLaw_onNamed h fun x r _ => ?_
        split <;> exact h

/-- A slot action keeps the laws where its accepted change does. -/
theorem tableLaw_actionRequest {l : Link} {act : SlotId → Part → Except Status Part} {slot : Byte}
    (ha : ∀ i q, act i p = .ok q → q.ctb.TableLaw) : (p.actionRequest l act slot).ctb.TableLaw := by
  refine tableLaw_request h ?_
  unfold Part.slotAction
  split
  · exact h
  · split
    · exact h
    · exact ha _ _ ‹_›

variable {q : Part}

theorem tableLaw_park (e : Part.park i p = .ok q) : q.ctb.TableLaw := by
  unfold Part.park at e
  simp only at e
  split at e <;> simp only [Except.ok.injEq, reduceCtorEq] at e <;> subst e
  case h_4 | h_5 =>
    rw [follow_ctb]
    exact tableLaw_powerOff (by exact h) _ _
  all_goals simpa using h

theorem tableLaw_unpark (e : Part.unpark i p = .ok q) : q.ctb.TableLaw := by
  exact Except.ok.inj e ▸ h

theorem tableLaw_holdSlot (e : Part.holdSlot i p = .ok q) : q.ctb.TableLaw := by
  unfold Part.holdSlot at e
  simp only at e
  split at e <;> simp only [Except.ok.injEq] at e <;> subst e
  case h_1 | h_2 | h_3 => simpa using h.treat Ctb.keepsRefused_powerOffFate i
  all_goals exact h

theorem tableLaw_releaseHold (e : Part.releaseHold i p = .ok q) : q.ctb.TableLaw := by
  unfold Part.releaseHold at e
  simp only at e
  split at e
  · split at e <;> simp only [Except.ok.injEq, reduceCtorEq] at e
    subst e
    rw [follow_ctb]
    exact tableLaw_enterRelinking (by exact h)
  · cases e
    exact h

theorem tableLaw_adopt (e : Part.adopt i p = .ok q) : q.ctb.TableLaw := by
  obtain ⟨c, e⟩ := of_inMismatch e
  split at e <;> simp only [Except.ok.injEq, reduceCtorEq] at e
  subst e
  simpa using h

theorem tableLaw_vacate (e : Part.vacate i p = .ok q) : q.ctb.TableLaw := by
  obtain ⟨c, e⟩ := of_inMismatch e
  rw [← Except.ok.inj e]
  simpa using h.treat Ctb.keepsRefused_freeFate i

theorem tableLaw_clearFault (e : Part.clearFault i p = .ok q) : q.ctb.TableLaw := by
  unfold Part.clearFault at e
  split at e <;> simp only [Except.ok.injEq, reduceCtorEq] at e
  subst e
  simpa using h

theorem tableLaw_auditSlot (e : Part.auditSlot i p = .ok q) : q.ctb.TableLaw := by
  unfold Part.auditSlot at e
  split at e <;> simp only [Except.ok.injEq, reduceCtorEq] at e
  subst e
  simpa using h.treat (Ctb.keepsRefused_moveFate _ (by decide)) i

theorem tableLaw_cyclePower (e : Part.cyclePower i p = .ok q) : q.ctb.TableLaw := by
  unfold Part.cyclePower at e
  split at e <;> simp only [Except.ok.injEq, reduceCtorEq] at e <;> subst e
  all_goals
    rw [follow_ctb]
    exact tableLaw_powerOff h _ _

/-! ### Resets -/

theorem tableLaw_warmReset : p.warmReset.ctb.TableLaw := by
  unfold Part.warmReset
  simp only [arbitrate_ctb, mapSlots_ctb]
  refine tableLaw_eachSlot (h.treatAll Ctb.keepsRefused_lossFate) fun i q hq => ?_
  split
  · exact hq.treat Ctb.keepsRefused_powerOffFate i
  · exact hq

end

/-! ### Commands -/

/-- What the end of a request's transfer does keeps the laws. -/
theorem tableLaw_asked (c : Instr) {p : Part} (h : p.ctb.TableLaw) : (Part.asked c p).ctb.TableLaw := by
  cases c <;> simp only [Part.asked]
  case establish l body => exact tableLaw_request h (tableLaw_establish h body)
  case modify l body => exact tableLaw_request h (tableLaw_modify h body)
  case retire l w => exact tableLaw_request h (tableLaw_onNamed h fun _ _ e => tableLaw_retire h e)
  case revive l w => exact tableLaw_request h (tableLaw_onNamed h fun _ _ e => tableLaw_revive h e)
  case lookup l w => exact tableLaw_request h (tableLaw_onNamed h fun _ _ _ => h)
  case findChannel l slot channel =>
    refine tableLaw_request h ?_
    unfold Part.findChannel
    split <;> exact h
  case findTimeslot l highway timeslot =>
    refine tableLaw_request h ?_
    unfold Part.findTimeslot
    split <;> exact h
  case list l cls filter cursor => exact tableLaw_request h (tableLaw_listRecords h cls filter cursor)
  case park l slot => exact tableLaw_actionRequest h fun i q e => tableLaw_park h e
  case unpark l slot => exact tableLaw_actionRequest h fun i q e => tableLaw_unpark h e
  case hold l slot => exact tableLaw_actionRequest h fun i q e => tableLaw_holdSlot h e
  case releaseHold l slot => exact tableLaw_actionRequest h fun i q e => tableLaw_releaseHold h e
  case adopt l slot => exact tableLaw_actionRequest h fun i q e => tableLaw_adopt h e
  case vacate l slot => exact tableLaw_actionRequest h fun i q e => tableLaw_vacate h e
  case clearFault l slot => exact tableLaw_actionRequest h fun i q e => tableLaw_clearFault h e
  case audit l slot => exact tableLaw_actionRequest h fun i q e => tableLaw_auditSlot h e
  case powerCycle l slot => exact tableLaw_actionRequest h fun i q e => tableLaw_cyclePower h e
  case slotSet l slot rank phase =>
    refine tableLaw_request h ?_
    unfold Part.setSlotKeys
    split <;> exact h
  case profileSet l f =>
    refine tableLaw_request h ?_
    unfold Part.setProfile
    split <;> exact h
  case busSet l f =>
    refine tableLaw_request h ?_
    simp only [Part.setBus, arbitrate_ctb]
    exact tableLaw_eachSlot (by exact h) fun i q hq => hq
  case budgetSet l f => exact tableLaw_request h (by simpa [Part.setBudget] using h)
  case supplySet l f => exact tableLaw_request h h
  case status l => exact tableLaw_request h h
  case notices l clear => exact tableLaw_request h (by simpa [Part.readNotices] using h)
  case noticeMask l mask => exact tableLaw_request h (by simpa [Part.setMask] using h)
  case captureQuery l => exact tableLaw_request h h
  case captureClear l => exact tableLaw_request h h
  case claim l =>
    refine tableLaw_request h ?_
    unfold Part.claim
    split
    · simpa using h
    · split <;> simpa using h
  case release l =>
    refine tableLaw_request h ?_
    unfold Part.release
    split
    · split <;> simpa using h
    · simpa using h
  case takeover l =>
    refine tableLaw_request h ?_
    unfold Part.takeover
    simp only
    split <;> split <;> simpa using h
  case reset l =>
    unfold Part.resetRequest
    split
    · simpa using h
    · split
      · simpa using h
      · exact tableLaw_warmReset (by simpa using h)
  all_goals exact h

/-- A transfer keeps the laws where what its end does keeps them. -/
theorem tableLaw_transfer {p : Part} (h : p.ctb.TableLaw) (l : Link) (bytes : List Byte) {ends : Part → Part}
    (he : (ends p).ctb.TableLaw) : (p.transfer l bytes ends).ctb.TableLaw := by
  rcases transfer_cases l bytes ends p with ⟨e, -⟩ | ⟨e, -⟩ | ⟨e, -⟩ <;> rw [e]
  · simpa using h
  · exact h
  · exact he

theorem tableLaw_sent {p : Part} (h : p.ctb.TableLaw) (c : Instr) {ends : Part → Part}
    (he : (ends p).ctb.TableLaw) : (p.sent c ends).ctb.TableLaw := by
  unfold Part.sent
  split
  · exact h
  · exact tableLaw_transfer h _ _ he

theorem tableLaw_takeTransfer {p : Part} (h : p.ctb.TableLaw) (l : Link) (kind : Byte) (bytes : List Byte) :
    (p.takeTransfer l kind bytes).ctb.TableLaw := by
  unfold Part.takeTransfer
  split
  · exact tableLaw_transfer h _ _ (by simpa using h)
  · split
    · exact tableLaw_transfer h _ _ (tableLaw_request h h)
    · exact tableLaw_transfer h _ _ (tableLaw_request h h)
    · split
      · rename_i hd
        have he := encodeRequest_decodeRequest hd
        rw [runRequest_eq (by rw [he]; rfl), effect_request (by rw [he]; rfl)]
        exact tableLaw_sent h _ (tableLaw_asked _ h)
      · exact tableLaw_transfer h _ _ (tableLaw_request h h)

theorem tableLaw_stayOpen {p : Part} (h : p.ctb.TableLaw) (l : Link) (bytes : List Byte) :
    (p.stayOpen l bytes).ctb.TableLaw := by
  unfold Part.stayOpen
  split
  · unfold Part.underSelect
    simp only [updLink_ctb]
    split
    · simpa using h
    · split <;> simpa using h
  · exact h

/-- Every command keeps the laws of the table. -/
theorem tableLaw_effect (c : Instr) {p : Part} (h : p.ctb.TableLaw) : (Part.effect c p).ctb.TableLaw := by
  by_cases hc : (encodeRequest c).isSome = true
  · rw [effect_request hc]
    exact tableLaw_sent h c (tableLaw_asked c h)
  cases c <;> simp only [encodeRequest, Option.isSome_some, not_true_eq_false] at hc <;> simp only [Part.effect]
  case coldStart => exact tableLaw_cold
  case resetN => exact tableLaw_warmReset h
  case insertion i => exact tableLaw_insert h
  case removal i => exact tableLaw_remove h
  case statusRead x =>
    cases x.held with
    | none => exact tableLaw_transfer h _ _ (by simpa using h)
    | some bytes => exact tableLaw_stayOpen h _ bytes
  case responseRead l n => exact tableLaw_sent h _ (by simpa using h)
  case requestDiscarded l kind bytes => exact tableLaw_takeTransfer h l kind bytes
  case badFrame l kind bytes => exact tableLaw_takeTransfer h l kind bytes
  case unknownRequest l code fields => exact tableLaw_takeTransfer h l _ _
  case supplySample code => exact tableLaw_sample h _
  case signalLoss =>
    unfold Part.signalLoss
    split <;> exact h
  case settleTimerExpiry =>
    unfold Part.settleExpiry
    split
    · exact tableLaw_enterRecovery h
    · exact h
  case budgetTick => exact tableLaw_rampTick (by simpa [Part.age, Part.decayAll] using h)
  case bringUpStallExpiry => split <;> exact h
  case loadStallExpiry => split <;> exact h
  case bringUpTrial =>
    unfold Part.trial
    split
    · rw [trials_ctb]
      exact h
    · exact h
  case selection => exact tableLaw_selection h
  case bootTimerExpiry i => exact tableLaw_bootExpiry h
  case alignTimerExpiry i => exact tableLaw_alignExpiry h
  case offTimerExpiry i =>
    unfold Part.offExpiry
    split <;> exact h
  case stableTimerExpiry i =>
    unfold Part.stableExpiry
    split <;> exact h
  case pollTimerExpiry i =>
    unfold Part.pollExpiry
    split
    · simpa using h
    · exact h
  case completionTimeout i index gen => exact tableLaw_deadlineExpiry h _
  case exchangeOpen g => simpa using h
  case replyWindowClose g => exact tableLaw_withExchange h fun e q hq => tableLaw_missedReply hq e
  all_goals exact tableLaw_takeReply h _

/-- Settles O55: each operation over the table keeps its laws (`Ctb.TableLaw.free`, `put`, `treat`, `establish`, `rewrite`,
`repartner`), each command is made of them, and a law that every command keeps is kept by every step. -/
theorem tableLawsKept : Obligations.TableLawsKept := fun _ _ =>
  kept_by_step (Inv := fun p => p.ctb.TableLaw) fun c _ h => tableLaw_effect c h

end Sys2Proof.Machine
end

section
namespace Sys2Proof.Machine

/-! ### Requests with an argument out of range (R5, R37, R41, R42, R50, R52, R74) -/

section

variable {s : State} {l : Link}

/-- A slot action on a slot above 23 is refused BAD_FIELD (R74). -/
theorem slotAction_badField {c : Instr} {act : SlotId → Part → Except Status Part} {slot : Byte} (h : s.part.Heeds l)
    (hs : 24 ≤ slot.toNat) (he : exec c s = .next (s.lift (Part.sent c (Part.actionRequest l act slot))))
    (hc : (encodeRequest c).map Prod.fst = some l := by rfl) : Refuses c l s .badField := by
  refine refuses_change h he ?_ hc
  unfold Part.slotAction
  rw [fin?_none hs]

/-- A handle that is stale names no record (R5). -/
theorem named_none {t : Ctb} {h : Handle} (hs : t.get h.index = none ∨ t.gen h.index ≠ h.gen) : t.named h = none := by
  unfold Ctb.named
  rcases hs with hs | hs
  · rw [hs, ite_self]
  · rw [if_neg hs]

end

/-- Settles O10: each request that carries such an argument runs one range check ahead of everything else it does. -/
theorem argumentsChecked : Obligations.ArgumentsChecked := by
  refine ⟨fun s l w => ⟨fun h hb => ?_, fun h hb => ?_, ?_, ?_⟩, fun s l slot h => ⟨fun hs => ⟨?_, fun rank phase => ?_⟩,
    fun f hf => ?_⟩⟩
  · have hw := handleOf_none hb
    exact ⟨refuses_change h rfl (onNamed_bad hw), refuses_change h rfl (onNamed_bad hw)⟩
  · exact refuses_plain h rfl (onNamed_bad (handleOf_none hb))
  · rintro h ⟨x, rfl, hx⟩
    have hn := named_none hx
    exact ⟨refuses_change h rfl (onNamed_stale hn), refuses_change h rfl (onNamed_stale hn)⟩
  · rintro h ⟨x, rfl, hx⟩
    exact refuses_plain h rfl (onNamed_stale (named_none hx))
  · intro c hc
    simp only [List.mem_cons, List.not_mem_nil, or_false] at hc
    rcases hc with rfl | rfl | rfl | rfl | rfl | rfl | rfl | rfl | rfl <;> exact slotAction_badField h hs rfl
  · refine refuses_change h rfl ?_
    unfold Part.setSlotKeys
    rw [fin?_none hs]
  · refine refuses_change h rfl ?_
    unfold Part.setProfile
    rw [fin?_none hf]

end Sys2Proof.Machine
end

section
namespace Sys2Proof.Machine

/-! ### A REFUSE (R96) -/

variable {p : Part} {g : SegId} {e : Exchange} {s : State}

/-- A REFUSE from the slot of the exchange, whose frame it may answer, is taken as a good reply (R87, R96). -/
theorem exec_refuse {code : Byte} {why : RefuseReason} (hp : (s.part.seg g).inProgress = some e) (ho : e.orphan = false)
    (hw : refuseReasonOf code = some why) (he : expects e.frame (.refuse why) = true) (hf : e.frame ≠ .poll) :
    exec (.refuse g (byteOf e.slot.val) code) s =
      .next ⟨((s.part.idled g e).goodReply e (.refuse why)).follow, s.pending⟩ := by
  have hr : refuseReply (byteOf e.slot.val) code = some (e.slot, .refuse why) := by
    unfold refuseReply slotReply
    rw [fin?_byteOf (by decide), hw]
    rfl
  have hj : judge e (some (e.slot, .refuse why)) = .ok (.refuse why) := by
    unfold judge
    simp [he]
  refine exec_next ?_
  simp only [Part.effect, hr]
  rw [takeReply_good hp ho hj, polled_of_ne hf]

/-- A REFUSE with QUEUE_FULL leaves a window of the entries that are left, or 1 (R96). -/
theorem lowerWindow_eq (x : Slot) : x.lowerWindow = { x with window := max 1 x.inflight.length } := by
  unfold Slot.lowerWindow Slot.outstanding
  congr 1
  split <;> omega

theorem goodReply_refuseLoad {h : Handle} {c : Channel} {legs : List Leg} (hf : e.frame = .load h c legs)
    (why : RefuseReason) :
    p.goodReply e (.refuse why) = (p.updSlot e.slot Slot.heard).refuseLoad e.slot h why := by
  simp only [Part.goodReply, hf]

theorem goodReply_refuseDrop {h : Handle} (hf : e.frame = .drop h) (why : RefuseReason) :
    p.goodReply e (.refuse why) = (p.updSlot e.slot Slot.heard).refuseDrop e.slot h := by
  simp only [Part.goodReply, hf]

theorem upd_of_get {t : Ctb} {k : Index} {r : Rec} (h : t.get k = some r) (f : Rec → Rec) : t.upd k f = t.put k (f r) := by
  unfold Ctb.upd
  rw [h]

/-- A LOAD refused with QUEUE_FULL, where the removal of its entry leaves slot `y` (R96). -/
theorem refuseLoad_queueFull {q : Part} {i : SlotId} {h : Handle} {y : Slot} {r : Rec}
    (hy : q.removeEntry i h = p.setSlot i y) (hr : p.ctb.get h.index = some r) :
    q.refuseLoad i h .queueFull = (({ p with ctb := p.ctb.put h.index (r.to .pending) } : Part).setSlot i
      { y with window := max 1 y.inflight.length }).linkedTest i := by
  simp only [Part.refuseLoad, hy]
  rw [updSlot_eq, slot_onCtb, slot_setSlot_self, lowerWindow_eq, ← upd_of_get hr]
  congr 1
  exact setSlot_setSlot (p := { p with ctb := p.ctb.upd h.index (Rec.to .pending) }) y _

/-- A LOAD refused for its channel or a leg (R96). -/
theorem refuseLoad_rejected {q : Part} {i : SlotId} {h : Handle} {y : Slot} {r : Rec}
    (hy : q.removeEntry i h = p.setSlot i y) (hr : p.ctb.get h.index = some r) {reason : RefuseReason} {why : Reason}
    (hw : reason = .channelRejected ∧ why = .channelRejected ∨ reason = .legRejected ∧ why = .legRejected) :
    q.refuseLoad i h reason = (({ p with
      ctb := p.ctb.put h.index (r.refuse why)
      linkA := { p.linkA with pending := p.linkA.pending ||| Notice.recordRefused.flag }
      linkB := { p.linkB with pending := p.linkB.pending ||| Notice.recordRefused.flag } } : Part).setSlot i y).linkedTest i := by
  rw [← upd_of_get hr]
  rcases hw with ⟨rfl, rfl⟩ | ⟨rfl, rfl⟩ <;>
    (simp only [Part.refuseLoad, hy]
     rfl)

/-- Settles O52: a REFUSE is a good reply, whose entry leaves the in-flight list; its record is written in place. -/
theorem refusesTaken : Obligations.RefusesTaken := by
  intro s g e p i p₀ x left y lowered hp ho
  have removed (h : Handle) : (p₀.updSlot i Slot.heard).removeEntry i h = p₀.setSlot i (y h) := by
    have hcfg : p₀.cfg = p.cfg := idled_cfg
    rw [Part.removeEntry, setInflight_eq, updSlot_eq, slot_setSlot_self, setSlot_setSlot, setSlot_cfg, hcfg]
    rfl
  refine ⟨fun h c legs r hf hr => ?_, fun h hf => ?_⟩
  · have hr : p₀.ctb.get h.index = some r := by rw [idled_ctb, hr]
    have hpoll : e.frame ≠ .poll := by rw [hf]; exact nofun
    refine ⟨⟨p₀.ctb.put h.index (r.to .pending), by rw [idled_ctb]; exact rewritten_put, ?_⟩, ?_⟩
    · rw [exec_refuse hp ho (why := .queueFull) rfl (by rw [hf]; rfl) hpoll, goodReply_refuseLoad hf,
        refuseLoad_queueFull (removed h) hr]
    · intro code why hcode
      refine ⟨p₀.ctb.put h.index (r.refuse why), by rw [idled_ctb]; exact rewritten_put, ?_⟩
      obtain ⟨reason, hreason, hw⟩ : ∃ reason, refuseReasonOf code = some reason ∧
          (reason = .channelRejected ∧ why = .channelRejected ∨ reason = .legRejected ∧ why = .legRejected) := by
        rcases hcode with ⟨rfl, rfl⟩ | ⟨rfl, rfl⟩
        · exact ⟨_, rfl, .inl ⟨rfl, rfl⟩⟩
        · exact ⟨_, rfl, .inr ⟨rfl, rfl⟩⟩
      rw [exec_refuse hp ho hreason (by rw [hf]; rfl) hpoll, goodReply_refuseLoad hf, refuseLoad_rejected (removed h) hr hw]
  · rw [exec_refuse hp ho (why := .queueFull) rfl (by rw [hf]; rfl) (by rw [hf]; exact nofun), goodReply_refuseDrop hf,
      Part.refuseDrop, removed, updSlot_eq, slot_setSlot_self, setSlot_setSlot, lowerWindow_eq]

end Sys2Proof.Machine
end

section
namespace Sys2Proof.Machine

/-! ### Resets -/

theorem slot_coldStart (p : Part) (i : SlotId) : p.coldStart.slot i = Slot.cold (p.slot i).seated := by
  simp [Part.coldStart, Part.slot]

/-- A part at cold start, whatever slots had a card seated, draws no load: no enable is driven, no slot has a charge and no record
stands (R23, R81, R159). -/
theorem demand_coldStart (p : Part) : p.coldStart.committed = 0 ∧ p.coldStart.demand = 0 := by
  have hbase : p.coldStart.baseDraw = fun _ => 0 := funext fun i => by
    unfold Part.baseDraw
    rw [slot_coldStart]
    cases (p.slot i).seated <;> rfl
  have hdraw : p.coldStart.ctb.draw = 0 := rfl
  have hcommitted : p.coldStart.committed = 0 := by
    simp [Part.committed, hbase, hdraw]
  refine ⟨hcommitted, ?_⟩
  simp [Part.demand, hcommitted, Part.inrushTotal, slot_coldStart, Slot.cold]

/-- Settles O53, field by field of the part at cold start. -/
theorem coldStartValues : Obligations.ColdStartValues := by
  intro s
  obtain ⟨hc, hd⟩ := demand_coldStart s.part
  refine ⟨s.part.coldStart, rfl, fun k => ⟨rfl, rfl⟩, fun c => by cases c <;> rfl, fun i => ?_, fun ty => ?_, rfl, rfl, rfl,
    fun g => ?_, rfl, rfl, rfl, hc, hd, ?_, ?_, rfl, rfl, fun l => by cases l <;> rfl⟩
  · rw [slot_coldStart]
    rfl
  · simp [Part.coldStart, Part.cold, Settings.cold, Profile.unknown]
  · cases g <;> exact ⟨rfl, rfl, fun c => by cases c <;> rfl⟩
  · rw [Part.headroom, hd]
    rfl
  · rw [Part.deficit, hd]
    rfl

end Sys2Proof.Machine
end

section
namespace Sys2Proof.Machine

/-! ### The treatments and the entries to SAG and OUTAGE (R55, R56, R71, R72) -/

/-- What a record sent to a state keeps, and what of it the state clears (R10, R11). -/
theorem to_spec (r : Rec) (st : RecState) : (r.to st).state = st ∧ (st ≠ .refused → (r.to st).reason = none) ∧
    (st ≠ .loading → (r.to st).reload = false ∧ (r.to st).retire = false) ∧
    (r.to st).cls = r.cls ∧ (r.to st).slot = r.slot ∧ (r.to st).channel = r.channel ∧ (r.to st).legs = r.legs ∧
    (r.to st).cost = r.cost ∧ (r.to st).partner = r.partner ∧ (r.to st).tag = r.tag := by
  refine ⟨rfl, fun hs => ?_, fun hs => ?_, rfl, rfl, rfl, rfl, rfl, rfl, rfl⟩
  · simp [Rec.to, hs]
  · simp [Rec.to, hs]

variable {p q : Part} {i : SlotId}

/-- SAG entry darkens a slot whose card may be lost (R71). -/
theorem sagSlot_lost (h : (p.slot i).enable = true ∧ (p.slot i).state ≠ .dark) : p.sagSlot i = p.darken i none := by
  obtain ⟨he, hd⟩ := h
  unfold Part.sagSlot
  unfold Slot.enable at he
  cases hs : (p.slot i).state <;> simp_all [SlotState.driven]

/-- SAG entry stops the boot timer of a DARK slot (R71). -/
theorem sagSlot_dark (h : (p.slot i).state = .dark) : p.sagSlot i = p.setSlot i { p.slot i with bootTimer := none } := by
  unfold Part.sagSlot
  rw [h]
  rfl

/-- SAG entry leaves a slot whose enable is withdrawn (R71). -/
theorem sagSlot_withdrawn (h : (p.slot i).enable = false) : p.sagSlot i = p := by
  unfold Part.sagSlot
  unfold Slot.enable at h
  cases hs : (p.slot i).state <;> simp_all [SlotState.driven]

/-- What SAG entry makes of a slot (R71). -/
def Slot.sagged (b : BusCfg) (x : Slot) : Slot :=
  if x.enable = true ∧ x.state ≠ .dark then x.darkened b none
  else if x.state = .dark then { x with bootTimer := none } else x

/-- What OUTAGE entry makes of a slot (R72). -/
def Slot.outaged (x : Slot) : Slot := if x.enable then x.withdrawn .off else x

/-- A slot rewritten, and nothing else, is a turn without a treatment. -/
theorem turn_setSlot {F : Fate} {on : Prop} (hn : ¬on) (y : Slot) : p.Turn F on y i (p.setSlot i y) where
  slot := by simp
  slots j hj := by rw [slot_setSlot, if_neg (Ne.symm hj)]
  treated h := absurd h hn
  kept _ := rfl
  law h := h
  cfg := rfl
  capture := rfl
  spm := rfl
  fbu := rfl
  running := rfl
  owner := rfl
  fillers := rfl

theorem turn_sagSlot (h : p.ctb.TableLaw) :
    p.Turn lossFate ((p.slot i).enable = true ∧ (p.slot i).state ≠ .dark) ((p.slot i).sagged p.cfg.bus) i (p.sagSlot i) := by
  by_cases hr : (p.slot i).enable = true ∧ (p.slot i).state ≠ .dark
  · obtain ⟨he, hs, hc⟩ := darken_spec (p := p) (i := i) none
    rw [sagSlot_lost hr, Slot.sagged, if_pos hr]
    refine he.turn hs (fun _ => ?_) (fun hn => absurd hr hn) fun h => tableLaw_darken h _
    rw [hc]
    exact Ctb.treated_treat Ctb.plain_lossFate Ctb.keepsRefused_lossFate h i
  · rw [Slot.sagged, if_neg hr]
    by_cases hd : (p.slot i).state = .dark
    · rw [sagSlot_dark hd, if_pos hd]
      exact turn_setSlot hr _
    · have he : (p.slot i).enable = false := by simpa [hd] using hr
      rw [sagSlot_withdrawn he, if_neg hd]
      conv => arg 6; rw [← setSlot_slot (p := p) (i := i)]
      exact turn_setSlot hr _

theorem turn_outageSlot (h : p.ctb.TableLaw) :
    p.Turn powerOffFate ((p.slot i).enable = true) (p.slot i).outaged i (p.outageSlot i) := by
  by_cases he : (p.slot i).enable = true
  · obtain ⟨hent, hs, hc⟩ := powerOff_spec (p := p) (i := i) (st := .off) rfl none
    rw [Part.outageSlot, if_pos he, Slot.outaged, if_pos he]
    refine hent.turn hs (fun _ => ?_) (fun hn => absurd he hn) fun h => tableLaw_powerOff h _ _
    rw [hc]
    exact Ctb.treated_treat Ctb.plain_powerOffFate Ctb.keepsRefused_powerOffFate h i
  · rw [Part.outageSlot, if_neg he, Slot.outaged, if_neg he]
    conv => arg 6; rw [← setSlot_slot (p := p) (i := i)]
    exact turn_setSlot he _

/-! ### Every slot at an entry -/

section

variable (p) (fresh : Bool)

@[simp] theorem beginSag_ctb : (p.beginSag fresh).ctb = p.ctb := by cases fresh <;> rfl
@[simp] theorem beginSag_cfg : (p.beginSag fresh).cfg = p.cfg := by cases fresh <;> rfl
@[simp] theorem beginSag_capture : (p.beginSag fresh).capture = p.capture := by cases fresh <;> rfl
@[simp] theorem beginSag_fbu : (p.beginSag fresh).fbu = p.fbu := by cases fresh <;> rfl
@[simp] theorem beginSag_owner : (p.beginSag fresh).owner = p.owner := by cases fresh <;> rfl
@[simp] theorem beginSag_fillers : (p.beginSag fresh).fillers = p.fillers := by cases fresh <;> rfl
@[simp] theorem beginSag_slot (i : SlotId) : (p.beginSag fresh).slot i = p.slot i := by cases fresh <;> rfl
@[simp] theorem beginSag_seg (g : SegId) : (p.beginSag fresh).seg g = p.seg g := by cases fresh <;> cases g <;> rfl

/-- A new episode raises SUPPLY_SAG (R123). -/
theorem beginSag_link (l : Link) :
    (p.beginSag fresh).link l = if fresh then (p.link l).raise .supplySag else p.link l := by
  cases fresh <;> cases l <;> rfl

end

/-- Every slot has its turn at a SAG entry (R71). -/
theorem turns_sag (h : p.ctb.TableLaw) (fresh : Bool) :
    (p.beginSag fresh).Turns lossFate (fun i => (p.slot i).enable = true ∧ (p.slot i).state ≠ .dark)
      (fun i => (p.slot i).sagged p.cfg.bus) allSlots ((p.beginSag fresh).eachSlot Part.sagSlot) :=
  turns_eachSlot Ctb.plain_lossFate (by simpa using h) fun i q hs hc _ hq => by
    rw [beginSag_slot] at hs
    rw [beginSag_cfg] at hc
    rw [← hs, ← hc]
    exact turn_sagSlot hq

/-- The frames that the entries to DARK end, at a SAG entry; no link hears of a slot (R80, R89, R90). -/
theorem stripped_sag (fresh : Bool) :
    (∀ g, ((p.beginSag fresh).eachSlot Part.sagSlot).seg g = (p.seg g).stripped (fun i => decide (segOf i = g) &&
      decide ((p.slot i).enable = true ∧ (p.slot i).state ≠ .dark)) .dark) ∧
    ∀ l, ((p.beginSag fresh).eachSlot Part.sagSlot).link l = (p.beginSag fresh).link l := by
  have := stripped_eachSlot (p := p.beginSag fresh) (st := .dark) (f := Part.sagSlot)
    (on := fun i => decide ((p.slot i).enable = true ∧ (p.slot i).state ≠ .dark)) (by decide) fun i q hs => by
      rw [beginSag_slot] at hs
      rw [← hs]
      by_cases hr : (q.slot i).enable = true ∧ (q.slot i).state ≠ .dark
      · refine .inl ⟨decide_eq_true hr, ?_⟩
        rw [sagSlot_lost hr]
        exact (darken_spec none).1
      · refine .inr ⟨decide_eq_false hr, ?_⟩
        by_cases hd : (q.slot i).state = .dark
        · rw [sagSlot_dark hd]
          exact ⟨fun j hj => by rw [slot_setSlot, if_neg (Ne.symm hj)], fun g => by simp, fun l => by simp⟩
        · rw [sagSlot_withdrawn (by simpa [hd] using hr)]
          exact ⟨fun _ _ => rfl, fun _ => rfl, fun _ => rfl⟩
  simpa only [beginSag_seg] using this

/-- The part as the monitor tells the other blocks of an outage (R124). -/
def Part.beginOutage (p : Part) : Part := (p.onSpm fun m => { m with state := .outage, deep := true }).raise .supplyOutage

/-- Every slot has its turn at an OUTAGE entry (R72). -/
theorem turns_outage (h : p.ctb.TableLaw) :
    p.beginOutage.Turns powerOffFate (fun i => (p.slot i).enable = true) (fun i => (p.slot i).outaged) allSlots
      (p.beginOutage.eachSlot Part.outageSlot) :=
  turns_eachSlot Ctb.plain_powerOffFate (by exact h) fun i q hs _ _ hq => by
    have hs : q.slot i = p.slot i := hs
    rw [← hs]
    exact turn_outageSlot hq

/-- The frames that the entries to OFF end, at an OUTAGE entry; no link hears of a slot (R80, R89, R90). -/
theorem stripped_outage :
    (∀ g, (p.beginOutage.eachSlot Part.outageSlot).seg g =
      (p.beginOutage.seg g).stripped (fun i => decide (segOf i = g) && (p.slot i).enable) .off) ∧
    ∀ l, (p.beginOutage.eachSlot Part.outageSlot).link l = p.beginOutage.link l :=
  stripped_eachSlot (st := .off) (on := fun i => (p.slot i).enable) (by decide) fun i q hs => by
    have hs : q.slot i = p.slot i := hs
    rw [← hs, Part.outageSlot]
    cases he : (q.slot i).enable with
    | true => exact .inl ⟨rfl, (powerOff_spec rfl none).1⟩
    | false => exact .inr ⟨rfl, fun _ _ => rfl, fun _ => rfl, fun _ => rfl⟩

/-- Settles O23: the two tables by the record's state; and at either entry every slot has its turn, as `Part.Turns` says of the
slots and the records, and `stripped_eachSlot` of the segments and links. -/
theorem treatmentsAtSupplyEntries : Obligations.TreatmentsAtSupplyEntries := by
  refine ⟨fun r => ⟨fun hs hr => ?_, fun hs hr => ?_, fun hs => ?_, fun hs => ?_, fun hs => ?_, fun hs => ?_, fun hs => ?_, rfl,
    fun hs => ?_, to_spec r⟩, fun p h => ⟨fun fresh => ?_, ?_⟩⟩
  · simp [lossFate, powerOffFate, hs, hr]
  · simp [lossFate, powerOffFate, hs, hr]
  · simp [lossFate, powerOffFate, hs]
  · simp [lossFate, powerOffFate, hs]
  · simp [lossFate, powerOffFate, hs]
  · simp [lossFate, powerOffFate, hs]
  · simp [lossFate, powerOffFate, hs]
  · rfl
  · have ht := turns_sag h fresh
    obtain ⟨hseg, hlink⟩ := stripped_sag (p := p) fresh
    have hspm := ht.spm
    generalize hx : (p.beginSag fresh).eachSlot Part.sagSlot = x at ht hseg hlink hspm
    refine ⟨({ x with running := false } : Part).onFbu fun f => { f with bringUp := .clear, load := .clear }, ?_, rfl, ?_, ?_,
      ?_, ?_, ?_, fun l => ?_, fun g => ?_, ?_, fun i hi => ?_, fun i hi => ?_, fun i hi => ?_, fun k r e hr => ?_,
      fun k hk => ?_, ?_, fun c => ?_⟩
    · rw [← hx]
      rfl
    · simp [ht.fbu]
    · simp [ht.cfg]
    · simp [ht.capture]
    · simp [ht.owner]
    · simp [ht.fillers]
    · refine (show _ = x.link l by cases l <;> rfl).trans ?_
      rw [hlink, beginSag_link]
      rfl
    · exact (show _ = x.seg g by cases g <;> rfl).trans (hseg g)
    · show x.spm = _
      rw [hspm]
      cases fresh <;> rfl
    · exact (ht.slot i (mem_allSlots i)).trans (if_pos hi)
    · refine (ht.slot i (mem_allSlots i)).trans ?_
      rw [Slot.sagged, if_neg (fun hn => hn.2 hi), if_pos hi]
    · refine (ht.slot i (mem_allSlots i)).trans ?_
      have hd : (p.slot i).state ≠ .dark := fun hd => by
        rw [Slot.enable, hd] at hi
        cases hi
      rw [Slot.sagged, if_neg (fun hn => by rw [hi] at hn; cases hn.1), if_neg hd]
    · have := ht.treated k r (by simpa using e) (mem_allSlots _) hr
      simpa using this
    · have := ht.kept k fun r e hn => hk r (by simpa using e) hn.2
      simpa using this
    · simpa using ht.links
    · simpa using ht.lists c
  · have ht := turns_outage h
    obtain ⟨hseg, hlink⟩ := stripped_outage (p := p)
    generalize hx : p.beginOutage.eachSlot Part.outageSlot = x at ht hseg hlink
    refine ⟨x.onFbu fun f => { f with ceiling := 0 }, ?_, ht.running, ?_, ht.cfg, ht.capture, ht.owner, ht.fillers,
      fun l => ?_, fun g => ?_, ht.spm, fun i hi => ?_, fun i hi => ?_, fun k r e hr => ?_, fun k hk => ?_, ht.links,
      ht.lists⟩
    · rw [← hx]
      rfl
    · rw [onFbu_fbu, ht.fbu]
      rfl
    · rw [link_onFbu, hlink]
      exact link_raise _ _
    · rw [seg_onFbu, hseg]
      congr 1
    · exact (ht.slot i (mem_allSlots i)).trans (if_pos hi)
    · refine (ht.slot i (mem_allSlots i)).trans ?_
      rw [Slot.outaged, hi]
      rfl
    · exact ht.treated k r e (mem_allSlots _) hr
    · exact ht.kept k fun r e hn => by
        rw [hk r e] at hn
        cases hn.2

end Sys2Proof.Machine
end

section
namespace Sys2Proof.Machine

variable {p q : Part} {i : SlotId}

/-! ### Warm reset (R24, R82, R104, R139, R160, R197, R199) -/

/-- A slot whose enable is driven and whose card is gone (R82). -/
abbrev Slot.gone (x : Slot) : Prop := x.enable = true ∧ x.seated = false

/-- A part whose table alone is treated has given its slot a turn. -/
theorem turn_treat {F : Fate} {on : Prop} [Decidable on] (hp : Ctb.PlainFate F) (hF : Ctb.KeepsRefused F) (h : p.ctb.TableLaw) :
    p.Turn F on (p.slot i) i (if on then p.treat F i else p) := by
  split
  · rename_i ho
    exact {
      slot := rfl
      slots := fun _ _ => rfl
      treated := fun _ => Ctb.treated_treat hp hF h i
      kept := fun hn => absurd ho hn
      law := fun h => h.treat hF i
      cfg := rfl
      capture := rfl
      spm := rfl
      fbu := rfl
      running := rfl
      owner := rfl
      fillers := rfl }
  · rename_i hn
    exact {
      slot := rfl
      slots := fun _ _ => rfl
      treated := fun ho => absurd ho hn
      kept := fun _ => rfl
      law := fun h => h
      cfg := rfl
      capture := rfl
      spm := rfl
      fbu := rfl
      running := rfl
      owner := rfl
      fillers := rfl }

/-- The power-off treatment makes of a record that the loss treatment left the same state as of the record before, with the same
content (R24, R82). -/
theorem powerOffFate_of_loss {r : Rec} {st : RecState} (h : lossFate r = some st) :
    powerOffFate r = powerOffFate (r.to st) ∧ ∀ st', powerOffFate (r.to st) = some st' → (r.to st).to st' = r.to st' := by
  have done (hs : st = .suspended ∨ st = .live) (ho : powerOffFate r = some .suspended) :
      powerOffFate r = powerOffFate (r.to st) ∧ ∀ st', powerOffFate (r.to st) = some st' → (r.to st).to st' = r.to st' := by
    rcases hs with rfl | rfl <;> exact ⟨ho, by rintro _ ⟨⟩; rfl⟩
  cases e : r.state <;> simp only [lossFate, e] at h
  case loading =>
    split at h
    · cases h
    · rename_i hr
      cases h
      exact done (.inr rfl) (by simp [powerOffFate, e, hr])
  case dropping => cases h
  case refused =>
    cases h
    exact ⟨by simp [powerOffFate, e, Rec.to], by rintro _ ⟨⟩; rfl⟩
  case live =>
    cases h
    exact done (.inr rfl) (by simp [powerOffFate, e])
  all_goals
    cases h
    exact done (.inl rfl) (by simp [powerOffFate, e])

theorem powerOffFate_of_freed {r : Rec} (h : lossFate r = none) : powerOffFate r = none := by
  cases e : r.state <;> simp only [lossFate, e, reduceCtorEq] at h
  case loading =>
    split at h
    · rename_i hr
      simp [powerOffFate, e, hr]
    · cases h
  case dropping => simp [powerOffFate, e]

/-- The records a treatment of the whole table leaves are on the slots they were on. -/
theorem slot_of_treatedAt {F : Fate} {t u : Ctb} {k : Index} {r r' : Rec} (h : t.TreatedAt F u k r) (e : u.get k = some r') :
    r'.slot = r.slot := by
  unfold Ctb.TreatedAt at h
  split at h
  · rw [h.1] at e
    cases e
  · obtain ⟨-, s, es, hs⟩ := h
    rw [e] at es
    cases es
    exact hs.slot

/-- What a warm reset makes of the table: the loss treatment of every record, then the power-off treatment of the records of slots
whose card is gone (R24, R82). -/
theorem turns_resetRecords (h : p.ctb.TableLaw) :
    (p.onCtb (Ctb.treatAll lossFate)).Turns powerOffFate (fun i => (p.slot i).gone) p.slot allSlots p.resetRecords :=
  turns_eachSlot Ctb.plain_powerOffFate (h.treatAll Ctb.keepsRefused_lossFate) fun i q hs _ _ hq => by
    have hs : q.slot i = p.slot i := hs
    rw [← hs]
    exact turn_treat Ctb.plain_powerOffFate Ctb.keepsRefused_powerOffFate hq

section

variable (h : p.ctb.TableLaw)
include h

/-- A record of a slot whose card is there, or whose enable is withdrawn (R24). -/
theorem treatedAt_resetRecords_loss {k : Index} {r : Rec} (e : p.ctb.get k = some r) (hg : ¬(p.slot r.slot).gone) :
    p.ctb.TreatedAt lossFate p.resetRecords.ctb k r := by
  have ht := Ctb.treatedAt_treatAll Ctb.plain_lossFate h.lists.recs e
  refine ht.trans ((turns_resetRecords h).kept k fun r' e' hn => hg ?_)
  rw [← slot_of_treatedAt ht e']
  exact hn.2

/-- A record of a slot whose card is gone (R82). -/
theorem treatedAt_resetRecords_powerOff {k : Index} {r : Rec} (e : p.ctb.get k = some r) (hg : (p.slot r.slot).gone) :
    p.ctb.TreatedAt powerOffFate p.resetRecords.ctb k r := by
  have ht := Ctb.treatedAt_treatAll Ctb.plain_lossFate h.lists.recs e
  refine ht.comp (fun st hs => (powerOffFate_of_loss hs).1) powerOffFate_of_freed (fun st st' hs => (powerOffFate_of_loss hs).2 st')
    Ctb.plain_powerOffFate (fun q eq => ?_) fun en => ?_
  · refine (turns_resetRecords h).treated k q eq (mem_allSlots _) ?_
    rw [slot_of_treatedAt ht eq]
    exact hg
  · exact (turns_resetRecords h).kept k fun q eq => by
      have en : (p.onCtb (Ctb.treatAll lossFate)).ctb.get k = none := en
      rw [en] at eq
      cases eq

theorem keptAt_resetRecords {k : Index} (e : p.ctb.get k = none) : p.ctb.KeptAt p.resetRecords.ctb k := by
  have hk := Ctb.keptAt_treatAll Ctb.plain_lossFate h.lists.recs e
  refine hk.trans ((turns_resetRecords h).kept k fun q eq => ?_)
  have en : (p.onCtb (Ctb.treatAll lossFate)).ctb.get k = none := hk.none e
  rw [en] at eq
  cases eq

theorem linksKept_resetRecords : p.ctb.LinksKept p.resetRecords.ctb :=
  (Ctb.links_treatAll Ctb.keepsRefused_lossFate h).trans (turns_resetRecords h).links (turns_resetRecords h).shrinks

theorem list_resetRecords (c : Cls) :
    p.resetRecords.ctb.list c = (p.ctb.list c).filter fun k => (p.resetRecords.ctb.get k).isSome := by
  have ht := turns_resetRecords h
  have hl : (p.onCtb (Ctb.treatAll lossFate)).ctb.list c =
      (p.ctb.list c).filter fun k => ((p.onCtb (Ctb.treatAll lossFate)).ctb.get k).isSome :=
    Ctb.list_foldl_treatOne Ctb.keepsRefused_lossFate _ h c
  rw [ht.lists, hl, List.filter_filter]
  apply List.filter_congr
  intro k _
  cases e : (p.onCtb (Ctb.treatAll lossFate)).ctb.get k with
  | some r => simp
  | none =>
    have := (ht.kept k fun q eq => by rw [e] at eq; cases eq).none e
    simp [this]

end

/-- The part after a warm reset, up to the grants of the POLLs due (R82, R93, R104, R139, R160, R199). -/
def Part.warmed (p : Part) : Part :=
  { p.resetRecords.mapSlots Slot.warm with
    mbsL := .idle
    mbsR := .idle
    capture := .empty
    spm := p.spm.warm
    fbu := ⟨p.cfg.budget.rampStart, .clear, .clear⟩
    running := false
    linkA := p.linkA.warm
    linkB := p.linkB.warm
    owner := none }

/-- What a warm reset does to the records leaves every other field. -/
theorem resetRecords_rest (p : Part) : ∃ t, p.resetRecords = { p with ctb := t } := by
  unfold Part.resetRecords Part.eachSlot
  refine List.foldlRecOn (motive := fun q : Part => ∃ t, q = { p with ctb := t }) _ _ ⟨_, rfl⟩ fun q hq i _ => ?_
  obtain ⟨t, rfl⟩ := hq
  beta_reduce
  split
  · exact ⟨_, rfl⟩
  · exact ⟨_, rfl⟩

section

variable (p)

@[simp] theorem resetRecords_cfg : p.resetRecords.cfg = p.cfg := by
  obtain ⟨t, h⟩ := resetRecords_rest p
  rw [h]

@[simp] theorem resetRecords_spm : p.resetRecords.spm = p.spm := by
  obtain ⟨t, h⟩ := resetRecords_rest p
  rw [h]

@[simp] theorem resetRecords_linkA : p.resetRecords.linkA = p.linkA := by
  obtain ⟨t, h⟩ := resetRecords_rest p
  rw [h]

@[simp] theorem resetRecords_linkB : p.resetRecords.linkB = p.linkB := by
  obtain ⟨t, h⟩ := resetRecords_rest p
  rw [h]

@[simp] theorem resetRecords_slot : p.resetRecords.slot i = p.slot i := by
  obtain ⟨t, h⟩ := resetRecords_rest p
  rw [h]
  rfl

end

theorem warmReset_eq : p.warmReset = (p.warmed.arbitrate .l).arbitrate .r := by
  unfold Part.warmReset Part.warmed
  simp only [mapSlots_cfg, mapSlots_spm, mapSlots_linkA, mapSlots_linkB, resetRecords_cfg, resetRecords_spm,
    resetRecords_linkA, resetRecords_linkB]

@[simp] theorem warmed_ctb (p : Part) : p.warmed.ctb = p.resetRecords.ctb := by
  simp only [Part.warmed, mapSlots_ctb]

@[simp] theorem warmed_cfg (p : Part) : p.warmed.cfg = p.cfg := by
  simp only [Part.warmed, mapSlots_cfg, resetRecords_cfg]

@[simp] theorem slot_warmed (p : Part) (i : SlotId) : p.warmed.slot i = (p.slot i).warm := by
  have h := slot_mapSlots (p := p.resetRecords) (f := Slot.warm) (j := i)
  rw [resetRecords_slot] at h
  rw [← h]
  simp only [Part.warmed, Part.slot]

/-- A segment after a warm reset has neither queue nor exchange nor pointers (R104). -/
theorem seg_warmed (p : Part) (g : SegId) : p.warmed.seg g = .idle := by
  unfold Part.warmed
  cases g <;> rfl

theorem link_warmed (p : Part) (l : Link) : p.warmed.link l = (p.link l).warm := by
  unfold Part.warmed
  cases l <;> rfl

theorem exec_resetN (s : State) : exec .resetN s = .next ⟨(s.part.warmed.arbitrate .l).arbitrate .r, s.pending⟩ := by
  rw [← warmReset_eq]
  rfl

section

variable {s : State} {l : Link}

/-- A RESET's frame from a link whose buffer is empty (R183). -/
theorem effect_reset (h : s.part.Hears l) (hf : s.part.Follows (.reset l)) :
    Part.effect (.reset l) s.part = s.part.resetRequest l := by
  rw [effect_request rfl, sent_read h.2 hf rfl]
  rfl

/-- RESET is refused to a link that does not own the part (R197). -/
theorem refuses_reset (h : s.part.Hears l) (ho : s.part.owner ≠ some l) : Refuses (.reset l) l s .notOwner := by
  intro hf
  refine exec_next ?_
  rw [effect_reset h hf, Part.resetRequest, h.1, if_pos ho]
  rfl

/-- RESET from the owner is a RESET_N of the part whose transfer has ended (R197). -/
theorem exec_reset (h : s.part.Heeds l) (hf : s.part.Follows (.reset l)) :
    exec (.reset l) s = exec .resetN
      ⟨s.part.setLink l { s.part.link l with transfer := none, dataOut := s.part.opening l }, s.pending⟩ := by
  have ho : ¬s.part.owner ≠ some l := not_not_intro h.2
  have hend : s.part.ended l =
      s.part.setLink l { s.part.link l with transfer := none, dataOut := s.part.opening l } := rfl
  have hq : Part.effect (.reset l) s.part = (s.part.ended l).warmReset := by
    rw [effect_reset h.1 hf, Part.resetRequest, h.1.1, Option.isSome_none, if_neg Bool.false_ne_true, if_neg ho]
  rw [exec_next hq, hend, exec_resetN, warmReset_eq]

end

/-- Of the flags pending on a link a warm reset keeps COLD_START, and adds WARM_RESET (R199). -/
theorem getLsbD_warm (w : BitVec 13) (n : Nat) :
    ((w &&& Notice.coldStart.flag) ||| Notice.warmReset.flag).getLsbD n =
      (w.getLsbD n && decide (n = 0) || decide (n = 1)) := by
  simp [Notice.flag, Notice.bit, eq_comm]

/-- Settles O54: the records go through the loss treatment, those of a slot whose card is gone through the power-off treatment
also, which makes the same of them as it alone; every other field is set in one change. -/
theorem warmResetKeepsRetention : Obligations.WarmResetKeepsRetention := by
  intro s p gone h
  refine ⟨p.warmed, exec_resetN s, fun l => exec_reset, fun l => refuses_reset, ?_, ?_, ?_, ?_, ?_, warmed_cfg p, slot_warmed p,
    fun g => ?_, rfl, rfl, rfl, rfl, rfl, fun l => ⟨_, link_warmed p l, ?_, ?_, fun n hn => ?_⟩⟩
  · rw [warmed_ctb]
    exact fun k r => treatedAt_resetRecords_loss h
  · rw [warmed_ctb]
    exact fun k r => treatedAt_resetRecords_powerOff h
  · rw [warmed_ctb]
    exact fun k => keptAt_resetRecords h
  · rw [warmed_ctb]
    exact linksKept_resetRecords h
  · rw [warmed_ctb]
    exact list_resetRecords h
  · rw [seg_warmed]
    exact ⟨rfl, rfl, fun c => by cases c <;> rfl⟩
  · rw [LinkRec.fresh, getLsbD_warm]
    simp
  · rw [LinkRec.fresh, getLsbD_warm]
    simp
  · have h0 : n ≠ 0 := by omega
    have h1 : n ≠ 1 := by omega
    rw [LinkRec.fresh, getLsbD_warm]
    simp [h0, h1]

end Sys2Proof.Machine
end

section
namespace Sys2Proof.Machine

/-! ### The laws right after reset (R23, R81, R104, R138, R159, R198) -/

variable {i : SlotId} {g : SegId} {l : Link} {k : Index} {r : Rec}

/-- No record stands in the table at cold start (R23). -/
theorem get_cold : Part.cold.ctb.get k = none := rfl

theorem slot_cold : Part.cold.slot i = .cold false := by simp [Part.cold, Part.slot]

theorem seg_cold : Part.cold.seg g = .idle := by cases g <;> rfl

theorem link_cold : Part.cold.link l = .fresh 1 := by cases l <;> rfl

/-- A property of every record holds of a table without one. -/
theorem absent_cold {α : Prop} (h : Part.cold.ctb.get k = some r) : α := by
  rw [get_cold] at h
  cases h

/-- The settings at cold start are in their ranges (R50, R51, R121, R141). -/
theorem settingsCold_inRange : Settings.cold.InRange where
  profiles ty := by
    have hty : Settings.cold.profiles[ty] = .unknown := by simp [Settings.cold]
    rw [hty]
    constructor <;> decide
  bus := by constructor <;> decide
  budget := by constructor <;> decide
  supply := by constructor <;> decide

/-- An EMPTY slot at its cold-start values keeps the laws of a slot: no timer runs and no list holds an entry (R81, R104). -/
theorem slotCold_law : (Slot.cold false).Law where
  seated := by decide
  boot := nofun
  align := nofun
  off := nofun
  stable := nofun
  audit := by decide
  engine := nofun
  withdrawn _ := ⟨rfl, rfl, rfl, rfl, rfl⟩
  depth := nofun
  window := by decide
  outstanding := by decide
  attempts := by decide
  missed := by decide

/-- No producer is eligible on a slot that has nothing to send (R91). -/
theorem eligible_slotCold (c : Category) : (Slot.cold false).eligible c = false := by cases c <;> rfl

/-- At cold start there is no record, no transaction and no frame to answer to each other (R23, R104). -/
theorem transactionLaw_cold : Part.cold.TransactionLaw where
  entries i := by
    rw [slot_cold]
    exact nofun
  drops i := by
    rw [slot_cold]
    exact nofun
  once i := by
    rw [slot_cold]
    exact List.nodup_nil
  loading k r h := absent_cold h
  dropping k r h := absent_cold h
  queued g := by
    rw [seg_cold]
    exact nofun
  apart g := by
    rw [seg_cold]
    exact List.nodup_nil
  exchange g := by
    rw [seg_cold]
    exact nofun
  engine i := by
    rw [slot_cold]
    exact nofun

theorem recordsLaw_cold : Part.cold.RecordsLaw where
  table := tableLaw_cold
  place _ _ h := absent_cold h
  transactions := transactionLaw_cold

theorem slotsLaw_cold : Part.cold.SlotsLaw := by
  refine ⟨settingsCold_inRange, fun i => ?_⟩
  rw [slot_cold]
  exact slotCold_law

/-- At cold start no claim waits, no transfer is open or lost, and nothing is captured or queued (R102, R104, R198). -/
theorem linksAndBusLaw_cold : Part.cold.LinksAndBusLaw where
  claim l h := by
    rw [link_cold] at h
    cases h
  transfers l := by
    rw [link_cold]
    exact ⟨nofun, nofun⟩
  capture := ⟨fun _ => rfl, Nat.zero_le _⟩
  queue g := by
    rw [seg_cold]
    exact Nat.zero_le _
  arbiter g _ i _ c := by
    rw [slot_cold]
    exact eligible_slotCold c

/-- At cold start the supply is in OUTAGE and the ceiling is 0 (R138, R159). -/
theorem ceilingLaw_cold : Part.cold.CeilingLaw where
  settings := settingsCold_inRange
  below := Nat.zero_le _
  normal := nofun

theorem supplyLaw_cold : Part.cold.SupplyLaw where
  running := rfl
  recovery := nofun
  settle := ⟨nofun, nofun⟩
  signal := rfl
  outage _ := rfl
  deep _ _ := rfl
  stalls _ := ⟨rfl, rfl⟩
  average := nofun
  counters := by decide
  time := by decide

/-- Settles O60, law by law: a part at cold start without a card seated has nothing that a law could speak of. -/
theorem lawsHoldAtReset : Obligations.LawsHoldAtReset :=
  ⟨recordsLaw_cold, slotsLaw_cold, linksAndBusLaw_cold, ceilingLaw_cold, supplyLaw_cold, rfl⟩

end Sys2Proof.Machine
end

section
namespace Sys2Proof.Machine

/-! ### Change requests from a link that is not the owner (R25, R183, R187) -/

/-- The codes of the change requests (R187, R201). -/
def changeCodes : List Byte := [0x10, 0x11, 0x12, 0x13, 0x30, 0x31, 0x32, 0x33, 0x40, 0x41, 0x54, 0x6F]

/-- A request of a change code and a legal length goes the course of a change request; RESET has a course of its own. -/
theorem asked_of_changeCode {c : Instr} {l : Link} {code : Byte} {fields : List Byte}
    (he : encodeRequest c = some (l, code, fields)) (hc : code ∈ changeCodes)
    (hl : lengthFits code fields.length = true) : c = .reset l ∨ ∃ run, Part.asked c = Part.request l true true run := by
  cases c <;> simp only [encodeRequest, Option.some.injEq, Prod.mk.injEq, reduceCtorEq] at he <;>
    obtain ⟨rfl, rfl, rfl⟩ := he
  case establish => exact .inr ⟨_, by rw [Part.asked, hl]⟩
  case modify => exact .inr ⟨_, by rw [Part.asked, hl]⟩
  case reset => exact .inl rfl
  case lookup | findChannel | findTimeslot | list | status | notices | noticeMask | captureQuery | claim | release
    | takeover => exact absurd hc (by decide)
  all_goals exact .inr ⟨_, rfl⟩

/-- Settles O4: the request's course asks for the owner ahead of what its block does, and so does RESET's. -/
theorem otherLinkRefused : Obligations.OtherLinkRefused := by
  intro s l c code fields he hc hl h ho
  obtain rfl | ⟨run, hrun⟩ := asked_of_changeCode he hc hl
  · exact refuses_reset h ho
  · intro hf
    have hask : Part.effect c s.part = s.part.request l true true run := by
      rw [effect_request (by rw [he]; rfl), sent_read h.2 hf (by rw [he]; rfl), hrun]
    exact exec_next (hask.trans (request_notOwner h ho))

end Sys2Proof.Machine
end

section
namespace Sys2Proof.Machine

/-! ### Records between states (R9, R10, R11) -/

theorem waitingState_ne_refused (p : Part) (i : SlotId) : p.waitingState i ≠ .refused := by
  unfold Part.waitingState
  split <;> decide

/-- A record outside LOADING and REFUSED has neither flags nor a reason (R10, R11). -/
theorem Rec.FlagLaw.plain {r : Rec} (h : r.FlagLaw) (hl : r.state ≠ .loading) (hr : r.state ≠ .refused) :
    r.reload = false ∧ r.retire = false ∧ r.reason = none :=
  ⟨(h.1 hl).1, (h.1 hl).2, by simpa using mt h.2.2 hr⟩

/-- A record that leaves LIVE has nothing to clear but its state. -/
theorem Rec.to_of_live {r : Rec} (h : r.FlagLaw) (hs : r.state = .live) (st : RecState) :
    r.to st = { r with state := st } := by
  obtain ⟨hload, hret, hwhy⟩ := h.plain (by rw [hs]; decide) (by rw [hs]; decide)
  obtain ⟨⟩ := r
  simp_all [Rec.to]

/-- A record that goes to a waiting state loses its flags and its reason. -/
theorem Rec.to_waiting (r : Rec) {st : RecState} (hl : st ≠ .loading) (hr : st ≠ .refused) :
    r.to st = { r with state := st, reload := false, retire := false, reason := none } := by
  simp [Rec.to, hl, hr]

/-! ### RETIRE (R37 to R40) -/

section

variable {p : Part} {h : Handle} {r : Rec}

theorem retireAt_free (hr : r.state = .suspended ∨ r.state = .pending ∨ r.state = .refused ∨
    (r.state = .live ∧ ¬p.slotRuns r.slot = true)) :
    p.retireAt h r = ((p.onCtb (Ctb.free h.index)).linkedTest r.slot).follow := by
  unfold Part.retireAt
  rcases hr with hs | hs | hs | ⟨hs, hn⟩ <;> simp only [hs]
  rw [if_neg hn]

theorem retireAt_drop (hs : r.state = .live) (hr : p.slotRuns r.slot = true) :
    p.retireAt h r = ((p.onCtb (Ctb.put h.index (r.to .dropping))).setSlot r.slot
      { p.slot r.slot with waitingDrops := (p.slot r.slot).waitingDrops ++ [h] }).follow := by
  simp only [Part.retireAt, hs, hr, if_true]
  rfl

theorem retireAt_flag (hs : r.state = .loading) :
    p.retireAt h r = p.onCtb (Ctb.put h.index { r with retire := true }) := by
  simp only [Part.retireAt, hs]

theorem retireAt_dropping (hs : r.state = .dropping) : p.retireAt h r = p := by
  simp only [Part.retireAt, hs]

/-- RETIRE of a named record, from the part it leaves and the state the record is in there. -/
theorem accepts_retire {s : State} {l : Link} (hl : s.part.Heeds l) (hn : s.part.ctb.named h = some r) {q : Part}
    (hq : s.part.retireAt h r = q) {b : Byte} (hb : stateCode (q.ctb.get h.index) = b) :
    Accepts (.retire l h.wire) l s [b] q := by
  subst hq hb
  exact accepts_change hl rfl (onNamed_run hn)

end

/-- Settles O15, by the record's state: its index becomes FREE, or its record is written in place, or nothing changes. -/
theorem retireByState : Obligations.RetireByState := by
  intro s l h r p k runs hl ht hn
  obtain ⟨-, er⟩ := Ctb.named_eq_some.1 hn
  refine ⟨fun hs => ?_, fun hs hruns => ?_, fun hs => ?_, fun hs => ?_⟩
  · have freed := freed_free ht.lists er
    refine ⟨p.ctb.free k, freed, accepts_retire hl hn (retireAt_free hs) ?_⟩
    rw [follow_ctb, linkedTest_ctb]
    exact congrArg stateCode freed.gone
  · refine ⟨p.ctb.put k (r.to .dropping), ?_, accepts_retire hl hn (retireAt_drop hs hruns) ?_⟩
    · rw [Rec.to_of_live (ht.flags k r er) hs]
      exact rewritten_put
    · rw [follow_ctb]
      exact congrArg stateCode (rewritten_put (t := p.ctb) (k := k)).record
  · have written : p.ctb.Rewritten k { r with retire := true } (p.ctb.put k { r with retire := true }) := rewritten_put
    refine ⟨_, written, accepts_retire hl hn (retireAt_flag hs) ?_⟩
    exact (congrArg stateCode written.record).trans (congrArg RecState.code hs)
  · refine accepts_retire hl hn (retireAt_dropping hs) ?_
    rw [er, stateCode, hs]
    rfl

/-! ### REVIVE (R41) -/

/-- Settles O16: the handle is judged first, then the record's state; the record is written in place. -/
theorem reviveLiftsRefusal : Obligations.ReviveLiftsRefusal := by
  refine fun s l hl => ⟨fun w hw => ?_, fun h hn => ?_, fun h r hn => ⟨fun hs => ?_, fun hs => ?_⟩⟩
  · exact refuses_change hl rfl (onNamed_bad (handleOf_none hw))
  · exact refuses_change hl rfl (onNamed_stale hn)
  · refine refuses_change hl rfl ((onNamed_run hn).trans ?_)
    rw [Part.revive, if_neg hs]
  · intro st
    have hst : st = s.part.waitingState r.slot := rfl
    have hload : st ≠ .loading := by
      unfold st
      split <;> decide
    have hrec := r.to_waiting hload (hst ▸ waitingState_ne_refused _ _)
    refine ⟨s.part.ctb.put h.index (r.to st), hrec ▸ rewritten_put, accepts_change hl rfl ((onNamed_run hn).trans ?_)⟩
    rw [Part.revive, if_pos hs]
    rfl

/-! ### LOOKUP (R42, R202) -/

/-- The flag byte's bits do not meet (R202). -/
theorem flagByte_eq_sum (r : Rec) : r.flagByte = (if r.reload then 1 else 0) + (if r.retire then 2 else 0) +
    (if r.partner.isSome then 4 else 0) + (if r.tag.isSome then 8 else 0) := by
  have bits : ∀ a b c d : Bool, ((if a then 1 else 0) ||| (if b then 2 else 0) ||| (if c then 4 else 0) |||
      (if d then 8 else 0) : Byte) =
      (if a then 1 else 0) + (if b then 2 else 0) + (if c then 4 else 0) + (if d then 8 else 0) := by decide
  exact bits _ _ _ _

/-- A byte cut out of a number is its quotient's last byte. -/
theorem extract_eq_byteOf (x : BitVec 32) (n : Nat) : x.extractLsb' n 8 = byteOf (x.toNat / 2 ^ n) := by
  apply BitVec.eq_of_toNat_eq
  simp [byteOf, Nat.shiftRight_eq_div_pow]

theorem tagBytes_eq (x : BitVec 32) : tagBytes x =
    [byteOf (x.toNat / 16777216), byteOf (x.toNat / 65536), byteOf (x.toNat / 256), byteOf x.toNat] := by
  simp [tagBytes, extract_eq_byteOf]

theorem legBytes_eq (legs : List Leg) : legBytes legs =
    legs.flatMap fun g => [byteOf g.highway.val, g.dir.code, byteOf (g.timeslot.val / 256), byteOf g.timeslot.val] := by
  unfold legBytes Leg.bytes
  simp only [bytesOf_two]

/-- Settles O17: the layout of the answer is `Rec.bytes`, part by part. -/
theorem lookupAnswersRecord : Obligations.LookupAnswersRecord := by
  refine ⟨by decide, fun s l hl => ⟨fun w hw => ?_, fun h hn => ?_⟩, fun s l h r hl hn => ?_⟩
  · exact refuses_plain hl rfl (onNamed_bad (handleOf_none hw))
  · exact refuses_plain hl rfl (onNamed_stale hn)
  · refine accepts_plain hl rfl ((onNamed_run hn).trans ?_)
    rw [Rec.bytes, handle_bytes, flagByte_eq_sum, legBytes_eq]
    obtain ⟨_, _, _, _, _, partner, tag, _, _, _, reason⟩ := r
    rcases partner with _ | x <;> rcases tag with _ | y <;> rcases reason with _ | _ | _ | _ <;>
      simp only [Option.elim, handle_bytes, tagBytes_eq] <;> rfl

/-! ### FIND_CHANNEL and FIND_TIMESLOT (R43) -/

theorem findChannel_eq (p : Part) (i : SlotId) (c : Channel) :
    p.findChannel (byteOf i.val) (byteOf c.val) = (p, okay (entryBytes (p.ctb.channelMap i c))) := by
  simp only [Part.findChannel, fin?_byteOf (show 24 ≤ 256 by decide), fin?_byteOf (show 128 ≤ 256 by decide)]

theorem findChannel_bad (p : Part) {i c : Byte} (h : 24 ≤ i.toNat ∨ 128 ≤ c.toNat) :
    p.findChannel i c = p.refused .badField := by
  unfold Part.findChannel
  rcases h with h | h
  · rw [fin?_none h]
  · rw [fin?_none h]
    split <;> simp_all

theorem findTimeslot_eq (p : Part) (hw : Fin 4) (ts : Fin 512) :
    p.findTimeslot (byteOf hw.val) (BitVec.ofNat 16 ts.val) = (p, okay (entryBytes (p.ctb.timeslotMap hw ts))) := by
  have hts : fin? 512 (BitVec.ofNat 16 ts.val).toNat = some ts := by
    rw [BitVec.toNat_ofNat, Nat.mod_eq_of_lt (by omega)]
    simp [fin?]
  simp only [Part.findTimeslot, fin?_byteOf (show 4 ≤ 256 by decide), hts]

theorem findTimeslot_bad (p : Part) {hw : Byte} {ts : BitVec 16} (h : 4 ≤ hw.toNat ∨ 512 ≤ ts.toNat) :
    p.findTimeslot hw ts = p.refused .badField := by
  unfold Part.findTimeslot
  rcases h with h | h
  · rw [fin?_none h]
  · rw [fin?_none h]
    split <;> simp_all

/-- A record holds a timeslot by a leg that sends there (R17). -/
theorem holdsTimeslot_iff {r : Rec} {hw : Fin 4} {ts : Fin 512} :
    r.holdsTimeslot hw ts = true ↔ ∃ g ∈ r.legs, g.highway = hw ∧ g.timeslot = ts ∧ g.dir ≠ .rx := by
  simp [Rec.holdsTimeslot, Leg.sends, and_assoc]

/-- The Channel Map has an entry exactly where a record is bound to the slot and channel (R16). -/
theorem channelMap_isSome {t : Ctb} (hr : Sparse.Rising t.recs) {i : SlotId} {c : Channel} :
    (t.channelMap i c).isSome = true ↔ ∃ k r, t.get k = some r ∧ r.slot = i ∧ r.channel = c := by
  cases e : t.channelMap i c with
  | none => simpa using fun k r h => not_and.1 (Ctb.channelMap_none e h)
  | some x =>
    obtain ⟨q, hq, hs, hc⟩ := Ctb.channelMap_some hr e
    simpa using ⟨x.index, q, (Ctb.named_eq_some.1 hq).2, hs, hc⟩

/-- The Timeslot Map has an entry exactly where a record sends (R17). -/
theorem timeslotMap_isSome {t : Ctb} (hr : Sparse.Rising t.recs) {hw : Fin 4} {ts : Fin 512} :
    (t.timeslotMap hw ts).isSome = true ↔ ∃ k r, t.get k = some r ∧ r.holdsTimeslot hw ts = true := by
  cases e : t.timeslotMap hw ts with
  | none => simpa using fun k r h => Ctb.timeslotMap_none e h
  | some x =>
    obtain ⟨q, hq, hh⟩ := Ctb.timeslotMap_some hr e
    simpa using ⟨x.index, q, (Ctb.named_eq_some.1 hq).2, hh⟩

/-- Settles O18: a map entry is that of the one record that holds it. -/
theorem mapLookups : Obligations.MapLookups := by
  intro s l hl ht t found
  have hfound : ∀ k, entryBytes (some (t.handle k)) = found k := fun k => by
    rw [entryBytes, handle_bytes]
    rfl
  refine ⟨fun i c h => ?_, fun i c => ⟨fun k r e hs hc => ?_, fun hnone => ?_⟩, fun hw ts h => ?_,
    fun hw ts => ⟨fun k r g e hg h1 h2 hd => ?_, fun hnone => ?_⟩⟩
  · exact refuses_plain hl rfl (findChannel_bad _ h)
  · subst hs hc
    refine accepts_plain hl rfl ?_
    rw [findChannel_eq, Ctb.channelMap_of_get ht e, hfound]
  · refine accepts_plain hl rfl ?_
    have hmap : t.channelMap i c = none := by
      rw [← Option.not_isSome_iff_eq_none, channelMap_isSome ht.lists.recs]
      rintro ⟨k, r, e, h⟩
      exact hnone k r e h
    rw [findChannel_eq, hmap, entryBytes]
  · exact refuses_plain hl rfl (findTimeslot_bad _ h)
  · refine accepts_plain hl rfl ?_
    rw [findTimeslot_eq, Ctb.timeslotMap_of_get ht e (holdsTimeslot_iff.2 ⟨g, hg, h1, h2, hd⟩), hfound]
  · refine accepts_plain hl rfl ?_
    have hmap : t.timeslotMap hw ts = none := by
      rw [← Option.not_isSome_iff_eq_none, timeslotMap_isSome ht.lists.recs]
      rintro ⟨k, r, e, h⟩
      obtain ⟨g, hg, h⟩ := holdsTimeslot_iff.1 h
      exact hnone k r g e hg h
    rw [findTimeslot_eq, hmap, entryBytes]

end Sys2Proof.Machine
end

section
namespace Sys2Proof.Machine

/-! ### LIST (R44, R45) -/

/-- The filter's legal bytes: some state's bit, and neither bit 6 nor bit 7 (R44). -/
theorem filterFits_iff : ∀ filter : Byte, filterFits filter = true ↔ filter ≠ 0 ∧ filter.toNat < 64 := by decide

theorem clsOf_none {b : Byte} (h : 4 ≤ b.toNat) : clsOf b = none := by
  cases e : clsOf b with
  | none => rfl
  | some c =>
    rw [code_of_clsOf e] at h
    cases c <;> exact absurd h (by decide)

/-- HEAD is no handle of a record (R200). -/
theorem isHead_wire (h : Handle) : isHead h.wire = false := by
  have hi := h.index.isLt
  have hn : (BitVec.ofNat 16 h.index.val).toNat = h.index.val := by
    rw [BitVec.toNat_ofNat, Nat.mod_eq_of_lt (by omega)]
  simp only [isHead, decide_eq_false_iff_not, not_and]
  intro e
  have hv := congrArg BitVec.toNat e
  rw [Handle.wire, hn] at hv
  have : (0xFFFF : BitVec 16).toNat = 65535 := rfl
  omega

theorem isHead_of_ne {w : WireHandle} (h : w ≠ ⟨0xFFFF, 0xFF⟩) : isHead w = false := by
  obtain ⟨k, g⟩ := w
  simpa [isHead] using h

section

variable {t : Ctb} {filter : Byte}

/-- Fewer records in the filter than there is room for: they are all in the page, which ends the list (R45). -/
theorem page_short {xs : List Index} : ∀ {room : Nat}, (xs.filter (t.listed filter)).length < room →
    t.page filter room xs = (xs.filter (t.listed filter), none) := by
  induction xs with
  | nil => exact fun _ => rfl
  | cons k ks ih =>
    intro room h
    unfold Ctb.page
    by_cases hk : t.listed filter k = true
    · rw [List.filter_cons_of_pos hk] at h ⊢
      rw [List.length_cons] at h
      rw [if_pos hk, if_neg (by omega)]
      simp only [ih (room := room - 1) (by omega)]
    · rw [List.filter_cons_of_neg hk] at h ⊢
      rw [if_neg hk, ih h]

/-- The record that fills the page is its last, and the one after it the next cursor (R45). -/
theorem page_full {pre post : List Index} {k : Index} (hk : t.listed filter k = true) : ∀ {room : Nat},
    (pre.filter (t.listed filter)).length + 1 = room →
    t.page filter room (pre ++ k :: post) = (pre.filter (t.listed filter) ++ [k], post.head?) := by
  induction pre with
  | nil =>
    rintro _ rfl
    simp [Ctb.page, hk]
  | cons j js ih =>
    intro room h
    rw [List.cons_append]
    unfold Ctb.page
    by_cases hj : t.listed filter j = true
    · rw [List.filter_cons_of_pos hj] at h ⊢
      rw [List.length_cons] at h
      rw [if_pos hj, if_neg (by omega)]
      simp only [ih (room := room - 1) (by omega), List.cons_append]
    · rw [List.filter_cons_of_neg hj] at h ⊢
      rw [if_neg hj, ih h]

/-- The walk begins at the cursor's record, which stands once in its list (R19, R45). -/
theorem fromCursor_append {before rest : List Index} {k : Index} (h : k ∉ before) :
    fromCursor (before ++ k :: rest) (some k) = k :: rest := by
  unfold fromCursor
  have hb : ∀ j ∈ before, decide (j ≠ k) = true := fun j hj => decide_eq_true fun e => h (e ▸ hj)
  simp only [List.dropWhile_append_of_pos hb, List.dropWhile_cons, ne_eq, not_true_eq_false, decide_false, if_false,
    Bool.false_eq_true]

end

section

variable {p : Part} {c : Cls} {filter : Byte}

theorem listRecords_head (hf : filterFits filter = true) : p.listRecords c.code filter ⟨0xFFFF, 0xFF⟩ =
    (p, okay (p.ctb.pageBytes (p.ctb.page filter 16 (p.ctb.list c)))) := by
  simp only [Part.listRecords, clsOf_code, hf]
  rfl

theorem listRecords_from (hf : filterFits filter = true) {h : Handle} {r : Rec} (hn : p.ctb.named h = some r)
    (hc : r.cls = c) : p.listRecords c.code filter h.wire =
    (p, okay (p.ctb.pageBytes (p.ctb.page filter 16 (fromCursor (p.ctb.list c) (some h.index))))) := by
  simp only [Part.listRecords, clsOf_code, hf, isHead_wire, onNamed_run hn, hc]
  rfl

theorem listRecords_badClass {b : Byte} (h : 4 ≤ b.toNat) (w : WireHandle) :
    p.listRecords b filter w = p.refused .badField := by
  simp only [Part.listRecords, clsOf_none h]

theorem listRecords_badFilter (h : filterFits filter = false) (w : WireHandle) :
    p.listRecords c.code filter w = p.refused .badField := by
  simp only [Part.listRecords, clsOf_code, h, if_true]

theorem listRecords_badCursor (hf : filterFits filter = true) {w : WireHandle} (hh : isHead w = false)
    (hw : handleOf w = none) : p.listRecords c.code filter w = p.refused .badField := by
  simp only [Part.listRecords, clsOf_code, hf, hh, onNamed_bad hw]
  rfl

theorem listRecords_staleCursor (hf : filterFits filter = true) {h : Handle} (hn : p.ctb.named h = none) :
    p.listRecords c.code filter h.wire = p.refused .staleHandle := by
  simp only [Part.listRecords, clsOf_code, hf, isHead_wire, onNamed_stale hn]
  rfl

theorem listRecords_otherClass (hf : filterFits filter = true) {h : Handle} {r : Rec} (hn : p.ctb.named h = some r)
    (hc : r.cls ≠ c) : p.listRecords c.code filter h.wire = p.refused .badField := by
  simp only [Part.listRecords, clsOf_code, hf, isHead_wire, onNamed_run hn, if_neg hc]
  rfl

end

/-- The course of a LIST whose class, filter and cursor are right: it answers the page of the records walked (R45). -/
theorem listRecords_walked {p : Part} (ht : p.ctb.TableLaw) {c : Cls} {filter : Byte} (hf : filterFits filter = true)
    {w : WireHandle} {before walked : List Index}
    (hw : w = ⟨0xFFFF, 0xFF⟩ ∧ before = [] ∨ ∃ k rest, w = (p.ctb.handle k).wire ∧ walked = k :: rest)
    (hl : p.ctb.list c = before ++ walked) :
    p.listRecords c.code filter w = (p, okay (p.ctb.pageBytes (p.ctb.page filter 16 walked))) := by
  rcases hw with ⟨rfl, rfl⟩ | ⟨k, rest, rfl, rfl⟩
  · rw [listRecords_head hf, hl, List.nil_append]
  · obtain ⟨r, er, hc⟩ := (ht.lists.member c k).1 (by rw [hl]; simp)
    have hk : k ∉ before := by
      have hd := List.nodup_append.1 (hl ▸ ht.lists.once c)
      exact fun h => hd.2.2 k h k List.mem_cons_self rfl
    rw [listRecords_from hf ((Ctb.named_handle k).trans er) hc, hl]
    exact congrArg (fun xs => (p, okay (p.ctb.pageBytes (p.ctb.page filter 16 xs)))) (fromCursor_append hk)

/-- Settles O19: the walk as `page_short` and `page_full` give it; and the refusals, each ahead of the next. -/
theorem listPagesAndRefusals : Obligations.ListPagesAndRefusals := by
  refine ⟨?_, fun s l hl => ⟨fun c filter w hc => ?_, fun c filter w => ⟨fun hf => ?_, fun h0 h64 =>
    ⟨fun hbad hne => ?_, ?_, ?_⟩⟩⟩⟩
  · intro s l c filter w before walked t bytes matched hl ht h0 h64 hw hlist
    have hf := (filterFits_iff filter).2 ⟨h0, h64⟩
    have hrun := listRecords_walked ht hf hw hlist
    have hmatched : matched = t.listed filter := by
      funext k
      unfold matched Ctb.listed
      cases t.get k <;> rfl
    have hbytes : (fun k => (t.handle k).bytes) = bytes := by
      funext k
      rw [handle_bytes]
      rfl
    rw [hmatched]
    refine ⟨fun hshort => accepts_plain hl rfl (hrun.trans ?_), fun pre k post hwalk hpre hk =>
      accepts_plain hl rfl (hrun.trans ?_)⟩
    · rw [page_short hshort, Ctb.pageBytes, hbytes]
      rfl
    · rw [hwalk, page_full hk (by rw [hpre]), Ctb.pageBytes, hbytes, List.length_append, hpre]
      cases post <;> rfl
  · exact refuses_plain hl rfl (listRecords_badClass hc w)
  · have hf : filterFits filter = false := by
      rw [← Bool.not_eq_true, filterFits_iff]
      rintro ⟨h0, h64⟩
      rcases hf with rfl | hf
      · exact h0 rfl
      · omega
    exact refuses_plain hl rfl (listRecords_badFilter hf w)
  · have hf := (filterFits_iff filter).2 ⟨h0, h64⟩
    exact refuses_plain hl rfl (listRecords_badCursor hf (isHead_of_ne hne) (handleOf_none hbad))
  · rintro h rfl hn
    exact refuses_plain hl rfl (listRecords_staleCursor ((filterFits_iff filter).2 ⟨h0, h64⟩) hn)
  · rintro h r rfl hn hc
    exact refuses_plain hl rfl (listRecords_otherClass ((filterFits_iff filter).2 ⟨h0, h64⟩) hn hc)

end Sys2Proof.Machine
end

section
namespace Sys2Proof.Machine

/-! ### The layouts of ESTABLISH and MODIFY (R200, R201, R202) -/

section

variable {α : Type} {rd : Reader α} {write : α → List Byte}

/-- A part read where it is present, from what it is written as. -/
theorem readIf_written (h : ∀ x bs, rd (write x ++ bs) = some (x, bs)) (x : Option α) (bs : List Byte) :
    readIf x.isSome rd (x.elim [] write ++ bs) = some (x, bs) := by
  unfold readIf
  cases x with
  | none => rfl
  | some y =>
    rw [Option.isSome_some, if_pos rfl, Option.elim_some, h]
    rfl

/-- A part that was read only where it is present stands in front as it is written. -/
theorem written_of_readIf (h : ∀ x bs rest, rd bs = some (x, rest) → bs = write x ++ rest) {present : Bool}
    {x : Option α} {bs rest : List Byte} (e : readIf present rd bs = some (x, rest)) :
    x.isSome = present ∧ bs = x.elim [] write ++ rest := by
  unfold readIf at e
  split at e
  · rename_i hp
    obtain ⟨⟨y, r⟩, hy, hx⟩ := Option.map_eq_some_iff.1 e
    cases hx
    exact ⟨hp.symm, h _ _ _ hy⟩
  · rename_i hp
    cases e
    exact ⟨(Bool.eq_false_of_not_eq_true hp).symm, rfl⟩

end

theorem byteOf_toNat (b : Byte) : byteOf b.toNat = b := by simp [byteOf]

/-! ### ESTABLISH -/

/-- The byte that says which parts an ESTABLISH carries (R202). -/
def EstablishReq.present (q : EstablishReq) : Byte :=
  (if q.partner.isSome then 1 else 0) + (if q.tag.isSome then 2 else 0)

theorem EstablishReq.bytes_eq (q : EstablishReq) : q.bytes =
    q.cls.code :: byteOf q.slot.val :: byteOf q.channel.val :: byteOf q.cost.val :: q.present ::
      byteOf q.legs.length :: (legBytes q.legs ++ (q.partner.elim [] Handle.bytes ++ (q.tag.elim [] tagBytes ++ []))) := by
  simp [EstablishReq.bytes, EstablishReq.present]

theorem EstablishReq.present_spec (q : EstablishReq) : q.present.toNat < 4 ∧
    q.present.getLsbD 0 = q.partner.isSome ∧ q.present.getLsbD 1 = q.tag.isSome := by
  have bits : ∀ a b : Bool, ((if a then 1 else 0) + (if b then 2 else 0) : Byte).toNat < 4 ∧
      ((if a then 1 else 0) + (if b then 2 else 0) : Byte).getLsbD 0 = a ∧
      ((if a then 1 else 0) + (if b then 2 else 0) : Byte).getLsbD 1 = b := by decide
  exact bits _ _

/-- The byte of parts is known by its two bits. -/
theorem present_unique : ∀ (b : Byte) (x y : Bool), b.toNat < 4 → x = b.getLsbD 0 → y = b.getLsbD 1 →
    (if x then 1 else 0) + (if y then 2 else 0) = b := by decide

/-- An ESTABLISH read from its body (R202). -/
theorem readEstablish_bytes {q : EstablishReq} (h : 1 ≤ q.legs.length ∧ q.legs.length ≤ 4) :
    readEstablish q.bytes = some q := by
  obtain ⟨hlt, hpartner, htag⟩ := q.present_spec
  rw [q.bytes_eq, readEstablish, clsOf_code, fin?_byteOf (by decide), fin?_byteOf (by decide)]
  simp only [if_pos hlt, readLegList_bytes _ _ h, hpartner, htag, readIf_written readHandle_bytes,
    readIf_written readTag_bytes, cost_byte]

/-- Only a body that R202 lays out is read as an ESTABLISH. -/
theorem bytes_of_readEstablish {body : List Byte} {q : EstablishReq} (h : readEstablish body = some q) :
    body = q.bytes := by
  unfold readEstablish at h
  split at h <;> [skip; cases h]
  split at h <;> [skip; cases h]
  rename_i hcls hslot hchannel
  split at h <;> [skip; cases h]
  rename_i hpres
  split at h <;> [cases h; skip]
  rename_i hlegs
  split at h <;> [cases h; skip]
  rename_i hpartner
  split at h <;> [skip; cases h]
  rename_i htag
  cases h
  obtain ⟨hp, ep⟩ := written_of_readIf (fun _ _ _ => bytes_of_readHandle) hpartner
  obtain ⟨ht, et⟩ := written_of_readIf (fun _ _ _ => bytes_of_readTag) htag
  rw [EstablishReq.bytes_eq, EstablishReq.present, (bytes_of_readLegList hlegs).2, ep, et,
    present_unique _ _ _ hpres hp ht, code_of_clsOf hcls, byteOf_of_fin? hslot, byteOf_of_fin? hchannel]
  congr 3
  exact congrArg (· :: _) (byteOf_toNat _).symm

/-! ### MODIFY -/

theorem readCost_bytes (c : Fin 256) (bs : List Byte) : readCost ([byteOf c.val] ++ bs) = some (c, bs) := by
  simp [readCost, cost_byte]

theorem readCls_bytes (c : Cls) (bs : List Byte) : readCls ([c.code] ++ bs) = some (c, bs) := by
  simp [readCls, clsOf_code]

theorem bytes_of_readCost (c : Fin 256) (bs rest : List Byte) (h : readCost bs = some (c, rest)) :
    bs = [byteOf c.val] ++ rest := by
  unfold readCost at h
  split at h
  · cases h
  · cases h
    exact congrArg (· :: _) (byteOf_toNat _).symm

theorem bytes_of_readCls (c : Cls) (bs rest : List Byte) (h : readCls bs = some (c, rest)) :
    bs = [c.code] ++ rest := by
  unfold readCls at h
  split at h
  · cases h
  · obtain ⟨d, hd, e⟩ := Option.map_eq_some_iff.1 h
    cases e
    rw [code_of_clsOf hd]
    rfl

/-- A leg list as a MODIFY carries it: its count and its legs (R201). -/
def legListBytes (g : List Leg) : List Byte := byteOf g.length :: legBytes g

theorem ModifyReq.bytes_eq (q : ModifyReq) : q.bytes = q.handle.bytes ++ (q.parts ::
    (q.legs.elim [] legListBytes ++ (q.cost.elim [] (fun c => [byteOf c.val]) ++
      (q.cls.elim [] (fun c => [c.code]) ++
        (q.tag.join.elim [] tagBytes ++ (q.partner.join.elim [] Handle.bytes ++ [])))))) := by
  have join : ∀ {α : Type} (x : Option (Option α)) (f : α → List Byte),
      (x.elim [] fun y => y.elim [] f) = x.join.elim [] f :=
    fun x f => by rcases x with _ | _ | _ <;> rfl
  have legs : (q.legs.elim [] fun g => byteOf g.length :: legBytes g) = q.legs.elim [] legListBytes := rfl
  simp [ModifyReq.bytes, legs, join]

/-- The parts byte carries one bit for each part that is set or cleared (R201). -/
theorem getLsbD_setClearBits {α : Type} (a b : Byte) (x : Option (Option α)) (i : Nat) :
    (setClearBits a b x).getLsbD i = (x.join.isSome && a.getLsbD i || x.isSome && !x.join.isSome && b.getLsbD i) := by
  rcases x with _ | _ | _ <;> simp [setClearBits]

theorem getLsbD_ite_zero (a : Byte) (x : Bool) (i : Nat) : (if x then a else 0).getLsbD i = (x && a.getLsbD i) := by
  cases x <;> simp

/-- The parts byte, bit by bit (R201). -/
structure ModifyReq.PartBits (q : ModifyReq) (b : Byte) : Prop where
  legs : b.getLsbD 0 = q.legs.isSome
  cost : b.getLsbD 1 = q.cost.isSome
  cls : b.getLsbD 2 = q.cls.isSome
  tagSet : b.getLsbD 3 = q.tag.join.isSome
  tagClear : b.getLsbD 4 = (q.tag.isSome && !q.tag.join.isSome)
  partnerSet : b.getLsbD 5 = q.partner.join.isSome
  partnerClear : b.getLsbD 6 = (q.partner.isSome && !q.partner.join.isSome)
  spare : b.getLsbD 7 = false

theorem ModifyReq.partBits (q : ModifyReq) : q.PartBits q.parts := by
  constructor <;>
    simp only [ModifyReq.parts, BitVec.getLsbD_or, getLsbD_setClearBits, getLsbD_ite_zero] <;> simp

/-- The parts byte is known by its bits. -/
theorem ModifyReq.PartBits.eq {q : ModifyReq} {b c : Byte} (hb : q.PartBits b) (hc : q.PartBits c) : b = c := by
  have ext : ∀ b c : Byte, (∀ i : Fin 8, b.getLsbD i = c.getLsbD i) → b = c := fun b c h =>
    BitVec.eq_of_getLsbD_eq fun i hi => h ⟨i, hi⟩
  refine ext b c fun i => ?_
  match i with
  | 0 => exact hb.legs.trans hc.legs.symm
  | 1 => exact hb.cost.trans hc.cost.symm
  | 2 => exact hb.cls.trans hc.cls.symm
  | 3 => exact hb.tagSet.trans hc.tagSet.symm
  | 4 => exact hb.tagClear.trans hc.tagClear.symm
  | 5 => exact hb.partnerSet.trans hc.partnerSet.symm
  | 6 => exact hb.partnerClear.trans hc.partnerClear.symm
  | 7 => exact hb.spare.trans hc.spare.symm

/-- Some part is present (R32). -/
def ModifyReq.somePart (q : ModifyReq) : Bool :=
  q.legs.isSome || q.cost.isSome || q.cls.isSome || q.tag.isSome || q.partner.isSome

/-- The parts byte is 0 exactly where no part is present. -/
theorem ModifyReq.parts_eq_zero_iff (q : ModifyReq) : q.parts = 0 ↔ q.somePart = false := by
  constructor
  · intro hz
    obtain ⟨hlegs, hcost, hcls, htag, htag', hpartner, hpartner', -⟩ := hz ▸ q.partBits
    simp only [somePart, ← hlegs, ← hcost, ← hcls, ← htag, ← hpartner] at htag' hpartner' ⊢
    simp_all
  · obtain ⟨h, legs, cost, cls, tag, partner⟩ := q
    intro hn
    simp only [somePart, Bool.or_eq_false_iff, Option.isSome_eq_false_iff, Option.isNone_iff_eq_none] at hn
    obtain ⟨⟨⟨⟨rfl, rfl⟩, rfl⟩, rfl⟩, rfl⟩ := hn
    simp [parts, setClearBits]

theorem setOrClear_join {α : Type} (x : Option (Option α)) : setOrClear x.join (x.isSome && !x.join.isSome) = x := by
  rcases x with _ | _ | _ <;> rfl

theorem join_setOrClear {α : Type} (x : Option α) (clear : Bool) : (setOrClear x clear).join = x := by
  cases x <;> cases clear <;> rfl

/-- A part's clear bit, where its set bit and its clear bit do not meet. -/
theorem clearBit_setOrClear {α : Type} {x : Option α} {set clear : Bool} (hx : x.isSome = set)
    (h : (set && clear) = false) : clear = ((setOrClear x clear).isSome && !(setOrClear x clear).join.isSome) := by
  subst hx
  cases x <;> cases clear <;> simp_all [setOrClear]

/-- The parts byte of a MODIFY with some part is legal (R32). -/
theorem ModifyReq.partsFit_parts {q : ModifyReq} (h : q.somePart = true) : partsFit q.parts = true := by
  have hz : q.parts ≠ 0 := fun e => by
    rw [q.parts_eq_zero_iff.1 e] at h
    cases h
  have b := q.partBits
  simp only [partsFit, b.tagSet, b.tagClear, b.partnerSet, b.partnerClear, b.spare, hz, decide_false]
  cases q.tag.join.isSome <;> cases q.partner.join.isSome <;> simp

/-- A MODIFY read from its body (R201). -/
theorem readModify_bytes {q : ModifyReq} (h : q.somePart = true)
    (hl : ∀ g, q.legs = some g → 1 ≤ g.length ∧ g.length ≤ 4) : readModify q.bytes = some q := by
  have b := q.partBits
  have hlegs : ∀ bs, readIf q.legs.isSome readLegList (q.legs.elim [] legListBytes ++ bs) = some (q.legs, bs) := by
    intro bs
    cases e : q.legs with
    | none => rfl
    | some g =>
      rw [Option.isSome_some, readIf, if_pos rfl, Option.elim_some, legListBytes, List.cons_append,
        readLegList_bytes _ _ (hl g e)]
      rfl
  rw [q.bytes_eq, readModify, readHandle_bytes]
  simp only [q.partsFit_parts h, if_true, b.legs, b.cost, b.cls, b.tagSet, b.tagClear, b.partnerSet, b.partnerClear, hlegs,
    readIf_written readCost_bytes, readIf_written readCls_bytes, readIf_written readTag_bytes,
    readIf_written readHandle_bytes, setOrClear_join]

/-- Only a body that R201 lays out, with some part, is read as a MODIFY. -/
theorem bytes_of_readModify {body : List Byte} {q : ModifyReq} (h : readModify body = some q) :
    q.somePart = true ∧ body = q.bytes := by
  unfold readModify at h
  split at h <;> [skip; cases h]
  rename_i parts _ hhandle
  split at h <;> [skip; cases h]
  rename_i hfit
  split at h <;> [cases h; skip]
  rename_i hlegs
  split at h <;> [cases h; skip]
  rename_i hcost
  split at h <;> [cases h; skip]
  rename_i hcls
  split at h <;> [cases h; skip]
  rename_i htag
  split at h <;> [skip; cases h]
  rename_i hpartner
  cases h
  obtain ⟨hl, el⟩ := written_of_readIf (write := legListBytes) (fun _ _ _ e => (bytes_of_readLegList e).2) hlegs
  obtain ⟨hc, ec⟩ := written_of_readIf bytes_of_readCost hcost
  obtain ⟨hk, ek⟩ := written_of_readIf bytes_of_readCls hcls
  obtain ⟨ht, et⟩ := written_of_readIf (fun _ _ _ => bytes_of_readTag) htag
  obtain ⟨hp, ep⟩ := written_of_readIf (fun _ _ _ => bytes_of_readHandle) hpartner
  simp only [partsFit, Bool.and_eq_true, Bool.not_eq_true', decide_eq_false_iff_not] at hfit
  obtain ⟨⟨⟨hzero, hspare⟩, htwice⟩, hptwice⟩ := hfit
  generalize hq : (ModifyReq.mk _ _ _ _ _ _) = q
  have bits : q.PartBits parts := by
    subst hq
    exact ⟨hl.symm, hc.symm, hk.symm, by rw [join_setOrClear, ht], clearBit_setOrClear ht htwice,
      by rw [join_setOrClear, hp], clearBit_setOrClear hp hptwice, hspare⟩
  have hparts := bits.eq q.partBits
  constructor
  · rw [← Bool.not_eq_false, ← q.parts_eq_zero_iff, ← hparts]
    exact hzero
  · rw [q.bytes_eq, ← hparts, bytes_of_readHandle hhandle, el, ec, ek, et, ep]
    subst hq
    rw [join_setOrClear, join_setOrClear]

end Sys2Proof.Machine
end

section
namespace Sys2Proof.Machine

/-! ### Checks in their order (R25) -/

section

variable {st : Status} {rest : List (Prop × Status)} {x : Option Status}

/-- A check made ahead of others decides where it fails, and else they do. -/
theorem firstOf_ite {c c' : Prop} [Decidable c] {a : Status} (hc : c ↔ c') (h : FirstOf ((c', a) :: rest) st)
    (hx : FirstOf rest st → x = some st) : (if c then some a else x) = some st := by
  rcases h with ⟨hc', rfl⟩ | ⟨hc', hr⟩
  · rw [if_pos (hc.2 hc')]
  · rw [if_neg (mt hc.1 hc'), hx hr]

/-- The checks of a named partner, where one is given: the handle is not stale, and the record fits (R29, R33). -/
theorem firstOf_partner {t : Ctb} {partner : Option Handle} {check : Handle → Option Status} {bad : Handle → Rec → Prop}
    (hstale : ∀ h, t.named h = none → check h = some .staleHandle)
    (hbad : ∀ h r, t.named h = some r → bad h r → check h = some .partnerInvalid)
    (hfit : ∀ h r, t.named h = some r → ¬bad h r → check h = none)
    (h : FirstOf ((∃ h, partner = some h ∧ t.named h = none, .staleHandle) ::
      (∃ h r, partner = some h ∧ t.named h = some r ∧ bad h r, .partnerInvalid) :: rest) st) :
    partner.bind check = some st ∨ partner.bind check = none ∧ FirstOf rest st := by
  rcases h with ⟨⟨y, rfl, hn⟩, rfl⟩ | ⟨hnone, ⟨⟨y, r, rfl, hn, hb⟩, rfl⟩ | ⟨hgood, hrest⟩⟩
  · exact .inl (hstale y hn)
  · exact .inl (hbad y r hn hb)
  · refine .inr ⟨?_, hrest⟩
    cases partner with
    | none => rfl
    | some y =>
      cases e : t.named y with
      | none => exact absurd ⟨y, rfl, e⟩ hnone
      | some r => exact hfit y r e fun hb => hgood ⟨y, r, rfl, e, hb⟩

end

theorem legConflict_iff (legs : List Leg) : legConflict legs = true ↔
    1 < (legs.filter Leg.receives).length ∨ ¬(legs.map fun g => (g.highway, g.timeslot)).Nodup := by
  simp [legConflict]

/-- A sending leg whose timeslot is held by a record that is not accepted (R28, R33). -/
theorem timeslotClash_iff {t : Ctb} {mine : Handle → Bool} {legs : List Leg} : t.timeslotClash mine legs = true ↔
    ∃ g ∈ legs, g.sends = true ∧ ∃ h, t.timeslotMap g.highway g.timeslot = some h ∧ mine h = false := by
  simp only [Ctb.timeslotClash, List.any_eq_true, Bool.and_eq_true]
  refine exists_congr fun g => and_congr_right fun _ => and_congr_right fun _ => ?_
  cases t.timeslotMap g.highway g.timeslot <;> simp

/-! ### The lowest FREE index (R6) -/

theorem below_freeFrom {t : Ctb} {k : Index} : ∀ {fuel n : Nat}, t.freeFrom fuel n = some k →
    ∀ j : Index, n ≤ j.val → j < k → t.get j ≠ none
  | 0, _, h => by cases h
  | fuel + 1, n, h => by
    intro j hn hj
    unfold Ctb.freeFrom at h
    split at h <;> [rename_i hlt; cases h]
    split at h
    · cases h
      exact absurd (Fin.lt_def.1 hj) (by simpa using hn)
    · rename_i hf
      rcases Nat.eq_or_lt_of_le hn with rfl | hn
      · simpa using hf
      · exact below_freeFrom h j hn hj

theorem freeFrom_none {t : Ctb} : ∀ {fuel n : Nat}, t.freeFrom fuel n = none →
    ∀ j : Index, n ≤ j.val → j.val < n + fuel → t.get j ≠ none
  | 0, n, _ => fun j hn hj => absurd hj (by omega)
  | fuel + 1, n, h => by
    intro j hn hj
    unfold Ctb.freeFrom at h
    split at h
    · split at h <;> [cases h; rename_i hf]
      rcases Nat.eq_or_lt_of_le hn with rfl | hn
      · simpa using hf
      · exact freeFrom_none h j hn (by omega)
    · omega

/-- The table is full exactly where no index is FREE (R6). -/
theorem lowestFree_none_iff {t : Ctb} : t.lowestFree.isNone = true ↔ ∀ k, t.get k ≠ none := by
  cases e : t.lowestFree with
  | none => simpa using fun k => freeFrom_none e k (Nat.zero_le _) (by omega)
  | some k => simpa using ⟨k, Ctb.get_of_freeFrom e⟩

/-- The FREE index below which none is FREE is the lowest. -/
theorem lowestFree_eq {t : Ctb} {k : Index} (hk : t.get k = none) (hb : ∀ j < k, t.get j ≠ none) :
    t.lowestFree = some k := by
  cases e : t.lowestFree with
  | none => exact absurd hk (lowestFree_none_iff.1 (by rw [e]; rfl) k)
  | some j =>
    rcases lt_trichotomy j k with h | rfl | h
    · exact absurd (Ctb.get_of_freeFrom e) (hb j h)
    · rfl
    · exact absurd hk (below_freeFrom e k (Nat.zero_le _) h)

/-! ### ESTABLISH (R27, R28, R29) -/

theorem EstablishReq.bytes_length {q : EstablishReq} (h : 1 ≤ q.legs.length ∧ q.legs.length ≤ 4) :
    lengthFits 0x10 q.bytes.length = true := by
  have tag : ∀ t : BitVec 32, (tagBytes t).length = 4 := fun _ => rfl
  have fits : 10 ≤ q.bytes.length ∧ q.bytes.length ≤ 29 := by
    rw [q.bytes_eq]
    cases q.partner <;> cases q.tag <;> simp [legBytes_length, handle_bytes, tag] <;> omega
  exact decide_eq_true fits

section

variable {s : State} {l : Link} (hl : s.part.Heeds l)
include hl

/-- An ESTABLISH of a legal length that its block refuses. -/
theorem refuses_establish {body : List Byte} (hb : lengthFits 0x10 body.length = true) {st : Status}
    (hr : s.part.establish body = s.part.refused st) : Refuses (.establish l body) l s st :=
  refuses_of_run rfl hb hl.hears (fun _ => hl.2) hr

/-- A MODIFY of a legal length that its block refuses. -/
theorem refuses_modify {body : List Byte} (hb : lengthFits 0x11 body.length = true) {st : Status}
    (hr : s.part.modify body = s.part.refused st) : Refuses (.modify l body) l s st :=
  refuses_of_run rfl hb hl.hears (fun _ => hl.2) hr

end

section

variable {p : Part} {q : EstablishReq}

theorem establish_unread {body : List Byte}
    (h : ∀ q : EstablishReq, 1 ≤ q.legs.length → q.legs.length ≤ 4 → body ≠ q.bytes) :
    p.establish body = p.refused .badField := by
  cases e : readEstablish body with
  | none => simp only [Part.establish, e]
  | some q =>
    obtain ⟨h1, h4⟩ := legs_of_readEstablish e
    exact absurd (bytes_of_readEstablish e) (h q h1 h4)

theorem establish_refused (hq : 1 ≤ q.legs.length ∧ q.legs.length ≤ 4) {st : Status}
    (hc : p.establishCheck q = some st) : p.establish q.bytes = p.refused st := by
  simp only [Part.establish, readEstablish_bytes hq, hc]

theorem establish_carriedOut (hq : 1 ≤ q.legs.length ∧ q.legs.length ≤ 4) (hc : p.establishCheck q = none) {k : Index}
    (hk : p.ctb.lowestFree = some k) : p.establish q.bytes =
    (p.establishAt k q, okay ((p.ctb.handle k).bytes ++ [(p.waitingState q.slot).code])) := by
  simp only [Part.establish, readEstablish_bytes hq, hc, hk]

/-- The checks of ESTABLISH, each as the manual says it, decide by the first that fails (R27, R28, R29). -/
theorem establishCheck_of_firstOf (hr : Sparse.Rising p.ctb.recs) {st : Status} (h : FirstOf [
      (p.channelLimit q.slot ≤ q.channel.val, .badField),
      (1 < (q.legs.filter Leg.receives).length ∨ ¬(q.legs.map fun g => (g.highway, g.timeslot)).Nodup, .legConflict),
      (∃ j r, p.ctb.get j = some r ∧ r.slot = q.slot ∧ r.channel = q.channel, .channelTaken),
      (∃ g ∈ q.legs, g.sends = true ∧ ∃ j r, p.ctb.get j = some r ∧ r.holdsTimeslot g.highway g.timeslot = true,
        .timeslotTaken),
      (∃ h, q.partner = some h ∧ p.ctb.named h = none, .staleHandle),
      (∃ h r, q.partner = some h ∧ p.ctb.named h = some r ∧ (r.slot = q.slot ∨ r.partner.isSome = true),
        .partnerInvalid),
      (∀ k, p.ctb.get k ≠ none, .tableFull)] st) : p.establishCheck q = some st := by
  unfold Part.establishCheck
  refine firstOf_ite Iff.rfl h fun h => firstOf_ite (legConflict_iff _) h fun h =>
    firstOf_ite (channelMap_isSome hr) h fun h => firstOf_ite ?_ h fun h => ?_
  · simp only [timeslotClash_iff, ← timeslotMap_isSome hr, Option.isSome_iff_exists, and_true]
  · have stale : ∀ h, p.ctb.named h = none → p.ctb.partnerCheck q.slot h = some .staleHandle := fun h hn => by
      simp only [Ctb.partnerCheck, hn]
    rcases firstOf_partner stale (fun h r hn hb => by simp only [Ctb.partnerCheck, hn, if_pos hb])
      (fun h r hn hb => by simp only [Ctb.partnerCheck, hn, if_neg hb]) h with hp | ⟨hp, h⟩
    · rw [hp]
    · rw [hp]
      exact firstOf_ite lowestFree_none_iff h nofun

end

/-- Settles O12: a body is read exactly where R202 lays it out, and its checks are made in the order of the list. -/
theorem establishChecksInOrder : Obligations.EstablishChecksInOrder := by
  intro s l t hl
  refine ⟨fun body h10 h29 hb => ?_, fun q st h1 h4 h hr => ?_⟩
  · exact refuses_establish hl (decide_eq_true ⟨h10, h29⟩) (establish_unread hb)
  · have hq := And.intro h1 h4
    exact refuses_establish hl (EstablishReq.bytes_length hq) (establish_refused hq (establishCheck_of_firstOf hr h))

/-! ### MODIFY (R32, R33) -/

theorem ModifyReq.bytes_length {q : ModifyReq} (hq : ∀ g, q.legs = some g → 1 ≤ g.length ∧ g.length ≤ 4) :
    lengthFits 0x11 q.bytes.length = true := by
  have tag : ∀ t : BitVec 32, (tagBytes t).length = 4 := fun _ => rfl
  have part : ∀ {α : Type} (x : Option α) (f : α → List Byte) (n : Nat), (∀ y, x = some y → (f y).length ≤ n) →
      (x.elim [] f).length ≤ n := fun x f n h => by
    cases x with
    | none => exact Nat.zero_le n
    | some y => exact h y rfl
  have legs := part q.legs legListBytes 17 fun g e => by
    have := hq g e
    simp only [legListBytes, List.length_cons, legBytes_length]
    omega
  have cost := part q.cost (fun c => [byteOf c.val]) 1 fun _ _ => le_rfl
  have cls := part q.cls (fun c => [c.code]) 1 fun _ _ => le_rfl
  have tags := part q.tag.join tagBytes 4 fun t _ => (tag t).le
  have partner := part q.partner.join Handle.bytes 3 fun h _ => by rw [handle_bytes]; exact le_rfl
  have fits : 4 ≤ q.bytes.length ∧ q.bytes.length ≤ 30 := by
    rw [q.bytes_eq, handle_bytes]
    simp only [List.length_append, List.length_cons, List.length_nil]
    omega
  exact decide_eq_true fits

section

variable {p : Part} {q : ModifyReq} {r : Rec}

theorem modify_unread {body : List Byte} (h : ∀ q : ModifyReq, q.somePart = true ∧
    (∀ g, q.legs = some g → 1 ≤ g.length ∧ g.length ≤ 4) → body ≠ q.bytes) :
    p.modify body = p.refused .badField := by
  cases e : readModify body with
  | none => simp only [Part.modify, e]
  | some q =>
    obtain ⟨hs, hb⟩ := bytes_of_readModify e
    exact absurd hb (h q ⟨hs, legs_of_readModify e⟩)

variable (hs : q.somePart = true) (hq : ∀ g, q.legs = some g → 1 ≤ g.length ∧ g.length ≤ 4)
include hs hq

theorem modify_stale (hn : p.ctb.named q.handle = none) : p.modify q.bytes = p.refused .staleHandle := by
  simp only [Part.modify, readModify_bytes hs hq, hn]

theorem modify_refused (hn : p.ctb.named q.handle = some r) {st : Status} (hc : p.modifyCheck q r = some st) :
    p.modify q.bytes = p.refused st := by
  simp only [Part.modify, readModify_bytes hs hq, hn, hc]

theorem modify_carriedOut (hn : p.ctb.named q.handle = some r) (hc : p.modifyCheck q r = none) :
    p.modify q.bytes = (p.modifyAt q r, okay [stateCode ((p.modifyAt q r).ctb.get q.handle.index)]) := by
  simp only [Part.modify, readModify_bytes hs hq, hn, hc]

end

section

variable {p : Part} {q : ModifyReq} {r : Rec}

/-- A new partner does not fit a MODIFY: it is on the record's slot, or the record itself, or the partner of another
(R33 step 6). -/
theorem newPartner_unfit_iff {t : Ctb} (hn : t.named q.handle = some r) {h : Handle} {x : Rec} (hx : t.named h = some x) :
    (x.slot = r.slot ∨ h.index = q.handle.index ∨
        (x.partner.isSome = true ∧ x.partner ≠ some (t.handle q.handle.index))) ↔
      (x.slot = r.slot ∨ h = q.handle ∨ ∃ y, x.partner = some y ∧ y ≠ q.handle) := by
  have hself := Ctb.handle_of_named hn
  have index : h.index = q.handle.index ↔ h = q.handle :=
    ⟨fun e => by rw [← Ctb.handle_of_named hx, e, hself], fun e => by rw [e]⟩
  rw [hself, index]
  cases x.partner <;> simp

/-- The checks of MODIFY on a named record, each as the manual says it, decide by the first that fails (R33). -/
theorem modifyCheck_of_firstOf (hn : p.ctb.named q.handle = some r) {st : Status} (h : FirstOf [
      (r.state = .dropping ∨ (r.state = .loading ∧ r.retire = true), .wrongState),
      (∃ g, q.legs = some g ∧ (1 < (g.filter Leg.receives).length ∨
        ¬(g.map fun x => (x.highway, x.timeslot)).Nodup), .legConflict),
      (∃ g x h, q.legs = some g ∧ x ∈ g ∧ x.sends = true ∧
        p.ctb.timeslotMap x.highway x.timeslot = some h ∧ h ≠ q.handle, .timeslotTaken),
      (∃ h, q.partner = some (some h) ∧ p.ctb.named h = none, .staleHandle),
      (∃ h x, q.partner = some (some h) ∧ p.ctb.named h = some x ∧ (x.slot = r.slot ∨ h = q.handle ∨
        ∃ y, x.partner = some y ∧ y ≠ q.handle), .partnerInvalid)] st) : p.modifyCheck q r = some st := by
  unfold Part.modifyCheck
  refine firstOf_ite Iff.rfl h fun h => firstOf_ite ?_ h fun h => firstOf_ite ?_ h fun h => ?_
  · cases q.legs <;> simp [legConflict_iff]
  · cases q.legs <;> simp [timeslotClash_iff]
  · simp only [← Option.join_eq_some_iff] at h
    have stale : ∀ h, p.ctb.named h = none → p.ctb.newPartnerCheck q.handle.index r h = some .staleHandle := fun h hx => by
      simp only [Ctb.newPartnerCheck, hx]
    rcases firstOf_partner stale
      (fun h x hx hb => by simp only [Ctb.newPartnerCheck, hx, if_pos ((newPartner_unfit_iff hn hx).2 hb)])
      (fun h x hx hb => by simp only [Ctb.newPartnerCheck, hx, if_neg (mt (newPartner_unfit_iff hn hx).1 hb)]) h
      with hp | ⟨-, h⟩
    · exact hp
    · exact h.elim

end

/-- Settles O14: a body is read exactly where R201 lays it out, its handle is judged, and the checks are made in the order of
the list. -/
theorem modifyChecksInOrder : Obligations.ModifyChecksInOrder := by
  intro s l t some_part hl hr
  refine ⟨fun body h4 h30 hb => ?_, ?_, ?_⟩
  · exact refuses_modify hl (decide_eq_true ⟨h4, h30⟩) (modify_unread hb)
  · rintro q ⟨hs, hq⟩ hn
    exact refuses_modify hl (ModifyReq.bytes_length hq) (modify_stale hs hq hn)
  · rintro q r st ⟨hs, hq⟩ hn h
    exact refuses_modify hl (ModifyReq.bytes_length hq) (modify_refused hs hq hn (modifyCheck_of_firstOf hn h))

end Sys2Proof.Machine
end

section
namespace Sys2Proof.Machine

/-! ### Figures of the table (R22, R147) -/

namespace Sparse

variable {β γ : Type} {k : Index} {v w : β} {xs : List (Index × β)}

/-- An index that was not listed is listed beside the others. -/
theorem set_perm (h : get k xs = none) : (set k v xs).Perm ((k, v) :: xs) := by
  induction xs with
  | nil => exact .refl _
  | cons e xs ih =>
    unfold get at h
    split at h <;> [cases h; rename_i hj]
    unfold set
    split
    · exact .refl _
    · exact ((ih h).cons e).trans (.swap _ _ _)

/-- Over a listed value, one of the same figure leaves the figures. -/
theorem map_set (hr : Rising xs) (h : get k xs = some v) (φ : β → γ) (hφ : φ w = φ v) :
    ((set k w xs).map fun e => φ e.2) = xs.map fun e => φ e.2 := by
  induction xs with
  | nil => cases h
  | cons e xs ih =>
    obtain ⟨j, u⟩ := e
    have hr' := List.pairwise_cons.1 hr
    unfold get at h
    unfold set
    split at h
    · rename_i hj
      cases h
      rw [if_neg (by rw [hj]; exact lt_irrefl k), if_pos hj, List.map_cons, List.map_cons, hφ]
    · rename_i hj
      have hlt : j < k := hr'.1 k (List.mem_map.2 ⟨_, mem_of_get _ _ _ h, rfl⟩)
      rw [if_neg (not_lt_of_gt hlt), if_neg hj, List.map_cons, List.map_cons, ih hr'.2 h]

end Sparse

namespace Ctb

variable {γ : Type} {t : Ctb} {k : Index} {r : Rec}

/-- A figure that does not read the partner field is not changed by linking a partner. -/
theorem map_linkPartner (hr : Sparse.Rising t.recs) {φ : Rec → γ} (hφ : ∀ q x, φ { q with partner := x } = φ q)
    (x : Option Handle) :
    ((t.linkPartner x k).recs.map fun e => φ e.2) = t.recs.map fun e => φ e.2 := by
  unfold linkPartner
  cases x with
  | none => rfl
  | some x =>
    simp only [upd]
    split
    · rfl
    · exact Sparse.map_set hr ‹_› φ (hφ _ _)

/-- The figures of the records after an ESTABLISH: those before it, and the new record's. -/
theorem map_establish (hr : Sparse.Rising t.recs) (hk : t.get k = none) {φ : Rec → γ}
    (hφ : ∀ q x, φ { q with partner := x } = φ q) (c : Cls) (x : Option Handle) :
    ((((t.put k r).enlist c k).linkPartner x k).recs.map fun e => φ e.2).Perm (φ r :: t.recs.map fun e => φ e.2) := by
  rw [map_linkPartner (by rw [recs_enlist]; exact Sparse.rising_set hr) hφ, recs_enlist]
  exact (Sparse.set_perm hk).map _

theorem count_eq (t : Ctb) (st : RecState) : t.count st = (t.recs.map fun e => e.2.state).count st := by
  rw [count, List.count, List.countP_map, List.countP_eq_length_filter]
  rfl

/-- A table with a FREE index holds fewer than 4096 records. -/
theorem length_lt (hr : Sparse.Rising t.recs) (hk : t.get k = none) : t.recs.length < 4096 := by
  have hn : (k :: t.recs.map Prod.fst).Nodup := by
    refine List.nodup_cons.2 ⟨fun h => ?_, hr.imp fun h => ne_of_lt h⟩
    obtain ⟨e, he, hek⟩ := List.mem_map.1 h
    exact (Sparse.get_none_iff _ _).1 hk e he hek
  simpa using hn.length_le_card

end Ctb

/-! ### An accepted ESTABLISH (R30) -/

section

variable {p : Part} {q : EstablishReq} {k : Index}

/-- An ESTABLISH that fails none of its checks (R27, R28, R29). -/
theorem establishCheck_none (hchannel : q.channel.val < p.channelLimit q.slot) (hlegs : legConflict q.legs = false)
    (hfree : p.ctb.channelMap q.slot q.channel = none)
    (htimeslot : ∀ g ∈ q.legs, g.sends = true → p.ctb.timeslotMap g.highway g.timeslot = none)
    (hpartner : ∀ h, q.partner = some h → ∃ r, p.ctb.named h = some r ∧ r.slot ≠ q.slot ∧ r.partner = none)
    (hk : p.ctb.lowestFree = some k) : p.establishCheck q = none := by
  have hclash : p.ctb.timeslotClash (fun _ => false) q.legs = false := by
    rw [← Bool.not_eq_true, timeslotClash_iff]
    rintro ⟨g, hg, hs, h, hm, -⟩
    rw [htimeslot g hg hs] at hm
    cases hm
  have hfit : q.partner.bind (p.ctb.partnerCheck q.slot) = none := by
    cases e : q.partner with
    | none => rfl
    | some h =>
      obtain ⟨r, hn, hslot, hnone⟩ := hpartner h e
      simp [Ctb.partnerCheck, hn, hslot, hnone]
  simp [Part.establishCheck, Nat.not_le.2 hchannel, hlegs, hfree, hclash, hfit, hk]

/-- The table an ESTABLISH leaves (R30). -/
def Ctb.established (t : Ctb) (k : Index) (r : Rec) : Ctb := ((t.put k r).enlist r.cls k).linkPartner r.partner k

/-- The record created draws no load yet: it is in a waiting state (R4, R8). -/
theorem draw_record (st : RecState) (h : st.counted = false) : (q.record st).draw = 0 := by
  simp [Rec.draw, EstablishReq.record, h]

theorem waitingState_counted (i : SlotId) : (p.waitingState i).counted = false := by
  unfold Part.waitingState
  split <;> rfl

variable {t : Ctb} {r : Rec} (h : t.TableLaw) (f : t.Fits k r)
include h f

/-- The maps after an ESTABLISH name the new record (R16, R17, R30). -/
theorem maps_established : (t.established k r).channelMap r.slot r.channel = some (t.handle k) ∧
    ∀ g ∈ r.legs, g.sends = true → (t.established k r).timeslotMap g.highway g.timeslot = some (t.handle k) := by
  have law : (t.established k r).TableLaw := h.establish f
  have new : (t.established k r).get k = some r := by
    rw [Ctb.established, Ctb.get_establish t k r f.partner_ne, if_pos rfl]
  have handle : (t.established k r).handle k = t.handle k := by simp [Ctb.established]
  refine ⟨handle ▸ Ctb.channelMap_of_get law new, fun g hg hs => ?_⟩
  have holds : r.holdsTimeslot g.highway g.timeslot = true :=
    holdsTimeslot_iff.2 ⟨g, hg, rfl, rfl, by simpa [Leg.sends] using hs⟩
  exact handle ▸ Ctb.timeslotMap_of_get law new holds

/-- The counts after an ESTABLISH: one index fewer is FREE, and one record more is in the new record's state (R22). -/
theorem counts_established : (t.established k r).countFree + 1 = t.countFree ∧
    ∀ x, (t.established k r).count x = t.count x + if x = r.state then 1 else 0 := by
  refine ⟨?_, fun x => ?_⟩
  · have hlen := (Ctb.map_establish h.lists.recs f.free (φ := fun _ => ()) (fun _ _ => rfl) (r := r) r.cls
      r.partner).length_eq
    have hlt := Ctb.length_lt h.lists.recs f.free
    simp only [List.length_map, List.length_cons] at hlen
    rw [Ctb.countFree, Ctb.countFree, Ctb.established, hlen]
    omega
  · rw [Ctb.count_eq, Ctb.count_eq, Ctb.established,
      (Ctb.map_establish h.lists.recs f.free (φ := Rec.state) (fun _ _ => rfl) r.cls r.partner).count_eq, List.count_cons]
    simp only [beq_iff_eq, eq_comm (a := x)]

/-- The new record's draw is added to the others' (R147). -/
theorem draw_established : (t.established k r).draw = r.draw + t.draw := by
  rw [Ctb.draw, Ctb.established,
    (Ctb.map_establish h.lists.recs f.free (φ := Rec.draw) (fun _ _ => rfl) r.cls r.partner).sum_eq, List.sum_cons]
  rfl

end

/-- Settles O11: with every check passed the record fits the table (`Ctb.Fits`), and the table is the one `Ctb.established`
says, whose laws give the map entries. -/
theorem establishCreatesRecord : Obligations.EstablishCreatesRecord := by
  intro s l q k t st hl ht h1 h4 hchannel hlegs hfree htimeslot hpartner hget hbelow
  have hk : t.lowestFree = some k := lowestFree_eq hget hbelow
  have hcheck := establishCheck_none hchannel hlegs hfree htimeslot hpartner hk
  have fits : t.Fits k (q.record st) := fits_of_establishCheck ht hcheck hk ⟨h1, h4⟩ (waitingState_ne_refused _ _)
  have hcounts := counts_established ht fits
  have hmaps := maps_established ht fits
  refine ⟨t.established k (q.record st), ?_, ?_, fun j hj => ?_, fun j => ?_, fun c => ?_, hmaps.1, hmaps.2, hcounts.1,
    hcounts.2, ?_⟩
  · exact accepts_of_run rfl (EstablishReq.bytes_length ⟨h1, h4⟩) hl.hears (fun _ => hl.2)
      (establish_carriedOut ⟨h1, h4⟩ hcheck hk)
  · exact (Ctb.get_establish t k _ fits.partner_ne k).trans (if_pos rfl)
  · exact (Ctb.get_establish t k _ fits.partner_ne j).trans (if_neg hj)
  · simp [Ctb.established]
  · simp only [Ctb.established, Ctb.list_linkPartner, Ctb.list_enlist, Ctb.list_put]
    rfl
  · rw [draw_established ht fits, draw_record st (waitingState_counted (p := s.part) q.slot), Nat.zero_add]

end Sys2Proof.Machine
end

section
namespace Sys2Proof.Machine

/-! ### An accepted MODIFY (R34, R36) -/

section

variable {r : Rec} {running : Bool}

/-- MODIFY's rule for the state touches the state, the flags and the reason alone (R34). -/
theorem Rec.modified_content (running : Bool) (r : Rec) :
    (r.modified running).cost = r.cost ∧ (r.modified running).tag = r.tag := by
  unfold Rec.modified
  split <;> [split; skip; skip; skip; skip; skip] <;> exact ⟨rfl, rfl⟩

theorem Rec.modified_state :
    (r.modified running).state = if r.state = .live ∧ running = true then .pending else r.state := by
  unfold Rec.modified
  cases e : r.state <;> cases running <;> simp [e, Rec.to]

theorem Rec.modified_reload (h : r.FlagLaw) : (r.modified running).reload = true ↔ r.state = .loading := by
  have off : r.state ≠ .loading → r.reload = false := fun hs => (h.1 hs).1
  unfold Rec.modified
  cases e : r.state <;> cases running <;> simp_all [Rec.to]

theorem Rec.modified_retire (h : r.FlagLaw) (hr : ¬(r.state = .loading ∧ r.retire = true)) :
    (r.modified running).retire = false := by
  have off : r.retire = false := by
    by_cases hs : r.state = .loading
    · exact Bool.eq_false_of_not_eq_true fun e => hr ⟨hs, e⟩
    · exact (h.1 hs).2
  unfold Rec.modified
  cases r.state <;> cases running <;> simp_all [Rec.to]

theorem Rec.modified_reason (h : r.FlagLaw) : (r.modified running).reason = r.reason := by
  unfold Rec.modified
  split
  · rename_i hs
    split
    · rw [(h.plain (by rw [hs]; decide) (by rw [hs]; decide)).2.2]
      rfl
    · rfl
  all_goals rfl

end

namespace Ctb

variable {t : Ctb} {k : Index} {r q : Rec} {part : Option (Option Handle)}

@[simp] theorem gen_repartner (j : Index) : (t.repartner k r part).gen j = t.gen j := by
  unfold repartner
  split <;> [skip; skip; split] <;> simp

@[simp] theorem list_repartner (c : Cls) : (t.repartner k r part).list c = t.list c := by
  unfold repartner
  split <;> [skip; skip; split] <;> simp

/-- A record whose class differs leaves its old list and goes to the tail of its new one (R20). -/
theorem list_moved (a b c : Cls) : (t.reclass a b k).list c =
    if b = a then t.list c
    else if c = a then (t.list c).filter fun j => decide (j ≠ k)
    else if c = b then t.list c ++ [k] else t.list c := by
  rw [list_reclass]
  by_cases hab : a = b
  · rw [if_pos hab, if_pos hab.symm]
  · rw [if_neg hab, if_neg (Ne.symm hab)]
    by_cases hc : c = a
    · rw [if_neg fun e => hab (hc.symm.trans e), if_pos hc, if_pos hc]
    · simp only [if_neg hc]

/-- The partner part of a MODIFY, on the record itself (R15). -/
theorem get_repartner_self (ek : t.get k = some q) (hp : q.partner = r.partner)
    (hne : ∀ h, part = some (some h) → h.index ≠ k) :
    (t.repartner k r part).get k = some { q with partner := part.getD r.partner } := by
  unfold repartner
  split
  · rw [ek, Option.getD_none, ← hp]
  · rw [get_relink, ek]
    simp
  · rename_i h
    split
    · rename_i e
      rw [ek, Option.getD_some, ← e, ← hp]
    · rw [get_relinkPartner, ek]
      simp [(hne h rfl).symm]

/-- The partner part of a MODIFY, on the other records: a new partner is linked, and an old one loses its link (R15). -/
theorem get_repartner_ne (hold : ∀ h, r.partner = some h → ∀ x, t.get h.index = some x → x.partner = some (t.handle k))
    {j : Index} (hj : j ≠ k) : (t.repartner k r part).get j = (t.get j).map fun x =>
      if part.join.map Handle.index = some j then { x with partner := some (t.handle k) }
      else if part.isSome = true ∧ r.partner.map Handle.index = some j then { x with partner := none } else x := by
  unfold repartner
  split
  · simp
  · rw [get_relink]
    refine congrArg (Option.map · (t.get j)) (funext fun x => ?_)
    by_cases hr : r.partner.map Handle.index = some j <;> simp [hj, hr]
  · rename_i h
    split
    · rename_i e
      cases ej : t.get j with
      | none => rfl
      | some x =>
        by_cases hx : h.index = j
        · have := hold h e x (hx ▸ ej)
          simp [hx, ← this]
        · simp [e, hx]
    · rw [get_relinkPartner]
      refine congrArg (Option.map · (t.get j)) (funext fun x => ?_)
      by_cases hx : h.index = j
      · simp [hx]
      · by_cases hr : r.partner.map Handle.index = some j <;> simp [hj, hx, Ne.symm hx, hr]

end Ctb

section

variable {p : Part} {q : ModifyReq} {r : Rec}

/-- A MODIFY that fails none of its checks (R33). -/
theorem modifyCheck_none (hn : p.ctb.named q.handle = some r) (hd : r.state ≠ .dropping)
    (hr : ¬(r.state = .loading ∧ r.retire = true))
    (hlegs : ∀ g, q.legs = some g → legConflict g = false ∧ ∀ x ∈ g, x.sends = true →
      ∀ h, p.ctb.timeslotMap x.highway x.timeslot = some h → h = q.handle)
    (hpartner : ∀ h, q.partner = some (some h) → ∃ x, p.ctb.named h = some x ∧ x.slot ≠ r.slot ∧
      h.index ≠ q.handle.index ∧ (x.partner = none ∨ x.partner = some q.handle)) : p.modifyCheck q r = none := by
  have hstate : ¬(r.state = .dropping ∨ (r.state = .loading ∧ r.retire = true)) := not_or.2 ⟨hd, hr⟩
  have hconflict : (q.legs.map legConflict).getD false = false := by
    cases e : q.legs with
    | none => rfl
    | some g => exact (hlegs g e).1
  have hclash : (q.legs.map (p.ctb.timeslotClash fun h => decide (h = q.handle))).getD false = false := by
    cases e : q.legs with
    | none => rfl
    | some g =>
      rw [Option.map_some, Option.getD_some, ← Bool.not_eq_true, timeslotClash_iff]
      rintro ⟨x, hx, hs, h, hm, hmine⟩
      exact of_decide_eq_false hmine ((hlegs g e).2 x hx hs h hm)
  have hfit : q.partner.join.bind (p.ctb.newPartnerCheck q.handle.index r) = none := by
    cases e : q.partner.join with
    | none => rfl
    | some h =>
      obtain ⟨x, hx, hslot, hindex, hown⟩ := hpartner h (Option.join_eq_some_iff.1 e)
      rw [Option.bind_some, Ctb.newPartnerCheck, hx]
      simp only [Ctb.handle_of_named hn]
      refine if_neg (not_or.2 ⟨hslot, not_or.2 ⟨hindex, ?_⟩⟩)
      rcases hown with hown | hown <;> simp [hown]
  rw [Part.modifyCheck, if_neg hstate, hconflict, if_neg Bool.false_ne_true, hclash, if_neg Bool.false_ne_true, hfit]

/-- The record a MODIFY leaves, but for its partner: its content, by the table of R34. -/
def ModifyReq.written (q : ModifyReq) (running : Bool) (r : Rec) : Rec := (q.content r).modified running

/-- The record with the content and the partner of a MODIFY (R34, R36). -/
theorem get_modifyAt_self
    (hne : ∀ h, q.partner = some (some h) → h.index ≠ q.handle.index) :
    (p.modifyAt q r).ctb.get q.handle.index =
      some { q.written (p.slotRuns r.slot) r with partner := q.partner.getD r.partner } := by
  refine Ctb.get_repartner_self (q := q.written (p.slotRuns r.slot) r) ?_ (Rec.modified_partner _ _) hne
  rw [Ctb.get_reclass, Ctb.get_put, if_pos rfl]
  rfl

/-- The other records after a MODIFY (R15, R36). -/
theorem get_modifyAt_ne (ht : p.ctb.TableLaw) (hn : p.ctb.named q.handle = some r) {j : Index} (hj : j ≠ q.handle.index) :
    (p.modifyAt q r).ctb.get j = (p.ctb.get j).map fun x =>
      if q.partner.join.map Handle.index = some j then { x with partner := some q.handle }
      else if q.partner.isSome = true ∧ r.partner.map Handle.index = some j then { x with partner := none } else x := by
  obtain ⟨-, er⟩ := Ctb.named_eq_some.1 hn
  have hself : ∀ a b : Cls, (((p.ctb.put q.handle.index (q.written (p.slotRuns r.slot) r)).reclass a b
      q.handle.index).handle q.handle.index) = q.handle := fun a b => by
    rw [Ctb.handle, Ctb.gen_reclass, Ctb.gen_put]
    exact Ctb.handle_of_named hn
  refine (Ctb.get_repartner_ne (fun h e x ex => ?_) hj).trans ?_
  · obtain ⟨y, hy, hback, hslot⟩ := ht.partners _ r h er e
    have hy := (Ctb.named_eq_some.1 hy).2
    have hne : h.index ≠ q.handle.index := fun e => by
      rw [e, er] at hy
      cases hy
      exact hslot rfl
    rw [Ctb.get_reclass, Ctb.get_put, if_neg hne, hy] at ex
    cases ex
    exact hback.trans (congrArg some ((Ctb.handle_of_named hn).trans (hself _ _).symm))
  · rw [Ctb.get_reclass, Ctb.get_put, if_neg hj]
    exact congrArg (fun h => (p.ctb.get j).map fun x =>
      if q.partner.join.map Handle.index = some j then { x with partner := some h }
      else if q.partner.isSome = true ∧ r.partner.map Handle.index = some j then { x with partner := none } else x)
      (hself _ _)

end

/-- Settles O13: the content is written over the record (`ModifyReq.written`), which then moves to its new list and partner. -/
theorem modifyWritesRecord : Obligations.ModifyWritesRecord := by
  intro s l q r t k reloads hl ht hn hsome hlegs hpartner hdropping hretire
  obtain ⟨-, er⟩ := Ctb.named_eq_some.1 hn
  have hfour : ∀ g, q.legs = some g → 1 ≤ g.length ∧ g.length ≤ 4 := fun g e => by
    obtain ⟨h1, h4, -⟩ := hlegs g e
    exact ⟨h1, h4⟩
  have hcheck : s.part.modifyCheck q r = none :=
    modifyCheck_none hn hdropping hretire (fun g e => (hlegs g e).2.2) hpartner
  have hself := get_modifyAt_self (p := s.part) (r := r) fun h e => by
    obtain ⟨-, -, -, hindex, -⟩ := hpartner h e
    exact hindex
  have flags : (q.content r).FlagLaw := ht.flags k r er
  have binding := Rec.modified_binding (s.part.slotRuns r.slot) (q.content r)
  have content := Rec.modified_content (s.part.slotRuns r.slot) (q.content r)
  have state : (q.written (s.part.slotRuns r.slot) r).state = if reloads then .pending else r.state := Rec.modified_state
  refine ⟨(s.part.modifyAt q r).ctb, _, ?_, hself, binding.legs, content.1, binding.cls, content.2, rfl, binding.slot,
    binding.channel, fun h => state.trans (if_pos h), fun h => state.trans (if_neg h), Rec.modified_reload flags,
    Rec.modified_retire flags hretire, Rec.modified_reason flags, fun j hj => get_modifyAt_ne ht hn hj, fun j => ?_,
    fun c => ?_⟩
  · refine accepts_of_run rfl (ModifyReq.bytes_length hfour) hl.hears (fun _ => hl.2) ?_
    rw [modify_carriedOut hsome hfour hn hcheck, hself]
    rfl
  · exact (Ctb.gen_repartner j).trans ((Ctb.gen_reclass _ _ j).trans (Ctb.gen_put ..))
  · refine (Ctb.list_repartner c).trans ((Ctb.list_moved _ _ c).trans ?_)
    simp only [Ctb.list_put]
    rfl

end Sys2Proof.Machine
end

section
/-! Every operation of the part keeps the laws of each slot, and so every step does (O57). -/

namespace Sys2Proof.Machine

/-! ### Settings in their ranges (R50, R51, R121, R141) -/

section

variable {c : Settings}

theorem unknown_inRange : Profile.unknown.InRange := by constructor <;> decide

theorem clamp_bounds {lo hi : Nat} (h : lo ≤ hi) (x : Nat) : lo ≤ clamp lo hi x ∧ clamp lo hi x ≤ hi := by
  unfold clamp
  omega

theorem profileOf_inRange (f : WireProfile) : (profileOf f).InRange where
  channels := clamp_bounds (by decide) _
  inrush := (clamp_bounds (by decide) _).2
  base := (clamp_bounds (by decide) _).2
  shift := clamp_bounds (by decide) _
  cap := clamp_bounds (by decide) _

theorem clampCompletion_mem (x : Nat) : clampCompletion x ∈ [2, 5, 10, 20, 50, 100] := by
  unfold clampCompletion
  repeat' split
  all_goals decide

theorem busOf_inRange (f : WireBus) : (busOf f).InRange where
  w := clamp_bounds (by decide) _
  completion := clampCompletion_mem _
  missedLimit := clamp_bounds (by decide) _
  fastPoll := clamp_bounds (by decide) _
  slowPoll := clamp_bounds (by decide) _
  boot := by
    have := clamp_bounds (lo := 100) (hi := 25500) (by decide) f.boot.toNat
    simp only [busOf, clampBoot]
    omega
  align := clamp_bounds (by decide) _
  off := clamp_bounds (by decide) _
  attemptLimit := clamp_bounds (by decide) _

theorem budgetOf_inRange (f : WireBudget) : (budgetOf f).InRange where
  limit := clamp_bounds (by decide) _
  start := Nat.min_le_left _ _
  slew := Nat.min_le_left _ _
  stall := by
    have := clamp_bounds (lo := 10) (hi := 2550) (by decide) f.stall.toNat
    simp only [budgetOf, clampStall]
    split
    · exact .inl rfl
    · exact .inr this

/-- The two last clamps put CUTOFF at or below DIP and RESTORE above it, where there is room above (R121). -/
theorem supplyOf_inRange (f : WireSupply) : (supplyOf f).InRange where
  dip := (clamp_bounds (by decide) _).2
  cutoff := by
    simp only [supplyOf, SupplyCfg.ordered]
    split <;> omega
  restore := by
    have hd := (clamp_bounds (lo := 0) (hi := 1023) (by decide) f.dip.toNat).2
    have hr := (clamp_bounds (lo := 0) (hi := 1023) (by decide) f.restore.toNat).2
    simp only [supplyOf, SupplyCfg.ordered]
    split <;> omega
  nDip := clamp_bounds (by decide) _
  nCut := clamp_bounds (by decide) _
  nRest := clamp_bounds (by decide) _
  settle := clamp_bounds (by decide) _
  shift := (clamp_bounds (by decide) _).2

/-- A profile in its ranges may be written over any entry. -/
theorem Settings.InRange.setProfile (h : c.InRange) (ty : CardType) {x : Profile} (hx : x.InRange) :
    ({ c with profiles := c.profiles.set ty x } : Settings).InRange where
  profiles k := by
    by_cases hk : ty = k
    · simpa [hk] using hx
    · have hv : ty.val ≠ k.val := fun e => hk (Fin.ext e)
      simpa [Vector.getElem_set, hv] using h.profiles k
  bus := h.bus
  budget := h.budget
  supply := h.supply

end

/-! ### The laws of one slot -/

section

variable {x : Slot} {b : BusCfg} {st : SlotState}

theorem Slot.Law.seated_of_ne (h : x.Law) (hs : x.state ≠ .empty) : x.seated = true :=
  (Bool.eq_false_or_eq_true _).resolve_right fun e => hs (h.seated.2 e)

theorem Slot.Law.seated_of_enable (h : x.Law) (he : x.enable = true) : x.seated = true :=
  h.seated_of_ne fun e => by
    rw [Slot.enable, e] at he
    cases he

theorem cut_none (before after : PollClass) : b.cut before after none = none := by
  unfold BusCfg.cut
  repeat' split
  all_goals rfl

/-- The interval is none exactly where the enable is withdrawn (R93). -/
theorem interval_withdrawn (h : x.enable = false) : b.interval x.pollClass = none := by
  unfold Slot.enable at h
  unfold Slot.pollClass
  cases e : x.state <;> rw [e] at h <;> first | rfl | cases h

/-- The figures of a slot that an entry to another state leaves, each in its range (R48, R53, R83). -/
structure Slot.Figures (x : Slot) : Prop where
  depth : ∀ c, x.cardSeen = some c → 1 ≤ c.depth ∧ c.depth ≤ 8
  window : 1 ≤ x.window ∧ x.window ≤ 8
  attempts : x.attempts ≤ 15
  missed : x.missed ≤ 7

theorem Slot.Law.figures (h : x.Law) : x.Figures := ⟨h.depth, h.window, h.attempts, h.missed⟩

/-- A slot whose enable is withdrawn, cooling only in OFF (R54, R56). -/
theorem withdrawn_law (h : x.Figures) (hd : st.driven = false) (hs : st = .empty ↔ x.seated = false) {off : Timer}
    (ho : off.isSome = true → st = .off) : ({ x.withdrawn st with offTimer := off } : Slot).Law where
  seated := hs
  boot := nofun
  align := nofun
  off := ho
  stable := nofun
  audit := ⟨nofun, fun e => (by cases (e : st = .auditing); cases hd)⟩
  engine := nofun
  withdrawn _ := ⟨rfl, rfl, rfl, rfl, rfl⟩
  depth := nofun
  window := h.window
  outstanding := Nat.zero_le _
  attempts := h.attempts
  missed := h.missed

/-- A slot that has gone dark (R55). -/
theorem darkened_law (h : x.Figures) (hs : x.seated = true) (boot : Timer) : (x.darkened b boot).Law where
  seated := ⟨nofun, fun e => by cases hs.symm.trans e⟩
  boot _ := rfl
  align := nofun
  off := nofun
  stable := nofun
  audit := ⟨nofun, nofun⟩
  engine := nofun
  withdrawn := nofun
  depth := h.depth
  window := h.window
  outstanding := Nat.zero_le _
  attempts := h.attempts
  missed := Nat.zero_le _

/-- What may stand with a slot in a state an entry moves to: the align timer in ALIGNING, an audit context exactly in AUDITING,
and the slot-engine frame the state calls for (R63, R92, R105). -/
structure SlotState.Calls (st : SlotState) (align : Timer) (audit : Option AuditStep) (engine : Option Engine) : Prop where
  align : align.isSome = true → st = .aligning
  audit : audit.isSome = true ↔ st = .auditing
  engine : ∀ e, engine = some e → e.tries ≤ 7 ∧ ((∃ ph, st = .aligning ∧ e.frame = .align ph) ∨
    st = .auditing ∧ (e.frame = .digest ∨ e.frame = .clear) ∨ st = .held ∧ e.frame = .clear)

theorem calls_none (h : st ≠ .auditing) : st.Calls none none none := ⟨nofun, ⟨nofun, fun e => absurd e h⟩, nofun⟩

theorem calls_align (align : Timer) (ph : Fin 16) (place : Place) :
    SlotState.aligning.Calls align none (some ⟨.align ph, 0, place⟩) :=
  ⟨fun _ => rfl, ⟨nofun, nofun⟩, fun _ e => by cases e; exact ⟨Nat.zero_le _, .inl ⟨ph, rfl, rfl⟩⟩⟩

theorem calls_audit (step : AuditStep) {f : Frame} (hf : f = .digest ∨ f = .clear) (place : Place) :
    SlotState.auditing.Calls none (some step) (some ⟨f, 0, place⟩) :=
  ⟨nofun, ⟨fun _ => rfl, fun _ => rfl⟩, fun _ e => by cases e; exact ⟨Nat.zero_le _, .inr (.inl ⟨rfl, hf⟩)⟩⟩

theorem calls_clear (place : Place) : SlotState.held.Calls none none (some ⟨.clear, 0, place⟩) :=
  ⟨nofun, ⟨nofun, nofun⟩, fun _ e => by cases e; exact ⟨Nat.zero_le _, .inr (.inr ⟨rfl, rfl⟩)⟩⟩

/-- A slot that has gone to a state with the enable driven, with what the state calls for. -/
theorem moved_law (h : x.Figures) (hs : x.seated = true) (hd : st.driven = true) {align : Timer} {audit : Option AuditStep}
    {engine : Option Engine} (hc : st.Calls align audit engine) (interval : PollClass) :
    ({ x.moved b st interval with alignTimer := align, audit := audit, engine := engine } : Slot).Law where
  seated := ⟨fun e => (by cases (e : st = .empty); cases hd), fun e => by cases hs.symm.trans e⟩
  boot := nofun
  align := hc.align
  off := nofun
  stable := nofun
  audit := hc.audit
  engine := hc.engine
  withdrawn he := by cases hd.symm.trans he
  depth := h.depth
  window := h.window
  outstanding := Nat.zero_le _
  attempts := h.attempts
  missed := h.missed

/-- A slot that has gone from RELINKING to LINKED keeps its list (R65). -/
theorem linkedUp_law (h : x.Law) (hs : x.state = .relinking) : (x.linkedUp b).Law where
  seated := ⟨nofun, fun e => by rw [h.seated.2 e] at hs; cases hs⟩
  boot := nofun
  align := nofun
  off := nofun
  stable _ := rfl
  audit := ⟨nofun, nofun⟩
  engine := nofun
  withdrawn := nofun
  depth := h.depth
  window := h.window
  outstanding := h.outstanding
  attempts := h.attempts
  missed := h.missed

/-- A slot at cold start, with or without a card seated (R81). -/
theorem cold_law (seated : Bool) : (Slot.cold seated).Law where
  seated := by cases seated <;> decide
  boot := nofun
  align := nofun
  off := nofun
  stable := nofun
  audit := by cases seated <;> decide
  engine := nofun
  withdrawn _ := ⟨rfl, rfl, rfl, rfl, rfl⟩
  depth := nofun
  window := ⟨Nat.le_refl 1, (by decide : 1 ≤ 8)⟩
  outstanding := Nat.zero_le _
  attempts := Nat.zero_le _
  missed := Nat.zero_le _

/-- A slot after a warm reset (R82, R104). -/
theorem warm_law (h : x.Law) : x.warm.Law where
  seated := by
    show x.resetState = .empty ↔ x.seated = false
    unfold Slot.resetState
    cases x.seated
    · simp
    · simp only [if_true]
      split <;> simp
  boot := nofun
  align := nofun
  off := nofun
  stable := nofun
  audit := by
    show none.isSome = true ↔ x.resetState = .auditing
    unfold Slot.resetState
    repeat' split
    all_goals simp
  engine := nofun
  withdrawn he := by
    have hd : x.resetState ≠ .dark := fun e => by
      rw [Slot.enable, show x.warm.state = x.resetState from rfl, e] at he
      cases he
    exact ⟨rfl, decide_eq_false hd, rfl, rfl, rfl⟩
  depth := nofun
  window := h.window
  outstanding := Nat.zero_le _
  attempts := h.attempts
  missed := Nat.zero_le _

/-- One ms on a slot's timers starts none (log 2). -/
theorem age_law (h : x.Law) : x.age.Law where
  seated := h.seated
  boot e := h.boot (by simpa [Slot.age, Timer.age] using e)
  align e := h.align (by simpa [Slot.age, Timer.age] using e)
  off e := h.off (by simpa [Slot.age, Timer.age] using e)
  stable e := h.stable (by simpa [Slot.age, Timer.age] using e)
  audit := h.audit
  engine := h.engine
  withdrawn he := by
    obtain ⟨hi, hd, ht, hc, hl⟩ := h.withdrawn he
    exact ⟨hi, hd, by simp [Slot.age, Timer.age, ht], hc, hl⟩
  depth := h.depth
  window := h.window
  outstanding := by simpa [Slot.age] using h.outstanding
  attempts := h.attempts
  missed := h.missed

/-- The in-flight list and the waiting DROPs replaced; the poll timer follows the interval (R93, R94). -/
theorem Slot.Law.work (h : x.Law) {entries : List Txn} (hl : entries.length ≤ 8) (drops : List Handle)
    (before after : PollClass) :
    ({ x with waitingDrops := drops, inflight := entries, pollTimer := b.cut before after x.pollTimer } : Slot).Law :=
  { h with
    outstanding := hl
    withdrawn := fun he => by
      obtain ⟨hi, hd, ht, hc, hl⟩ := h.withdrawn he
      exact ⟨hi, hd, by rw [ht, cut_none], hc, hl⟩ }

/-- The pending slot-engine frame with another place and count of tries (R91, R92). -/
theorem Slot.Law.place (h : x.Law) {e : Engine} (he : x.engine = some e) {tries : Nat} (ht : tries ≤ 7) (place : Place) :
    ({ x with engine := some { e with tries := tries, place := place } } : Slot).Law :=
  { h with engine := fun _ e' => by cases e'; exact ⟨ht, (h.engine e he).2⟩ }

/-- The opening of an exchange moves no frame between slots or states (R86, R92). -/
theorem frameSent_law (h : x.Law) (f : Frame) : (x.frameSent f).Law := by
  have sent (k : Handle) : ({ x with inflight := x.inflight.map fun e =>
      if e.handle = k then { e with sent := true } else e } : Slot).Law :=
    { h with outstanding := by simpa using h.outstanding }
  have engine : ({ x with engine := x.engine.map fun e => { e with place := .inExchange } } : Slot).Law := by
    cases e : x.engine with
    | none => exact { h with engine := nofun }
    | some e' => exact h.place e (h.engine _ e).1 _
  cases f with
  | poll => exact h
  | load k _ _ => exact sent k
  | drop k => exact sent k
  | align _ | digest | clear => exact engine

theorem counted_law (h : x.Law) (kind : BitVec 5) : (x.counted kind).Law :=
  { h with attempts := Nat.min_le_left _ _ }

/-- A reply entered in the slot record changes nothing where the enable is withdrawn (R49). -/
theorem enterReply_law (h : x.Law) {f : PollFields} (hf : 1 ≤ f.depth ∧ f.depth ≤ 8) : (x.enterReply f).Law := by
  unfold Slot.enterReply
  split
  · rename_i he
    exact { h with
      depth := fun _ e => by cases e; exact hf
      withdrawn := fun hw => by cases he.symm.trans hw }
  · exact h

theorem engineDone_law (h : x.Law) : x.engineDone.Law := by
  unfold Slot.engineDone
  split
  · split
    · exact { h with engine := nofun }
    · exact h
  · exact h

theorem heard_law (h : x.Law) : x.heard.Law := { h with missed := Nat.zero_le _ }

theorem markAlign_law (h : x.Law) (e : Exchange) : (x.markAlign e).Law := by
  unfold Slot.markAlign
  split
  · exact { h with }
  all_goals exact h

theorem lowerWindow_law (h : x.Law) : x.lowerWindow.Law := by
  have := h.outstanding
  rw [lowerWindow_eq]
  exact { h with window := (by omega : 1 ≤ max 1 x.inflight.length ∧ max 1 x.inflight.length ≤ 8) }

end
end Sys2Proof.Machine
end

section
namespace Sys2Proof.Machine

variable {p q : Part} {i j : SlotId} {g : SegId} {st : SlotState}

/-! ### What an entry that enables a slot makes of it (R58) -/

/-- The slot of a bring-up trial that passes: enabled, its charge set, its boot timer started and a POLL due (R58, R145). -/
theorem enable_spec : p.Entered i .dark (p.enable i) ∧ (p.enable i).ctb = p.ctb ∧
    (p.enable i).slot i = { (p.slot i).darkened p.cfg.bus (some p.cfg.bus.boot) with
      cardSeen := none
      pollTimer := none
      pollDue := true
      inrush := (p.profile (p.slot i)).inrush } := by
  refine ⟨?_, enable_ctb, ?_⟩
  · unfold Part.enable
    exact (entered_enter p i .dark).updSlot _
  · unfold Part.enable
    rw [slot_updSlot_self, slot_enter, recut_eq]
    rfl

/-! ### The laws of every slot under a change of the part -/

/-- The laws look at the settings and the slots alone. -/
theorem slotsLaw_congr (hc : q.cfg = p.cfg) (hs : ∀ j, q.slot j = p.slot j) : q.SlotsLaw ↔ p.SlotsLaw := by
  simp only [Part.SlotsLaw, hc, hs]

@[simp] theorem slotsLaw_updLink (l : Link) (f : LinkRec → LinkRec) : (p.updLink l f).SlotsLaw ↔ p.SlotsLaw :=
  slotsLaw_congr (by simp) (by simp)
@[simp] theorem slotsLaw_updSeg (f : Segment → Segment) : (p.updSeg g f).SlotsLaw ↔ p.SlotsLaw :=
  slotsLaw_congr (by simp) (by simp)
@[simp] theorem slotsLaw_setSeg (x : Segment) : (p.setSeg g x).SlotsLaw ↔ p.SlotsLaw := slotsLaw_congr (by simp) (by simp)
@[simp] theorem slotsLaw_onCtb (f : Ctb → Ctb) : (p.onCtb f).SlotsLaw ↔ p.SlotsLaw := Iff.rfl
@[simp] theorem slotsLaw_treat (f : Fate) : (p.treat f i).SlotsLaw ↔ p.SlotsLaw := Iff.rfl
@[simp] theorem slotsLaw_onSpm (f : Spm → Spm) : (p.onSpm f).SlotsLaw ↔ p.SlotsLaw := Iff.rfl
@[simp] theorem slotsLaw_onFbu (f : Fbu → Fbu) : (p.onFbu f).SlotsLaw ↔ p.SlotsLaw := Iff.rfl
@[simp] theorem slotsLaw_running (r : Bool) : ({ p with running := r } : Part).SlotsLaw ↔ p.SlotsLaw := Iff.rfl
@[simp] theorem slotsLaw_raise (n : Notice) : (p.raise n).SlotsLaw ↔ p.SlotsLaw := Iff.rfl
@[simp] theorem slotsLaw_raiseOn (l : Link) (n : Notice) : (p.raiseOn l n).SlotsLaw ↔ p.SlotsLaw := slotsLaw_updLink _ _
@[simp] theorem slotsLaw_reportSlot : (p.reportSlot i).SlotsLaw ↔ p.SlotsLaw := by simp [Part.reportSlot]
@[simp] theorem slotsLaw_enqueue (f : Frame) : (p.enqueue i f).SlotsLaw ↔ p.SlotsLaw := by simp [Part.enqueue]
@[simp] theorem slotsLaw_stallCheck : p.stallCheck.SlotsLaw ↔ p.SlotsLaw := slotsLaw_congr (by simp) (by simp)
@[simp] theorem slotsLaw_recoveryTest : p.recoveryTest.SlotsLaw ↔ p.SlotsLaw := slotsLaw_congr (by simp) (by simp)
@[simp] theorem slotsLaw_discard (l : Link) : (p.discard l).SlotsLaw ↔ p.SlotsLaw := by simp [Part.discard]
@[simp] theorem slotsLaw_ended (l : Link) : (p.ended l).SlotsLaw ↔ p.SlotsLaw := by simp [Part.ended]
@[simp] theorem slotsLaw_answer (l : Link) (r : Response) : (p.answer l r q).SlotsLaw ↔ q.SlotsLaw := by simp [Part.answer]

@[simp] theorem slotsLaw_readOut (l : Link) (n : Nat) : (p.readOut l n).SlotsLaw ↔ p.SlotsLaw := by
  simp only [Part.readOut, slotsLaw_updLink]
  exact Iff.rfl

@[simp] theorem slotsLaw_readResponse (l : Link) (n : Nat) : (p.readResponse l n).SlotsLaw ↔ p.SlotsLaw := by
  simp [Part.readResponse]

@[simp] theorem slotsLaw_offer (f : Captured) : (p.offer f).SlotsLaw ↔ p.SlotsLaw := by
  unfold Part.offer
  split <;> exact Iff.rfl

section

variable (h : p.SlotsLaw)
include h

/-- A slot is rewritten. -/
theorem slotsLaw_setSlot {x : Slot} (hx : x.Law) : (p.setSlot i x).SlotsLaw := by
  refine ⟨h.1, fun j => ?_⟩
  rw [slot_setSlot]
  split
  · exact hx
  · exact h.2 j

/-- A slot is changed by what keeps its laws. -/
theorem slotsLaw_updSlot {f : Slot → Slot} (hf : (p.slot i).Law → (f (p.slot i)).Law) : (p.updSlot i f).SlotsLaw :=
  slotsLaw_setSlot h (hf (h.2 i))

/-- A slot has entered a state, and keeps its laws there. -/
theorem slotsLaw_entered (he : p.Entered i st q) (hx : (q.slot i).Law) : q.SlotsLaw := by
  refine ⟨he.cfg ▸ h.1, fun j => ?_⟩
  by_cases hj : j = i
  · exact hj ▸ hx
  · rw [he.slots j hj]
    exact h.2 j

theorem slotsLaw_mapSlots {f : Slot → Slot} (hf : ∀ x : Slot, x.Law → (f x).Law) : (p.mapSlots f).SlotsLaw := by
  refine ⟨by simpa using h.1, fun j => ?_⟩
  rw [slot_mapSlots]
  exact hf _ (h.2 j)

theorem slotsLaw_eachSlot {f : SlotId → Part → Part} (hf : ∀ i (q : Part), q.SlotsLaw → (f i q).SlotsLaw) :
    (p.eachSlot f).SlotsLaw :=
  List.foldlRecOn (motive := Part.SlotsLaw) _ _ h fun q hq i _ => hf i q hq

theorem slotsLaw_setInflight {l : List Txn} (hl : l.length ≤ 8) : (p.setInflight i l).SlotsLaw := by
  rw [setInflight_eq]
  exact slotsLaw_setSlot h ((h.2 i).work hl _ _ _)

/-! ### Grants (R91) -/

/-- A grant to an eligible producer: a DROP's leaves the outstanding count within the window (R53, R95). -/
theorem slotsLaw_grant {c : Category} (he : (p.slot i).eligible c = true) : (p.grant i c).SlotsLaw := by
  cases c with
  | engine =>
    unfold Part.grant
    simp only
    split
    · exact h
    · rename_i e hp
      rw [slotsLaw_enqueue]
      exact slotsLaw_updSlot h fun hx => hx.place hp (hx.engine _ hp).1 _
  | drop =>
    unfold Part.grant
    simp only
    split
    · exact h
    · rw [slotsLaw_enqueue]
      have hw := (h.2 i).window
      have hl : (p.slot i).inflight.length < (p.slot i).window := by
        simp only [Slot.eligible, Bool.and_eq_true, decide_eq_true_eq] at he
        exact he.2
      refine slotsLaw_setInflight (slotsLaw_updSlot h fun hx => { hx with }) ?_
      rw [List.length_append, List.length_singleton]
      omega
  | poll =>
    have hd : (p.slot i).enable = true := by
      by_contra hn
      obtain ⟨-, hdue, -⟩ := (h.2 i).withdrawn (by simpa using hn)
      cases hdue.symm.trans he
    unfold Part.grant
    rw [slotsLaw_enqueue]
    exact slotsLaw_updSlot h fun hx => { hx with withdrawn := fun hw => by cases hd.symm.trans hw }

theorem slotsLaw_arbitrate : (p.arbitrate g).SlotsLaw :=
  arbitrate_induct (P := Part.SlotsLaw)
    (fun _ _ _ hq _ _ he => (slotsLaw_updSeg _).2 (slotsLaw_grant hq he)) h

theorem slotsLaw_follow : p.follow.SlotsLaw := by
  rw [Part.follow, slotsLaw_recoveryTest, slotsLaw_stallCheck]
  exact slotsLaw_arbitrate (slotsLaw_arbitrate h)

/-! ### Entries (R48, R55, R56) -/

theorem slotsLaw_powerOff (hs : (p.slot i).seated = true) (hd : st.driven = false) (hne : st ≠ .empty) {off : Timer}
    (ho : off.isSome = true → st = .off) : (p.powerOff i st off).SlotsLaw := by
  obtain ⟨he, hx, -⟩ := powerOff_spec (p := p) (i := i) hd off
  refine slotsLaw_entered h he (hx ▸ withdrawn_law (h.2 i).figures hd ⟨fun e => absurd e hne, fun e => ?_⟩ ho)
  cases hs.symm.trans e

theorem slotsLaw_fault (hs : (p.slot i).seated = true) : (p.fault i).SlotsLaw :=
  slotsLaw_powerOff (st := .faulted) h hs rfl (by decide) nofun

theorem slotsLaw_cool (hs : (p.slot i).seated = true) : (p.cool i).SlotsLaw :=
  slotsLaw_powerOff (st := .off) h hs rfl (by decide) fun _ => rfl

theorem slotsLaw_darken (hs : (p.slot i).seated = true) (boot : Timer) : (p.darken i boot).SlotsLaw := by
  obtain ⟨he, hx, -⟩ := darken_spec (p := p) (i := i) boot
  exact slotsLaw_entered h he (hx ▸ darkened_law (h.2 i).figures hs boot)

/-- An entry to ALIGNING, RELINKING, HELD or MISMATCH, with no slot-engine frame called for. -/
theorem slotsLaw_enter (hs : (p.slot i).seated = true) (hm : st ∈ [.aligning, .relinking, .held, .mismatch]) :
    (p.enter i st).SlotsLaw := by
  refine slotsLaw_entered h (entered_enter p i st) ?_
  simp only [List.mem_cons, List.not_mem_nil, or_false] at hm
  have hd : st.driven = true := by rcases hm with rfl | rfl | rfl | rfl <;> rfl
  rw [slot_enter, into_moved (by rcases hm with rfl | rfl | rfl | rfl <;> decide)]
  exact moved_law (h.2 i).figures hs hd (calls_none (by rcases hm with rfl | rfl | rfl | rfl <;> decide)) _

theorem slotsLaw_enterAligning (hs : (p.slot i).seated = true) : (p.enterAligning i).SlotsLaw := by
  obtain ⟨q, he, hx, -, e⟩ := enterAligning_spec (p := p) (i := i)
  rw [e]
  exact slotsLaw_arbitrate (slotsLaw_entered h he (hx ▸ moved_law (h.2 i).figures hs rfl (calls_align _ _ _) _))

theorem slotsLaw_enterAuditing (hs : (p.slot i).seated = true) : (p.enterAuditing i).SlotsLaw := by
  obtain ⟨q, he, hx, -, e⟩ := enterAuditing_spec (p := p) (i := i)
  rw [e]
  exact slotsLaw_arbitrate (slotsLaw_entered h he (hx ▸ moved_law (h.2 i).figures hs rfl (calls_audit _ (.inl rfl) _) _))

theorem slotsLaw_enterHeldClearing (hs : (p.slot i).seated = true) : (p.enterHeldClearing i).SlotsLaw := by
  obtain ⟨q, he, hx, -, e⟩ := enterHeldClearing_spec (p := p) (i := i)
  rw [e]
  exact slotsLaw_arbitrate (slotsLaw_entered h he (hx ▸ moved_law (h.2 i).figures hs rfl (calls_clear _) _))

/-- The effective window is at least 1 and at most W (R51, R53). -/
theorem computeWindow_bounds : 1 ≤ p.computeWindow i ∧ p.computeWindow i ≤ 8 := by
  have hw := h.1.bus.w
  have hc : 1 ≤ (p.profile (p.slot i)).cap := by
    unfold Part.profile
    split
    · exact unknown_inRange.cap.1
    · exact (h.1.profiles _).cap.1
  unfold Part.computeWindow
  cases e : (p.slot i).cardSeen with
  | none =>
    simp only [Config.absentDepth]
    omega
  | some seen =>
    have hd := (h.2 i).depth seen e
    simp only
    omega

theorem slotsLaw_rewindow : (p.rewindow i).SlotsLaw :=
  slotsLaw_updSlot h fun hx => { hx with window := computeWindow_bounds h }

theorem slotsLaw_linkedTest : (p.linkedTest i).SlotsLaw := by
  by_cases hl : (p.slot i).state = .relinking ∧ p.ctb.allLoaded i = true
  · obtain ⟨he, -, hx⟩ := linkedTest_links hl.1 hl.2
    exact slotsLaw_entered h he (hx ▸ linkedUp_law (h.2 i) hl.1)
  · rw [linkedTest_stays hl]
    exact h

theorem slotsLaw_enterRelinking (hs : (p.slot i).seated = true) : (p.enterRelinking i).SlotsLaw :=
  slotsLaw_linkedTest (slotsLaw_rewindow ((slotsLaw_treat _).2 (slotsLaw_enter h hs (by decide))))

theorem slotsLaw_setIdentity (c : Card) : (p.setIdentity i c).SlotsLaw := slotsLaw_updSlot h fun hx => { hx with }

theorem slotsLaw_recordBoot (n : BitVec 8) : (p.recordBoot i n).SlotsLaw := slotsLaw_updSlot h fun hx => { hx with }

/-- A slot-engine frame called for in the state the slot is in. -/
theorem slotsLaw_callEngine {f : Frame} (hf : (∃ ph, (p.slot i).state = .aligning ∧ f = .align ph) ∨
    (p.slot i).state = .auditing ∧ (f = .digest ∨ f = .clear) ∨ (p.slot i).state = .held ∧ f = .clear) :
    (p.callEngine i f).SlotsLaw := by
  rw [callEngine_eq]
  refine slotsLaw_arbitrate ((slotsLaw_setSeg _).2 (slotsLaw_setSlot h { h.2 i with engine := fun e he => ?_ }))
  cases he
  exact ⟨Nat.zero_le _, hf⟩

theorem slotsLaw_callAlign (hs : (p.slot i).state = .aligning) : (p.callAlign i).SlotsLaw :=
  slotsLaw_callEngine (slotsLaw_updSlot h fun hx => { hx with align := fun _ => hs })
    (.inl ⟨_, by rw [slot_updSlot_self]; exact hs, rfl⟩)

/-! ### Counted failures (R68) -/

/-- A counted failure keeps the laws where what its own rule does below the limit keeps them. -/
theorem slotsLaw_failed (hs : (p.slot i).seated = true) (k : Option FaultKind) {onward : Part → Part}
    (ho : ∀ q : Part, q.SlotsLaw → (q.slot i).seated = true → (q.slot i).state = (p.slot i).state → (onward q).SlotsLaw) :
    (p.failed i k onward).SlotsLaw := by
  have hc := slotsLaw_setSlot h (i := i) (counted_law (h.2 i) (faultBits k))
  have hx := slot_setSlot_self p i ((p.slot i).counted (faultBits k))
  rw [failed_eq]
  split
  · exact slotsLaw_fault hc (by rw [hx]; exact hs)
  · exact ho _ hc (by rw [hx]; exact hs) (by rw [hx]; rfl)

theorem slotsLaw_cardLost (k : Option FaultKind) : (p.cardLost i k).SlotsLaw := by
  have lost (hne : (p.slot i).state ≠ .empty) :
      (p.failed i k fun p => p.darken i (some p.cfg.bus.boot)).SlotsLaw :=
    slotsLaw_failed h ((h.2 i).seated_of_ne hne) k fun q hq hs _ => slotsLaw_darken hq hs _
  unfold Part.cardLost
  split
  case h_7 | h_8 | h_9 | h_10 => exact h
  all_goals exact lost (by simp_all)

theorem slotsLaw_cycleFailed (he : (p.slot i).enable = true) (k : Option FaultKind) : (p.cycleFailed i k).SlotsLaw :=
  slotsLaw_failed h ((h.2 i).seated_of_enable he) k fun _ hq hs _ => slotsLaw_cool hq hs

theorem slotsLaw_alignFailed (hs : (p.slot i).state = .aligning) : (p.alignFailed i).SlotsLaw :=
  slotsLaw_failed h ((h.2 i).seated_of_ne (by rw [hs]; decide)) _ fun _ hq _ e => slotsLaw_callAlign hq (e.trans hs)

/-! ### Good poll replies -/

theorem slotsLaw_identityCheck (hs : (p.slot i).seated = true) : (p.identityCheck i).SlotsLaw := by
  unfold Part.identityCheck
  split
  · exact h
  · split
    · split
      · exact slotsLaw_enterAligning (slotsLaw_setIdentity h _) (by rw [Part.setIdentity, slot_updSlot_self]; exact hs)
      · exact slotsLaw_enter h hs (by decide)
    · split
      · exact slotsLaw_enterAligning h hs
      · exact slotsLaw_enter h hs (by decide)

theorem slotsLaw_classify (hs : (p.slot i).seated = true) : (p.classify i).SlotsLaw := by
  unfold Part.classify
  split
  · exact h
  · split
    · split
      · exact slotsLaw_enterHeldClearing ((slotsLaw_treat _).2 h) hs
      · exact slotsLaw_enterAuditing h hs
    · refine slotsLaw_identityCheck (slotsLaw_recordBoot ((slotsLaw_treat _).2
        (slotsLaw_updSlot h fun hx => { hx with boot := fun e => by cases e })) _) ?_
      rw [Part.recordBoot, slot_updSlot_self, Part.treat, slot_onCtb, slot_updSlot_self]
      exact hs

theorem slotsLaw_rebootSeen (hs : (p.slot i).seated = true) (n : BitVec 8) : (p.rebootSeen i n).SlotsLaw :=
  slotsLaw_failed h hs _ fun q hq hs' _ => by
    refine slotsLaw_identityCheck (slotsLaw_recordBoot (by simpa using hq) n) ?_
    rw [Part.recordBoot, slot_updSlot_self]
    exact hs'

theorem slotsLaw_alignOutcome (hs : (p.slot i).state = .aligning) (f : PollFields) (n : Nat) :
    (p.alignOutcome i f n).SlotsLaw := by
  have hseat := (h.2 i).seated_of_ne (by rw [hs]; decide)
  unfold Part.alignOutcome
  split
  · split
    · split
      · exact slotsLaw_enter h hseat (by decide)
      · exact slotsLaw_enterRelinking h hseat
    · exact slotsLaw_alignFailed h hs
    all_goals exact h
  · exact h

theorem slotsLaw_actOnReply (f : PollFields) (n : Nat) : (p.actOnReply i f n).SlotsLaw := by
  have seat (hne : (p.slot i).state ≠ .empty) := (h.2 i).seated_of_ne hne
  have service (hne : (p.slot i).state ≠ .empty) : (if f.phase = .alignFail then p.cardLost i (some .alignFailed)
      else if (p.slot i).rebooted f then p.rebootSeen i f.bootCount else p).SlotsLaw := by
    split
    · exact slotsLaw_cardLost h _
    · split
      · exact slotsLaw_rebootSeen h (seat hne) _
      · exact h
  unfold Part.actOnReply
  split
  case h_1 hs =>
    split
    · exact slotsLaw_classify h (seat (by rw [hs]; decide))
    · exact h
  case h_2 hs => exact slotsLaw_alignOutcome h hs f n
  case h_7 =>
    split
    · exact slotsLaw_recordBoot h _
    · exact h
  case h_8 | h_9 | h_10 => exact h
  all_goals exact service (by simp_all)

theorem slotsLaw_takeGoodPoll {f : PollFields} (hf : 1 ≤ f.depth ∧ f.depth ≤ 8) (n : Nat) :
    (p.takeGoodPoll i f n).SlotsLaw := by
  have hq := slotsLaw_setSlot h (i := i) (enterReply_law (h.2 i) hf)
  rw [takeGoodPoll_eq rfl]
  split
  · unfold Part.fatalReply
    split
    · rename_i he
      exact slotsLaw_cycleFailed hq he.1 _
    · exact hq
  · exact slotsLaw_actOnReply hq f n

end
end Sys2Proof.Machine
end

section
namespace Sys2Proof.Machine

variable {p : Part} {i : SlotId} {g : SegId}

section

variable (h : p.SlotsLaw)
include h

/-! ### Presence lines and timers -/

/-- The presence line and the state change together (R54). -/
theorem slotsLaw_insert : (p.insert i).SlotsLaw := by
  unfold Part.insert
  simp only [slot_updSlot_self]
  split
  · rename_i hs
    refine slotsLaw_follow ((slotsLaw_reportSlot).2 (slotsLaw_entered h
      (((entered_enter _ i .off).of_updSlot).updSlot _) ?_))
    rw [slot_updSlot_self, slot_enter, slot_updSlot_self, into_withdrawn rfl]
    exact withdrawn_law (x := { p.slot i with seated := true, attempts := 0 }) (st := .off) (off := none)
      { (h.2 i).figures with attempts := Nat.zero_le _ } rfl (by simp) nofun
  · rename_i hs
    exact slotsLaw_updSlot h fun hx => { hx with seated := ⟨fun e => absurd e hs, nofun⟩ }

theorem slotsLaw_remove : (p.remove i).SlotsLaw := by
  have gone : (({ p.slot i with seated := false } : Slot).withdrawn .empty).Law :=
    withdrawn_law (x := { p.slot i with seated := false }) (st := .empty) (off := none)
      { (h.2 i).figures with } rfl (by simp) nofun
  unfold Part.remove
  simp only [slot_updSlot_self]
  split
  · rename_i hs
    exact slotsLaw_updSlot h fun hx => { hx with seated := ⟨fun _ => rfl, fun _ => hs⟩ }
  · split
    · obtain ⟨he, hx, -⟩ := powerOff_spec (p := p.updSlot i fun x => { x with seated := false }) (i := i) (st := .empty) rfl none
      refine slotsLaw_follow (slotsLaw_entered h he.of_updSlot ?_)
      rw [hx, slot_updSlot_self]
      exact gone
    · refine slotsLaw_follow (slotsLaw_entered h (entered_enter _ i .empty).of_updSlot ?_)
      rw [slot_enter, slot_updSlot_self, into_withdrawn rfl]
      exact gone

theorem slotsLaw_bootExpiry : (p.bootExpiry i).SlotsLaw := by
  unfold Part.bootExpiry
  split
  · rename_i hs
    exact slotsLaw_follow (slotsLaw_cycleFailed h (by rw [Slot.enable, hs.2]; rfl) _)
  · exact h

theorem slotsLaw_alignExpiry : (p.alignExpiry i).SlotsLaw := by
  unfold Part.alignExpiry
  split
  · rename_i hs
    exact slotsLaw_follow (slotsLaw_alignFailed h hs.2)
  · exact h

theorem slotsLaw_offExpiry : (p.offExpiry i).SlotsLaw := by
  unfold Part.offExpiry
  split
  · exact slotsLaw_updSlot h fun hx => { hx with off := fun e => by cases e }
  · exact h

theorem slotsLaw_stableExpiry : (p.stableExpiry i).SlotsLaw := by
  unfold Part.stableExpiry
  split
  · exact slotsLaw_updSlot h fun hx => { hx with stable := nofun, attempts := Nat.zero_le _ }
  · exact h

/-- A poll timer runs only with the enable driven, so that the POLL due has a card to poll (R93). -/
theorem slotsLaw_pollExpiry : (p.pollExpiry i).SlotsLaw := by
  unfold Part.pollExpiry
  split
  · rename_i hs
    refine slotsLaw_arbitrate (slotsLaw_updSlot h fun hx => { hx with withdrawn := fun he => ?_ })
    obtain ⟨-, -, ht, -⟩ := hx.withdrawn he
    rw [ht] at hs
    cases hs
  · exact h

theorem slotsLaw_deadlineExpiry (x : Handle) : (p.deadlineExpiry i x).SlotsLaw := by
  unfold Part.deadlineExpiry
  split
  · exact slotsLaw_follow (slotsLaw_cardLost h _)
  · exact h

/-! ### Replies -/

theorem slotsLaw_openExchange : (p.openExchange g).SlotsLaw := by
  unfold Part.openExchange
  split
  · exact slotsLaw_arbitrate (slotsLaw_updSlot ((slotsLaw_updSeg _).2 h) fun hx => frameSent_law hx _)
  · exact h

theorem slotsLaw_countMiss : (p.countMiss i).SlotsLaw := by
  unfold Part.countMiss
  split
  · have hm : (p.updSlot i fun x => { x with missed := min Config.missedMax (x.missed + 1) }).SlotsLaw :=
      slotsLaw_updSlot h fun hx => { hx with missed := Nat.min_le_left _ _ }
    simp only
    split
    · exact slotsLaw_cardLost hm _
    · exact hm
  · exact h

theorem slotsLaw_retryEngine : (p.retryEngine i).SlotsLaw := by
  unfold Part.retryEngine
  split
  · exact h
  · rename_i e he
    split
    · have ht : (p.updSlot i fun x => { x with
          engine := some { e with tries := min Config.missedMax (e.tries + 1), place := .waiting } }).SlotsLaw :=
        slotsLaw_updSlot h fun hx => hx.place he (Nat.min_le_left _ _) _
      simp only
      split
      · exact slotsLaw_cardLost ht _
      · exact ht
    · exact h

theorem slotsLaw_missedReply (e : Exchange) : (p.missedReply e).SlotsLaw := by
  unfold Part.missedReply
  simp only
  split
  · exact slotsLaw_retryEngine (slotsLaw_countMiss h)
  · exact slotsLaw_countMiss h

theorem slotsLaw_loadCompleted (x : Handle) (res : Result) : (p.loadCompleted i x res).SlotsLaw := by
  unfold Part.loadCompleted
  split
  · exact h
  · split
    · exact h
    · simp only
      split
      · exact slotsLaw_updSlot ((slotsLaw_onCtb _).2 h) fun hx => { hx with }
      all_goals exact h

theorem filter_outstanding (keep : Txn → Bool) : ((p.slot i).inflight.filter keep).length ≤ 8 :=
  le_trans (List.length_filter_le _ _) (h.2 i).outstanding

theorem slotsLaw_completion (c : Handle × Result) : (p.completion i c).SlotsLaw := by
  unfold Part.completion
  split
  · exact (slotsLaw_offer _).2 h
  · have hq := slotsLaw_setInflight (i := i) h (filter_outstanding (i := i) h fun e => !decide (e.handle = c.1))
    refine slotsLaw_follow (slotsLaw_linkedTest ?_)
    split
    · exact slotsLaw_loadCompleted hq _ _
    · exact hq

theorem slotsLaw_takePoll {f : PollFields} (hf : 1 ≤ f.depth ∧ f.depth ≤ 8) (n : Nat) : (p.takePoll i f n).SlotsLaw := by
  have hc : (Part.completions i f.completions p).1.SlotsLaw := by
    rw [(completions_eq i f.completions p).1]
    exact List.foldlRecOn (motive := Part.SlotsLaw) _ _ h fun q hq c _ => slotsLaw_completion hq c
  unfold Part.takePoll
  simp only
  split
  · exact slotsLaw_cardLost hc _
  · exact slotsLaw_takeGoodPoll hc hf n

theorem slotsLaw_removeEntry (x : Handle) : (p.removeEntry i x).SlotsLaw :=
  slotsLaw_setInflight h (filter_outstanding h _)

theorem slotsLaw_refuseLoad (x : Handle) (why : RefuseReason) : (p.refuseLoad i x why).SlotsLaw := by
  have hq := slotsLaw_removeEntry (i := i) h x
  refine slotsLaw_linkedTest ?_
  cases why with
  | queueFull => exact slotsLaw_updSlot ((slotsLaw_onCtb _).2 hq) lowerWindow_law
  | channelRejected => exact hq
  | legRejected => exact hq

theorem slotsLaw_refuseDrop (x : Handle) : (p.refuseDrop i x).SlotsLaw :=
  slotsLaw_updSlot (slotsLaw_removeEntry h x) fun hx => lowerWindow_law { hx with }

theorem slotsLaw_takeDigest (d : Digest) : (p.takeDigest i d).SlotsLaw := by
  unfold Part.takeDigest
  split
  · rename_i hs
    split
    · exact slotsLaw_enterRelinking h ((h.2 i).seated_of_ne (by rw [hs.1]; decide))
    · refine slotsLaw_callEngine (slotsLaw_updSlot h fun hx => { hx with audit := ⟨fun _ => hs.1, fun _ => rfl⟩ }) ?_
      rw [slot_updSlot_self]
      exact .inr (.inl ⟨hs.1, .inr rfl⟩)
  · exact h

theorem slotsLaw_auditCleared : (p.auditCleared i).SlotsLaw := by
  unfold Part.auditCleared
  split
  · rename_i hs
    exact slotsLaw_enterRelinking ((slotsLaw_treat _).2 h) ((h.2 i).seated_of_ne (by rw [hs.1]; decide))
  · exact h

end

/-- A poll reply's queue depth is in its range, as every well-formed one's is (R85, R87). -/
def Reply.DepthFits : Reply → Prop
  | .poll f => 1 ≤ f.depth ∧ f.depth ≤ 8
  | .accept | .refuse _ | .digest _ _ _ => True

theorem slotsLaw_goodReply (h : p.SlotsLaw) (e : Exchange) {r : Reply} (hr : r.DepthFits) : (p.goodReply e r).SlotsLaw := by
  have hq : (p.updSlot e.slot Slot.heard).SlotsLaw := slotsLaw_updSlot h heard_law
  have hd : ((p.updSlot e.slot Slot.heard).updSlot e.slot Slot.engineDone).SlotsLaw := slotsLaw_updSlot hq engineDone_law
  unfold Part.goodReply
  simp only
  split
  · exact slotsLaw_takePoll hq hr _
  · exact hd
  · exact slotsLaw_auditCleared hd
  · exact slotsLaw_takeDigest hd _
  · exact slotsLaw_refuseLoad hq _ _
  · exact slotsLaw_refuseDrop hq _
  · exact hq

/-- The poll timer that starts at the end of a POLL's exchange starts only with the enable driven (R93). -/
theorem slotsLaw_restartPoll (h : p.SlotsLaw) (e : Exchange) : (p.restartPoll e).SlotsLaw := by
  unfold Part.restartPoll
  split
  · refine slotsLaw_updSlot h fun hx => { hx with withdrawn := fun he => ?_ }
    obtain ⟨hi, hd, -, hc, hl⟩ := hx.withdrawn he
    exact ⟨hi, hd, interval_withdrawn he, hc, hl⟩
  all_goals exact h

/-- The end of an exchange keeps the laws where its handling does. -/
theorem slotsLaw_withExchange (h : p.SlotsLaw) {handle : Exchange → Part → Part}
    (hh : ∀ e (q : Part), q.SlotsLaw → (handle e q).SlotsLaw) : (p.withExchange g handle).SlotsLaw := by
  unfold Part.withExchange
  split
  · exact h
  · rename_i e _
    have hi := slotsLaw_updSlot (i := e.slot) ((slotsLaw_updSeg (g := g) fun x => { x with inProgress := none }).2 h)
      fun hx => markAlign_law hx e
    unfold Part.endExchange
    simp only
    split
    · exact hi
    · exact slotsLaw_follow (slotsLaw_restartPoll (hh _ _ hi) e)

/-- A reply's fields are in their ranges where it is well-formed (R85, R87). -/
def SlotReply.DepthFits (r : SlotReply) : Prop := ∀ i x, r = some (i, x) → x.DepthFits

theorem slotsLaw_takeReply (h : p.SlotsLaw) {r : SlotReply} (hr : SlotReply.DepthFits r) : (p.takeReply g r).SlotsLaw :=
  slotsLaw_withExchange h fun e q hq => by
    split
    · exact slotsLaw_missedReply ((slotsLaw_offer _).2 hq) e
    · rename_i x hj
      refine slotsLaw_goodReply hq e ?_
      unfold judge at hj
      split at hj
      · cases hj
      · split at hj
        · cases hj
        · split at hj <;> cases hj
          exact hr _ _ rfl

/-! ### Replies as they come (R85, R204) -/

theorem depthFits_slotReply {slot : Byte} {r : Option Reply} (hr : ∀ x, r = some x → x.DepthFits) :
    SlotReply.DepthFits (slotReply slot r) := by
  intro i x e
  unfold slotReply at e
  split at e
  · cases e
    exact hr _ rfl
  · cases e

theorem depthFits_pollReplyOf (w : WirePoll) : SlotReply.DepthFits (pollReplyOf w) := by
  refine depthFits_slotReply fun x e => ?_
  obtain ⟨f, hf, rfl⟩ := Option.map_eq_some_iff.1 e
  unfold pollFieldsOf at hf
  split at hf
  · rename_i hd
    split at hf
    · cases hf
      exact ⟨hd.1, hd.2.1⟩
    · cases hf
  · cases hf

theorem depthFits_acceptReply (slot : Byte) : SlotReply.DepthFits (acceptReply slot) :=
  depthFits_slotReply fun _ e => by cases e; trivial

theorem depthFits_refuseReply (slot reason : Byte) : SlotReply.DepthFits (refuseReply slot reason) :=
  depthFits_slotReply fun _ e => by
    obtain ⟨_, -, rfl⟩ := Option.map_eq_some_iff.1 e
    trivial

theorem depthFits_digestReplyOf (slot : Byte) (n s1 s2 : Nat) : SlotReply.DepthFits (digestReplyOf slot n s1 s2) :=
  depthFits_slotReply fun _ e => by
    split at e <;> cases e
    trivial

theorem depthFits_replyOfBytes (bytes : List Byte) : SlotReply.DepthFits (replyOfBytes bytes) := by
  have read (kind slot : Byte) (body : List Byte) : SlotReply.DepthFits (readReply kind slot body) := by
    unfold readReply
    split
    · intro i x e
      obtain ⟨w, -, e⟩ := Option.bind_eq_some_iff.1 e
      exact depthFits_pollReplyOf w i x e
    · exact depthFits_acceptReply _
    · exact depthFits_refuseReply _ _
    · exact depthFits_digestReplyOf _ _ _ _
    · exact nofun
  unfold replyOfBytes
  split
  · simp only
    split
    · split
      · exact read _ _ _
      · exact nofun
    · exact nofun
  · exact nofun

end Sys2Proof.Machine
end

section
namespace Sys2Proof.Machine

variable {p q : Part} {i : SlotId} {g : SegId}

section

variable (h : p.SlotsLaw)
include h

/-! ### The supply -/

theorem slotsLaw_enterSag (fresh : Bool) : (p.enterSag fresh).SlotsLaw := by
  have hb : (p.beginSag fresh).SlotsLaw := by
    unfold Part.beginSag
    split <;> exact h
  unfold Part.enterSag
  refine slotsLaw_follow ?_
  rw [slotsLaw_onFbu, slotsLaw_running]
  refine slotsLaw_eachSlot hb fun i q hq => ?_
  unfold Part.sagSlot
  split
  case h_7 => exact slotsLaw_updSlot hq fun hx => { hx with boot := nofun }
  case h_8 | h_9 | h_10 => exact hq
  all_goals exact slotsLaw_darken hq ((hq.2 i).seated_of_ne (by simp_all)) _

theorem slotsLaw_enterOutage : p.enterOutage.SlotsLaw := by
  unfold Part.enterOutage
  refine slotsLaw_follow ?_
  rw [slotsLaw_onFbu]
  refine slotsLaw_eachSlot (by simpa using h) fun i q hq => ?_
  unfold Part.outageSlot
  split
  · rename_i he
    exact slotsLaw_powerOff (st := .off) hq ((hq.2 i).seated_of_enable he) rfl (by decide) nofun
  · exact hq

theorem slotsLaw_enterRecovery : p.enterRecovery.SlotsLaw := by
  unfold Part.enterRecovery
  refine slotsLaw_follow ?_
  rw [slotsLaw_running]
  refine slotsLaw_eachSlot (by split <;> simpa using h) fun i q hq => ?_
  unfold Part.recoverSlot
  split
  · rename_i hs
    split
    · exact slotsLaw_updSlot hq fun hx => { hx with boot := fun _ => hs }
    · exact slotsLaw_classify hq ((hq.2 i).seated_of_ne (by rw [hs]; decide))
  · exact hq

theorem slotsLaw_supplyRule : p.supplyRule.SlotsLaw := by
  have rule : ∀ q : Part, q.SlotsLaw → q.sagRule.SlotsLaw := fun q hq => by
    unfold Part.sagRule
    split
    · exact slotsLaw_enterOutage hq
    · split <;> exact hq
  unfold Part.supplyRule
  split
  case h_3 => exact rule p h
  case h_4 => split <;> exact h
  all_goals
    split
    · exact rule _ (slotsLaw_enterSag h _)
    · exact h

theorem slotsLaw_sample (code : Nat) : (p.sample code).SlotsLaw := by
  have hr : ((p.onSpm fun m => (m.hear.startSettle p.cfg.supply).measure p.cfg.supply code).supplyRule).SlotsLaw :=
    slotsLaw_supplyRule (by exact h)
  unfold Part.sample
  simp only
  split
  · exact (slotsLaw_recoveryTest).2 hr
  · exact hr

/-! ### Budget, bring-up and restoration -/

theorem slotsLaw_rampTick : p.rampTick.SlotsLaw := by
  unfold Part.rampTick
  split
  · simp only
    split
    · exact h
    · exact (slotsLaw_recoveryTest).2 h
  · exact h

/-- A charge that is 0 stays 0 (R146). -/
theorem slotsLaw_budgetTick : p.budgetTick.SlotsLaw := by
  have ha : p.age.SlotsLaw := by
    unfold Part.age
    rw [slotsLaw_onFbu, slotsLaw_onSpm]
    exact slotsLaw_mapSlots h fun _ => age_law
  unfold Part.budgetTick
  refine slotsLaw_rampTick ?_
  unfold Part.decayAll
  refine slotsLaw_mapSlots ha fun x hx => ?_
  split
  · rename_i hpos
    refine { hx with withdrawn := fun he => ?_ }
    obtain ⟨hi, -⟩ := hx.withdrawn he
    omega
  · exact hx

theorem slotsLaw_bringUp (hw : (p.slot i).waiting = true) : (p.bringUp i).SlotsLaw := by
  obtain ⟨hs, -, -⟩ := waiting_iff.1 hw
  have hseat := (h.2 i).seated_of_ne (by rw [hs]; decide)
  obtain ⟨he, -, hx⟩ := enable_spec (p := p) (i := i)
  have hd := darkened_law (b := p.cfg.bus) (h.2 i).figures hseat (some p.cfg.bus.boot)
  have hl : ((p.enable i).slot i).Law := by
    rw [hx]
    exact { hd with depth := fun _ e => (by cases e), withdrawn := nofun }
  exact slotsLaw_follow ((slotsLaw_onFbu _).2 (slotsLaw_entered h he hl))

theorem slotsLaw_selection : p.selection.SlotsLaw := by
  unfold Part.selection
  split
  · split
    · rename_i k hk
      obtain ⟨pre, k', post, r, -, ⟨hr, ht, -⟩, -, hs⟩ | ⟨-, hs⟩ := select_spec p
      · rw [hs] at hk
        split at hk
        · cases hk
          have hw := (h.2 r.slot).window
          have ho : (p.slot r.slot).inflight.length < (p.slot r.slot).window := by
            simp only [Part.slotTests, Bool.and_eq_true, decide_eq_true_eq] at ht
            exact ht.1.1.2
          unfold Part.issue
          rw [hr.1]
          simp only [slotsLaw_onFbu, slotsLaw_enqueue]
          refine slotsLaw_setInflight ((slotsLaw_onCtb _).2 h) ?_
          rw [List.length_append, List.length_singleton]
          omega
        · cases hk
      · rw [hs] at hk
        cases hk
    · exact h
    · exact h
  · exact h

/-! ### Requests -/

/-- A request keeps the laws where carrying it out does. -/
theorem slotsLaw_request {l : Link} {fits change : Bool} {run : Part → Answer} (hr : (run p).1.SlotsLaw) :
    (p.request l fits change run).SlotsLaw := by
  unfold Part.request
  split
  · exact (slotsLaw_discard l).2 h
  · split
    · exact (slotsLaw_answer l _).2 h
    · split
      · exact (slotsLaw_answer l _).2 h
      · exact (slotsLaw_answer l _).2 hr

theorem slotsLaw_onNamed {w : WireHandle} {run : Handle → Rec → Part → Answer}
    (hr : ∀ x r, (run x r p).1.SlotsLaw) : (p.onNamed w run).1.SlotsLaw := by
  unfold Part.onNamed
  split
  · exact h
  · split
    · exact h
    · exact hr _ _

theorem slotsLaw_establish (body : List Byte) : (p.establish body).1.SlotsLaw := by
  unfold Part.establish
  split
  · exact h
  · split <;> exact h

theorem slotsLaw_modify (body : List Byte) : (p.modify body).1.SlotsLaw := by
  unfold Part.modify
  split
  · exact h
  · split
    · exact h
    · split <;> exact h

theorem slotsLaw_retire (x : Handle) (r : Rec) : (p.retire x r).1.SlotsLaw := by
  have hf : (((p.onCtb (Ctb.free x.index)).linkedTest r.slot).follow).SlotsLaw :=
    slotsLaw_follow (slotsLaw_linkedTest ((slotsLaw_onCtb _).2 h))
  show (p.retireAt x r).SlotsLaw
  unfold Part.retireAt
  simp only
  split
  case h_4 =>
    split
    · exact slotsLaw_follow (slotsLaw_updSlot ((slotsLaw_onCtb _).2 h) fun hx => { hx with })
    · exact hf
  case h_5 | h_6 => exact h
  all_goals exact hf

theorem slotsLaw_revive (x : Handle) (r : Rec) : (p.revive x r).1.SlotsLaw := by
  unfold Part.revive
  split <;> exact h

theorem slotsLaw_listRecords (cls filter : Byte) (cursor : WireHandle) : (p.listRecords cls filter cursor).1.SlotsLaw := by
  unfold Part.listRecords
  simp only
  split
  · exact h
  · split
    · exact h
    · split
      · exact h
      · refine slotsLaw_onNamed h fun x r => ?_
        split <;> exact h

/-! ### Slot actions -/

/-- A slot action keeps the laws where its accepted change does. -/
theorem slotsLaw_actionRequest {l : Link} {act : SlotId → Part → Except Status Part} {slot : Byte}
    (ha : ∀ i q, act i p = .ok q → q.SlotsLaw) : (p.actionRequest l act slot).SlotsLaw := by
  refine slotsLaw_request h ?_
  unfold Part.slotAction
  split
  · exact h
  · split
    · exact h
    · exact ha _ _ ‹_›

theorem slotsLaw_park (e : Part.park i p = .ok q) : q.SlotsLaw := by
  have hp : (p.updSlot i fun x => { x with parked := true }).SlotsLaw := slotsLaw_updSlot h fun hx => { hx with }
  have off (hne : (p.slot i).state ≠ .empty) :
      ((p.updSlot i fun x => { x with parked := true }).powerOff i .off none).SlotsLaw :=
    slotsLaw_powerOff (st := .off) hp (by rw [slot_updSlot_self]; exact (h.2 i).seated_of_ne hne) rfl (by decide) nofun
  unfold Part.park at e
  simp only at e
  split at e <;> simp only [Except.ok.injEq, reduceCtorEq] at e <;> subst e
  case h_4 | h_5 => exact slotsLaw_follow (off (by simp_all))
  all_goals exact slotsLaw_follow hp

theorem slotsLaw_unpark (e : Part.unpark i p = .ok q) : q.SlotsLaw :=
  Except.ok.inj e ▸ slotsLaw_updSlot h fun hx => { hx with }

theorem slotsLaw_holdSlot (e : Part.holdSlot i p = .ok q) : q.SlotsLaw := by
  have hp : (p.updSlot i fun x => { x with hold := true }).SlotsLaw := slotsLaw_updSlot h fun hx => { hx with }
  have held (hne : (p.slot i).state ≠ .empty) :
      (((p.updSlot i fun x => { x with hold := true }).treat powerOffFate i).enterHeldClearing i).SlotsLaw :=
    slotsLaw_enterHeldClearing ((slotsLaw_treat _).2 hp)
      (by rw [Part.treat, slot_onCtb, slot_updSlot_self]; exact (h.2 i).seated_of_ne hne)
  unfold Part.holdSlot at e
  simp only at e
  split at e <;> simp only [Except.ok.injEq] at e <;> subst e
  case h_1 | h_2 | h_3 => exact slotsLaw_follow (held (by simp_all))
  all_goals exact hp

theorem slotsLaw_releaseHold (e : Part.releaseHold i p = .ok q) : q.SlotsLaw := by
  have hp : (p.updSlot i fun x => { x with hold := false }).SlotsLaw := slotsLaw_updSlot h fun hx => { hx with }
  unfold Part.releaseHold at e
  simp only at e
  split at e
  · rename_i hs
    split at e <;> simp only [Except.ok.injEq, reduceCtorEq] at e
    subst e
    refine slotsLaw_follow (slotsLaw_enterRelinking hp ?_)
    rw [slot_updSlot_self]
    exact (h.2 i).seated_of_ne (by rw [hs]; decide)
  · cases e
    exact hp

/-- A slot in MISMATCH takes a card as its identity and is aligned (R77). -/
theorem slotsLaw_take (hs : (p.slot i).state = .mismatch) (c : Card) :
    (((p.setIdentity i c).enterAligning i).follow).SlotsLaw := by
  refine slotsLaw_follow (slotsLaw_enterAligning (slotsLaw_setIdentity h c) ?_)
  rw [Part.setIdentity, slot_updSlot_self]
  exact (h.2 i).seated_of_ne (by rw [hs]; decide)

omit h in
theorem state_of_inMismatch {act : Card → Except Status Part} (e : p.inMismatch i act = .ok q) :
    (p.slot i).state = .mismatch := by
  unfold Part.inMismatch at e
  split at e
  · assumption
  · cases e

theorem slotsLaw_adopt (e : Part.adopt i p = .ok q) : q.SlotsLaw := by
  have hs := state_of_inMismatch e
  obtain ⟨c, e⟩ := of_inMismatch e
  split at e <;> simp only [Except.ok.injEq, reduceCtorEq] at e
  exact e ▸ slotsLaw_take h hs c

theorem slotsLaw_vacate (e : Part.vacate i p = .ok q) : q.SlotsLaw := by
  have hs := state_of_inMismatch e
  obtain ⟨c, e⟩ := of_inMismatch e
  exact Except.ok.inj e ▸ slotsLaw_take ((slotsLaw_treat (i := i) freeFate).2 h) hs c

theorem slotsLaw_clearFault (e : Part.clearFault i p = .ok q) : q.SlotsLaw := by
  unfold Part.clearFault at e
  split at e <;> simp only [Except.ok.injEq, reduceCtorEq] at e
  rename_i hs
  subst e
  refine slotsLaw_follow (slotsLaw_entered h ((entered_enter p i .off).updSlot _) ?_)
  rw [slot_updSlot_self, slot_enter, into_withdrawn rfl]
  have hseat := (h.2 i).seated_of_ne (by rw [hs]; decide)
  exact withdrawn_law (x := { p.slot i with attempts := 0, faults := 0 }) (st := .off) (off := none)
    { (h.2 i).figures with attempts := Nat.zero_le _ } rfl (by simp [hseat]) nofun

theorem slotsLaw_auditSlot (e : Part.auditSlot i p = .ok q) : q.SlotsLaw := by
  unfold Part.auditSlot at e
  split at e <;> simp only [Except.ok.injEq, reduceCtorEq] at e
  rename_i hs
  subst e
  exact slotsLaw_follow (slotsLaw_enterAuditing ((slotsLaw_treat _).2 h) ((h.2 i).seated_of_ne (by rw [hs.1]; decide)))

theorem slotsLaw_cyclePower (e : Part.cyclePower i p = .ok q) : q.SlotsLaw := by
  unfold Part.cyclePower at e
  split at e <;> simp only [Except.ok.injEq, reduceCtorEq] at e <;> subst e
  all_goals exact slotsLaw_follow (slotsLaw_cool h ((h.2 i).seated_of_ne (by simp_all)))

/-! ### Settings and resets -/

theorem slotsLaw_setSlotKeys (slot rank phase : Byte) : (p.setSlotKeys slot rank phase).1.SlotsLaw := by
  unfold Part.setSlotKeys
  split
  · exact h
  · exact slotsLaw_updSlot h fun hx => { hx with }

theorem slotsLaw_setProfile (f : WireProfile) : (p.setProfile f).1.SlotsLaw := by
  unfold Part.setProfile
  split
  · exact h
  · exact ⟨h.1.setProfile _ (profileOf_inRange f), h.2⟩

theorem slotsLaw_setBus (f : WireBus) : (p.setBus f).1.SlotsLaw := by
  have hb : ({ p with cfg := { p.cfg with bus := busOf f } } : Part).SlotsLaw :=
    ⟨{ h.1 with bus := busOf_inRange f }, h.2⟩
  exact slotsLaw_arbitrate (slotsLaw_arbitrate (slotsLaw_eachSlot hb fun i q hq => slotsLaw_rewindow hq))

theorem slotsLaw_setBudget (f : WireBudget) : (p.setBudget f).1.SlotsLaw := by
  refine (slotsLaw_recoveryTest).2 ?_
  exact ⟨{ h.1 with budget := budgetOf_inRange f }, h.2⟩

theorem slotsLaw_setSupply (f : WireSupply) : (p.setSupply f).1.SlotsLaw :=
  ⟨{ h.1 with supply := supplyOf_inRange f }, h.2⟩

theorem slotsLaw_warmReset : p.warmReset.SlotsLaw := by
  rw [warmReset_eq]
  refine slotsLaw_arbitrate (slotsLaw_arbitrate ⟨by simpa using h.1, fun i => ?_⟩)
  rw [slot_warmed]
  exact warm_law (h.2 i)

end

theorem slotsLaw_trials (n : Nat) (h : p.SlotsLaw) : (p.trials n).SlotsLaw := by
  induction n generalizing p with
  | zero => exact h
  | succ n ih =>
    unfold Part.trials
    split
    · exact h
    · rename_i i hi
      split
      · exact ih (slotsLaw_bringUp h (mem_headWaiting.1 hi).1)
      · exact h

theorem slotsLaw_coldStart (p : Part) : p.coldStart.SlotsLaw := by
  refine ⟨settingsCold_inRange, fun i => ?_⟩
  rw [slot_coldStart]
  exact cold_law _

/-! ### Commands -/

/-- What the end of a request's transfer does keeps the laws. -/
theorem slotsLaw_asked (c : Instr) (h : p.SlotsLaw) : (Part.asked c p).SlotsLaw := by
  cases c <;> simp only [Part.asked]
  case establish l body => exact slotsLaw_request h (slotsLaw_establish h body)
  case modify l body => exact slotsLaw_request h (slotsLaw_modify h body)
  case retire l w => exact slotsLaw_request h (slotsLaw_onNamed h fun _ _ => slotsLaw_retire h _ _)
  case revive l w => exact slotsLaw_request h (slotsLaw_onNamed h fun _ _ => slotsLaw_revive h _ _)
  case lookup l w => exact slotsLaw_request h (slotsLaw_onNamed h fun _ _ => h)
  case findChannel l slot channel =>
    refine slotsLaw_request h ?_
    unfold Part.findChannel
    split <;> exact h
  case findTimeslot l highway timeslot =>
    refine slotsLaw_request h ?_
    unfold Part.findTimeslot
    split <;> exact h
  case list l cls filter cursor => exact slotsLaw_request h (slotsLaw_listRecords h cls filter cursor)
  case park l slot => exact slotsLaw_actionRequest h fun i q e => slotsLaw_park h e
  case unpark l slot => exact slotsLaw_actionRequest h fun i q e => slotsLaw_unpark h e
  case hold l slot => exact slotsLaw_actionRequest h fun i q e => slotsLaw_holdSlot h e
  case releaseHold l slot => exact slotsLaw_actionRequest h fun i q e => slotsLaw_releaseHold h e
  case adopt l slot => exact slotsLaw_actionRequest h fun i q e => slotsLaw_adopt h e
  case vacate l slot => exact slotsLaw_actionRequest h fun i q e => slotsLaw_vacate h e
  case clearFault l slot => exact slotsLaw_actionRequest h fun i q e => slotsLaw_clearFault h e
  case audit l slot => exact slotsLaw_actionRequest h fun i q e => slotsLaw_auditSlot h e
  case powerCycle l slot => exact slotsLaw_actionRequest h fun i q e => slotsLaw_cyclePower h e
  case slotSet l slot rank phase => exact slotsLaw_request h (slotsLaw_setSlotKeys h slot rank phase)
  case profileSet l f => exact slotsLaw_request h (slotsLaw_setProfile h f)
  case busSet l f => exact slotsLaw_request h (slotsLaw_setBus h f)
  case budgetSet l f => exact slotsLaw_request h (slotsLaw_setBudget h f)
  case supplySet l f => exact slotsLaw_request h (slotsLaw_setSupply h f)
  case status l => exact slotsLaw_request h h
  case notices l clear => exact slotsLaw_request h ((slotsLaw_updLink l _).2 h)
  case noticeMask l mask => exact slotsLaw_request h ((slotsLaw_updLink l _).2 h)
  case captureQuery l => exact slotsLaw_request h h
  case captureClear l => exact slotsLaw_request h h
  case claim l =>
    refine slotsLaw_request h ?_
    unfold Part.claim
    split
    · exact (slotsLaw_raiseOn l _).2 h
    · split
      · exact h
      · exact (slotsLaw_updLink l _).2 h
  case release l =>
    refine slotsLaw_request h ?_
    unfold Part.release
    split
    · split
      · simp only [slotsLaw_raiseOn, slotsLaw_updLink]
        exact h
      · exact h
    · exact (slotsLaw_updLink l _).2 h
  case takeover l =>
    refine slotsLaw_request h ?_
    unfold Part.takeover
    simp only
    split <;> split <;> simp only [slotsLaw_raiseOn, slotsLaw_updLink] <;> exact h
  case reset l =>
    unfold Part.resetRequest
    split
    · exact (slotsLaw_discard l).2 h
    · split
      · exact (slotsLaw_answer l _).2 h
      · exact slotsLaw_warmReset ((slotsLaw_ended l).2 h)
  all_goals exact h

/-- A transfer keeps the laws where what its end does keeps them. -/
theorem slotsLaw_transfer (h : p.SlotsLaw) (l : Link) (bytes : List Byte) {ends : Part → Part} (he : (ends p).SlotsLaw) :
    (p.transfer l bytes ends).SlotsLaw := by
  rcases transfer_cases l bytes ends p with ⟨e, -⟩ | ⟨e, -⟩ | ⟨e, -⟩ <;> rw [e]
  · exact (slotsLaw_updLink l _).2 h
  · exact h
  · exact he

theorem slotsLaw_sent (h : p.SlotsLaw) (c : Instr) {ends : Part → Part} (he : (ends p).SlotsLaw) :
    (p.sent c ends).SlotsLaw := by
  unfold Part.sent
  split
  · exact h
  · exact slotsLaw_transfer h _ _ he

theorem slotsLaw_takeTransfer (h : p.SlotsLaw) (l : Link) (kind : Byte) (bytes : List Byte) :
    (p.takeTransfer l kind bytes).SlotsLaw := by
  unfold Part.takeTransfer
  split
  · exact slotsLaw_transfer h _ _ ((slotsLaw_readResponse l _).2 h)
  · split
    · exact slotsLaw_transfer h _ _ (slotsLaw_request h h)
    · exact slotsLaw_transfer h _ _ (slotsLaw_request h h)
    · split
      · rename_i hd
        have he := encodeRequest_decodeRequest hd
        rw [runRequest_eq (by rw [he]; rfl), effect_request (by rw [he]; rfl)]
        exact slotsLaw_sent h _ (slotsLaw_asked _ h)
      · exact slotsLaw_transfer h _ _ (slotsLaw_request h h)

theorem slotsLaw_stayOpen (h : p.SlotsLaw) (l : Link) (bytes : List Byte) : (p.stayOpen l bytes).SlotsLaw := by
  unfold Part.stayOpen
  split
  · unfold Part.underSelect
    simp only [slotsLaw_updLink]
    split
    · exact (slotsLaw_ended l).2 h
    · split
      · exact (slotsLaw_readOut l _).2 h
      · exact (slotsLaw_ended l).2 h
  · exact h

/-- Every command keeps the laws of each slot. -/
theorem slotsLaw_effect (c : Instr) (h : p.SlotsLaw) : (Part.effect c p).SlotsLaw := by
  by_cases hc : (encodeRequest c).isSome = true
  · rw [effect_request hc]
    exact slotsLaw_sent h c (slotsLaw_asked c h)
  cases c <;> simp only [encodeRequest, Option.isSome_some, not_true_eq_false] at hc <;> simp only [Part.effect]
  case coldStart => exact slotsLaw_coldStart p
  case resetN => exact slotsLaw_warmReset h
  case insertion i => exact slotsLaw_insert h
  case removal i => exact slotsLaw_remove h
  case statusRead x =>
    cases x.held with
    | none => exact slotsLaw_transfer h _ _ ((slotsLaw_ended _).2 h)
    | some bytes => exact slotsLaw_stayOpen h _ bytes
  case responseRead l n => exact slotsLaw_sent h _ ((slotsLaw_readResponse l n).2 h)
  case requestDiscarded l kind bytes => exact slotsLaw_takeTransfer h l kind bytes
  case badFrame l kind bytes => exact slotsLaw_takeTransfer h l kind bytes
  case unknownRequest l code fields => exact slotsLaw_takeTransfer h l _ _
  case supplySample code => exact slotsLaw_sample h _
  case signalLoss =>
    unfold Part.signalLoss
    split <;> exact h
  case settleTimerExpiry =>
    unfold Part.settleExpiry
    split
    · exact slotsLaw_enterRecovery h
    · exact h
  case budgetTick => exact slotsLaw_budgetTick h
  case bringUpStallExpiry => split <;> exact h
  case loadStallExpiry => split <;> exact h
  case bringUpTrial =>
    unfold Part.trial
    split
    · exact slotsLaw_trials _ h
    · exact h
  case selection => exact slotsLaw_selection h
  case bootTimerExpiry i => exact slotsLaw_bootExpiry h
  case alignTimerExpiry i => exact slotsLaw_alignExpiry h
  case offTimerExpiry i => exact slotsLaw_offExpiry h
  case stableTimerExpiry i => exact slotsLaw_stableExpiry h
  case pollTimerExpiry i => exact slotsLaw_pollExpiry h
  case completionTimeout i index gen => exact slotsLaw_deadlineExpiry h _
  case exchangeOpen g => exact slotsLaw_openExchange h
  case replyWindowClose g => exact slotsLaw_withExchange h fun e q hq => slotsLaw_missedReply hq e
  case replyBreakOff g => exact slotsLaw_takeReply h nofun
  case pollReply g w => exact slotsLaw_takeReply h (depthFits_pollReplyOf w)
  case accept g slot => exact slotsLaw_takeReply h (depthFits_acceptReply slot)
  case refuse g slot reason => exact slotsLaw_takeReply h (depthFits_refuseReply slot reason)
  case digestReply g slot n x y => exact slotsLaw_takeReply h (depthFits_digestReplyOf slot _ _ _)
  case malformedOrUnexpectedReply g bytes => exact slotsLaw_takeReply h (depthFits_replyOfBytes bytes)

/-- Settles O57: each entry to a state gives a slot that keeps its laws (`withdrawn_law`, `darkened_law`, `moved_law`,
`linkedUp_law`), each command is made of entries, grants and changes of one slot that keep them, and a law that every command
keeps is kept by every step. -/
theorem slotLawsKept : Obligations.SlotLawsKept := fun _ _ =>
  kept_by_step (Inv := Part.SlotsLaw) fun c _ h => slotsLaw_effect c h

end Sys2Proof.Machine
end

section
namespace Sys2Proof.Machine

/-! ### Slot actions by the slot's state (R75 to R79) -/

variable {p q : Part} {i : SlotId} {s : State} {l : Link}

/-- A slot taken to a state with the enable withdrawn, with its records treated, after a change of its record alone (R56). -/
theorem powerOff_setSlot {st : SlotState} (ht : p.ctb.TableLaw) (hd : st.driven = false) (y : Slot) (off : Timer) :
    p.Entered i st ((p.setSlot i y).powerOff i st off) ∧
    ((p.setSlot i y).powerOff i st off).slot i = { y.withdrawn st with offTimer := off } ∧
    p.ctb.Treated powerOffFate i ((p.setSlot i y).powerOff i st off).ctb := by
  obtain ⟨he, hx, hc⟩ := powerOff_spec (p := p.setSlot i y) (i := i) hd off
  refine ⟨he.of_setSlot, by simpa using hx, ?_⟩
  rw [hc]
  exact Ctb.treated_treat Ctb.plain_powerOffFate Ctb.keepsRefused_powerOffFate ht i

/-! ### PARK, UNPARK, CLEAR_FAULT and POWER_CYCLE (R75, R77, R79) -/

/-- A FAULTED slot cleared (R77). -/
theorem clearFault_spec : p.Entered i .off ((p.enter i .off).updSlot i fun x => { x with attempts := 0, faults := 0 }) ∧
    ((p.enter i .off).updSlot i fun x => { x with attempts := 0, faults := 0 }).slot i =
      { (p.slot i).withdrawn .off with attempts := 0, faults := 0 } := by
  refine ⟨(entered_enter p i .off).updSlot _, ?_⟩
  rw [slot_updSlot_self, slot_enter, into_withdrawn rfl]

/-- Settles O20: each action by the states it accepts and refuses; the slot that is taken to OFF enters it with the enable
withdrawn. -/
theorem parkClearFaultAndPowerCycle : Obligations.ParkClearFaultAndPowerCycle := by
  refine ⟨?_, ?_⟩ <;> intro s l i p x b hl ht
  · refine ⟨fun hs => ?_, fun hs => ?_, fun hs => action_error rfl hl (park_busy hs), ?_⟩
    · refine action_ok rfl hl (park_ok hs) ?_
      rw [follow_state, slot_setSlot_self]
    · obtain ⟨he, hx, hc⟩ := powerOff_setSlot (i := i) ht (st := .off) rfl { x with parked := true } none
      refine ⟨_, he, hx, hc, action_ok rfl hl (park_off hs) ?_⟩
      rw [follow_state, hx]
      rfl
    · refine action_ok rfl hl rfl ?_
      rw [slot_setSlot_self]
  · refine ⟨fun hs => ?_, fun hs => ?_, fun hs => ?_, fun hs => action_error rfl hl (cyclePower_busy hs)⟩
    · obtain ⟨he, hx⟩ := clearFault_spec (p := p) (i := i)
      refine ⟨_, he, hx, by simp, action_ok rfl hl (by rw [Part.clearFault, if_pos hs]) ?_⟩
      rw [follow_state, hx]
      rfl
    · exact action_error rfl hl (by rw [Part.clearFault, if_neg hs])
    · obtain ⟨he, hx, hc⟩ := cool_spec (i := i) ht
      refine ⟨_, he, hx, hc, action_ok rfl hl (cyclePower_ok hs) ?_⟩
      rw [follow_state, hx]
      rfl

/-! ### HOLD, RELEASE_HOLD and AUDIT (R64, R76, R78, R106) -/

theorem releaseHold_busy (hs : (p.slot i).state = .held) (he : (p.slot i).engine.isSome = true) :
    Part.releaseHold i p = .error .slotBusy := by
  simp only [Part.releaseHold, if_pos hs, if_pos he]

theorem releaseHold_relink (hs : (p.slot i).state = .held) (he : (p.slot i).engine = none) :
    Part.releaseHold i p = .ok (((p.setSlot i { p.slot i with hold := false }).enterRelinking i).follow) := by
  simp only [Part.releaseHold, if_pos hs, he, Option.isSome_none, Bool.false_eq_true, if_false, updSlot_eq]

theorem releaseHold_flag (hs : (p.slot i).state ≠ .held) :
    Part.releaseHold i p = .ok (p.setSlot i { p.slot i with hold := false }) := by
  simp only [Part.releaseHold, if_neg hs, updSlot_eq]

/-- A hold ends in RELINKING, and from there may go on to LINKED (R65, R76). -/
theorem relinked_setSlot (ht : p.ctb.TableLaw) (y : Slot) (hi : y.identity = (p.slot i).identity)
    (hc : y.cardSeen = (p.slot i).cardSeen) : ∃ q : Part, p.Entered i .relinking q ∧
    q.slot i = { y.moved p.cfg.bus .relinking .fast with window := p.computeWindow i } ∧
    p.ctb.Treated (moveFate .suspended .pending) i q.ctb ∧ (p.setSlot i y).enterRelinking i = q.linkedTest i := by
  obtain ⟨q, he, hx, hq, e⟩ := enterRelinking_spec (p := p.setSlot i y) (i := i) ht
  refine ⟨q, he.of_setSlot, ?_, hq, e⟩
  rw [hx, slot_setSlot_self, computeWindow_congr (p := p) (q := p.setSlot i y) rfl (by simpa using hi) (by simpa using hc)]
  rfl

/-- Settles O21, by the entries to HELD, RELINKING and AUDITING and the frames they call for. -/
theorem holdReleaseAndAudit : Obligations.HoldReleaseAndAudit := by
  refine ⟨?_, ?_⟩ <;> intro s l i p x b hl ht
  · refine ⟨fun hs => ?_, fun hs => ?_, fun hs he => action_error rfl hl (releaseHold_busy hs he), fun hs he => ?_, fun hs => ?_⟩
    · obtain ⟨q, he, hx, hq, e⟩ := enterHeldClearing_spec
        (p := (p.setSlot i { x with hold := true }).treat powerOffFate i) (i := i)
      refine ⟨q, he.of_onCtb.of_setSlot, ?_, ?_, action_ok rfl hl ((holdSlot_entry hs).trans (by rw [e])) ?_⟩
      · rw [hx, Part.treat, slot_onCtb, slot_setSlot_self]
        rfl
      · rw [hq]
        exact Ctb.treated_treat Ctb.plain_powerOffFate Ctb.keepsRefused_powerOffFate ht i
      · rw [state_arb hx]
        rfl
    · refine action_ok rfl hl (holdSlot_flag hs) ?_
      rw [slot_setSlot_self]
    · obtain ⟨q, hent, hx, hq, e⟩ := relinked_setSlot (i := i) ht { x with hold := false } rfl rfl
      refine ⟨q, hent, hx, hq, action_ok rfl hl ((releaseHold_relink hs he).trans (by rw [e])) ?_⟩
      rw [follow_state, linkedTest_state (by rw [hx]; rfl)]
      split <;> rfl
    · refine action_ok rfl hl (releaseHold_flag hs) ?_
      rw [slot_setSlot_self]
  · refine ⟨fun hs hi hd => ?_, fun hs => action_error rfl hl (by rw [Part.auditSlot, if_neg hs])⟩
    obtain ⟨q, he, hx, hq, e⟩ := enterAuditing_spec (p := p.treat (moveFate .pending .suspended) i) (i := i)
    refine ⟨q, he.of_onCtb, hx, ?_, action_ok rfl hl (by rw [Part.auditSlot, if_pos ⟨hs, hi, hd⟩, e]) ?_⟩
    · rw [hq]
      exact Ctb.treated_treat (Ctb.plain_moveFate _ _) (Ctb.keepsRefused_moveFate _ (by decide)) ht i
    · rw [state_arb hx]
      rfl

/-! ### ADOPT and VACATE (R77) -/

theorem inMismatch_wrong (hs : (p.slot i).state ≠ .mismatch) (act : Card → Except Status Part) :
    p.inMismatch i act = .error .wrongState := by
  unfold Part.inMismatch
  split
  · rename_i h _
    exact absurd h hs
  · rfl

theorem inMismatch_seen {seen : CardSeen} (hs : (p.slot i).state = .mismatch) (hc : (p.slot i).cardSeen = some seen)
    (act : Card → Except Status Part) : p.inMismatch i act = act seen.card := by
  unfold Part.inMismatch
  rw [hs, hc]

/-- A card taken as the identity and aligned (R77). -/
theorem identified_aligning (c : Card) : ∃ q : Part, p.Entered i .aligning q ∧
    q.slot i = { (p.slot i).moved p.cfg.bus .aligning .fast with
      identity := some c
      alignTimer := some p.cfg.bus.align
      engine := some ⟨.align (p.slot i).phase, 0, .waiting⟩ } ∧
    q.ctb = p.ctb ∧ (p.setIdentity i c).enterAligning i = q.arbitrate (segOf i) := by
  obtain ⟨q, he, hx, hq, e⟩ := enterAligning_spec (p := p.setIdentity i c) (i := i)
  refine ⟨q, he.of_updSlot, ?_, hq, e⟩
  rw [hx, Part.setIdentity, slot_updSlot_self]
  rfl

/-- Settles O22: in MISMATCH both actions act on the card seen, which becomes the identity and is aligned. -/
theorem adoptAndVacate : Obligations.AdoptAndVacate := by
  intro s l i p x b hl ht
  refine ⟨fun hs => ⟨action_error rfl hl (inMismatch_wrong hs _), action_error rfl hl (inMismatch_wrong hs _)⟩,
    fun seen hs hc => ?_⟩
  intro aligning channels
  refine ⟨fun hf => ?_, fun hf => ?_, ?_⟩
  · obtain ⟨q, he, hx, hq, e⟩ := identified_aligning (p := p) (i := i) seen.card
    refine ⟨q, ⟨he, hx⟩, hq, action_ok rfl hl ?_ ?_⟩
    · rw [Part.adopt, inMismatch_seen hs hc, if_pos ((fitsChannels_iff ht.lists.recs).2 hf), e]
    · rw [state_arb hx]
      rfl
  · refine action_error rfl hl ?_
    obtain ⟨k, r, hr, hi, hn⟩ := hf
    rw [Part.adopt, inMismatch_seen hs hc, if_neg fun hfit => ?_]
    exact absurd ((fitsChannels_iff ht.lists.recs).1 hfit k r hr hi) (Nat.not_lt.2 hn)
  · obtain ⟨q, he, hx, hq, e⟩ := identified_aligning (p := p.treat freeFate i) (i := i) seen.card
    refine ⟨q, ⟨he.of_onCtb, hx⟩, ?_, action_ok rfl hl ?_ ?_⟩
    · rw [hq]
      exact Ctb.treated_treat Ctb.plain_freeFate Ctb.keepsRefused_freeFate ht i
    · rw [Part.vacate, inMismatch_seen hs hc, e]
    · rw [state_arb hx]
      rfl

end Sys2Proof.Machine
end

section
namespace Sys2Proof.Machine

/-! ### The settings (R50, R51, R52, R53, R121) -/

variable {p q : Part} {i : SlotId} {s : State} {l : Link}

theorem setSlotKeys_byteOf {rank phase : Byte} {r : Fin 4} {ph : Fin 16} (hr : r.val = min 3 rank.toNat)
    (hph : ph.val = min 15 phase.toNat) : Part.setSlotKeys (byteOf i.val) rank phase p =
      (p.setSlot i { p.slot i with rank := r, phase := ph }, okay [byteOf i.val, byteOf r.val, byteOf ph.val]) := by
  simp only [Part.setSlotKeys, fin?_byteOf (show 24 ≤ 256 by decide), updSlot_eq, ← hr, ← hph]

theorem setProfile_byteOf {f : WireProfile} {ty : CardType} (h : f.cardType = byteOf ty.val) :
    Part.setProfile f p = ({ p with cfg := { p.cfg with profiles := p.cfg.profiles.set ty (profileOf f) } },
      okay (profileBytes f.cardType (profileOf f))) := by
  simp only [Part.setProfile, h, fin?_byteOf (show 16 ≤ 256 by decide)]

theorem profileOf_eq (f : WireProfile) : profileOf f =
    ⟨max 1 (min 128 f.channels.toNat), min 4095 f.inrush.toNat, min 2047 f.base.toNat, max 1 (min 8 f.shift.toNat),
      max 1 (min 8 f.cap.toNat)⟩ := by
  simp only [profileOf, clamp, Nat.zero_max]

/-- A count is a byte, so that only its lower bound is a clamp (R121). -/
theorem clamp_byte (x : Byte) : clamp 1 255 x.toNat = max 1 x.toNat := by
  simp only [clamp, Nat.min_eq_right (show x.toNat ≤ 255 by have := x.isLt; omega)]

theorem supplyOf_eq (f : WireSupply) : supplyOf f =
    ⟨min 1023 f.dip.toNat, min (min 1023 f.dip.toNat) (min 1023 f.cutoff.toNat),
      if min 1023 f.restore.toNat ≤ min 1023 f.dip.toNat then min 1023 (min 1023 f.dip.toNat + 8)
        else min 1023 f.restore.toNat,
      max 1 f.nDip.toNat, max 1 f.nCut.toNat, max 1 f.nRest.toNat, max 10 (min 2550 f.settle.toNat),
      min 4 f.shift.toNat⟩ := by
  have hcut (a b : Nat) : (if a < b then a else b) = min a b := by
    split <;> omega
  simp only [supplyOf, SupplyCfg.ordered, clamp_byte, hcut]
  simp only [clamp, Nat.zero_max]

/-- Settles O24: each command writes the clamped values, which are the ones it answers. -/
theorem slotProfileAndSupplySet : Obligations.SlotProfileAndSupplySet := by
  refine ⟨fun s l hl => ⟨?slotSet, ?profileSet⟩, ?supplySet⟩
  case slotSet =>
    intro i rank phase r ph hr hph
    exact accepts_change hl rfl (setSlotKeys_byteOf hr hph)
  case profileSet =>
    intro f ty hty
    refine accepts_change hl rfl ?_
    rw [setProfile_byteOf hty, profileOf_eq]
    simp only [profileBytes, bytesOf_two, List.cons_append, List.nil_append]
  case supplySet =>
    intro s l f hl
    refine accepts_change hl rfl ?_
    rw [Part.setSupply, supplyOf_eq]
    simp only [supplyBytes, bytesOf_two, List.cons_append, List.nil_append]

theorem clampCompletion_spec (x : Nat) : (x ≤ clampCompletion x ∨ clampCompletion x = 100) ∧
    ∀ n ∈ [2, 5, 10, 20, 50, 100], x ≤ n → clampCompletion x ≤ n := by
  simp only [List.forall_mem_cons, List.not_mem_nil, false_implies, implies_true, and_true]
  unfold clampCompletion
  repeat' split
  all_goals omega

theorem clampBoot_eq (x : Nat) : clampBoot x = max 100 (min 25500 x) - max 100 (min 25500 x) % 100 := by
  simp only [clampBoot, clamp]
  omega

/-- Every slot's effective window computed anew (R53). -/
theorem eachSlot_rewindow : p.eachSlot Part.rewindow = { p with slots := Vector.ofFn fun i => { p.slot i with
    window := min p.cfg.bus.w (min (p.profile (p.slot i)).cap (((p.slot i).cardSeen.map CardSeen.depth).getD 8)) } } := by
  refine eachSlot_eq (y := fun _ x => { x with
    window := min p.cfg.bus.w (min (p.profile x).cap ((x.cardSeen.map CardSeen.depth).getD 8)) }) fun i q hq => ?_
  have hc : q.cfg = p.cfg := by rw [← hq]
  simp only [Part.rewindow, Part.computeWindow, Part.profile, hc, updSlot_eq]
  cases (q.slot i).cardSeen <;> rfl

/-- Settles O25: the settings written are `busOf`. -/
theorem busSet : Obligations.BusSet := by
  intro s l f hl
  refine ⟨busOf f, rfl, ⟨clampCompletion_mem _, clampCompletion_spec _⟩, rfl, rfl, rfl, clampBoot_eq _, rfl, rfl, rfl,
    accepts_change hl rfl ?_⟩
  rw [Part.setBus, eachSlot_rewindow]
  simp only [busCfgBytes, bytesOf_two, List.cons_append, List.nil_append]
  rfl

end Sys2Proof.Machine
end

section
namespace Sys2Proof.Machine

/-! ### Presence (R54) -/

variable {p : Part} {i : SlotId} {s : State}

theorem insert_empty (h : (p.slot i).state = .empty) : Part.insert i p =
    (((((p.setSlot i { p.slot i with seated := true }).enter i .off).updSlot i fun x =>
      { x with attempts := 0 }).reportSlot i).follow) := by
  simp only [Part.insert, updSlot_eq, slot_setSlot_self, h, if_true]

theorem insert_other (h : (p.slot i).state ≠ .empty) : Part.insert i p = p.setSlot i { p.slot i with seated := true } := by
  simp only [Part.insert, updSlot_eq, slot_setSlot_self, h, if_false]

theorem remove_empty (h : (p.slot i).state = .empty) : Part.remove i p = p.setSlot i { p.slot i with seated := false } := by
  simp only [Part.remove, updSlot_eq, slot_setSlot_self, h, if_true]

theorem remove_enabled (h : (p.slot i).state ≠ .empty) (he : (p.slot i).enable = true) : Part.remove i p =
    ((p.setSlot i { p.slot i with seated := false }).powerOff i .empty none).follow := by
  have he' : ({ p.slot i with seated := false } : Slot).enable = true := he
  simp only [Part.remove, updSlot_eq, slot_setSlot_self, h, if_false, he', if_true]

theorem remove_disabled (h : (p.slot i).state ≠ .empty) (he : (p.slot i).enable = false) : Part.remove i p =
    ((p.setSlot i { p.slot i with seated := false }).enter i .empty).follow := by
  have he' : ({ p.slot i with seated := false } : Slot).enable = false := he
  simp only [Part.remove, updSlot_eq, slot_setSlot_self, h, if_false, he', Bool.false_eq_true]

/-- A slot that enters a state with the enable withdrawn after a change of its record alone. -/
theorem enter_setSlot_spec {st : SlotState} (hd : st.driven = false) (y : Slot) :
    p.Entered i st ((p.setSlot i y).enter i st) ∧ ((p.setSlot i y).enter i st).slot i = y.withdrawn st := by
  refine ⟨(entered_enter _ i st).of_setSlot, ?_⟩
  rw [slot_enter, slot_setSlot_self, into_withdrawn hd]

/-- Settles O40: presence by the slot's state and enable, then each timer, running or not. -/
theorem presenceAndSlotTimers : Obligations.PresenceAndSlotTimers := by
  refine ⟨?presence, ?timers⟩ <;> intro s i p x
  case presence =>
    intro reported ht
    refine ⟨fun hx => ?_, fun hx => exec_next (insert_other hx), fun hx => ?_, fun hx => exec_next (remove_empty hx)⟩
    · obtain ⟨he, hy⟩ := enter_setSlot_spec (p := p) (i := i) (st := .off) rfl { x with seated := true }
      refine ⟨_, he.updSlot fun y => { y with attempts := 0 }, by simp, ?_, exec_next (insert_empty hx)⟩
      rw [slot_updSlot_self, hy]
      rfl
    · cases hen : x.enable with
      | true =>
        obtain ⟨he, hy, hc⟩ := powerOff_setSlot (i := i) ht (st := .empty) rfl { x with seated := false } none
        exact ⟨_, he, hy, fun _ => hc, nofun, exec_next (remove_enabled hx hen)⟩
      | false =>
        obtain ⟨he, hy⟩ := enter_setSlot_spec (p := p) (i := i) (st := .empty) rfl { x with seated := false }
        exact ⟨_, he, hy, nofun, fun _ => by simp, exec_next (remove_disabled hx hen)⟩
  case timers =>
    refine ⟨fun h => exec_next ?_, fun h => exec_same ?_, fun h hl => exec_next ?_, fun h => exec_same ?_,
      fun h => exec_next ?_, fun h => exec_same ?_⟩ <;> simp only [Part.effect]
    · rw [Part.offExpiry, if_pos h]; rfl
    · rw [Part.offExpiry, h]; rfl
    · rw [Part.stableExpiry, if_pos ⟨h, hl⟩]; rfl
    · rw [Part.stableExpiry, h]; rfl
    · rw [Part.pollExpiry, if_pos h]; rfl
    · rw [Part.pollExpiry, h]; rfl

/-! ### Counted failures by a timer (R61, R63, R101) -/

theorem deadlineExpiry_live {h : Handle} (hm : ∃ e ∈ (p.slot i).inflight, e.handle = h) :
    Part.deadlineExpiry i h p = (p.cardLost i (some .completionTimeout)).follow :=
  if_pos (by simpa using hm)

theorem deadlineExpiry_gone {h : Handle} (hm : ∀ e ∈ (p.slot i).inflight, e.handle ≠ h) :
    Part.deadlineExpiry i h p = p := if_neg (by simpa using hm)

/-- A failed alignment is a counted failure (R63, R68). -/
theorem alignFailed_failed (ht : p.ctb.TableLaw) : p.Failed i 4 (fun _ => True) (p.alignFailed i) :=
  failed_spec ht (some .alignFailed) fun _ => trivial

/-- Settles O41: each expiry that finds its timer or entry is the counted failure of its kind. -/
theorem timersFailSlots : Obligations.TimersFailSlots := by
  intro s i _ p x ht
  refine ⟨fun hb hs => ⟨_, cycleFailed_spec ht (some .bootTimeout), exec_next (if_pos ⟨hb, hs⟩)⟩, fun hb => exec_same ?_,
    fun ha hs _ => ⟨_, alignFailed_failed ht, exec_next (if_pos ⟨ha, hs⟩)⟩, fun ha hs hl => exec_next ?_,
    fun ha => exec_same ?_,
    fun hm hs => ⟨_, cardLost_spec ht hs (some .completionTimeout), exec_next (deadlineExpiry_live hm)⟩,
    fun hm => exec_same (deadlineExpiry_gone hm)⟩ <;> simp only [Part.effect]
  · rw [Part.bootExpiry, hb]; rfl
  · rw [Part.alignExpiry, if_pos ⟨ha, hs⟩, alignFailed_again hl]
  · rw [Part.alignExpiry, ha]; rfl

end Sys2Proof.Machine
end

section
namespace Sys2Proof.Machine

/-! ### A bring-up trial (R57, R58, R152, R156) -/

variable {p : Part} {i : SlotId}

theorem enableTest_iff : p.enableTest i = true ↔
    (p.profile (p.slot i)).inrush + (p.profile (p.slot i)).base ≤ p.fbu.ceiling - p.demand := decide_eq_true_iff

/-- A block begins from CLEAR where the stall time is above 0, and goes on else (R156). -/
theorem block_eq (time : Nat) (x : Stall) : x.block time = if x = .clear ∧ 0 < time then .timing time else x := by
  cases x with
  | clear => cases time <;> simp [Stall.block]
  | timing left => simp [Stall.block]
  | stalled => simp [Stall.block]

/-- The head waiting slot, by what it is to wait (R57, R153). -/
theorem headWaiting_of_least
    (hw : (p.slot i).state = .off ∧ (p.slot i).parked = false ∧ (p.slot i).offTimer = none)
    (hm : ∀ j, (p.slot j).state = .off ∧ (p.slot j).parked = false ∧ (p.slot j).offTimer = none →
      (p.slot i).rank < (p.slot j).rank ∨ (p.slot i).rank = (p.slot j).rank ∧ i ≤ j) : p.headWaiting = some i :=
  mem_headWaiting.2 ⟨waiting_iff.2 hw, fun j hj => hm j (waiting_iff.1 hj)⟩

/-- Settles O38: the trial's three outcomes are `trial_none` or `trial_down`, `trial_pass` and `trial_fail`. -/
theorem bringUpTrial : Obligations.BringUpTrial := by
  intro s p waits runs blocked
  refine ⟨fun h => exec_same ?_, fun i hr hw hm => ?_⟩
  · rcases h with hd | hn
    · exact trial_down (Bool.eq_false_iff.2 (mt up_iff.1 hd))
    · exact trial_none (headWaiting_none.2 fun i => Bool.eq_false_iff.2 (mt waiting_iff.1 (hn i)))
  · intro needs
    have hu : p.spm.state.up = true := up_iff.2 hr
    have hh : p.headWaiting = some i := headWaiting_of_least hw hm
    refine ⟨fun hle => ?_, fun hlt => exec_next ?_⟩
    · obtain ⟨he, hc, hx⟩ := enable_spec (p := p) (i := i)
      refine ⟨p.enable i, he, hc, hx, (p.bringUp i).trial, exec_next (trial_pass hu hh (enableTest_iff.2 hle)), exec_next ?_⟩
      simp only [Part.effect, Part.bringUp, Part.onFbu]
    · have hf : p.enableTest i = false := Bool.eq_false_iff.2 (mt enableTest_iff.1 (Nat.not_le.2 hlt))
      refine (trial_fail hu hh hf).trans ?_
      simp only [block_eq]
      rfl

end Sys2Proof.Machine
end

section
namespace Sys2Proof.Machine

/-! ### Completions (R98, R99, R100) -/

variable {p : Part} {i : SlotId} {h : Handle} {res : Result}

/-- The slot once the sent entry of a completion has left its in-flight list; the poll timer follows the interval (R93, R98). -/
def Slot.completed (b : BusCfg) (rest : List Txn) (x : Slot) : Slot :=
  { x with inflight := rest, pollTimer := b.cut x.pollClass { x with inflight := rest }.pollClass x.pollTimer }

theorem completion_stray (hn : ∀ e ∈ (p.slot i).inflight, e.handle = h → e.sent = false) :
    p.completion i (h, res) = p.captured ⟨.strayCompletion, i, some h⟩ := by
  have hf : (p.slot i).inflight.find? (fun e => decide (e.handle = h) && e.sent) = none := by
    rw [List.find?_eq_none]
    intro e he
    by_cases hh : e.handle = h <;> simp [hh, hn e he]
  simp only [Part.completion, hf, offer_eq]

section Matched

variable {a b : List Txn} {e : Txn}
  (hi : (p.slot i).inflight = a ++ e :: b) (hh : e.handle = h) (hs : e.sent = true) (hn : ∀ y ∈ a ++ b, y.handle ≠ h)
include hi hh hs hn

theorem completion_load (hk : e.kind = .load) : p.completion i (h, res) =
    ((((p.setSlot i ((p.slot i).completed p.cfg.bus (a ++ b))).loadCompleted i h res).linkedTest i).follow) := by
  obtain ⟨hf, hr⟩ := find?_sent hh hs hn
  simp only [Part.completion, hi, hf, hr, hk, setInflight_eq]
  rfl

theorem completion_drop (hk : e.kind = .drop) : p.completion i (h, res) =
    ((({ p with ctb := p.ctb.free h.index } : Part).setSlot i
      ((p.slot i).completed p.cfg.bus (a ++ b))).linkedTest i).follow := by
  obtain ⟨hf, hr⟩ := find?_sent hh hs hn
  simp only [Part.completion, hi, hf, hr, hk, setInflight_eq]
  rfl

end Matched

/-- A LOAD completion that frees its record. -/
theorem loadCompleted_free {r : Rec} (hr : p.ctb.named h = some r) (ho : loadOutcome res r = none) (y : Slot) :
    (p.setSlot i y).loadCompleted i h res = ({ p with ctb := p.ctb.free h.index } : Part).setSlot i y := by
  simp only [Part.loadCompleted, setSlot_ctb, hr, ho]
  rfl

/-- A LOAD completion that writes its record, and neither sends a DROP nor tells the links. -/
theorem loadCompleted_put {r : Rec} {st : RecState} (hr : p.ctb.named h = some r) (ho : loadOutcome res r = some (r.to st))
    (hst : st = .pending ∨ st = .live) (y : Slot) :
    (p.setSlot i y).loadCompleted i h res = ({ p with ctb := p.ctb.put h.index (r.to st) } : Part).setSlot i y := by
  rcases hst with rfl | rfl <;>
    (simp only [Part.loadCompleted, setSlot_ctb, hr, ho, Rec.to]
     rfl)

theorem loadCompleted_dropping {r : Rec} (hr : p.ctb.named h = some r) (ho : loadOutcome res r = some (r.to .dropping))
    (y : Slot) : (p.setSlot i y).loadCompleted i h res =
      ({ p with ctb := p.ctb.put h.index (r.to .dropping) } : Part).setSlot i
        { y with waitingDrops := y.waitingDrops ++ [h] } := by
  simp only [Part.loadCompleted, setSlot_ctb, hr, ho, Rec.to, updSlot_eq, slot_onCtb, slot_setSlot_self]
  exact setSlot_setSlot (p := { p with ctb := p.ctb.put h.index (r.to .dropping) }) y _

theorem loadCompleted_refused {r : Rec} (hr : p.ctb.named h = some r)
    (ho : loadOutcome res r = some (r.refuse .loadFailed)) (y : Slot) : (p.setSlot i y).loadCompleted i h res =
      ({ p with
        ctb := p.ctb.put h.index (r.refuse .loadFailed)
        linkA := { p.linkA with pending := p.linkA.pending ||| Notice.recordRefused.flag }
        linkB := { p.linkB with pending := p.linkB.pending ||| Notice.recordRefused.flag } } : Part).setSlot i y := by
  simp only [Part.loadCompleted, setSlot_ctb, hr, ho, Rec.refuse, Rec.to]
  rfl

theorem rewritten_of_eq {t : Ctb} {k : Index} {q r : Rec} (hq : q = r) : t.Rewritten k r (t.put k q) := hq ▸ rewritten_put

/-- A record that leaves LOADING has no reason to clear, and loses its flags (R10, R11). -/
theorem Rec.to_of_loading {r : Rec} (hf : r.FlagLaw) (hs : r.state = .loading) {st : RecState} (hl : st ≠ .loading)
    (hr : st ≠ .refused) : r.to st = { r with state := st, reload := false, retire := false } := by
  have hw : r.reason = none := by simpa using mt hf.2.2 (by rw [hs]; decide)
  rw [Rec.to_waiting r hl hr, ← hw]

theorem Rec.refuse_of_plain {r : Rec} (hret : r.retire = false) (hrel : r.reload = false) (why : Reason) :
    r.refuse why = { r with state := .refused, reason := some why } := by
  obtain ⟨⟩ := r
  simp_all [Rec.refuse, Rec.to]

/-- Settles O46: a stray; a matched DROP; a matched LOAD by its record's flags and its result; and the end of RELINKING. -/
theorem completionsAndRelinkingEnd : Obligations.CompletionsAndRelinkingEnd := by
  refine ⟨?completions, ?linked⟩ <;> intro p i
  case completions =>
    intro h res x
    refine ⟨completion_stray, ?_⟩
    intro a b e r hi hh hs hn hr ht y leaves freed
    obtain ⟨-, hget⟩ := Ctb.named_eq_some.1 hr
    have hfreed : p.ctb.Freed h.index (p.ctb.free h.index) := freed_free ht.lists hget
    refine ⟨fun hk => ⟨_, hfreed, completion_drop hi hh hs hn hk⟩, fun hk hload => ?_⟩
    have hto {st : RecState} := Rec.to_of_loading (st := st) (ht.flags _ _ hget) hload
    have hc := completion_load (res := res) hi hh hs hn hk
    refine ⟨fun hret hres => ?_, fun hret hres => ?_, fun hret hrel => ?_, fun hret hrel hres => ?_,
      fun hret hrel hres => ?_⟩
    · refine ⟨p.ctb.put h.index (r.to .dropping), rewritten_of_eq (hto (by decide) (by decide)), hc.trans ?_⟩
      rw [loadCompleted_dropping hr (by simp [loadOutcome, hres, hret])]
      rfl
    · refine ⟨_, hfreed, hc.trans ?_⟩
      rw [loadCompleted_free hr (by simp [loadOutcome, hres, hret])]
      rfl
    · refine ⟨p.ctb.put h.index (r.to .pending), rewritten_of_eq (by rw [hto (by decide) (by decide), hret]), hc.trans ?_⟩
      rw [loadCompleted_put hr (by cases res <;> simp [loadOutcome, hret, hrel]) (.inl rfl)]
      rfl
    · refine ⟨p.ctb.put h.index (r.to .live), rewritten_of_eq (by rw [hto (by decide) (by decide), hret, hrel]),
        hc.trans ?_⟩
      rw [loadCompleted_put hr (by simp [loadOutcome, hres, hret, hrel]) (.inr rfl)]
      rfl
    · refine ⟨p.ctb.put h.index (r.refuse .loadFailed), rewritten_of_eq (Rec.refuse_of_plain hret hrel .loadFailed),
        hc.trans ?_⟩
      rw [loadCompleted_refused hr (by simp [loadOutcome, hres, hret, hrel])]
      rfl
  case linked =>
    intro waits hrecs
    refine ⟨fun hs hw => linkedTest_links hs ((allLoaded_iff hrecs).2 hw), fun hw => linkedTest_stays fun ⟨hs, hl⟩ => ?_⟩
    exact hw.elim (fun h => h hs) ((allLoaded_iff hrecs).1 hl)

end Sys2Proof.Machine
end

section
namespace Sys2Proof.Machine

/-! ### A good poll reply (R97) -/

variable {p : Part} {i : SlotId} {e : Exchange}

theorem failsDrop_iff {c : Handle × Result} : p.failsDrop i c = true ↔ c.2 = .failed ∧
    ∃ t ∈ (p.slot i).inflight, t.handle = c.1 ∧ t.sent = true ∧ t.kind = .drop := by
  simp [Part.failsDrop, and_assoc]

theorem takePoll_eq (f : PollFields) (n : Nat) : p.takePoll i f n =
    if (Part.completions i f.completions p).2 = true
    then (f.completions.foldl (fun q c => q.completion i c) p).cardLost i none
    else (f.completions.foldl (fun q c => q.completion i c) p).takeGoodPoll i f n := by
  rw [Part.takePoll, ← (completions_eq i f.completions p).1]

/-- A POLL_REPLY from the slot of a POLL's exchange is a good reply (R87). -/
theorem judge_poll (hf : e.frame = .poll) (f : PollFields) : judge e (some (e.slot, .poll f)) = .ok (.poll f) := by
  simp [judge, expects, hf]

theorem goodReply_poll (hf : e.frame = .poll) (f : PollFields) : p.goodReply e (.poll f) =
    (p.setSlot e.slot { p.slot e.slot with missed := 0 }).takePoll e.slot f e.number := by
  simp only [Part.goodReply, hf, updSlot_eq, Slot.heard]

/-- Settles O47: whether a DROP among the completions FAILED decides between the loss and the slot's own act. -/
theorem pollReplyInOrder : Obligations.PollReplyInOrder := by
  intro s g e w f p i p₁ p₂ drops hp ho hf hw
  have hexec : exec (.pollReply g w) s = .next ⟨((p₁.takePoll i f e.number).polled e).follow, s.pending⟩ := by
    refine exec_next ?_
    rw [Part.effect, hw, takeReply_good hp ho (judge_poll hf f), goodReply_poll hf]
  have hdrops : (Part.completions i f.completions p₁).2 = true ↔ drops := by
    rw [(completions_eq i f.completions p₁).2]
    simp only [failsDrop_iff]
    exact Iff.rfl
  refine ⟨fun hd => ?_, fun hd hs ht => ⟨p₂.cardLost i none, cardLost_spec ht hs none, ?_⟩⟩
  · rw [hexec, takePoll_eq, if_neg (mt hdrops.1 hd)]
  · rw [hexec, takePoll_eq, if_pos (hdrops.2 hd)]

end Sys2Proof.Machine
end

section
namespace Sys2Proof.Machine

/-! ### Shared by the replies: the identity check, and a counted failure (R62, R68) -/

variable {p q : Part} {i : SlotId} {f : PollFields} {n : Nat} {seen : CardSeen}

/-- What follows a counted failure below the limit may be said otherwise. -/
theorem Part.Failed.imp {k : BitVec 5} {a b : Part → Prop} (h : p.Failed i k a q) (hab : a q → b q) : p.Failed i k b q :=
  ⟨h.1, fun hl => hab (h.2 hl)⟩

/-- The identity check passed, where the card is or becomes the identity: what its entry to ALIGNING makes (R62, R63). -/
theorem identityCheck_aligns (hs : (p.slot i).cardSeen = some seen)
    (h : (p.slot i).identity = some seen.card ∨
      (p.slot i).identity = none ∧ p.ctb.fitsChannels i (p.cfg.profiles[seen.card.type]).channels = true) :
    ∃ q : Part, p.Entered i .aligning q ∧
      q.slot i = { (p.slot i).moved p.cfg.bus .aligning .fast with
        identity := some seen.card
        alignTimer := some p.cfg.bus.align
        engine := some ⟨.align (p.slot i).phase, 0, .waiting⟩ } ∧
      q.ctb = p.ctb ∧ p.identityCheck i = q.arbitrate (segOf i) := by
  rw [identityCheck_aligning hs h]
  exact identified_aligning seen.card

/-- The identity check failed: what its entry to MISMATCH makes (R62). -/
theorem identityCheck_mismatches (hs : (p.slot i).cardSeen = some seen)
    (h : (∃ c, (p.slot i).identity = some c ∧ c ≠ seen.card) ∨
      (p.slot i).identity = none ∧ p.ctb.fitsChannels i (p.cfg.profiles[seen.card.type]).channels = false) :
    p.Entered i .mismatch (p.identityCheck i) ∧
      (p.identityCheck i).slot i = (p.slot i).moved p.cfg.bus .mismatch .slow ∧ (p.identityCheck i).ctb = p.ctb := by
  rw [identityCheck_mismatch hs h]
  refine ⟨entered_enter p i .mismatch, ?_, ctb_enter⟩
  rw [slot_enter, into_moved (by simp)]
  rfl

/-- The channel high mark after a treatment of the slot is that of the records it leaves (R3, R62). -/
theorem fitsChannels_treat {t : Ctb} {fate : Fate} (h : t.Treated fate i q.ctb) (hr : Sparse.Rising q.ctb.recs) (m : Nat) :
    q.ctb.fitsChannels i m = true ↔
      ∀ k r, t.get k = some r → r.slot = i → (fate r).isSome = true → r.channel.val < m := by
  rw [fitsChannels_iff hr]
  constructor
  · intro hh k r e hs hsome
    obtain ⟨st, hst⟩ := Option.isSome_iff_exists.1 hsome
    have hk := h.slot k r e hs
    simp only [Ctb.TreatedAt, hst] at hk
    obtain ⟨-, r', e', hk⟩ := hk
    have := hh k r' e' (by rw [hk.slot]; exact hs)
    rwa [hk.channel] at this
  · intro hh k r' e' hs
    by_cases hin : ∃ r, t.get k = some r ∧ r.slot = i
    · obtain ⟨r, e, hri⟩ := hin
      have hk := h.slot k r e hri
      cases hst : fate r with
      | none =>
        simp only [Ctb.TreatedAt, hst] at hk
        rw [hk.1] at e'
        cases e'
      | some st =>
        simp only [Ctb.TreatedAt, hst] at hk
        obtain ⟨-, r'', e'', hk⟩ := hk
        rw [e'] at e''
        cases e''
        rw [hk.channel]
        exact hh k r e hri (by rw [hst]; rfl)
    · have hk := h.others k fun r e hri => hin ⟨r, e, hri⟩
      cases e : t.get k with
      | none => rw [hk.none e] at e'; cases e'
      | some r =>
        obtain ⟨r'', e'', hk⟩ := hk.some e
        rw [e'] at e''
        cases e''
        exact absurd ⟨r, e, hk.slot ▸ hs⟩ hin

/-! ### A DARK slot's reply (R60, R61, R62) -/

theorem takeGoodPoll_dark {y : Slot} (hy : (p.slot i).enterReply f = y) (hd : y.state = .dark) : p.takeGoodPoll i f n =
    if p.spm.state.up = true then
      if f.fatal = true then (p.setSlot i y).cycleFailed i none else (p.setSlot i y).classify i
    else p.setSlot i y := by
  have he : y.enable = true := by rw [Slot.enable, hd]; rfl
  rw [takeGoodPoll_eq hy]
  simp only [Part.fatalReply, Part.actOnReply, slot_setSlot_self, setSlot_spm, hd, he, true_and, true_implies]
  by_cases hu : p.spm.state.up = true <;> simp only [hu, if_true, if_false, ite_self, Bool.false_eq_true]

theorem noReboot_iff {x : Slot} {r : LastReply} (hs : x.cardSeen = some seen) : x.noReboot r = true ↔
    (r.phase = .run ∨ r.phase = .aligned) ∧ r.bootCount = x.bootCount ∧ x.identity = some seen.card := by
  simp only [Slot.noReboot, hs, Option.map_some, Bool.and_eq_true, decide_eq_true_eq, and_assoc]
  refine and_congr_right fun _ => and_congr_right fun _ => ⟨fun h => h.2.symm, fun h => ?_⟩
  rw [h]
  exact ⟨rfl, rfl⟩

theorem classify_auditing {r : LastReply} (hl : (p.slot i).lastReply = some r) (hr : (p.slot i).noReboot r = true)
    (hh : (p.slot i).hold = false) : p.classify i = p.enterAuditing i := by
  simp only [Part.classify, hl, hr, hh, if_true, Bool.false_eq_true, if_false]

theorem classify_held {r : LastReply} (hl : (p.slot i).lastReply = some r) (hr : (p.slot i).noReboot r = true)
    (hh : (p.slot i).hold = true) : p.classify i = (p.treat (moveFate .live .suspended) i).enterHeldClearing i := by
  simp only [Part.classify, hl, hr, hh, if_true]

/-- The part a DARK slot's reboot leaves to the identity check: its LIVE records suspended, the boot count recorded (R60). -/
def Part.darkReboot (i : SlotId) (n : BitVec 8) (p : Part) : Part :=
  ((p.updSlot i fun x => { x with bootTimer := none }).treat (moveFate .live .suspended) i).recordBoot i n

theorem classify_reboot {r : LastReply} (hl : (p.slot i).lastReply = some r) (hr : ¬(p.slot i).noReboot r = true) :
    p.classify i = (p.darkReboot i r.bootCount).identityCheck i := by
  simp only [Part.classify, hl, if_neg hr, Part.darkReboot]

theorem slot_darkReboot (n : BitVec 8) :
    (p.darkReboot i n).slot i = { p.slot i with bootTimer := none, bootCount := n } := by
  rw [Part.darkReboot, Part.recordBoot, slot_updSlot_self, Part.treat, slot_onCtb, slot_updSlot_self]

theorem Part.Entered.of_darkReboot {st : SlotState} {n : BitVec 8} (h : (p.darkReboot i n).Entered i st q) :
    p.Entered i st q := by
  unfold Part.darkReboot Part.recordBoot Part.treat at h
  exact h.of_updSlot.of_onCtb.of_updSlot

theorem fitsChannels_darkReboot (ht : p.ctb.TableLaw) (n : BitVec 8) (m : Nat) :
    (p.darkReboot i n).ctb.fitsChannels i m = true ↔ ∀ k r, p.ctb.get k = some r → r.slot = i → r.channel.val < m :=
  fitsChannels_move ht .live (by decide) m

theorem treated_darkReboot (ht : p.ctb.TableLaw) (n : BitVec 8) :
    p.ctb.Treated (moveFate .live .suspended) i (p.darkReboot i n).ctb :=
  Ctb.treated_treat (Ctb.plain_moveFate _ _) (Ctb.keepsRefused_moveFate _ (by decide)) ht i

/-- Settles O48: the reply is kept; then the supply, the fatal flag, the reboot test and the identity check decide. -/
theorem darkRepliesClassify : Obligations.DarkRepliesClassify := by
  intro p i f n x y q b same channels fits suspended hd ht
  have hq := takeGoodPoll_dark (n := n) (enterReply_dark f hd) (show y.state = .dark from hd)
  have hy : (p.setSlot i y).slot i = y := slot_setSlot_self _ _ _
  have hlast : ((p.setSlot i y).slot i).lastReply = some ⟨f.phase, f.bootCount⟩ := by rw [hy]
  have hsame : ((p.setSlot i y).slot i).noReboot ⟨f.phase, f.bootCount⟩ = true ↔ same := by
    rw [hy]
    exact noReboot_iff (seen := ⟨f.card, f.depth⟩) rfl
  have hclass (hu : p.spm.state.up = true) (hf : f.fatal = false) : q = (p.setSlot i y).classify i := by
    rw [show q = _ from hq, if_pos hu, if_neg (by rw [hf]; decide)]
  have hreboot : ((p.setSlot i y).darkReboot i f.bootCount).slot i =
      { y with bootTimer := none, bootCount := f.bootCount } := by rw [slot_darkReboot, hy]
  have hfit : ((p.setSlot i y).darkReboot i f.bootCount).ctb.fitsChannels i channels = true ↔ fits :=
    fitsChannels_darkReboot (p := p.setSlot i y) ht f.bootCount channels
  have hsuspended : p.ctb.Treated (moveFate .live .suspended) i ((p.setSlot i y).darkReboot i f.bootCount).ctb :=
    treated_darkReboot (p := p.setSlot i y) ht f.bootCount
  refine ⟨fun hu => ?_, fun hu hf => ?_, fun hu hf hs hh => ?_, fun hu hf hs hh => ?_, fun hu hf hs hid => ?_,
    fun hu hf hs hid => ?_⟩
  · rw [show q = _ from hq, if_neg (by rw [hu]; decide)]
  · rw [show q = _ from hq, if_pos hu, if_pos hf]
    refine (cycleFailed_spec (p := p.setSlot i y) ht none).imp fun ⟨he, hx, hc⟩ => ⟨he.of_setSlot, ?_, hc⟩
    rw [hx, hy]
    rfl
  · obtain ⟨q', he, hx, hc, e⟩ := enterAuditing_spec (p := p.setSlot i y) (i := i)
    refine ⟨q', he.of_setSlot, by rw [hx, hy]; rfl, hc, ?_⟩
    rw [hclass hu hf, classify_auditing hlast (hsame.2 hs) (by rw [hy]; exact hh), e]
  · obtain ⟨q', he, hx, hc, e⟩ :=
      enterHeldClearing_spec (p := (p.setSlot i y).treat (moveFate .live .suspended) i) (i := i)
    refine ⟨q', he.of_onCtb.of_setSlot, ?_, ?_, ?_⟩
    · rw [hx, Part.treat, slot_onCtb, hy]
      rfl
    · show p.ctb.Treated _ i q'.ctb
      rw [hc]
      exact Ctb.treated_treat (Ctb.plain_moveFate _ _) (Ctb.keepsRefused_moveFate _ (by decide)) ht i
    · rw [hclass hu hf, classify_held hlast (hsame.2 hs) (by rw [hy]; exact hh), e]
  · obtain ⟨q', he, hx, hc, e⟩ := identityCheck_aligns (seen := ⟨f.card, f.depth⟩) (by rw [hreboot])
      (by rw [hreboot]; exact hid.imp_right (And.imp_right hfit.2))
    refine ⟨q', he.of_darkReboot.of_setSlot, ?_, ?_, ?_⟩
    · rw [hx, hreboot]
      rfl
    · show p.ctb.Treated _ i q'.ctb
      rw [hc]
      exact hsuspended
    · rw [hclass hu hf, classify_reboot hlast (mt hsame.1 hs), e]
  · rw [hclass hu hf, classify_reboot hlast (mt hsame.1 hs)]
    obtain ⟨he, hx, hc⟩ := identityCheck_mismatches (seen := ⟨f.card, f.depth⟩) (by rw [hreboot])
      (by rw [hreboot]; exact hid.imp_right (And.imp_right fun h => Bool.eq_false_iff.2 (mt hfit.1 h)))
    refine ⟨he.of_darkReboot.of_setSlot, ?_, ?_⟩
    · rw [hx, hreboot]
      rfl
    · show p.ctb.Treated _ i (Part.ctb _)
      rw [hc]
      exact hsuspended

end Sys2Proof.Machine
end

section
namespace Sys2Proof.Machine

/-! ### The reply of a slot with its enable driven, other than DARK (R49, R97) -/

variable {p q : Part} {i : SlotId} {f : PollFields} {n : Nat}

/-- A slot record with a good reply's card seen (R49). -/
def Slot.sawCard (f : PollFields) (x : Slot) : Slot := { x with cardSeen := some ⟨f.card, f.depth⟩ }

theorem driven_of_losable {x : Slot} (hs : x.state ∈ SlotState.losable) : x.enable = true ∧ x.state ≠ .dark := by
  unfold Slot.enable
  revert hs
  cases x.state <;> decide

theorem takeGoodPoll_fatal (hs : (p.slot i).state ∈ SlotState.losable) (hf : f.fatal = true) :
    p.takeGoodPoll i f n = (p.setSlot i ((p.slot i).sawCard f)).cycleFailed i none := by
  have he := driven_of_losable hs
  have he' : ((p.slot i).sawCard f).enable = true ∧ ((p.slot i).sawCard f).state ≠ .dark := he
  rw [takeGoodPoll_eq (enterReply_driven f he.1 he.2), if_pos hf]
  exact if_pos (by
    rw [slot_setSlot_self]
    exact ⟨he'.1, fun hd => absurd hd he'.2⟩)

theorem takeGoodPoll_acts (hs : (p.slot i).state ∈ SlotState.losable) (hf : f.fatal = false) :
    p.takeGoodPoll i f n = (p.setSlot i ((p.slot i).sawCard f)).actOnReply i f n := by
  have he := driven_of_losable hs
  rw [takeGoodPoll_eq (enterReply_driven f he.1 he.2), if_neg (by rw [hf]; decide)]
  rfl

/-! ### The outcome of an alignment (R63) -/

theorem alignCounts_iff {x : Slot} : x.alignCounts n = true ↔
    (∃ m, x.alignMark = some m ∧ m < n) ∧ ∀ e, x.engine = some e → e.tries ≠ 0 := by
  unfold Slot.alignCounts Slot.alignSent
  rw [Bool.and_eq_true]
  refine and_congr ?_ ?_
  · cases x.alignMark <;> simp
  · cases x.engine <;> simp

theorem actOnReply_aligning (hs : (p.slot i).state = .aligning) : p.actOnReply i f n = p.alignOutcome i f n := by
  simp only [Part.actOnReply, hs]

theorem alignOutcome_stays (h : ¬(p.slot i).alignCounts n = true ∨ f.phase = .boot ∨ f.phase = .run) :
    p.alignOutcome i f n = p := by
  unfold Part.alignOutcome
  split
  · next hc =>
    rcases h with h | h | h
    · exact absurd hc h
    · rw [h]
    · rw [h]
  · rfl

theorem alignOutcome_held (hc : (p.slot i).alignCounts n = true) (hp : f.phase = .aligned)
    (hh : (p.slot i).hold = true) : p.alignOutcome i f n = p.enter i .held := by
  simp only [Part.alignOutcome, hc, hp, hh, if_true]

theorem alignOutcome_relinks (hc : (p.slot i).alignCounts n = true) (hp : f.phase = .aligned)
    (hh : (p.slot i).hold = false) : p.alignOutcome i f n = p.enterRelinking i := by
  simp only [Part.alignOutcome, hc, hp, hh, if_true, Bool.false_eq_true, if_false]

theorem alignOutcome_fails (hc : (p.slot i).alignCounts n = true) (hp : f.phase = .alignFail) :
    p.alignOutcome i f n = p.alignFailed i := by
  simp only [Part.alignOutcome, hc, hp, if_true]

/-- Settles O49: whether the reply counts, its phase, and the hold flag or the attempt limit decide. -/
theorem alignOutcomeTaken : Obligations.AlignOutcomeTaken := by
  intro p i f n x y p' q b counts hs ht hf
  have hy : p'.slot i = y := slot_setSlot_self _ _ _
  have hq : q = p'.alignOutcome i f n := by
    rw [show q = _ from takeGoodPoll_acts (by rw [hs]; decide) hf]
    exact actOnReply_aligning (by rw [slot_setSlot_self]; exact hs)
  have hcounts : (p'.slot i).alignCounts n = true ↔ counts := by
    rw [hy]
    exact alignCounts_iff
  rw [hq]
  refine ⟨fun h => alignOutcome_stays (h.imp_left (mt hcounts.1)), fun hc hp hh => ?_, fun hc hp hh => ?_,
    fun hc hp _ => ?_, fun hc hp hl => ?_⟩
  · rw [alignOutcome_held (hcounts.2 hc) hp (by rw [hy]; exact hh)]
    refine ⟨(entered_enter p' i .held).of_setSlot, ?_, ctb_enter⟩
    rw [slot_enter, into_moved (by simp), hy]
    rfl
  · rw [alignOutcome_relinks (hcounts.2 hc) hp (by rw [hy]; exact hh)]
    obtain ⟨q', he, hx, hr, e⟩ := enterRelinking_spec (p := p') (i := i) ht
    refine ⟨q', he.of_setSlot, ?_, hr, e⟩
    rw [hx, hy]
    rfl
  · rw [alignOutcome_fails (hcounts.2 hc) hp]
    exact alignFailed_failed ht
  · rw [alignOutcome_fails (hcounts.2 hc) hp, alignFailed_again (by rw [hy]; exact hl), hy, setSlot_setSlot]
    simp only [p', seg_setSlot]
    rfl

/-! ### A slot in service (R61, R67, R69, R70, R114) -/

theorem losable_of_serves {st : SlotState} :
    st ∈ [SlotState.auditing, .relinking, .linked, .held] → st ∈ SlotState.losable := by cases st <;> decide

theorem actOnReply_lost (hs : (p.slot i).state ∈ [.auditing, .relinking, .linked, .held]) (hp : f.phase = .alignFail) :
    p.actOnReply i f n = p.cardLost i (some .alignFailed) := by
  unfold Part.actOnReply
  split <;> simp_all

theorem actOnReply_reboot (hs : (p.slot i).state ∈ [.auditing, .relinking, .linked, .held]) (hp : f.phase ≠ .alignFail)
    (hr : (p.slot i).rebooted f = true) : p.actOnReply i f n = p.rebootSeen i f.bootCount := by
  unfold Part.actOnReply
  split <;> simp_all

theorem actOnReply_same (hs : (p.slot i).state ∈ [.auditing, .relinking, .linked, .held]) (hp : f.phase ≠ .alignFail)
    (hr : ¬(p.slot i).rebooted f = true) : p.actOnReply i f n = p := by
  unfold Part.actOnReply
  split <;> simp_all

theorem rebooted_iff {x : Slot} : x.rebooted f = true ↔
    f.phase = .boot ∨ f.bootCount ≠ x.bootCount ∨ x.identity ≠ some f.card := by
  simp only [Slot.rebooted, decide_eq_true_eq, ne_comm (a := some f.card)]

/-- In MISMATCH the boot count is the reply's, whether it changed or not (R67). -/
theorem actOnReply_mismatch (hs : (p.slot i).state = .mismatch) :
    p.actOnReply i f n = p.setSlot i { p.slot i with bootCount := f.bootCount } := by
  have h : p.actOnReply i f n =
      if f.phase = .boot ∨ f.bootCount ≠ (p.slot i).bootCount then p.recordBoot i f.bootCount else p := by
    simp only [Part.actOnReply, hs]
  rw [h]
  split
  · rfl
  · next h =>
    have hb : f.bootCount = (p.slot i).bootCount := by
      by_contra hne
      exact h (.inr hne)
    rw [hb]
    exact setSlot_slot.symm

/-- The part a reboot in service leaves to the identity check: its records lost, what stays LIVE suspended, the boot count
recorded (R70). -/
def Part.serviceReboot (i : SlotId) (n : BitVec 8) (p : Part) : Part :=
  ((p.treat lossFate i).treat (moveFate .live .suspended) i).recordBoot i n

theorem rebootSeen_again (h : ((p.slot i).counted 1).attempts < p.cfg.bus.attemptLimit) (n : BitVec 8) :
    p.rebootSeen i n = ((p.setSlot i ((p.slot i).counted 1)).serviceReboot i n).identityCheck i := by
  have e : faultBits (some .spontaneousReboot) = 1 := rfl
  rw [Part.rebootSeen, failed_eq, e, if_neg (Nat.not_le.2 h)]
  rfl

theorem slot_serviceReboot (n : BitVec 8) : (p.serviceReboot i n).slot i = { p.slot i with bootCount := n } := by
  rw [Part.serviceReboot, Part.recordBoot, slot_updSlot_self, Part.treat, slot_onCtb, Part.treat, slot_onCtb]

theorem Part.Entered.of_serviceReboot {st : SlotState} {n : BitVec 8} (h : (p.serviceReboot i n).Entered i st q) :
    p.Entered i st q := by
  unfold Part.serviceReboot Part.recordBoot Part.treat at h
  exact h.of_updSlot.of_onCtb.of_onCtb

theorem treated_serviceReboot (ht : p.ctb.TableLaw) (n : BitVec 8) :
    p.ctb.Treated powerOffFate i (p.serviceReboot i n).ctb := Ctb.treated_reboot ht i

theorem fitsChannels_serviceReboot (ht : p.ctb.TableLaw) (n : BitVec 8) (m : Nat) :
    (p.serviceReboot i n).ctb.fitsChannels i m = true ↔
      ∀ k r, p.ctb.get k = some r → r.slot = i → (powerOffFate r).isSome = true → r.channel.val < m :=
  fitsChannels_treat (treated_serviceReboot ht n)
    ((ht.treat Ctb.keepsRefused_lossFate i).treat (Ctb.keepsRefused_moveFate _ (by decide)) i).lists.recs m

/-- Settles O50: the fatal flag, the phase, the reboot test, the attempt limit and the identity check decide. -/
theorem repliesInService : Obligations.RepliesInService := by
  intro p i f n x y p' q b serves rebooted channels fits ht
  have hy : p'.slot i = y := slot_setSlot_self _ _ _
  have hlosable (hs : serves) : x.state ∈ SlotState.losable := losable_of_serves hs
  have hserves (hs : serves) : (p'.slot i).state ∈ [.auditing, .relinking, .linked, .held] := by
    rw [hy]
    exact hs
  have hrebooted : (p'.slot i).rebooted f = true ↔ rebooted := by
    rw [hy]
    exact rebooted_iff
  have hacts (hs : x.state ∈ SlotState.losable) (hf : f.fatal = false) : q = p'.actOnReply i f n :=
    takeGoodPoll_acts hs hf
  have hreboot : ((p'.setSlot i (y.counted 1)).serviceReboot i f.bootCount).slot i =
      { y.counted 1 with bootCount := f.bootCount } := by rw [slot_serviceReboot, slot_setSlot_self]
  have hcheck (hs : serves) (hf : f.fatal = false) (hp : f.phase ≠ .alignFail) (hr : rebooted)
      (hl : (y.counted 1).attempts < b.attemptLimit) :
      q = ((p'.setSlot i (y.counted 1)).serviceReboot i f.bootCount).identityCheck i := by
    rw [hacts (hlosable hs) hf, actOnReply_reboot (hserves hs) hp (hrebooted.2 hr),
      rebootSeen_again (by rw [hy]; exact hl), hy]
  have hfit : ((p'.setSlot i (y.counted 1)).serviceReboot i f.bootCount).ctb.fitsChannels i channels = true ↔ fits :=
    fitsChannels_serviceReboot (p := p'.setSlot i (y.counted 1)) ht f.bootCount channels
  have htreated : p.ctb.Treated powerOffFate i ((p'.setSlot i (y.counted 1)).serviceReboot i f.bootCount).ctb :=
    treated_serviceReboot (p := p'.setSlot i (y.counted 1)) ht f.bootCount
  refine ⟨fun hs hf => ?_, fun hs hf hp => ?_, fun hs hf hp hr => ?_, fun hs hf hp hr _ => ?_,
    fun hs hf hp hr hl hid => ?_, fun hs hf hp hl hid => ?_, fun hs hf => ?_⟩
  · rw [show q = _ from takeGoodPoll_fatal hs hf]
    refine (cycleFailed_spec (p := p') ht none).imp fun ⟨he, hx, hc⟩ => ⟨he.of_setSlot, ?_, hc⟩
    rw [hx, hy]
    rfl
  · rw [hacts (hlosable hs) hf, actOnReply_lost (hserves hs) hp]
    exact cardLost_spec (p := p') ht (by rw [hy]; exact hlosable hs) (some .alignFailed)
  · rw [hacts (hlosable hs) hf, actOnReply_same (hserves hs) hp (mt hrebooted.1 hr)]
  · rw [hacts (hlosable hs) hf, actOnReply_reboot (hserves hs) hp (hrebooted.2 hr)]
    exact failed_spec (p := p') ht (some .spontaneousReboot) fun _ => trivial
  · obtain ⟨q', he, hx, hc, e⟩ := identityCheck_aligns (seen := ⟨f.card, f.depth⟩) (by rw [hreboot]; rfl)
      (by rw [hreboot]; exact hid.imp_right (And.imp_right hfit.2))
    refine ⟨q', he.of_serviceReboot.of_setSlot.of_setSlot, ?_, ?_, (hcheck hs hf hp hr hl).trans e⟩
    · rw [hx, hreboot]
      rfl
    · rw [hc]
      exact htreated
  · have hr : rebooted := by
      refine .inr (.inr ?_)
      rcases hid with ⟨c, hc, hne⟩ | ⟨hnone, -⟩
      · rw [hc]
        exact fun h => hne (Option.some.inj h)
      · rw [hnone]
        exact nofun
    rw [hcheck hs hf hp hr hl]
    obtain ⟨he, hx, hc⟩ := identityCheck_mismatches (seen := ⟨f.card, f.depth⟩) (by rw [hreboot]; rfl)
      (by rw [hreboot]; exact hid.imp_right (And.imp_right fun h => Bool.eq_false_iff.2 (mt hfit.1 h)))
    refine ⟨he.of_serviceReboot.of_setSlot.of_setSlot, ?_, ?_⟩
    · rw [hx, hreboot]
      rfl
    · rw [hc]
      exact htreated
  · rw [hacts (by rw [hs]; decide) hf, actOnReply_mismatch (by rw [hy]; exact hs), hy]
    exact setSlot_setSlot _ _

end Sys2Proof.Machine
end

section
namespace Sys2Proof.Machine

/-! ### Slot-engine replies (R63, R92, R108, R109, R110) -/

variable {p q : Part} {g : SegId} {e : Exchange} {s : State} {i : SlotId} {x : Slot} {y : Engine}

/-- An ACCEPT from the slot of the exchange, whose frame expects one, is taken as a good reply (R87). -/
theorem exec_accept (hp : (s.part.seg g).inProgress = some e) (ho : e.orphan = false)
    (he : expects e.frame .accept = true) (hf : e.frame ≠ .poll) :
    exec (.accept g (byteOf e.slot.val)) s =
      .next ⟨((s.part.idled g e).goodReply e .accept).follow, s.pending⟩ := by
  have hr : acceptReply (byteOf e.slot.val) = some (e.slot, .accept) := by
    unfold acceptReply slotReply
    rw [fin?_byteOf (by decide)]
  have hj : judge e (some (e.slot, .accept)) = .ok .accept := by simp [judge, he]
  refine exec_next ?_
  simp only [Part.effect, hr]
  rw [takeReply_good hp ho hj, polled_of_ne hf]

/-- A DIGEST_REPLY from the slot of a DIGEST's exchange, its count in range, is taken as a good reply (R87, R107). -/
theorem exec_digestReply {n : BitVec 16} {s1 : BitVec 24} {s2 : BitVec 32} (hp : (s.part.seg g).inProgress = some e)
    (ho : e.orphan = false) (hn : n.toNat ≤ 512) (hf : e.frame = .digest) :
    exec (.digestReply g (byteOf e.slot.val) n s1 s2) s =
      .next ⟨((s.part.idled g e).goodReply e (.digest n.toNat s1.toNat s2.toNat)).follow, s.pending⟩ := by
  have hr : digestReplyOf (byteOf e.slot.val) n.toNat s1.toNat s2.toNat =
      some (e.slot, .digest n.toNat s1.toNat s2.toNat) := by
    unfold digestReplyOf slotReply
    rw [fin?_byteOf (by decide), if_pos hn]
  have hj : judge e (some (e.slot, .digest n.toNat s1.toNat s2.toNat)) = .ok (.digest n.toNat s1.toNat s2.toNat) := by
    simp [judge, expects, hf]
  refine exec_next ?_
  simp only [Part.effect, hr]
  rw [takeReply_good hp ho hj, polled_of_ne (by rw [hf]; exact nofun)]

theorem engineDone_eq (hy : x.engine = some y) (hp : y.place = .inExchange) :
    x.engineDone = { x with engine := none } := by
  simp only [Slot.engineDone, hy, hp, if_true]

/-- A good reply to a slot-engine frame in its exchange: the missed count is 0 and the frame no longer pending (R88, R92). -/
theorem heard_engineDone (hy : ({ p.slot i with missed := 0 } : Slot).engine = some y) (hp : y.place = .inExchange) :
    (p.updSlot i Slot.heard).updSlot i Slot.engineDone = p.setSlot i { p.slot i with missed := 0, engine := none } := by
  rw [updSlot_updSlot, updSlot_eq]
  congr 1
  exact engineDone_eq hy hp

theorem goodReply_align {ph : Fin 16} (hf : e.frame = .align ph) :
    p.goodReply e .accept = (p.updSlot e.slot Slot.heard).updSlot e.slot Slot.engineDone := by
  simp only [Part.goodReply, hf]

theorem goodReply_clear (hf : e.frame = .clear) : p.goodReply e .accept =
    ((p.updSlot e.slot Slot.heard).updSlot e.slot Slot.engineDone).auditCleared e.slot := by
  simp only [Part.goodReply, hf]

theorem goodReply_digest (hf : e.frame = .digest) (n a b : Nat) : p.goodReply e (.digest n a b) =
    ((p.updSlot e.slot Slot.heard).updSlot e.slot Slot.engineDone).takeDigest e.slot ⟨n, a, b⟩ := by
  simp only [Part.goodReply, hf]

/-! ### The audit -/

/-- The ACCEPT of the audit's CLEAR: LIVE records PENDING, and the entry to RELINKING (R110). -/
theorem auditCleared_spec (ht : p.ctb.TableLaw) (hs : (p.slot i).state = .auditing)
    (ha : (p.slot i).audit = some .clearing) : ∃ (t : Ctb) (q : Part),
      p.ctb.Treated (moveFate .live .pending) i t ∧ p.Entered i .relinking q ∧
      q.slot i = { (p.slot i).moved p.cfg.bus .relinking .fast with window := p.computeWindow i } ∧
      t.Treated (moveFate .suspended .pending) i q.ctb ∧ p.auditCleared i = q.linkedTest i := by
  have hkeeps : Ctb.KeepsRefused (moveFate .live .pending) := Ctb.keepsRefused_moveFate _ (by decide)
  obtain ⟨q, he, hx, hc, e⟩ := enterRelinking_spec (p := p.treat (moveFate .live .pending) i) (i := i) (ht.treat hkeeps i)
  refine ⟨p.ctb.treat (moveFate .live .pending) i, q, Ctb.treated_treat (Ctb.plain_moveFate _ _) hkeeps ht i, he.of_onCtb,
    hx, hc, ?_⟩
  rw [Part.auditCleared, if_pos ⟨hs, ha⟩, e]

theorem auditCleared_other (hs : (p.slot i).state ≠ .auditing) : p.auditCleared i = p :=
  if_neg fun h => hs h.1

/-- Of a filtered list, the parts of what is kept. -/
theorem flatMap_filter_eq {α β : Type} (f : α → List β) (c : α → Bool) (l : List α) :
    (l.filter c).flatMap f = l.flatMap fun a => if c a = true then f a else [] := by
  induction l with
  | nil => rfl
  | cons a l ih => by_cases h : c a = true <;> simp [h, ih]

/-- The expected set, read from the records of the table (R107, R108). -/
theorem expectedCodes_eq (t : Ctb) (i : SlotId) : t.expectedCodes i = t.recs.flatMap fun r =>
    if r.2.slot = i ∧ r.2.state = .live then r.2.legs.map (bindingCode r.2.channel) else [] := by
  simp only [Ctb.expectedCodes, Ctb.onSlot, List.filter_filter, flatMap_filter_eq, Bool.and_eq_true, decide_eq_true_eq,
    and_comm]

theorem expectedDigest_iff {t : Ctb} {n a b : Nat} : (⟨n, a, b⟩ : Digest) = t.expectedDigest i ↔
    n = (t.expectedCodes i).length ∧ a = (t.expectedCodes i).sum % 2 ^ 24 ∧
      b = ((t.expectedCodes i).map fun c => c * c).sum % 2 ^ 32 := by
  rw [Ctb.expectedDigest, digestOf, Digest.mk.injEq]

theorem takeDigest_match {d : Digest} (hs : (p.slot i).state = .auditing) (ha : (p.slot i).audit = some .digesting)
    (hd : d = p.ctb.expectedDigest i) : p.takeDigest i d = p.enterRelinking i := by
  rw [Part.takeDigest, if_pos ⟨hs, ha⟩, if_pos hd]
  rfl

/-- A digest that differs calls for CLEAR (R110). -/
theorem takeDigest_mismatch {d : Digest} (hs : (p.slot i).state = .auditing) (ha : (p.slot i).audit = some .digesting)
    (hd : d ≠ p.ctb.expectedDigest i) : p.takeDigest i d = ((p.setSlot i { p.slot i with
        audit := some .clearing
        engine := some ⟨.clear, 0, .waiting⟩ }).setSeg (segOf i) { p.seg (segOf i) with
        queue := (p.seg (segOf i)).queue.filter fun f => !(decide (f.slot = i) && f.frame.isEngine) }).arbitrate
      (segOf i) := by
  rw [Part.takeDigest, if_pos ⟨hs, ha⟩, if_neg hd, Part.auditMismatch, callEngine_eq, updSlot_eq, slot_setSlot_self,
    setSlot_setSlot]
  simp only [seg_setSlot]

/-- Settles O51: each reply is good; the audit's replies go on to RELINKING or to its CLEAR. -/
theorem slotEngineReplies : Obligations.SlotEngineReplies := by
  intro s g e p i b p₀ x here done hp ho ht
  have hctb : p₀.ctb = p.ctb := idled_ctb
  have ht₀ : p₀.ctb.TableLaw := by rw [hctb]; exact ht
  have hcfg : p₀.cfg = p.cfg := idled_cfg
  have hdone : (p₀.setSlot i done).slot i = done := slot_setSlot_self _ _ _
  have hwindow : (p₀.setSlot i done).computeWindow i = p.computeWindow i := by
    refine computeWindow_congr hcfg ?_ ?_ <;> (rw [hdone]; simp [done, x, p₀, i, Part.idled])
  refine ⟨fun h c legs hf => ?loadOrDrop, fun hf ⟨y, hy, hpl⟩ => ?ends, fun hf hs ha ⟨y, hy, hpl⟩ => ?cleared, ?digest⟩
  case loadOrDrop =>
    have hgood : p₀.goodReply e .accept = p₀.setSlot i x := by
      rcases hf with hf | hf <;> simp only [Part.goodReply, hf] <;> rfl
    have hexpects : expects e.frame .accept = true := by rcases hf with hf | hf <;> rw [hf] <;> rfl
    have hpoll : e.frame ≠ .poll := by rcases hf with hf | hf <;> rw [hf] <;> exact nofun
    rw [exec_accept hp ho hexpects hpoll, hgood]
  case ends =>
    rcases hf with ⟨ph, hf⟩ | ⟨hf, hs⟩
    · rw [exec_accept hp ho (by rw [hf]; rfl) (by rw [hf]; exact nofun), goodReply_align hf, heard_engineDone hy hpl]
    · rw [exec_accept hp ho (by rw [hf]; rfl) (by rw [hf]; exact nofun), goodReply_clear hf, heard_engineDone hy hpl,
        auditCleared_other (by rw [hdone]; exact hs)]
  case cleared =>
    obtain ⟨t, q, htr, he, hx, hc, e'⟩ := auditCleared_spec (p := p₀.setSlot i done) (i := i) ht₀ (by rw [hdone]; exact hs)
      (by rw [hdone]; exact ha)
    refine ⟨t, q, hctb ▸ htr, he.of_setSlot, ?_, hc, ?_⟩
    · rw [hx, hdone, hwindow, setSlot_cfg, hcfg]
    · rw [exec_accept hp ho (by rw [hf]; rfl) (by rw [hf]; exact nofun), goodReply_clear hf, heard_engineDone hy hpl,
        ← e']
  case digest =>
    intro n s1 s2 hn hf hs ha ⟨y, hy, hpl⟩ codes equal
    have hexec : exec (.digestReply g here n s1 s2) s =
        .next ⟨((p₀.setSlot i done).takeDigest i ⟨n.toNat, s1.toNat, s2.toNat⟩).follow, s.pending⟩ := by
      rw [exec_digestReply hp ho hn hf, goodReply_digest hf, heard_engineDone hy hpl]
    have hcodes : codes = p₀.ctb.expectedCodes i := by
      rw [hctb, expectedCodes_eq]
      rfl
    have hequal : (⟨n.toNat, s1.toNat, s2.toNat⟩ : Digest) = p₀.ctb.expectedDigest i ↔ equal := by
      rw [expectedDigest_iff, ← hcodes]
    have hs' : ((p₀.setSlot i done).slot i).state = .auditing := by rw [hdone]; exact hs
    have ha' : ((p₀.setSlot i done).slot i).audit = some .digesting := by rw [hdone]; exact ha
    refine ⟨fun hq => ?_, fun hq => ?_⟩
    · obtain ⟨q, he, hx, hc, e'⟩ := enterRelinking_spec (p := p₀.setSlot i done) (i := i) ht₀
      refine ⟨q, he.of_setSlot, ?_, hctb ▸ hc, ?_⟩
      · rw [hx, hdone, hwindow, setSlot_cfg, hcfg]
      · rw [hexec, takeDigest_match hs' ha' (hequal.2 hq), e']
    · rw [hexec, takeDigest_mismatch hs' ha' (mt hequal.1 hq), hdone, setSlot_setSlot]
      simp only [seg_setSlot]
      rfl

end Sys2Proof.Machine
end

section
namespace Sys2Proof.Machine

/-! ### What a change of one slot leaves of the part -/

variable {p q r : Part} {i j : SlotId} {st : SlotState}

theorem bit_lt (n : Notice) : n.bit < 13 := by cases n <;> decide

theorem bit_inj {n k : Notice} : n.bit = k.bit ↔ k = n := by cases n <;> cases k <;> decide

theorem isPending_raise (x : LinkRec) (n k : Notice) : (x.raise n).isPending k = (decide (k = n) || x.isPending k) := by
  simp only [LinkRec.raise, LinkRec.isPending, Notice.flag, BitVec.getLsbD_or, BitVec.getLsbD_twoPow, bit_lt, bit_inj,
    decide_true, Bool.true_and, Bool.or_comm]

theorem isPending_slotChanged (x : LinkRec) (i : SlotId) (k : Notice) :
    (x.slotChanged i).isPending k = (decide (k = .slotChange) || x.isPending k) :=
  isPending_raise { x with changes := x.changes ||| BitVec.twoPow 24 i.val } .slotChange k

/-- The blocks other than slots, segments and table stand, and no flag pending on a link is lost. -/
structure Part.Around (p q : Part) : Prop where
  cfg : q.cfg = p.cfg
  capture : q.capture = p.capture
  spm : q.spm = p.spm
  fbu : q.fbu = p.fbu
  running : q.running = p.running
  owner : q.owner = p.owner
  pending : ∀ l n, (p.link l).isPending n = true → (q.link l).isPending n = true

/-- Of the other slots, no more has changed than grants change. -/
structure Part.Aside (i : SlotId) (p q : Part) : Prop extends Part.Around p q where
  slots : ∀ j, j ≠ i → (p.slot j).granted (q.slot j)

namespace Part

theorem Around.refl (p : Part) : p.Around p := ⟨rfl, rfl, rfl, rfl, rfl, rfl, fun _ _ h => h⟩

theorem Around.trans (h : p.Around q) (h' : q.Around r) : p.Around r :=
  ⟨h'.cfg.trans h.cfg, h'.capture.trans h.capture, h'.spm.trans h.spm, h'.fbu.trans h.fbu, h'.running.trans h.running,
    h'.owner.trans h.owner, fun l n hn => h'.pending l n (h.pending l n hn)⟩

theorem Aside.refl (p : Part) : p.Aside i p := ⟨.refl p, fun _ _ => .refl _⟩

theorem Aside.trans (h : p.Aside i q) (h' : q.Aside i r) : p.Aside i r :=
  ⟨h.toAround.trans h'.toAround, fun j hj => (h.slots j hj).trans (h'.slots j hj)⟩

theorem aside_updSlot (p : Part) (f : Slot → Slot) : p.Aside i (p.updSlot i f) :=
  ⟨⟨rfl, rfl, rfl, rfl, rfl, rfl, fun _ _ h => h⟩, fun j hj => by rw [slot_updSlot_ne _ _ _ _ hj.symm]; exact .refl _⟩

theorem aside_onCtb (p : Part) (f : Ctb → Ctb) : p.Aside i (p.onCtb f) :=
  ⟨⟨rfl, rfl, rfl, rfl, rfl, rfl, fun _ _ h => h⟩, fun _ _ => .refl _⟩

theorem aside_arbitrate (p : Part) (g : SegId) : p.Aside i (p.arbitrate g) :=
  ⟨⟨by simp, by simp, by simp, by simp, by simp, by simp, fun l n h => by simpa using h⟩, fun _ _ => granted_arbitrate⟩

theorem Entered.aside (h : p.Entered i st q) : p.Aside i q where
  cfg := h.cfg
  capture := h.capture
  spm := h.spm
  fbu := h.fbu
  running := h.running
  owner := h.owner
  pending l n hn := by
    rw [h.links l]
    split
    · rw [isPending_slotChanged, hn, Bool.or_true]
    · exact hn
  slots j hj := by rw [h.slots j hj]; exact .refl _

end Part

/-! ### Such changes, made of every slot in its turn -/

variable {f : SlotId → Part → Part}

theorem foldl_around (hf : ∀ i q, Part.Around q (f i q)) (xs : List SlotId) (p : Part) :
    p.Around (xs.foldl (fun p i => f i p) p) := by
  induction xs generalizing p with
  | nil => exact .refl p
  | cons x xs ih => exact (hf x p).trans (ih (f x p))

theorem eachSlot_around (hf : ∀ i q, Part.Around q (f i q)) (p : Part) : p.Around (p.eachSlot f) := foldl_around hf _ p

theorem foldl_granted (hf : ∀ i q, Part.Aside i q (f i q)) (xs : List SlotId) (hi : i ∉ xs) (p : Part) :
    (p.slot i).granted ((xs.foldl (fun p i => f i p) p).slot i) := by
  induction xs generalizing p with
  | nil => exact .refl _
  | cons x xs ih =>
    obtain ⟨hx, hxs⟩ := not_or.1 (mt List.mem_cons.2 hi)
    exact ((hf x p).slots i hx).trans (ih hxs (f x p))

/-- What becomes of a slot comes of its own turn; before it and after, the slot sees grants alone. -/
theorem eachSlot_turn (hf : ∀ i q, Part.Aside i q (f i q)) (p : Part) (i : SlotId) : ∃ q : Part,
    p.Around q ∧ (p.slot i).granted (q.slot i) ∧ ((f i q).slot i).granted ((p.eachSlot f).slot i) := by
  obtain ⟨as, bs, hs⟩ := List.append_of_mem (List.mem_finRange i)
  have hn : (as ++ i :: bs).Nodup := hs ▸ List.nodup_finRange 24
  have has : i ∉ as := fun h => (List.nodup_append.1 hn).2.2 i h i (List.mem_cons_self ..) rfl
  have hbs : i ∉ bs := (List.nodup_cons.1 (List.nodup_append.1 hn).2.1).1
  refine ⟨as.foldl (fun p i => f i p) p, foldl_around (fun i q => (hf i q).toAround) as p, foldl_granted hf as has p, ?_⟩
  rw [Part.eachSlot, allSlots, hs, List.foldl_append, List.foldl_cons]
  exact foldl_granted hf bs hbs _

end Sys2Proof.Machine
end

section
namespace Sys2Proof.Machine

/-! ### A slot at RECOVERY entry (R60, R62, R73) -/

variable {p q : Part} {i : SlotId}

theorem identityCheck_aside (p : Part) (i : SlotId) : p.Aside i (p.identityCheck i) := by
  have aligns {seen : CardSeen} (hs : (p.slot i).cardSeen = some seen) (h : (p.slot i).identity = some seen.card ∨
      (p.slot i).identity = none ∧ p.ctb.fitsChannels i (p.cfg.profiles[seen.card.type]).channels = true) :
      p.Aside i (p.identityCheck i) := by
    obtain ⟨q, he, -, -, e⟩ := identityCheck_aligns hs h
    exact e ▸ he.aside.trans (Part.aside_arbitrate q _)
  cases hs : (p.slot i).cardSeen with
  | none =>
    have e : p.identityCheck i = p := by simp only [Part.identityCheck, hs]
    exact e.symm ▸ Part.Aside.refl p
  | some seen =>
    cases hid : (p.slot i).identity with
    | none =>
      cases hf : p.ctb.fitsChannels i (p.cfg.profiles[seen.card.type]).channels with
      | true => exact aligns hs (.inr ⟨hid, hf⟩)
      | false => exact (identityCheck_mismatches hs (.inr ⟨hid, hf⟩)).1.aside
    | some c =>
      by_cases hc : c = seen.card
      · exact aligns hs (.inl (by rw [hid, hc]))
      · exact (identityCheck_mismatches hs (.inl ⟨c, hid, hc⟩)).1.aside

theorem darkReboot_aside (p : Part) (i : SlotId) (n : BitVec 8) : p.Aside i (p.darkReboot i n) := by
  unfold Part.darkReboot Part.recordBoot Part.treat
  exact ((Part.aside_updSlot p _).trans (Part.aside_onCtb _ _)).trans (Part.aside_updSlot _ _)

theorem classify_aside (p : Part) (i : SlotId) : p.Aside i (p.classify i) := by
  cases hl : (p.slot i).lastReply with
  | none =>
    have e : p.classify i = p := by simp only [Part.classify, hl]
    exact e.symm ▸ Part.Aside.refl p
  | some r =>
    by_cases hr : (p.slot i).noReboot r = true
    · cases hh : (p.slot i).hold with
      | true =>
        obtain ⟨q, he, -, -, e⟩ := enterHeldClearing_spec (p := p.treat (moveFate .live .suspended) i) (i := i)
        rw [classify_held hl hr hh, e]
        exact ((Part.aside_onCtb p _).trans he.aside).trans (Part.aside_arbitrate q _)
      | false =>
        obtain ⟨q, he, -, -, e⟩ := enterAuditing_spec (p := p) (i := i)
        rw [classify_auditing hl hr hh, e]
        exact he.aside.trans (Part.aside_arbitrate q _)
    · rw [classify_reboot hl hr]
      exact (darkReboot_aside p i _).trans (identityCheck_aside _ i)

theorem recoverSlot_up (hs : (p.slot i).state ≠ .dark) : p.recoverSlot i = p := if_neg hs

theorem recoverSlot_silent (hs : (p.slot i).state = .dark) (hl : (p.slot i).lastReply = none) :
    p.recoverSlot i = p.updSlot i fun x => { x with bootTimer := some p.cfg.bus.boot } := by
  simp only [Part.recoverSlot, hs, hl, if_true]

theorem recoverSlot_classified {r : LastReply} (hs : (p.slot i).state = .dark) (hl : (p.slot i).lastReply = some r) :
    p.recoverSlot i = p.classify i := by
  simp only [Part.recoverSlot, hs, hl, if_true]

theorem recoverSlot_aside (i : SlotId) (p : Part) : p.Aside i (p.recoverSlot i) := by
  by_cases hs : (p.slot i).state = .dark
  · cases hl : (p.slot i).lastReply with
    | none => exact recoverSlot_silent hs hl ▸ Part.aside_updSlot p _
    | some r => exact recoverSlot_classified hs hl ▸ classify_aside p i
  · exact (recoverSlot_up hs).symm ▸ Part.Aside.refl p

/-- A classified slot whose last reply shows no reboot (R60). -/
theorem classify_state {r : LastReply} (hl : (p.slot i).lastReply = some r) (hr : (p.slot i).noReboot r = true) :
    ((p.classify i).slot i).state = if (p.slot i).hold then .held else .auditing := by
  cases hh : (p.slot i).hold with
  | true =>
    obtain ⟨q, -, hx, -, e⟩ := enterHeldClearing_spec (p := p.treat (moveFate .live .suspended) i) (i := i)
    rw [classify_held hl hr hh, e, arbitrate_state, hx]
    rfl
  | false =>
    obtain ⟨q, -, hx, -, e⟩ := enterAuditing_spec (p := p) (i := i)
    rw [classify_auditing hl hr hh, e, arbitrate_state, hx]
    rfl

/-- The identity check on a card seen leads to ALIGNING or MISMATCH, and leaves the boot count (R62). -/
theorem identityCheck_outcome {seen : CardSeen} (hs : (p.slot i).cardSeen = some seen) :
    ((p.identityCheck i).slot i).state ∈ [.aligning, .mismatch] ∧
      ((p.identityCheck i).slot i).bootCount = (p.slot i).bootCount := by
  have aligns (h : (p.slot i).identity = some seen.card ∨
      (p.slot i).identity = none ∧ p.ctb.fitsChannels i (p.cfg.profiles[seen.card.type]).channels = true) :
      ((p.identityCheck i).slot i).state ∈ [.aligning, .mismatch] ∧
        ((p.identityCheck i).slot i).bootCount = (p.slot i).bootCount := by
    obtain ⟨q, -, hx, -, e⟩ := identityCheck_aligns hs h
    obtain ⟨_, _, _, _, _, hg⟩ := granted_arbitrate (p := q) (g := segOf i) (j := i)
    rw [e, hg, hx]
    exact ⟨List.mem_cons_self .., rfl⟩
  have mismatches (h : (∃ c, (p.slot i).identity = some c ∧ c ≠ seen.card) ∨
      (p.slot i).identity = none ∧ p.ctb.fitsChannels i (p.cfg.profiles[seen.card.type]).channels = false) :
      ((p.identityCheck i).slot i).state ∈ [.aligning, .mismatch] ∧
        ((p.identityCheck i).slot i).bootCount = (p.slot i).bootCount := by
    obtain ⟨-, hx, -⟩ := identityCheck_mismatches hs h
    rw [hx]
    exact ⟨List.mem_cons_of_mem _ (List.mem_cons_self ..), rfl⟩
  cases hid : (p.slot i).identity with
  | none =>
    cases hf : p.ctb.fitsChannels i (p.cfg.profiles[seen.card.type]).channels with
    | true => exact aligns (.inr ⟨hid, hf⟩)
    | false => exact mismatches (.inr ⟨hid, hf⟩)
  | some c =>
    by_cases hc : c = seen.card
    · exact aligns (.inl (by rw [hid, hc]))
    · exact mismatches (.inl ⟨c, hid, hc⟩)

/-- A classified slot whose last reply shows a reboot (R60, R62). -/
theorem classify_rebooted {r : LastReply} {seen : CardSeen} (hl : (p.slot i).lastReply = some r)
    (hs : (p.slot i).cardSeen = some seen) (hr : ¬(p.slot i).noReboot r = true) :
    ((p.classify i).slot i).state ∈ [.aligning, .mismatch] ∧ ((p.classify i).slot i).bootCount = r.bootCount := by
  rw [classify_reboot hl hr]
  obtain ⟨hst, hb⟩ := identityCheck_outcome (p := p.darkReboot i r.bootCount) (by rw [slot_darkReboot]; exact hs)
  exact ⟨hst, hb.trans (by rw [slot_darkReboot])⟩

/-! ### Signal loss, and the settle timer's expiry (R117, R126, R128, R133, R143, R163) -/

/-- The part as the monitor tells the other blocks of RECOVERY (R126, R128, R143). -/
def Part.beginRecovery (p : Part) : Part :=
  let p := (p.onSpm fun m =>
    { m with state := .recovery, settle := .stopped, recoveryTime := 0, recoveryRunning := true }).raise .supplyBack
  if p.spm.deep then p.onFbu fun f => { f with ceiling := p.cfg.budget.rampStart } else p

theorem enterRecovery_eq :
    p.enterRecovery = ({ p.beginRecovery.eachSlot Part.recoverSlot with running := true } : Part).follow := rfl

theorem beginRecovery_eq : p.beginRecovery = { p with
    spm := { p.spm with state := .recovery, settle := .stopped, recoveryTime := 0, recoveryRunning := true }
    fbu := { p.fbu with ceiling :=
      if p.spm.deep then p.cfg.budget.limit * p.cfg.budget.start / 16 else p.fbu.ceiling }
    linkA := p.linkA.raise .supplyBack
    linkB := p.linkB.raise .supplyBack } := by
  have hd : ((p.onSpm fun m => { m with
    state := .recovery, settle := .stopped, recoveryTime := 0, recoveryRunning := true }).raise .supplyBack).spm.deep =
      p.spm.deep := rfl
  simp only [Part.beginRecovery, hd]
  by_cases h : p.spm.deep = true
  · rw [if_pos h, if_pos h]
    rfl
  · rw [if_neg h, if_neg h]
    rfl

theorem signalLoss_none (h : p.spm.signalTimer = none) : p.signalLoss = p := by simp [Part.signalLoss, h]

theorem signalLoss_some (h : p.spm.signalTimer.isSome = true) : p.signalLoss =
    (p.onSpm fun m => { m with lost := true, signalTimer := none, settle := m.settle.hold }).raise .supplySignal :=
  if_pos h

theorem settleExpiry_running {left : Nat} (hs : p.spm.state = .settling) (ht : p.spm.settle = .running left) :
    p.settleExpiry = p.enterRecovery := if_pos ⟨hs, by rw [ht]; rfl⟩

theorem settleExpiry_stopped
    (h : p.spm.state ≠ .settling ∨ p.spm.settle = .stopped ∨ ∃ left, p.spm.settle = .held left) : p.settleExpiry = p := by
  refine if_neg fun ⟨hs, hr⟩ => ?_
  rcases h with h | h | ⟨left, h⟩
  · exact h hs
  · rw [h] at hr
    cases hr
  · rw [h] at hr
    cases hr

/-- Settles O35: at RECOVERY entry every slot has its turn, before and after which it sees grants alone. -/
theorem signalLossAndSettleExpiry : Obligations.SignalLossAndSettleExpiry := by
  refine ⟨fun s => ⟨fun h => exec_next (signalLoss_some h), fun h => exec_same (signalLoss_none h)⟩,
    fun s => ⟨fun left hs ht => ?_, fun h => exec_same (settleExpiry_stopped h)⟩⟩
  have ha := eachSlot_around (fun i q => (recoverSlot_aside i q).toAround) s.part.beginRecovery
  have hturn := eachSlot_turn recoverSlot_aside s.part.beginRecovery
  have hslot (i : SlotId) : s.part.beginRecovery.slot i = s.part.slot i := by rw [beginRecovery_eq]; rfl
  have hcfg : s.part.beginRecovery.cfg = s.part.cfg := by rw [beginRecovery_eq]
  generalize hx : s.part.beginRecovery.eachSlot Part.recoverSlot = x at ha hturn
  refine ⟨{ x with running := true }, exec_next ?_, ?_, rfl, fun l => ?_, ?_, ?_, ?_, ?_, fun i hi => ?_, fun i hi hl => ?_,
    fun i reply seen hi hl hc => ?_⟩
  · rw [Part.effect, settleExpiry_running hs ht, enterRecovery_eq, hx]
  · refine ha.spm.trans ?_
    rw [beginRecovery_eq]
  · refine ha.pending l .supplyBack ?_
    rw [beginRecovery_eq]
    cases l <;> exact isPending_raise _ _ _
  · refine ha.fbu.trans ?_
    rw [beginRecovery_eq]
  · exact ha.cfg.trans hcfg
  · refine ha.owner.trans ?_
    rw [beginRecovery_eq]
  · refine ha.capture.trans ?_
    rw [beginRecovery_eq]
  all_goals
    obtain ⟨q, hq, hbefore, hafter⟩ := hturn i
    rw [hslot] at hbefore
    obtain ⟨_, _, _, _, _, hb⟩ := hbefore
    obtain ⟨_, _, _, _, _, hf⟩ := hafter
    have hf : ({ x with running := true } : Part).slot i = _ := hf
    rw [hf]
  · rw [recoverSlot_up (by rw [hb]; exact hi), hb]
  · rw [recoverSlot_silent (by rw [hb]; exact hi) (by rw [hb]; exact hl), slot_updSlot_self, hb, hq.cfg, hcfg]
    exact ⟨hi, rfl⟩
  · have hl' : (q.slot i).lastReply = some reply := by rw [hb]; exact hl
    have hc' : (q.slot i).cardSeen = some seen := by rw [hb]; exact hc
    rw [recoverSlot_classified (by rw [hb]; exact hi) hl']
    intro same
    have hsame : (q.slot i).noReboot reply = true ↔ same := by
      rw [noReboot_iff hc', hb]
    refine ⟨fun h => ?_, fun h => classify_rebooted hl' hc' (mt hsame.1 h)⟩
    refine (classify_state hl' (hsame.2 h)).trans ?_
    rw [hb]

end Sys2Proof.Machine
end

section
namespace Sys2Proof.Machine

/-! ### What the entries to SAG and OUTAGE tell the other blocks (R71, R72, R123, R124) -/

variable {p q : Part} {fresh : Bool} {code : Nat}

theorem sagSlot_around (i : SlotId) (p : Part) : p.Around (p.sagSlot i) := by
  by_cases hr : (p.slot i).enable = true ∧ (p.slot i).state ≠ .dark
  · rw [sagSlot_lost hr]
    exact (darken_spec none).1.aside.toAround
  · by_cases hd : (p.slot i).state = .dark
    · rw [sagSlot_dark hd]
      exact (Part.aside_updSlot (i := i) p fun x => { x with bootTimer := none }).toAround
    · rw [sagSlot_withdrawn (by simpa [hd] using hr)]
      exact .refl p

theorem outageSlot_around (i : SlotId) (p : Part) : p.Around (p.outageSlot i) := by
  unfold Part.outageSlot
  split
  · exact (powerOff_spec rfl none).1.aside.toAround
  · exact .refl p

theorem recoveryTest_stays (h : p.spm.state ≠ .recovery) : p.recoveryTest = p := if_neg fun hd => h hd.1

/-- Outside RECOVERY what follows a change is grants, and the end of a bring-up block without a waiting slot. -/
theorem follow_eq (h : p.spm.state ≠ .recovery) : p.follow = ((p.arbitrate .l).arbitrate .r).stallCheck :=
  recoveryTest_stays (by simpa using h)

theorem follow_spm (h : p.spm.state ≠ .recovery) : p.follow.spm = p.spm := by simp [follow_eq h]

theorem follow_link (h : p.spm.state ≠ .recovery) (l : Link) : p.follow.link l = p.link l := by simp [follow_eq h]

theorem follow_ceiling : p.follow.fbu.ceiling = p.fbu.ceiling := by simp [Part.follow]

theorem follow_load : p.follow.fbu.load = p.fbu.load := by simp [Part.follow]

theorem follow_bringUp (h : p.fbu.bringUp = .clear) : p.follow.fbu.bringUp = .clear := by
  simp only [Part.follow, recoveryTest_fbu, Part.stallCheck]
  split
  · rfl
  · simpa using h

theorem beginSag_state : (p.beginSag fresh).spm.state = .sag := by cases fresh <;> rfl

/-- SAG entry but for the slots, the queues and the records, which `treatmentsAtSupplyEntries` has (R123). -/
structure Part.SagTold (fresh : Bool) (p q : Part) : Prop where
  spm : q.spm = (p.beginSag fresh).spm
  link : ∀ l, q.link l = (p.beginSag fresh).link l
  ceiling : q.fbu.ceiling = p.fbu.ceiling
  stalls : q.fbu.bringUp = .clear ∧ q.fbu.load = .clear
  running : q.running = false
  cfg : q.cfg = p.cfg

theorem enterSag_told (p : Part) (fresh : Bool) : p.SagTold fresh (p.enterSag fresh) := by
  have ha := eachSlot_around sagSlot_around (p.beginSag fresh)
  have hlink := (stripped_sag (p := p) fresh).2
  unfold Part.enterSag
  generalize (p.beginSag fresh).eachSlot Part.sagSlot = x at ha hlink
  have hs : (({ x with running := false } : Part).onFbu fun f =>
      { f with bringUp := .clear, load := .clear }).spm.state ≠ .recovery := by
    show x.spm.state ≠ .recovery
    rw [ha.spm, beginSag_state]
    decide
  constructor
  · rw [follow_spm hs]
    exact ha.spm
  · intro l
    rw [follow_link hs, ← hlink l]
    cases l <;> rfl
  · rw [follow_ceiling, ← beginSag_fbu p fresh, ← ha.fbu]
    rfl
  · exact ⟨follow_bringUp rfl, follow_load⟩
  · rw [follow_running]
    rfl
  · rw [follow_cfg, ← beginSag_cfg p fresh]
    exact ha.cfg

/-- OUTAGE entry but for the slots, the queues and the records (R124, R131). -/
structure Part.OutageTold (p q : Part) : Prop where
  spm : q.spm = { p.spm with state := .outage, deep := true }
  link : ∀ l, q.link l = (p.link l).raise .supplyOutage
  ceiling : q.fbu.ceiling = 0
  bringUp : p.fbu.bringUp = .clear → q.fbu.bringUp = .clear
  load : q.fbu.load = p.fbu.load
  running : q.running = p.running

theorem enterOutage_told (p : Part) : p.OutageTold p.enterOutage := by
  have ha := eachSlot_around outageSlot_around p.beginOutage
  have hlink := (stripped_outage (p := p)).2
  have e : p.enterOutage = ((p.beginOutage.eachSlot Part.outageSlot).onFbu fun f => { f with ceiling := 0 }).follow := rfl
  rw [e]
  generalize p.beginOutage.eachSlot Part.outageSlot = x at ha hlink
  have hs : (x.onFbu fun f => { f with ceiling := 0 }).spm.state ≠ .recovery := by
    show x.spm.state ≠ .recovery
    rw [ha.spm]
    exact nofun
  constructor
  · rw [follow_spm hs]
    exact ha.spm
  · intro l
    rw [follow_link hs, link_onFbu, hlink l]
    exact link_raise _ _
  · rw [follow_ceiling]
    rfl
  · intro h
    refine follow_bringUp ?_
    rw [onFbu_fbu, ha.fbu]
    exact h
  · rw [follow_load, onFbu_fbu, ha.fbu]
    rfl
  · rw [follow_running]
    exact ha.running

/-! ### The SAG rule (R124) -/

theorem sagRule_cut (h : p.cfg.supply.nCut ≤ p.spm.cut) : p.sagRule = p.enterOutage := if_pos h

theorem sagRule_rise (h : ¬p.cfg.supply.nCut ≤ p.spm.cut) (hr : p.cfg.supply.nRest ≤ p.spm.rest) :
    p.sagRule = p.enterSettling := by rw [Part.sagRule, if_neg h, if_pos hr]

theorem sagRule_stay (h : ¬p.cfg.supply.nCut ≤ p.spm.cut) (hr : ¬p.cfg.supply.nRest ≤ p.spm.rest) :
    p.sagRule = p := by rw [Part.sagRule, if_neg h, if_neg hr]

/-- What the SAG rule keeps, wherever it takes the supply state. -/
structure Part.RuleKeeps (p q : Part) : Prop where
  avg16 : q.spm.avg16 = p.spm.avg16
  dip : q.spm.dip = p.spm.dip
  cut : q.spm.cut = p.spm.cut
  rest : q.spm.rest = p.spm.rest
  episodes : q.spm.episodes = p.spm.episodes
  recoveryTime : q.spm.recoveryTime = p.spm.recoveryTime
  recoveryRunning : q.spm.recoveryRunning = p.spm.recoveryRunning
  running : q.running = p.running
  bringUp : p.fbu.bringUp = .clear → q.fbu.bringUp = .clear
  load : q.fbu.load = p.fbu.load
  pending : ∀ l n, n ≠ .supplyOutage → (q.link l).isPending n = (p.link l).isPending n

theorem sagRule_keeps (p : Part) : p.RuleKeeps p.sagRule := by
  unfold Part.sagRule
  split
  · have h := enterOutage_told p
    refine ⟨by rw [h.spm], by rw [h.spm], by rw [h.spm], by rw [h.spm], by rw [h.spm], by rw [h.spm], by rw [h.spm], h.running,
      h.bringUp, h.load, fun l n hn => ?_⟩
    rw [h.link, isPending_raise, decide_eq_false hn, Bool.false_or]
  · split <;> exact ⟨rfl, rfl, rfl, rfl, rfl, rfl, rfl, rfl, fun h => h, rfl, fun _ _ _ => rfl⟩

theorem sagRule_state (hs : p.spm.state = .sag) : p.sagRule.spm.state ≠ .recovery := by
  unfold Part.sagRule
  split
  · rw [(enterOutage_told p).spm]
    exact nofun
  · split
    · exact nofun
    · rw [hs]
      decide

/-! ### A sample (R116, R117, R139) -/

/-- The part once a sample has been heard and measured, but for the start of the settle timer (R116, R117). -/
def Part.measured (code : Nat) (p : Part) : Part := p.onSpm fun m => m.hear.measure p.cfg.supply code

/-- The part to which a sample's state rule is applied: the first sample after a warm reset has started the settle timer (R139). -/
def Part.heard (code : Nat) (p : Part) : Part :=
  (p.measured code).onSpm fun m => { m with settle :=
    if p.spm.avg16 = none ∧ p.spm.state = .settling then .running p.cfg.supply.settle else p.spm.settle.resume }

theorem measure_startSettle (c : SupplyCfg) (m : Spm) : (m.hear.startSettle c).measure c code =
    { m.hear.measure c code with settle :=
      if m.avg16 = none ∧ m.state = .settling then .running c.settle else m.settle.resume } := by
  unfold Spm.startSettle
  by_cases h : m.avg16 = none ∧ m.state = .settling
  · rw [if_pos (show m.hear.avg16 = none ∧ m.hear.state = .settling from h), if_pos h]
    rfl
  · rw [if_neg (show ¬(m.hear.avg16 = none ∧ m.hear.state = .settling) from h), if_neg h]
    rfl

theorem sample_eq : p.sample code =
    if p.spm.lost = true then (p.heard code).supplyRule.recoveryTest else (p.heard code).supplyRule := by
  have e : (p.onSpm fun m => (m.hear.startSettle p.cfg.supply).measure p.cfg.supply code) = p.heard code := by
    simp only [Part.onSpm, measure_startSettle]
    rfl
  simp only [Part.sample, e]

/-- A SAG entry stops the settle timer, whatever the sample did to it (log 28). -/
theorem enterSag_heard : (p.heard code).enterSag fresh = (p.measured code).enterSag fresh := by
  have e : (p.heard code).beginSag fresh = (p.measured code).beginSag fresh := by cases fresh <;> rfl
  rw [Part.enterSag, e, Part.enterSag]

theorem supplyRule_stay (hs : p.spm.state = .normal ∨ p.spm.state = .recovery ∨ p.spm.state = .settling)
    (hd : ¬p.cfg.supply.nDip ≤ p.spm.dip) : p.supplyRule = p := by
  rcases hs with hs | hs | hs <;> simp only [Part.supplyRule, hs, if_neg hd]

theorem supplyRule_dip (hs : p.spm.state = .normal ∨ p.spm.state = .recovery) (hd : p.cfg.supply.nDip ≤ p.spm.dip) :
    p.supplyRule = (p.enterSag true).sagRule := by
  rcases hs with hs | hs <;> simp only [Part.supplyRule, hs, if_pos hd]

theorem supplyRule_redip (hs : p.spm.state = .settling) (hd : p.cfg.supply.nDip ≤ p.spm.dip) :
    p.supplyRule = (p.enterSag false).sagRule := by simp only [Part.supplyRule, hs, if_pos hd]

theorem supplyRule_sag (hs : p.spm.state = .sag) : p.supplyRule = p.sagRule := by simp only [Part.supplyRule, hs]

theorem supplyRule_outage (hs : p.spm.state = .outage) :
    p.supplyRule = if p.cfg.supply.nRest ≤ p.spm.rest then p.enterSettling else p := by simp only [Part.supplyRule, hs]

/-- A sample whose rule leads elsewhere than to RECOVERY makes no recovery-complete test that could pass. -/
theorem sample_of_rule (h : (p.heard code).supplyRule.spm.state ≠ .recovery) : p.sample code = (p.heard code).supplyRule := by
  rw [sample_eq, recoveryTest_stays h, ite_self]

/-- The average and the three counters of a part. -/
def Part.figures (p : Part) : Option Nat × Nat × Nat × Nat := (p.spm.avg16, p.spm.dip, p.spm.cut, p.spm.rest)

theorem figures_sagRule : p.sagRule.figures = p.figures := by
  have h := sagRule_keeps p
  simp only [Part.figures, h.avg16, h.dip, h.cut, h.rest]

theorem figures_enterSag : (p.enterSag fresh).figures = p.figures := by
  rw [Part.figures, (enterSag_told p fresh).spm]
  cases fresh <;> rfl

theorem figures_supplyRule : p.supplyRule.figures = p.figures := by
  unfold Part.supplyRule
  split
  · split
    · rw [figures_sagRule, figures_enterSag]
    · rfl
  · split
    · rw [figures_sagRule, figures_enterSag]
    · rfl
  · exact figures_sagRule
  · split <;> rfl
  · split
    · rw [figures_sagRule, figures_enterSag]
    · rfl

theorem figures_recoveryTest : p.recoveryTest.figures = p.figures := by
  unfold Part.recoveryTest
  split <;> rfl

theorem figures_sample : (p.sample code).figures = (p.measured code).figures := by
  rw [sample_eq]
  split
  · rw [figures_recoveryTest, figures_supplyRule]
    rfl
  · rw [figures_supplyRule]
    rfl

theorem sample_stays (hs : p.spm.state = .normal ∨ p.spm.state = .recovery ∧ p.spm.lost = false ∨ p.spm.state = .settling)
    (hd : ¬p.cfg.supply.nDip ≤ (p.heard code).spm.dip) : p.sample code = p.heard code := by
  have hrule (h : (p.heard code).spm.state = .normal ∨ (p.heard code).spm.state = .recovery ∨
      (p.heard code).spm.state = .settling) : (p.heard code).supplyRule = p.heard code := supplyRule_stay h hd
  rcases hs with hs | ⟨hs, hl⟩ | hs
  · have e := hrule (.inl hs)
    rw [sample_of_rule, e]
    rw [e, show (p.heard code).spm.state = _ from hs]
    decide
  · rw [sample_eq, if_neg (by rw [hl]; decide), hrule (.inr (.inl hs))]
  · have e := hrule (.inr (.inr hs))
    rw [sample_of_rule, e]
    rw [e, show (p.heard code).spm.state = _ from hs]
    decide

/-- A sample whose rule enters SAG (R123, R125). -/
theorem sample_sagEntry
    (h : (p.heard code).supplyRule = ((p.heard code).enterSag fresh).sagRule) :
    p.sample code = ((p.measured code).enterSag fresh).sagRule := by
  rw [sample_of_rule, h, enterSag_heard]
  rw [h]
  refine sagRule_state ?_
  rw [(enterSag_told _ _).spm, beginSag_state]

/-- A sample in SAG. -/
theorem sample_sag (hs : p.spm.state = .sag) : p.sample code = (p.measured code).sagRule := by
  have e : p.heard code = p.measured code := by
    unfold Part.heard
    rw [if_neg (by rw [hs]; exact fun h => nomatch h.2)]
    rfl
  have hs' : (p.heard code).spm.state = .sag := hs
  rw [sample_of_rule, supplyRule_sag hs', e]
  rw [supplyRule_sag hs']
  exact sagRule_state hs'

theorem sample_outage (hs : p.spm.state = .outage) : p.sample code =
    if p.cfg.supply.nRest ≤ (p.heard code).spm.rest then (p.heard code).enterSettling else p.heard code := by
  have hs' : (p.heard code).spm.state = .outage := hs
  rw [sample_of_rule, supplyRule_outage hs']
  · rfl
  · rw [supplyRule_outage hs']
    split
    · exact nofun
    · rw [hs']
      decide

theorem noneRecovering_iff : p.noneRecovering = true ↔ ∀ i, ¬((p.slot i).state ∈ [.dark, .aligning, .auditing, .relinking] ∨
    (p.slot i).state = .off ∧ (p.slot i).parked = false) := by
  simp only [Part.noneRecovering, List.all_eq_true, allSlots, List.mem_finRange, true_implies, Slot.recovering]
  refine forall_congr' fun i => ?_
  cases (p.slot i).state <;> simp

/-- The part of RECOVERY given way to NORMAL (R127). -/
def Part.recovered (p : Part) : Part :=
  (p.onSpm fun m => { m with state := .normal, recoveryRunning := false }).raise .recoveryDone

/-- The recovery-complete test of a sample that ends a signal loss (R117, R127). -/
theorem sample_lost (hs : p.spm.state = .recovery) (hl : p.spm.lost = true)
    (hd : ¬p.cfg.supply.nDip ≤ (p.heard code).spm.dip) : p.sample code =
      if p.fbu.ceiling = p.cfg.budget.limit ∧ p.noneRecovering = true then (p.heard code).recovered
      else p.heard code := by
  have hs' : (p.heard code).spm.state = .recovery := hs
  rw [sample_eq, if_pos hl, supplyRule_stay (.inr (.inl hs')) hd, Part.recoveryTest]
  by_cases h : p.fbu.ceiling = p.cfg.budget.limit ∧ p.noneRecovering = true
  · rw [if_pos h, if_pos ⟨hs', rfl, h⟩]
    rfl
  · rw [if_neg h, if_neg fun ⟨_, _, h'⟩ => h h']

/-- What the SAG rule makes of a part in SAG, by the cut and the rise counters (R124). -/
theorem sagRule_outcome (hs : p.spm.state = .sag) :
    (p.cfg.supply.nCut ≤ p.spm.cut → p.sagRule = p.enterOutage) ∧
    (¬p.cfg.supply.nCut ≤ p.spm.cut → p.sagRule.spm.deep = p.spm.deep ∧ p.sagRule = { p with spm := p.sagRule.spm }) ∧
    (¬p.cfg.supply.nCut ≤ p.spm.cut → p.cfg.supply.nRest ≤ p.spm.rest →
      p.sagRule.spm.state = .settling ∧ p.sagRule.spm.settle = .running p.cfg.supply.settle) ∧
    (¬p.cfg.supply.nCut ≤ p.spm.cut → ¬p.cfg.supply.nRest ≤ p.spm.rest →
      p.sagRule.spm.state = .sag ∧ p.sagRule.spm.settle = p.spm.settle) := by
  refine ⟨sagRule_cut, fun hc => ?_, fun hc hr => ?_, fun hc hr => ?_⟩
  · by_cases hr : p.cfg.supply.nRest ≤ p.spm.rest
    · rw [sagRule_rise hc hr]
      exact ⟨rfl, rfl⟩
    · rw [sagRule_stay hc hr]
      exact ⟨rfl, rfl⟩
  · rw [sagRule_rise hc hr]
    exact ⟨rfl, rfl⟩
  · rw [sagRule_stay hc hr]
    exact ⟨hs, rfl⟩

end Sys2Proof.Machine
end

section
namespace Sys2Proof.Machine

/-! ### Where a sample takes the supply state (R123 to R126, R129) -/

variable {p q : Part}

/-- A change leaves the ceiling, and whether SUPPLY_OUTAGE is pending. -/
def Part.BudgetStands (p q : Part) : Prop :=
  q.fbu.ceiling = p.fbu.ceiling ∧ ∀ l, (q.link l).isPending .supplyOutage = (p.link l).isPending .supplyOutage

theorem Part.SagTold.budgetStands {fresh : Bool} (h : p.SagTold fresh q) : p.BudgetStands q := by
  refine ⟨h.ceiling, fun l => ?_⟩
  rw [h.link, beginSag_link]
  cases fresh with
  | true => exact (isPending_raise _ _ _).trans (Bool.false_or _)
  | false => rfl

theorem Part.BudgetStands.of_measured {code : Nat} (h : (p.measured code).BudgetStands q) : p.BudgetStands q := by
  refine ⟨h.1, fun l => (h.2 l).trans ?_⟩
  cases l <;> rfl

/-- A part whose supply state is OUTAGE, as the cut rule leaves it (R124). -/
def Part.InOutage (q : Part) : Prop :=
  q.spm.state = .outage ∧ q.spm.deep = true ∧ q.fbu.ceiling = 0 ∧ ∀ l, (q.link l).isPending .supplyOutage = true

theorem Part.OutageTold.inOutage (h : p.OutageTold q) : q.InOutage := by
  refine ⟨by rw [h.spm], by rw [h.spm], h.ceiling, fun l => ?_⟩
  rw [h.link, isPending_raise]
  rfl

/-- Where the SAG rule leads from a part in SAG, by the counters it leaves (R124). -/
theorem sagRule_leads {S : Part} (hs : S.spm.state = .sag) (hcfg : S.cfg = p.cfg) (h : p.BudgetStands S) :
    (p.cfg.supply.nCut ≤ S.sagRule.spm.cut → S.sagRule.InOutage ∧ S.sagRule = S.enterOutage) ∧
    (¬p.cfg.supply.nCut ≤ S.sagRule.spm.cut →
      S.sagRule.spm.deep = S.spm.deep ∧ S.sagRule = { S with spm := S.sagRule.spm }) ∧
    (¬p.cfg.supply.nCut ≤ S.sagRule.spm.cut → p.cfg.supply.nRest ≤ S.sagRule.spm.rest →
      S.sagRule.spm.state = .settling ∧ S.sagRule.spm.settle = .running p.cfg.supply.settle ∧ p.BudgetStands S.sagRule) ∧
    (¬p.cfg.supply.nCut ≤ S.sagRule.spm.cut → ¬p.cfg.supply.nRest ≤ S.sagRule.spm.rest →
      (S.sagRule.spm.state = .sag ∧ p.BudgetStands S.sagRule) ∧ S.sagRule.spm.settle = S.spm.settle) := by
  obtain ⟨hout, helse, hset, hsag⟩ := sagRule_outcome hs
  rw [(sagRule_keeps S).cut, (sagRule_keeps S).rest, ← hcfg]
  have hstands (hc : ¬S.cfg.supply.nCut ≤ S.spm.cut) : p.BudgetStands S.sagRule := by
    rw [(helse hc).2]
    refine ⟨h.1, fun l => (h.2 l).symm ▸ ?_⟩
    cases l <;> rfl
  exact ⟨fun hc => ⟨hout hc ▸ (enterOutage_told S).inOutage, hout hc⟩, helse,
    fun hc hr => ⟨(hset hc hr).1, (hset hc hr).2, hstands hc⟩, fun hc hr => ⟨⟨(hsag hc hr).1, hstands hc⟩, (hsag hc hr).2⟩⟩

/-- Settles O34: by the supply state and the dip counter, a sample is `Part.heard`, a SAG entry with the SAG rule, the SAG rule
alone, the OUTAGE rule, or the recovery-complete test. -/
theorem sampleMovesSupplyState : Obligations.SampleMovesSupplyState := by
  intro s code p m c
  obtain ⟨q, hq⟩ : ∃ q, q = p.sample code.toNat := ⟨_, rfl⟩
  refine ⟨q, exec_next hq.symm, ?_⟩
  intro dips cuts rises raised quiet measured elseAs darkens stays outage settling sag
  have hfig : q.figures = (p.measured code.toNat).figures := hq ▸ figures_sample
  simp only [Part.figures, Prod.mk.injEq] at hfig
  obtain ⟨havg, hdip, hcut, hrest⟩ := hfig
  have hmeasured : measured = p.measured code.toNat := by
    simp only [measured, havg, hdip, hcut, hrest, m]
    cases hm : p.spm.settle <;>
      simp only [Part.measured, Part.onSpm, Spm.measure, Spm.hear, SettleTimer.resume, Config.signalTime, hm]
  have hdips : p.cfg.supply.nDip ≤ (p.heard code.toNat).spm.dip ↔ dips := by
    show _ ↔ c.nDip ≤ q.spm.dip
    rw [hdip]
    exact Iff.rfl
  have rule (S : Part) (hS : q = S.sagRule) (hs : S.spm.state = .sag) (hcfg : S.cfg = p.cfg) (h : p.BudgetStands S) :
      (cuts → outage ∧ q = S.enterOutage) ∧ (¬cuts → q.spm.deep = S.spm.deep ∧ elseAs S) ∧
        (¬cuts → rises → settling) ∧ (¬cuts → ¬rises → sag ∧ q.spm.settle = S.spm.settle) := by
    have hleads := sagRule_leads hs hcfg h
    rw [← hS] at hleads
    exact hleads
  have entry (fresh : Bool) (hS : q = (measured.enterSag fresh).sagRule) :=
    rule (measured.enterSag fresh) hS (by rw [(enterSag_told _ _).spm, beginSag_state]) (enterSag_told _ _).cfg
      (hmeasured ▸ (enterSag_told _ _).budgetStands.of_measured)
  have hdarkens (fresh : Bool) (hS : q = (measured.enterSag fresh).sagRule) : darkens fresh := by
    obtain ⟨hout, helse, -, -⟩ := entry fresh hS
    refine ⟨fun hc => ?_, fun hc => (helse hc).2⟩
    have e := (hout hc).2
    show q = _
    rw [← e]
  have hkeeps (fresh : Bool) (hS : q = (measured.enterSag fresh).sagRule) :
      (measured.enterSag fresh).RuleKeeps q := hS ▸ sagRule_keeps _
  have hheard (h : q = p.heard code.toNat) : stays ∧ quiet .supplySag := by
    refine ⟨⟨by rw [h]; rfl, by rw [h]; rfl, by rw [h]; rfl, ?_⟩, fun l => by rw [h]; rfl⟩
    show q = { p with spm := q.spm }
    rw [h]
    rfl
  refine ⟨fun hs hd => ?quiet, fun hs hl hd => ?signalBack, fun hs hd => ?dip, fun hs => ?inSag, fun hs => ?inOutage,
    fun hs hd => ?settles, fun hs hd => ?redip⟩
  case quiet =>
    exact hheard (hq.trans (sample_stays (hs.imp_right .inl) (mt hdips.1 hd)))
  case signalBack =>
    intro recovering done
    have e := hq.trans (sample_lost hs hl (mt hdips.1 hd))
    have hdone : p.fbu.ceiling = p.cfg.budget.limit ∧ p.noneRecovering = true ↔ done :=
      and_congr_right fun _ => noneRecovering_iff
    have hyes (h : done) : q = (p.heard code.toNat).recovered := e.trans (if_pos (hdone.2 h))
    have hno (h : ¬done) : q = p.heard code.toNat := e.trans (if_neg (mt hdone.1 h))
    have hkept : q.spm.lost = false ∧ q.spm.episodes = m.episodes ∧ q.spm.deep = m.deep ∧
        q.spm.recoveryTime = m.recoveryTime ∧ quiet .supplySag := by
      by_cases h : done
      · have hlink (l : Link) : (q.link l).isPending .supplySag = (p.link l).isPending .supplySag := by
          rw [hyes h, Part.recovered, link_raise, isPending_raise]
          rfl
        exact ⟨by rw [hyes h]; rfl, by rw [hyes h]; rfl, by rw [hyes h]; rfl, by rw [hyes h]; rfl, hlink⟩
      · exact ⟨by rw [hno h]; rfl, by rw [hno h]; rfl, by rw [hno h]; rfl, by rw [hno h]; rfl, (hheard (hno h)).2⟩
    obtain ⟨hlost, hepisodes, hdeep, htime, hquiet⟩ := hkept
    refine ⟨hlost, hepisodes, hdeep, htime, hquiet, fun h => ⟨by rw [hyes h]; rfl, by rw [hyes h]; rfl, fun l => ?_, ?_⟩,
      fun h => ⟨by rw [hno h]; exact hs, by rw [hno h]; rfl, (hheard (hno h)).1.2.2.2⟩⟩
    · rw [hyes h, Part.recovered, link_raise, isPending_raise]
      rfl
    · show q = _
      rw [hyes h]
      rfl
  case dip =>
    have hS : q = (measured.enterSag true).sagRule := by
      rw [hmeasured, hq]
      exact sample_sagEntry (supplyRule_dip hs (hdips.2 hd))
    have hk := hkeeps true hS
    have ht := enterSag_told measured true
    obtain ⟨hout, helse, hset, hsag⟩ := entry true hS
    refine ⟨?_, ?_, ?_, ?_, ?_, ?_, fun l => ?_, hdarkens true hS, fun hc => (hout hc).1, fun hc => ?_, hset,
      fun hc hr => (hsag hc hr).1⟩
    · rw [hk.episodes, ht.spm]
      rfl
    · rw [hk.recoveryRunning, ht.spm]
      rfl
    · rw [hk.recoveryTime, ht.spm]
      rfl
    · rw [hk.running, ht.running]
    · exact hk.bringUp ht.stalls.1
    · rw [hk.load, ht.stalls.2]
    · rw [hk.pending l .supplySag (by decide), ht.link, beginSag_link]
      exact isPending_raise _ _ _
    · rw [(helse hc).1, ht.spm]
      rfl
  case inSag =>
    have hS : q = measured.sagRule := by rw [hmeasured, hq, sample_sag hs]
    have hk : measured.RuleKeeps q := hS ▸ sagRule_keeps _
    obtain ⟨hout, helse, hset, hsag⟩ := rule measured hS hs rfl ⟨rfl, fun l => rfl⟩
    refine ⟨hk.episodes, fun l => hk.pending l .supplySag (by decide), fun hc => ?_, helse, hset, fun hc hr => ?_⟩
    · obtain ⟨ho, e⟩ := hout hc
      refine ⟨ho, ?_⟩
      show q = _
      rw [← e]
    · exact ⟨(hsag hc hr).1.1.trans hs.symm, hk.episodes, helse hc⟩
  case inOutage =>
    have hrises : p.cfg.supply.nRest ≤ (p.heard code.toNat).spm.rest ↔ rises := by
      show _ ↔ c.nRest ≤ q.spm.rest
      rw [hrest]
      exact Iff.rfl
    have hS := hq.trans (sample_outage (code := code.toNat) hs)
    have hyes (h : rises) : q = (p.heard code.toNat).enterSettling := hS.trans (if_pos (hrises.2 h))
    have hno (h : ¬rises) : q = p.heard code.toNat := hS.trans (if_neg (mt hrises.1 h))
    have hkept : q.spm.episodes = m.episodes ∧ q.spm.deep = m.deep ∧ q = { p with spm := q.spm } := by
      by_cases h : rises
      · rw [hyes h]
        exact ⟨rfl, rfl, rfl⟩
      · rw [hno h]
        exact ⟨rfl, rfl, rfl⟩
    obtain ⟨hepisodes, hdeep, helse⟩ := hkept
    refine ⟨hepisodes, hdeep, helse, fun h => ?_, fun h => (hheard (hno h)).1⟩
    exact ⟨by rw [hyes h]; rfl, by rw [hyes h]; rfl, by rw [hyes h]; rfl, fun l => by rw [hyes h]; rfl⟩
  case settles =>
    have hS := hq.trans (sample_stays (.inr (.inr hs)) (mt hdips.1 hd))
    obtain ⟨hstays, hquiet⟩ := hheard hS
    refine ⟨hstays, hquiet, fun ha => ?_, fun left ha hset => ?_⟩
    · rw [hS]
      exact if_pos ⟨ha, hs⟩
    · rw [hS]
      refine (if_neg fun h => ha h.1).trans ?_
      show p.spm.settle.resume = _
      rcases hset with h | h <;> (rw [show p.spm.settle = _ from h]; rfl)
  case redip =>
    have hS : q = (measured.enterSag false).sagRule := by
      rw [hmeasured, hq]
      exact sample_sagEntry (supplyRule_redip hs (hdips.2 hd))
    have hk := hkeeps false hS
    have ht := enterSag_told measured false
    obtain ⟨hout, helse, hset, hsag⟩ := entry false hS
    refine ⟨?_, ?_, fun l => ?_, hdarkens false hS, fun hc => (hout hc).1, fun hc => ?_, hset,
      fun hc hr => ⟨(hsag hc hr).1, ?_⟩⟩
    · rw [hk.episodes, ht.spm]
      rfl
    · rw [hk.running, ht.running]
    · rw [hk.pending l .supplySag (by decide), ht.link, beginSag_link]
      rfl
    · rw [(helse hc).1, ht.spm]
      rfl
    · rw [(hsag hc hr).2, ht.spm]
      rfl

end Sys2Proof.Machine
end

section
namespace Sys2Proof.Machine

/-! ### Raw request bytes (R74, R182, R183, log 17) -/

variable {p : Part} {s : State} {l : Link} {g : SegId}

theorem judgeFrame_fits {code : Byte} {fields : List Byte} (hl : lengthFits code fields.length = true)
    (hn : fields.length ≤ 255) : judgeFrame 0x5A (code :: byteOf fields.length :: fields) = .request code fields := by
  have hlegal : (legalLength code).isNone = false := by
    unfold lengthFits at hl
    cases h : legalLength code with
    | none => rw [h] at hl; cases hl
    | some _ => rfl
  have hlen : ¬fields.length ≠ (byteOf fields.length).toNat := not_not_intro (byte_len hn).symm
  simp only [judgeFrame, kindRequest, ne_eq, not_true_eq_false, if_false, if_neg hlen, hlegal, hl, if_true,
    Bool.false_eq_true]

/-- The transfer of a request's frame does what the request does. -/
theorem takeTransfer_request {c : Instr} {code : Byte} {fields : List Byte} (hw : c.wellFormed = true)
    (he : encodeRequest c = some (l, code, fields)) :
    p.takeTransfer l 0x5A (code :: byteOf fields.length :: fields) = Part.effect c p := by
  obtain ⟨hl, hn, hd⟩ := decodeRequest_encodeRequest hw he
  have hk : (0x5A : Byte) ≠ kindRead := by decide
  simp only [Part.takeTransfer, if_neg hk, judgeFrame_fits hl hn, hd]
  exact runRequest_eq (by rw [he]; rfl) p

/-- The transfer of a READ does what a response read of as many bytes does. -/
theorem takeTransfer_read (bytes : List Byte) :
    p.takeTransfer l 0xA5 bytes = Part.effect (.responseRead l bytes.length) p := by
  have hk : (0xA5 : Byte) = kindRead := rfl
  have hg := goesOn_read ((p.link l).transfer.getD []) (bs := bytes) (bs' := List.replicate bytes.length 0) (by simp)
  simp only [Part.takeTransfer, hk, if_true, Part.effect, Part.sent, Instr.clocked, Part.transfer, hg]

theorem takeTransfer_noAction {slot action : Byte} (h : action.toNat ∉ [1, 2, 3, 4, 5, 6, 7, 8, 9]) :
    p.takeTransfer l 0x5A [0x30, 2, slot, action] = p.transfer l [0x5A, 0x30, 2, slot, action]
      (Part.request l true true fun p => p.refused .badField) := by
  have hk : (0x5A : Byte) ≠ kindRead := by decide
  have hj : judgeFrame 0x5A [0x30, 2, slot, action] = .request 0x30 [slot, action] :=
    judgeFrame_fits (code := 0x30) (fields := [slot, action]) rfl (by simp)
  simp only [Part.takeTransfer, if_neg hk, hj, slotAction_none h]

/-! ### Raw reply bytes (R204, log 18) -/

theorem replyOfBytes_sent (kind slot : Byte) {body : List Byte} (h : body.length ≤ 255) :
    replyOfBytes ((kind :: slot :: byteOf body.length :: body) ++
      [(kind :: slot :: byteOf body.length :: body).foldl (fun c b => c ^^^ b) 0]) = readReply kind slot body := by
  have hn : (byteOf body.length).toNat = body.length := byte_len h
  simp only [List.cons_append, replyOfBytes, hn, List.take_left, List.drop_left]
  exact if_pos rfl

theorem effect_replyBytes (kind slot : Byte) {body : List Byte} (h : body.length ≤ 255) :
    Part.effect (.malformedOrUnexpectedReply g ((kind :: slot :: byteOf body.length :: body) ++
      [(kind :: slot :: byteOf body.length :: body).foldl (fun c b => c ^^^ b) 0])) =
        Part.takeReply g (readReply kind slot body) := by
  rw [← replyOfBytes_sent kind slot h]
  rfl

theorem toNat_append_byte {n : Nat} (x : BitVec n) (y : Byte) : (x ++ y).toNat = x.toNat * 256 + y.toNat := by
  rw [BitVec.toNat_append, ← Nat.shiftLeft_add_eq_or_of_lt y.isLt, Nat.shiftLeft_eq]

theorem toNat_byteOf (n : Nat) : (byteOf n).toNat = n % 256 := BitVec.toNat_ofNat n 8

theorem word16_bytes (x : BitVec 16) : word16 (byteOf (x.toNat / 256)) (byteOf x.toNat) = x := by
  apply BitVec.eq_of_toNat_eq
  have := x.isLt
  rw [toNat_word16, toNat_byteOf, toNat_byteOf]
  omega

theorem serial_bytes (x : BitVec 32) :
    byteOf (x.toNat / 16777216) ++ byteOf (x.toNat / 65536) ++ byteOf (x.toNat / 256) ++ byteOf x.toNat = x := by
  apply BitVec.eq_of_toNat_eq
  have := x.isLt
  simp only [toNat_append_byte, toNat_byteOf]
  omega

/-- Completions read back from their bytes. -/
theorem readCompletions_bytes (cs : List WireCompletion) : readCompletions cs.length (cs.flatMap fun c =>
    [byteOf (c.handle.index.toNat / 256), byteOf c.handle.index.toNat, c.handle.gen, c.result]) = some cs := by
  induction cs with
  | nil => rfl
  | cons c cs ih =>
    simp only [List.flatMap_cons, List.cons_append, List.nil_append, List.length_cons, readCompletions, ih, Option.map_some,
      wireHandle, word16_bytes]

theorem length_completions (cs : List WireCompletion) : (cs.flatMap fun c =>
    [byteOf (c.handle.index.toNat / 256), byteOf c.handle.index.toNat, c.handle.gen, c.result]).length = 4 * cs.length := by
  induction cs with
  | nil => rfl
  | cons c cs ih =>
    simp only [List.flatMap_cons, List.length_append, ih, List.length_cons, List.length_nil]
    omega

theorem readPoll_bytes (w : WirePoll) (h : w.completions.length ≤ 61) : readPoll w.slot
    ([w.phase, w.bootCount, w.cardType, byteOf (w.serial.toNat / 16777216), byteOf (w.serial.toNat / 65536),
      byteOf (w.serial.toNat / 256), byteOf w.serial.toNat, w.depth, w.fatal, byteOf w.completions.length] ++
      w.completions.flatMap fun c =>
        [byteOf (c.handle.index.toNat / 256), byteOf c.handle.index.toNat, c.handle.gen, c.result]) = some w := by
  have hn : (byteOf w.completions.length).toNat = w.completions.length := byte_len (by omega)
  simp only [List.cons_append, List.nil_append, readPoll, hn, readCompletions_bytes, Option.map_some, serial_bytes]

theorem numberOf_two (n : BitVec 16) : numberOf [byteOf (n.toNat / 256), byteOf n.toNat] = n.toNat := by
  have := n.isLt
  simp only [numberOf, List.foldl_cons, List.foldl_nil, toNat_byteOf]
  omega

theorem numberOf_three (x : BitVec 24) :
    numberOf [byteOf (x.toNat / 65536), byteOf (x.toNat / 256), byteOf x.toNat] = x.toNat := by
  have := x.isLt
  simp only [numberOf, List.foldl_cons, List.foldl_nil, toNat_byteOf]
  omega

theorem numberOf_four (x : BitVec 32) : numberOf [byteOf (x.toNat / 16777216), byteOf (x.toNat / 65536),
    byteOf (x.toNat / 256), byteOf x.toNat] = x.toNat := by
  have := x.isLt
  simp only [numberOf, List.foldl_cons, List.foldl_nil, toNat_byteOf]
  omega

theorem readReply_poll (slot : Byte) (body : List Byte) :
    readReply 0x81 slot body = (readPoll slot body).bind pollReplyOf := rfl

theorem readReply_digest (slot c1 c0 x2 x1 x0 y3 y2 y1 y0 : Byte) : readReply 0x84 slot [c1, c0, x2, x1, x0, y3, y2, y1, y0] =
    digestReplyOf slot (numberOf [c1, c0]) (numberOf [x2, x1, x0]) (numberOf [y3, y2, y1, y0]) := rfl

/-- Commands that do the same to the part do the same. -/
theorem exec_congr {c d : Instr} (h : Part.effect c s.part = Part.effect d s.part) : exec c s = exec d s := by
  rw [exec_eq, exec_eq, State.lift, State.lift, h]

/-- Settles O7: the bytes decode to the command, whose own change of the part they then make. -/
theorem rawBytesRunTheirCommand : Obligations.RawBytesRunTheirCommand := by
  refine ⟨fun s c l code fields hw he => exec_congr (takeTransfer_request hw he),
    fun s l bytes => exec_congr (takeTransfer_read bytes), fun s l slot action hl ha hf => exec_next ?_, fun s g slot => ?_⟩
  · have hg := hf l _ rfl
    rw [Part.effect, takeTransfer_noAction ha, transfer_read hl.1.2 hg, request_run hl.1 fun _ => hl.2]
    rfl
  · intro sent
    refine ⟨fun w hw hn => exec_congr ?_, exec_congr ?_, fun r => exec_congr ?_, fun n x y => exec_congr ?_⟩
    · subst hw
      rw [effect_replyBytes _ _ (by
        rw [List.length_append, length_completions]
        simp only [List.length_cons, List.length_nil]
        omega), readReply_poll, readPoll_bytes w hn]
      rfl
    · rw [effect_replyBytes _ _ (by simp)]
      rfl
    · rw [effect_replyBytes _ _ (by simp)]
      rfl
    · rw [effect_replyBytes _ _ (by simp), readReply_digest, numberOf_two, numberOf_three, numberOf_four]
      rfl

end Sys2Proof.Machine
end

section
/-! Every operation of the part keeps the laws of the links, the capture, the queues and their arbiters, and so every step does
(O58). -/

namespace Sys2Proof.Machine

variable {p q : Part} {i j : SlotId} {g : SegId} {c : Category}

/-! ### One grant (R91, R92, R93, R95) -/

theorem eligible_iff {x : Slot} : x.eligible c = true ↔
    match c with
    | .engine => ∃ e, x.engine = some e ∧ e.place = .waiting
    | .drop => x.waitingDrops ≠ [] ∧ x.inflight.length < x.window
    | .poll => x.pollDue = true := by
  cases c with
  | engine => cases h : x.engine <;> simp [Slot.eligible, h]
  | drop =>
    simp only [Slot.eligible, Bool.and_eq_true, Bool.not_eq_true', List.isEmpty_eq_false_iff, decide_eq_true_eq]
    rfl
  | poll => rfl

/-- What a grant of a category makes of the eligible slot `x`, and the frame it puts into the queue (R92, R93, R94, R95). -/
def Slot.Produces (b : BusCfg) (x : Slot) (c : Category) (y : Slot) (f : Frame) : Prop :=
  match c with
  | .engine => x.engine.map Engine.frame = some f ∧ y.engine = x.engine.map fun e => { e with place := .queued }
  | .drop => ∃ h rest, x.waitingDrops = h :: rest ∧ f = .drop h ∧ y.waitingDrops = rest ∧
      y.inflight = x.inflight ++ [⟨.drop, h, b.completion, false⟩]
  | .poll => f = .poll ∧ y.pollDue = false

/-- A grant to an eligible slot changes that slot and puts its frame at the tail of its segment's queue. -/
theorem grant_eligible (he : (p.slot i).eligible c = true) :
    ∃ y f, p.grant i c = (p.setSlot i y).enqueue i f ∧ (p.slot i).Produces p.cfg.bus c y f := by
  have hw := eligible_iff.1 he
  cases c with
  | engine =>
    obtain ⟨e, hx, -⟩ := hw
    refine ⟨_, e.frame, by simp only [Part.grant, hx]; rfl, ?_, ?_⟩ <;> simp [hx]
  | drop =>
    obtain ⟨h, rest, hd⟩ := List.exists_cons_of_ne_nil hw.1
    refine ⟨_, .drop h, by
      simp only [Part.grant, hd, setInflight_eq, updSlot_eq, slot_setSlot_self, setSlot_setSlot]; rfl, h, rest, hd, rfl, rfl, rfl⟩
  | poll => exact ⟨_, .poll, rfl, rfl, rfl⟩

theorem queue_grant (he : (p.slot i).eligible c = true) :
    ∃ f, ((p.grant i c).seg (segOf i)).queue = (p.seg (segOf i)).queue ++ [⟨i, f⟩] := by
  obtain ⟨y, f, e, -⟩ := grant_eligible he
  exact ⟨f, by rw [e, seg_enqueue, if_pos rfl, seg_setSlot]⟩

@[simp] theorem queue_setPtr (x : Segment) : (x.setPtr c i).queue = x.queue := by cases c <;> rfl

/-- A grant fills one place. -/
theorem length_grantOne (h : p.grantOne g = some q) : (q.seg g).queue.length = (p.seg g).queue.length + 1 := by
  obtain ⟨c, i, rfl, he, rfl⟩ := of_grantOne h
  obtain ⟨f, hf⟩ := queue_grant he
  rw [seg_updSeg_self, queue_setPtr, hf, List.length_append, List.length_singleton]

/-! ### The end of the grants (R91) -/

/-- No place of a segment's queue is free, or none of its slots is an eligible producer. -/
def Part.Settled (g : SegId) (p : Part) : Prop :=
  16 ≤ (p.seg g).queue.length ∨ ∀ i, segOf i = g → ∀ c, (p.slot i).eligible c = false

theorem arbiterLaw_iff : p.ArbiterLaw ↔ ∀ g, p.Settled g := by
  refine forall_congr' fun g => ?_
  rw [Part.Settled, ← Nat.not_lt]
  exact Decidable.imp_iff_not_or

/-- With as many grants to make as places are free, the segment is settled. -/
theorem settled_grants {n : Nat} (hn : 16 ≤ (p.seg g).queue.length + n) : (Part.grants g n p).Settled g := by
  induction n generalizing p with
  | zero => exact .inl hn
  | succ n ih =>
    rw [Part.grants]
    split
    · split
      · exact .inr (grantOne_none.1 ‹_›)
      · have := length_grantOne ‹_›
        exact ih (by omega)
    · exact .inl (Nat.not_lt.1 ‹_›)

theorem settled_arbitrate : (p.arbitrate g).Settled g := settled_grants (Nat.le_add_left ..)

/-- Grants on one segment leave the other as settled as it was. -/
theorem Part.Settled.arbitrate {k : SegId} (h : p.Settled k) : (p.arbitrate g).Settled k := by
  by_cases hk : k = g
  · exact hk ▸ settled_arbitrate
  · unfold Part.Settled
    rw [seg_arbitrate hk]
    refine h.imp_right fun h i hi c => ?_
    rw [slot_arbitrate (hi.trans_ne hk)]
    exact h i hi c

theorem arbiterLaw_arbitrated : ((p.arbitrate .l).arbitrate .r).ArbiterLaw :=
  arbiterLaw_iff.2 fun
    | .l => settled_arbitrate.arbitrate
    | .r => settled_arbitrate

/-- The arbiter's law reads the queues and what the slots have to send. -/
theorem arbiterLaw_of_eligible (h : p.ArbiterLaw) (hg : ∀ g, (p.seg g).queue.length ≤ (q.seg g).queue.length)
    (hs : ∀ i c, (q.slot i).eligible c = true → (p.slot i).eligible c = true) : q.ArbiterLaw := fun g hl i hi c =>
  Bool.eq_false_iff.2 fun he => Bool.eq_false_iff.1 (h g ((hg g).trans_lt hl) i hi c) (hs i c he)

theorem arbiterLaw_congr (hg : ∀ g, (q.seg g).queue = (p.seg g).queue) (hs : ∀ i, q.slot i = p.slot i) :
    q.ArbiterLaw ↔ p.ArbiterLaw := by
  simp only [Part.ArbiterLaw, hg, hs]

theorem arbiterLaw_follow : p.follow.ArbiterLaw := by
  refine (arbiterLaw_congr (p := (p.arbitrate .l).arbitrate .r) ?_ ?_).2 arbiterLaw_arbitrated
  · simp [Part.follow]
  · simp [Part.follow]

end Sys2Proof.Machine
end

section
namespace Sys2Proof.Machine

variable {p q : Part} {i j : SlotId} {g : SegId} {st : SlotState}

/-! ### What holds inside a change, before its grants -/

/-- The laws of the links, the capture and the queues, without the arbiters': these hold also inside a change, where a place
may stand free beside an eligible producer until the grants that follow (R91). -/
structure Part.MidwayLaw (p : Part) : Prop where
  claim : p.ClaimLaw
  transfers : p.TransferLaw
  capture : p.CaptureLaw
  queue : p.QueueLaw

theorem linksAndBusLaw_iff : p.LinksAndBusLaw ↔ p.MidwayLaw ∧ p.ArbiterLaw :=
  ⟨fun h => ⟨⟨h.claim, h.transfers, h.capture, h.queue⟩, h.arbiter⟩,
    fun ⟨h, ha⟩ => ⟨h.claim, h.transfers, h.capture, h.queue, ha⟩⟩

theorem Part.LinksAndBusLaw.midway (h : p.LinksAndBusLaw) : p.MidwayLaw := (linksAndBusLaw_iff.1 h).1

/-- The law of one link's transfer (R181, R182, R183). -/
def LinkRec.TransferLaw (x : LinkRec) : Prop :=
  (x.lost = true → x.transfer = none) ∧ (x.transfer.isSome = true → x.dataOut ≠ [])

/-- A link's claim and its transfer stand. -/
def LinkRec.Stands (x y : LinkRec) : Prop :=
  y.claim = x.claim ∧ y.lost = x.lost ∧ y.transfer = x.transfer ∧ y.dataOut = x.dataOut

theorem LinkRec.Stands.rfl {x : LinkRec} : x.Stands x := ⟨Eq.refl _, Eq.refl _, Eq.refl _, Eq.refl _⟩

theorem raise_stands (x : LinkRec) (n : Notice) : x.Stands (x.raise n) := ⟨rfl, rfl, rfl, rfl⟩

theorem slotChanged_stands (x : LinkRec) : x.Stands (x.slotChanged i) := ⟨rfl, rfl, rfl, rfl⟩

theorem midway_congr (ho : q.owner = p.owner) (hc : q.capture = p.capture) (hl : ∀ l, (p.link l).Stands (q.link l))
    (hg : ∀ g, (q.seg g).queue = (p.seg g).queue) : q.MidwayLaw ↔ p.MidwayLaw := by
  have claim : q.ClaimLaw ↔ p.ClaimLaw := forall_congr' fun l => by rw [(hl l).1, ho]
  have transfers : q.TransferLaw ↔ p.TransferLaw := forall_congr' fun l => by
    obtain ⟨-, h1, h2, h3⟩ := hl l
    rw [h1, h2, h3]
  have capture : q.CaptureLaw ↔ p.CaptureLaw := by rw [Part.CaptureLaw, hc, Part.CaptureLaw]
  have queue : q.QueueLaw ↔ p.QueueLaw := forall_congr' fun g => by rw [hg]
  exact ⟨fun h => ⟨claim.1 h.claim, transfers.1 h.transfers, capture.1 h.capture, queue.1 h.queue⟩,
    fun h => ⟨claim.2 h.claim, transfers.2 h.transfers, capture.2 h.capture, queue.2 h.queue⟩⟩

/-- What changes no slot, no queue, no claim and no transfer keeps the laws. -/
theorem linksAndBusLaw_congr (ho : q.owner = p.owner) (hc : q.capture = p.capture) (hl : ∀ l, (p.link l).Stands (q.link l))
    (hg : ∀ g, (q.seg g).queue = (p.seg g).queue) (hs : ∀ i, q.slot i = p.slot i) : q.LinksAndBusLaw ↔ p.LinksAndBusLaw := by
  rw [linksAndBusLaw_iff, linksAndBusLaw_iff, midway_congr ho hc hl hg, arbiterLaw_congr hg hs]

section

variable (f : Slot → Slot) (fate : Fate) (fc : Ctb → Ctb) (fm : Spm → Spm) (fb : Fbu → Fbu) (r : Bool) (n : Notice)

@[simp] theorem midway_setSlot (x : Slot) : (p.setSlot i x).MidwayLaw ↔ p.MidwayLaw :=
  midway_congr rfl rfl (fun l => by rw [link_setSlot]; exact .rfl) (by simp)
@[simp] theorem midway_updSlot : (p.updSlot i f).MidwayLaw ↔ p.MidwayLaw := midway_setSlot _
@[simp] theorem midway_setInflight (xs : List Txn) : (p.setInflight i xs).MidwayLaw ↔ p.MidwayLaw := midway_setSlot _
@[simp] theorem midway_mapSlots : (p.mapSlots f).MidwayLaw ↔ p.MidwayLaw :=
  midway_congr (by simp) (by simp) (fun l => by rw [link_mapSlots]; exact .rfl) (by simp)
@[simp] theorem midway_onCtb : (p.onCtb fc).MidwayLaw ↔ p.MidwayLaw := midway_congr rfl rfl (fun _ => .rfl) fun _ => rfl
@[simp] theorem midway_treat : (p.treat fate i).MidwayLaw ↔ p.MidwayLaw := midway_onCtb _
@[simp] theorem midway_onSpm : (p.onSpm fm).MidwayLaw ↔ p.MidwayLaw := midway_congr rfl rfl (fun _ => .rfl) fun _ => rfl
@[simp] theorem midway_onFbu : (p.onFbu fb).MidwayLaw ↔ p.MidwayLaw := midway_congr rfl rfl (fun _ => .rfl) fun _ => rfl
@[simp] theorem midway_running : ({ p with running := r } : Part).MidwayLaw ↔ p.MidwayLaw :=
  midway_congr rfl rfl (fun _ => .rfl) fun _ => rfl
@[simp] theorem midway_raise : (p.raise n).MidwayLaw ↔ p.MidwayLaw :=
  midway_congr rfl rfl (fun l => by rw [link_raise]; exact raise_stands _ _) (by simp)
@[simp] theorem midway_reportSlot : (p.reportSlot i).MidwayLaw ↔ p.MidwayLaw :=
  midway_congr (by simp [Part.reportSlot]) (by simp [Part.reportSlot])
    (fun l => by rw [link_reportSlot]; exact slotChanged_stands _) (by simp [Part.reportSlot])
@[simp] theorem midway_stallCheck : p.stallCheck.MidwayLaw ↔ p.MidwayLaw :=
  midway_congr (by simp) (by simp) (fun l => by rw [stallCheck_link]; exact .rfl) (by simp)
@[simp] theorem midway_recoveryTest : p.recoveryTest.MidwayLaw ↔ p.MidwayLaw := by
  unfold Part.recoveryTest
  split <;> simp
@[simp] theorem midway_rewindow : (p.rewindow i).MidwayLaw ↔ p.MidwayLaw := by
  simp [Part.rewindow]
@[simp] theorem midway_recordBoot (n : BitVec 8) : (p.recordBoot i n).MidwayLaw ↔ p.MidwayLaw := midway_updSlot _
@[simp] theorem midway_setIdentity (x : Card) : (p.setIdentity i x).MidwayLaw ↔ p.MidwayLaw := midway_updSlot _

@[simp] theorem linksAndBusLaw_onCtb : (p.onCtb fc).LinksAndBusLaw ↔ p.LinksAndBusLaw :=
  linksAndBusLaw_congr rfl rfl (fun _ => .rfl) (fun _ => rfl) fun _ => rfl
@[simp] theorem linksAndBusLaw_onSpm : (p.onSpm fm).LinksAndBusLaw ↔ p.LinksAndBusLaw :=
  linksAndBusLaw_congr rfl rfl (fun _ => .rfl) (fun _ => rfl) fun _ => rfl
@[simp] theorem linksAndBusLaw_onFbu : (p.onFbu fb).LinksAndBusLaw ↔ p.LinksAndBusLaw :=
  linksAndBusLaw_congr rfl rfl (fun _ => .rfl) (fun _ => rfl) fun _ => rfl
@[simp] theorem linksAndBusLaw_cfg (x : Settings) : ({ p with cfg := x } : Part).LinksAndBusLaw ↔ p.LinksAndBusLaw :=
  linksAndBusLaw_congr rfl rfl (fun _ => .rfl) (fun _ => rfl) fun _ => rfl
@[simp] theorem linksAndBusLaw_raise : (p.raise n).LinksAndBusLaw ↔ p.LinksAndBusLaw :=
  linksAndBusLaw_congr rfl rfl (fun l => by rw [link_raise]; exact raise_stands _ _) (by simp) (by simp)
@[simp] theorem linksAndBusLaw_recoveryTest : p.recoveryTest.LinksAndBusLaw ↔ p.LinksAndBusLaw := by
  unfold Part.recoveryTest
  split <;> simp

end

section

variable (h : p.MidwayLaw)
include h

/-- A segment whose queue keeps within its room. -/
theorem midway_updSeg {f : Segment → Segment} (hf : (f (p.seg g)).queue.length ≤ 16) : (p.updSeg g f).MidwayLaw where
  claim l := by
    rw [link_updSeg, updSeg_owner]
    exact h.claim l
  transfers l := by
    rw [link_updSeg]
    exact h.transfers l
  capture := by
    rw [Part.CaptureLaw, updSeg_capture]
    exact h.capture
  queue k := by
    rw [seg_updSeg]
    split
    · exact hf
    · exact h.queue k

@[simp] theorem midway_purge (sel : Frame → Bool) : (p.purge i sel).MidwayLaw :=
  midway_updSeg h ((List.length_filter_le ..).trans (h.queue _))

@[simp] theorem midway_enter : (p.enter i st).MidwayLaw := by
  unfold Part.enter
  simp only
  split <;> simp [h]

/-- A grant is made only where a place is free. -/
@[simp] theorem midway_arbitrate : (p.arbitrate g).MidwayLaw := by
  refine arbitrate_induct (P := Part.MidwayLaw) (fun q c i hq hl hi he => ?_) h
  obtain ⟨y, f, e, -⟩ := grant_eligible he
  subst hi
  rw [e]
  refine midway_updSeg (midway_updSeg ((midway_setSlot y).2 hq) ?_) ?_
  · simpa using hl
  · simpa [seg_enqueue] using hl

theorem midway_follow : p.follow.MidwayLaw := by simp [Part.follow, h]

/-- What follows a change settles the arbiters (R91). -/
@[simp] theorem linksAndBusLaw_follow : p.follow.LinksAndBusLaw := linksAndBusLaw_iff.2 ⟨midway_follow h, arbiterLaw_follow⟩

@[simp] theorem linksAndBusLaw_arbitrated : ((p.arbitrate .l).arbitrate .r).LinksAndBusLaw :=
  linksAndBusLaw_iff.2 ⟨midway_arbitrate (midway_arbitrate h), arbiterLaw_arbitrated⟩

@[simp] theorem midway_callEngine (f : Frame) : (p.callEngine i f).MidwayLaw := by
  unfold Part.callEngine
  simp only
  exact midway_arbitrate ((midway_updSlot _).2 (midway_updSeg h ((List.length_filter_le ..).trans (h.queue _))))

@[simp] theorem midway_offer (f : Captured) : (p.offer f).MidwayLaw := by
  obtain ⟨hclaim, htransfers, ⟨hempty, hcount⟩, hqueue⟩ := h
  unfold Part.offer
  split
  · rw [midway_raise]
    exact ⟨hclaim, htransfers, ⟨nofun, hcount⟩, hqueue⟩
  · rename_i hf
    exact ⟨hclaim, htransfers, ⟨fun hn => (nomatch hf.symm.trans hn), Nat.min_le_left ..⟩, hqueue⟩

/-- What is done for every slot keeps the laws where each turn does. -/
theorem midway_eachSlot {f : SlotId → Part → Part} (hf : ∀ i (q : Part), q.MidwayLaw → (f i q).MidwayLaw) :
    (p.eachSlot f).MidwayLaw :=
  List.foldlRecOn (motive := Part.MidwayLaw) _ _ h fun q hq i _ => hf i q hq

end

end Sys2Proof.Machine
end

section
namespace Sys2Proof.Machine

variable {p q : Part} {i j : SlotId} {g : SegId} {st : SlotState}

section

variable (h : p.MidwayLaw)
include h

/-! ### Entries and counted failures (R55, R56, R65, R68) -/

@[simp] theorem midway_darken (boot : Timer) : (p.darken i boot).MidwayLaw := by simp [Part.darken, h]

@[simp] theorem midway_powerOff (off : Timer) : (p.powerOff i st off).MidwayLaw := by simp [Part.powerOff, h]

@[simp] theorem midway_cool : (p.cool i).MidwayLaw := midway_powerOff h _

/-- A counted failure keeps the laws where what its own rule does below the limit keeps them (R68). -/
theorem midway_failed (k : Option FaultKind) {onward : Part → Part} (ho : ∀ q : Part, q.MidwayLaw → (onward q).MidwayLaw) :
    (p.failed i k onward).MidwayLaw := by
  have hc := (midway_setSlot (i := i) ((p.slot i).counted (faultBits k))).2 h
  rw [failed_eq]
  split
  · exact midway_powerOff hc _
  · exact ho _ hc

@[simp] theorem midway_cardLost (k : Option FaultKind) : (p.cardLost i k).MidwayLaw := by
  have lost : (p.failed i k fun q => q.darken i (some q.cfg.bus.boot)).MidwayLaw :=
    midway_failed h k fun _ hq => midway_darken hq _
  unfold Part.cardLost
  split
  case h_7 | h_8 | h_9 | h_10 => exact h
  all_goals exact lost

@[simp] theorem midway_cycleFailed (k : Option FaultKind) : (p.cycleFailed i k).MidwayLaw :=
  midway_failed h k fun _ => midway_cool

@[simp] theorem midway_linkedTest : (p.linkedTest i).MidwayLaw := by
  unfold Part.linkedTest
  split <;> simp [h]

@[simp] theorem midway_enterRelinking : (p.enterRelinking i).MidwayLaw := by simp [Part.enterRelinking, h]

@[simp] theorem midway_callAlign : (p.callAlign i).MidwayLaw := by simp [Part.callAlign, h]

@[simp] theorem midway_enterAligning : (p.enterAligning i).MidwayLaw := by simp [Part.enterAligning, h]

@[simp] theorem midway_enterAuditing : (p.enterAuditing i).MidwayLaw := by simp [Part.enterAuditing, h]

@[simp] theorem midway_enterHeldClearing : (p.enterHeldClearing i).MidwayLaw := by simp [Part.enterHeldClearing, h]

@[simp] theorem midway_alignFailed : (p.alignFailed i).MidwayLaw := midway_failed h _ fun _ => midway_callAlign

/-! ### Good poll replies (R60, R62, R63, R70) -/

@[simp] theorem midway_identityCheck : (p.identityCheck i).MidwayLaw := by
  unfold Part.identityCheck
  split
  · exact h
  · split <;> split <;> simp [h]

@[simp] theorem midway_classify : (p.classify i).MidwayLaw := by
  unfold Part.classify
  split
  · exact h
  · split
    · split <;> simp [h]
    · simp [h]

theorem midway_rebootSeen (n : BitVec 8) : (p.rebootSeen i n).MidwayLaw :=
  midway_failed h _ fun _ hq => by simp [hq]

theorem midway_alignOutcome (f : PollFields) (n : Nat) : (p.alignOutcome i f n).MidwayLaw := by
  unfold Part.alignOutcome
  split
  · split
    · split <;> simp [h]
    · exact midway_alignFailed h
    all_goals exact h
  · exact h

theorem midway_actOnReply (f : PollFields) (n : Nat) : (p.actOnReply i f n).MidwayLaw := by
  unfold Part.actOnReply
  split
  · split <;> simp [h]
  · exact midway_alignOutcome h f n
  case h_7 => split <;> simp [h]
  case h_8 | h_9 | h_10 => exact h
  all_goals
    split
    · exact midway_cardLost h _
    · split
      · exact midway_rebootSeen h _
      · exact h

theorem midway_takeGoodPoll (f : PollFields) (n : Nat) : (p.takeGoodPoll i f n).MidwayLaw := by
  have hs := (midway_setSlot (i := i) ((p.slot i).enterReply f)).2 h
  rw [takeGoodPoll_eq rfl]
  split
  · unfold Part.fatalReply
    split
    · exact midway_cycleFailed hs _
    · exact hs
  · exact midway_actOnReply hs f n

/-! ### Replies (R87, R88, R92, R96 to R100) -/

theorem midway_countMiss : (p.countMiss i).MidwayLaw := by
  unfold Part.countMiss
  split
  · simp only
    split <;> simp [h]
  · exact h

theorem midway_retryEngine : (p.retryEngine i).MidwayLaw := by
  unfold Part.retryEngine
  split
  · exact h
  · split
    · simp only
      split <;> simp [h]
    · exact h

theorem midway_missedReply (e : Exchange) : (p.missedReply e).MidwayLaw := by
  unfold Part.missedReply
  simp only
  split
  · exact midway_retryEngine (midway_countMiss h)
  · exact midway_countMiss h

theorem midway_loadCompleted (x : Handle) (res : Result) : (p.loadCompleted i x res).MidwayLaw := by
  unfold Part.loadCompleted
  split
  · exact h
  · split
    · simpa using h
    · simp only
      split <;> simpa using h

theorem midway_completion (x : Handle × Result) : (p.completion i x).MidwayLaw := by
  unfold Part.completion
  split
  · exact midway_offer h _
  · refine midway_follow (midway_linkedTest ?_)
    split
    · exact midway_loadCompleted ((midway_setInflight _).2 h) _ _
    · simpa using h

theorem midway_takePoll (f : PollFields) (n : Nat) : (p.takePoll i f n).MidwayLaw := by
  have hc : (Part.completions i f.completions p).1.MidwayLaw := by
    rw [(completions_eq i f.completions p).1]
    exact List.foldlRecOn (motive := Part.MidwayLaw) _ _ h fun q hq c _ => midway_completion hq c
  unfold Part.takePoll
  simp only
  split
  · exact midway_cardLost hc _
  · exact midway_takeGoodPoll hc f n

theorem midway_refuseLoad (x : Handle) (why : RefuseReason) : (p.refuseLoad i x why).MidwayLaw :=
  midway_linkedTest (by cases why <;> simpa [Part.removeEntry] using h)

theorem midway_refuseDrop (x : Handle) : (p.refuseDrop i x).MidwayLaw := by simpa [Part.refuseDrop, Part.removeEntry] using h

theorem midway_takeDigest (d : Digest) : (p.takeDigest i d).MidwayLaw := by
  unfold Part.takeDigest
  split
  · split <;> simp [Part.auditMatch, Part.auditMismatch, h]
  · exact h

theorem midway_auditCleared : (p.auditCleared i).MidwayLaw := by
  unfold Part.auditCleared
  split <;> simp [h]

theorem midway_goodReply (e : Exchange) (r : Reply) : (p.goodReply e r).MidwayLaw := by
  have heard := (midway_updSlot (i := e.slot) Slot.heard).2 h
  have done := (midway_updSlot (i := e.slot) Slot.engineDone).2 heard
  unfold Part.goodReply
  simp only
  split
  · exact midway_takePoll heard _ _
  · exact done
  · exact midway_auditCleared done
  · exact midway_takeDigest done _
  · exact midway_refuseLoad heard _ _
  · exact midway_refuseDrop heard _
  · exact heard

end

/-! ### Exchanges (R86, R89, R91) -/

theorem eligible_markAlign (e : Exchange) (x : Slot) (c : Category) : (x.markAlign e).eligible c = x.eligible c := by
  unfold Slot.markAlign
  split <;> cases c <;> rfl

/-- A frame that is sent makes no producer eligible. -/
theorem eligible_frameSent {f : Frame} {x : Slot} {c : Category} (h : (x.frameSent f).eligible c = true) :
    x.eligible c = true := by
  rw [eligible_iff] at h ⊢
  cases f with
  | poll => exact h
  | load | drop => cases c <;> simpa [Slot.frameSent] using h
  | align | digest | clear => cases c <;> simp_all [Slot.frameSent]

section

variable (h : p.LinksAndBusLaw)
include h

/-- A slot whose producers no change makes eligible. -/
theorem linksAndBusLaw_updSlot {f : Slot → Slot} (hf : ∀ c, (f (p.slot i)).eligible c = true → (p.slot i).eligible c = true) :
    (p.updSlot i f).LinksAndBusLaw := by
  refine linksAndBusLaw_iff.2 ⟨(midway_updSlot f).2 h.midway, arbiterLaw_of_eligible h.arbiter (by simp) fun j c hj => ?_⟩
  rw [slot_updSlot] at hj
  split at hj
  · rename_i e
    exact e ▸ hf c hj
  · exact hj

/-- The end of an exchange: an orphaned one only idles its segment, and what another's end does is followed by grants. -/
theorem linksAndBusLaw_withExchange {handle : Exchange → Part → Part}
    (hh : ∀ e (q : Part), q.MidwayLaw → (handle e q).MidwayLaw) : (p.withExchange g handle).LinksAndBusLaw := by
  have idled : (p.updSeg g fun x => { x with inProgress := none }).LinksAndBusLaw :=
    (linksAndBusLaw_congr (by simp) (by simp) (fun l => by rw [link_updSeg]; exact .rfl)
      (fun k => by rw [seg_updSeg]; split <;> simp [*]) (by simp)).2 h
  unfold Part.withExchange
  split
  · exact h
  · rename_i e _
    have marked := linksAndBusLaw_updSlot (i := e.slot) idled fun c hc => (eligible_markAlign e _ c).symm.trans hc
    unfold Part.endExchange
    simp only
    split
    · exact marked
    · refine linksAndBusLaw_follow ?_
      unfold Part.restartPoll
      split <;> simpa using hh e _ marked.midway

theorem linksAndBusLaw_windowClose : (p.windowClose g).LinksAndBusLaw :=
  linksAndBusLaw_withExchange h fun e _ hq => midway_missedReply hq e

theorem linksAndBusLaw_takeReply (r : SlotReply) : (p.takeReply g r).LinksAndBusLaw :=
  linksAndBusLaw_withExchange h fun e q hq => by
    split
    · exact midway_missedReply (midway_offer hq _) e
    · exact midway_goodReply hq e _

/-- The place an opened exchange frees goes to the segment's own arbiter; the other segment has no producer that the frame's
sending makes eligible. -/
theorem linksAndBusLaw_openExchange : (p.openExchange g).LinksAndBusLaw := by
  unfold Part.openExchange
  split
  · rename_i q qs _ hq
    have hlen := h.queue g
    rw [hq] at hlen
    refine linksAndBusLaw_iff.2 ⟨midway_arbitrate ((midway_updSlot _).2 (midway_updSeg h.midway ?_)),
      arbiterLaw_iff.2 fun k => ?_⟩
    · exact (Nat.le_succ _).trans hlen
    · by_cases hk : k = g
      · exact hk ▸ settled_arbitrate
      · refine Part.Settled.arbitrate ((arbiterLaw_iff.1 h.arbiter k).imp (fun hl => ?_) fun hn i hi c => ?_)
        · rwa [seg_updSlot, seg_updSeg, if_neg (Ne.symm hk)]
        · rw [slot_updSlot]
          split
          · refine Bool.eq_false_iff.2 fun he => ?_
            have := eligible_frameSent he
            simp_all
          · simpa using hn i hi c
  · exact h

/-- A POLL that falls due is granted a place by the segment's own arbiter (R93). -/
theorem linksAndBusLaw_pollExpiry : (p.pollExpiry i).LinksAndBusLaw := by
  unfold Part.pollExpiry
  split
  · refine linksAndBusLaw_iff.2 ⟨midway_arbitrate ((midway_updSlot _).2 h.midway), arbiterLaw_iff.2 fun k => ?_⟩
    by_cases hk : k = segOf i
    · exact hk ▸ settled_arbitrate
    · refine Part.Settled.arbitrate ((arbiterLaw_iff.1 h.arbiter k).imp (fun hl => by simpa using hl) fun hn j hj c => ?_)
      rw [slot_updSlot_ne _ _ _ _ fun e => hk (by rw [e, hj])]
      exact hn j hj c
  · exact h

/-! ### Presence lines and timers -/

theorem linksAndBusLaw_insert : (p.insert i).LinksAndBusLaw := by
  unfold Part.insert
  simp only
  split
  · simp [h.midway]
  · exact linksAndBusLaw_updSlot h fun c hc => by cases c <;> exact hc

theorem linksAndBusLaw_remove : (p.remove i).LinksAndBusLaw := by
  unfold Part.remove
  simp only
  split
  · exact linksAndBusLaw_updSlot h fun c hc => by cases c <;> exact hc
  · split <;> simp [h.midway]

theorem linksAndBusLaw_bootExpiry : (p.bootExpiry i).LinksAndBusLaw := by
  unfold Part.bootExpiry
  split <;> simp [h, h.midway]

theorem linksAndBusLaw_alignExpiry : (p.alignExpiry i).LinksAndBusLaw := by
  unfold Part.alignExpiry
  split <;> simp [h, h.midway]

theorem linksAndBusLaw_offExpiry : (p.offExpiry i).LinksAndBusLaw := by
  unfold Part.offExpiry
  split
  · exact linksAndBusLaw_updSlot h fun c hc => by cases c <;> exact hc
  · exact h

theorem linksAndBusLaw_stableExpiry : (p.stableExpiry i).LinksAndBusLaw := by
  unfold Part.stableExpiry
  split
  · exact linksAndBusLaw_updSlot h fun c hc => by cases c <;> exact hc
  · exact h

theorem linksAndBusLaw_deadlineExpiry (x : Handle) : (p.deadlineExpiry i x).LinksAndBusLaw := by
  unfold Part.deadlineExpiry
  split <;> simp [h, h.midway]

end

end Sys2Proof.Machine
end

section
namespace Sys2Proof.Machine

variable {p q : Part} {i j : SlotId} {g : SegId} {l : Link} {x : LinkRec}

/-- A selection that issues a LOAD found a record that passes its slot tests (R166, R167). -/
theorem select_issue {k : Index} (h : p.select = .issue k) : ∃ r, p.ctb.get k = some r ∧ p.slotTests r = true := by
  obtain ⟨pre, k', post, r, -, ⟨⟨hr, -⟩, ht, -⟩, -, hs⟩ | ⟨-, hs⟩ := select_spec p
  · rw [hs] at h
    split at h <;> cases h
    exact ⟨r, hr, ht⟩
  · rw [hs] at h
    cases h

section

variable (h : p.LinksAndBusLaw)
include h

/-! ### The supply (R71, R72, R73, R123 to R126) -/

theorem linksAndBusLaw_enterSag (fresh : Bool) : (p.enterSag fresh).LinksAndBusLaw := by
  have hb : (p.beginSag fresh).MidwayLaw := by
    unfold Part.beginSag
    split <;> simpa using h.midway
  refine linksAndBusLaw_follow ?_
  rw [midway_onFbu, midway_running]
  refine midway_eachSlot hb fun i q hq => ?_
  unfold Part.sagSlot
  split <;> simp [hq]

theorem linksAndBusLaw_enterOutage : p.enterOutage.LinksAndBusLaw := by
  refine linksAndBusLaw_follow ?_
  rw [midway_onFbu]
  refine midway_eachSlot (by simpa using h.midway) fun i q hq => ?_
  unfold Part.outageSlot
  split <;> simp [hq]

theorem linksAndBusLaw_enterRecovery : p.enterRecovery.LinksAndBusLaw := by
  refine linksAndBusLaw_follow ?_
  rw [midway_running]
  refine midway_eachSlot (by split <;> simpa using h.midway) fun i q hq => ?_
  unfold Part.recoverSlot
  split
  · split <;> simp [hq]
  · exact hq

theorem linksAndBusLaw_sagRule : p.sagRule.LinksAndBusLaw := by
  unfold Part.sagRule
  split
  · exact linksAndBusLaw_enterOutage h
  · split <;> simpa [Part.enterSettling] using h

theorem linksAndBusLaw_supplyRule : p.supplyRule.LinksAndBusLaw := by
  unfold Part.supplyRule
  split
  case h_3 => exact linksAndBusLaw_sagRule h
  case h_4 => split <;> simpa [Part.enterSettling] using h
  all_goals
    split
    · exact linksAndBusLaw_sagRule (linksAndBusLaw_enterSag h _)
    · exact h

theorem linksAndBusLaw_sample (code : Nat) : (p.sample code).LinksAndBusLaw := by
  have ruled := linksAndBusLaw_supplyRule ((linksAndBusLaw_onSpm fun m =>
    (m.hear.startSettle p.cfg.supply).measure p.cfg.supply code).2 h)
  unfold Part.sample
  simp only
  split
  · exact (linksAndBusLaw_recoveryTest).2 ruled
  · exact ruled

/-! ### Budget, bring-up and restoration -/

/-- Time that passes, and charges that decay, make no producer eligible. -/
theorem linksAndBusLaw_mapSlots {f : Slot → Slot} (hf : ∀ (x : Slot) (c : Category), (f x).eligible c = x.eligible c) :
    (p.mapSlots f).LinksAndBusLaw :=
  linksAndBusLaw_iff.2 ⟨(midway_mapSlots f).2 h.midway,
    arbiterLaw_of_eligible h.arbiter (by simp) fun i c hc => by rwa [slot_mapSlots, hf] at hc⟩

theorem linksAndBusLaw_budgetTick : p.budgetTick.LinksAndBusLaw := by
  have aged : p.age.LinksAndBusLaw := by
    unfold Part.age
    rw [linksAndBusLaw_onFbu, linksAndBusLaw_onSpm]
    refine linksAndBusLaw_mapSlots h fun x c => ?_
    rw [Bool.eq_iff_iff, eligible_iff, eligible_iff]
    cases c <;> simp [Slot.age]
  have decayed : p.age.decayAll.LinksAndBusLaw := linksAndBusLaw_mapSlots aged fun x c => by split <;> cases c <;> rfl
  unfold Part.budgetTick Part.rampTick
  split
  · simp only
    split <;> simpa using decayed
  · exact decayed

theorem linksAndBusLaw_trials (n : Nat) : (p.trials n).LinksAndBusLaw := by
  induction n generalizing p with
  | zero => exact h
  | succ n ih =>
    unfold Part.trials
    split
    · exact h
    · split
      · exact ih (linksAndBusLaw_follow (by simp [Part.enable, h.midway]))
      · simpa using h

/-- A LOAD is issued only where a place of the slot's segment is free, and its entry makes no DROP eligible (R167 to R169). -/
theorem linksAndBusLaw_issue {k : Index} (hk : p.select = .issue k) : (p.issue k).LinksAndBusLaw := by
  obtain ⟨r, hr, ht⟩ := select_issue hk
  simp only [Part.slotTests, Bool.and_eq_true, decide_eq_true_eq] at ht
  obtain ⟨⟨-, hroom⟩, -⟩ := ht
  unfold Part.issue
  rw [hr]
  simp only [linksAndBusLaw_onFbu]
  refine linksAndBusLaw_iff.2 ⟨midway_updSeg (by simpa using h.midway) (by simpa [Part.setInflight, Config.queueRoom] using Nat.succ_le_of_lt hroom),
    arbiterLaw_of_eligible h.arbiter (fun g => ?_) fun j c hj => ?_⟩
  · rw [seg_enqueue]
    split <;> simp [Part.setInflight]
  · rw [slot_enqueue, setInflight_eq, slot_setSlot] at hj
    split at hj
    · rename_i e
      subst e
      rw [eligible_iff] at hj ⊢
      cases c with
      | engine => exact hj
      | drop => exact ⟨hj.1, lt_of_le_of_lt (by simp) hj.2⟩
      | poll => exact hj
    · exact hj

theorem linksAndBusLaw_selection : p.selection.LinksAndBusLaw := by
  unfold Part.selection
  split
  · split
    · exact linksAndBusLaw_issue h ‹_›
    · simpa using h
    · simpa using h
  · exact h

/-! ### Links (R181 to R185) -/

/-- What changes links and ownership alone, and keeps the laws of claims and transfers. -/
theorem linksAndBusLaw_of_links (hc : q.ClaimLaw) (ht : q.TransferLaw) (hk : q.capture = p.capture)
    (hg : ∀ g, q.seg g = p.seg g) (hs : ∀ i, q.slot i = p.slot i) : q.LinksAndBusLaw where
  claim := hc
  transfers := ht
  capture := by rw [Part.CaptureLaw, hk]; exact h.capture
  queue g := by rw [hg]; exact h.queue g
  arbiter := (arbiterLaw_congr (fun g => by rw [hg]) hs).2 h.arbiter

theorem linksAndBusLaw_updLink {f : LinkRec → LinkRec} (hc : (f (p.link l)).claim = true → p.owner = some (other l))
    (ht : (f (p.link l)).TransferLaw) : (p.updLink l f).LinksAndBusLaw := by
  refine linksAndBusLaw_of_links h (fun m => ?_) (fun m => ?_) (by simp) (by simp) (by simp)
  · rw [link_updLink, updLink_owner]
    split
    · rename_i e
      exact e ▸ hc
    · exact h.claim m
  · rw [link_updLink]
    split
    · exact ht
    · exact h.transfers m

/-- A transfer that has ended keeps its law. -/
theorem linksAndBusLaw_closed {f : LinkRec → LinkRec} (hc : (f (p.link l)).claim = (p.link l).claim)
    (ht : (f (p.link l)).transfer = none) : (p.updLink l f).LinksAndBusLaw := by
  refine linksAndBusLaw_updLink h ?_ ⟨fun _ => ht, ?_⟩
  · rw [hc]
    exact h.claim l
  · rw [ht]
    exact nofun

theorem linksAndBusLaw_ended : (p.ended l).LinksAndBusLaw := linksAndBusLaw_closed h rfl rfl

theorem linksAndBusLaw_discard : (p.discard l).LinksAndBusLaw := linksAndBusLaw_closed h rfl rfl

theorem linksAndBusLaw_answer (r : Response) (p₀ : Part) : (Part.answer l r p₀ p).LinksAndBusLaw :=
  linksAndBusLaw_closed h rfl rfl

/-- The status byte of a transfer's opening has been shown, or the transfer stood open and had shown it (R182). -/
theorem opening_ne_nil : p.opening l ≠ [] := by
  unfold Part.opening
  split
  · exact nofun
  · exact (h.transfers l).2 (by simp [*])

end

end Sys2Proof.Machine
end

section
namespace Sys2Proof.Machine

variable {p q : Part} {i j : SlotId} {g : SegId} {l : Link}

@[simp] theorem linksAndBusLaw_fillers (n : Nat) : ({ p with fillers := n } : Part).LinksAndBusLaw ↔ p.LinksAndBusLaw :=
  linksAndBusLaw_congr rfl rfl (fun _ => .rfl) (fun _ => rfl) fun _ => rfl

@[simp] theorem seg_owner (o : Option Link) : ({ p with owner := o } : Part).seg g = p.seg g := by cases g <;> rfl
@[simp] theorem slot_owner (o : Option Link) : ({ p with owner := o } : Part).slot i = p.slot i := rfl
@[simp] theorem link_owner (o : Option Link) : ({ p with owner := o } : Part).link l = p.link l := by cases l <;> rfl

@[simp] theorem linksAndBusLaw_raiseOn (n : Notice) : (p.raiseOn l n).LinksAndBusLaw ↔ p.LinksAndBusLaw :=
  linksAndBusLaw_congr (by simp [Part.raiseOn]) (by simp [Part.raiseOn])
    (fun m => by
      rw [Part.raiseOn, link_updLink]
      split
      · rename_i e
        exact e ▸ raise_stands _ _
      · exact .rfl)
    (by simp [Part.raiseOn]) (by simp [Part.raiseOn])

theorem eq_or_eq_other (l m : Link) : m = l ∨ m = other l := by cases l <;> cases m <;> simp [other]

theorem eq_other_of_ne {l m : Link} (h : m ≠ l) : m = other l := (eq_or_eq_other l m).resolve_left h

section

variable (h : p.LinksAndBusLaw)
include h

/-! ### Transfers that stay open or are read (R182, R185) -/

theorem linksAndBusLaw_readOut (n : Nat) : (p.readOut l n).LinksAndBusLaw := by
  unfold Part.readOut
  refine linksAndBusLaw_updLink ((linksAndBusLaw_fillers _).2 h) ?_ ⟨?_, fun _ => ?_⟩
  · exact h.claim l
  · exact (h.transfers l).1
  · simp [opening_ne_nil h]

theorem linksAndBusLaw_readResponse (n : Nat) : (p.readResponse l n).LinksAndBusLaw := by
  refine linksAndBusLaw_closed (linksAndBusLaw_readOut h n) ?_ ?_ <;> split <;> rfl

theorem dataOut_readOut (n : Nat) : ((p.readOut l n).link l).dataOut ≠ [] := by
  rw [Part.readOut, link_updLink_self]
  simp [opening_ne_nil h]

/-- A transfer stays open only where none is lost, and its opening has shown the status byte. -/
theorem linksAndBusLaw_stayOpen (bytes : List Byte) : (p.stayOpen l bytes).LinksAndBusLaw := by
  have opened : ∀ q : Part, q.LinksAndBusLaw → (q.link l).lost = false → (q.link l).dataOut ≠ [] →
      (q.updLink l fun x => { x with transfer := some bytes }).LinksAndBusLaw := fun q hq hl hd =>
    linksAndBusLaw_updLink hq (hq.claim l) ⟨fun ht => (nomatch hl.symm.trans ht), fun _ => hd⟩
  unfold Part.stayOpen
  split
  · rename_i hlost
    have ended := opened _ (linksAndBusLaw_ended (l := l) h) (by simpa [Part.ended] using hlost.1)
      (by simpa [Part.ended] using opening_ne_nil h)
    unfold Part.underSelect
    split
    · exact ended
    · split
      · refine opened _ (linksAndBusLaw_readOut h _) ?_ (dataOut_readOut h _)
        rw [Part.readOut, link_updLink_self]
        exact hlost.1
      · exact ended
  · exact h

/-- A transfer keeps the laws where what its end does keeps them. -/
theorem linksAndBusLaw_transfer (bytes : List Byte) {ends : Part → Part} (he : (ends p).LinksAndBusLaw) :
    (p.transfer l bytes ends).LinksAndBusLaw := by
  rcases transfer_cases l bytes ends p with ⟨e, -⟩ | ⟨e, -⟩ | ⟨e, -⟩ <;> rw [e]
  · exact linksAndBusLaw_updLink h (h.claim l) ⟨nofun, (h.transfers l).2⟩
  · exact h
  · exact he

theorem linksAndBusLaw_sent (c : Instr) {ends : Part → Part} (he : (ends p).LinksAndBusLaw) :
    (p.sent c ends).LinksAndBusLaw := by
  unfold Part.sent
  split
  · exact h
  · exact linksAndBusLaw_transfer h _ he

/-- The flags of a link are no matter of its claim or its transfer. -/
theorem linksAndBusLaw_flags {f : LinkRec → LinkRec} (hf : (p.link l).Stands (f (p.link l))) :
    (p.updLink l f).LinksAndBusLaw := by
  obtain ⟨hclaim, hlost, htransfer, hout⟩ := hf
  refine linksAndBusLaw_updLink h ?_ ?_
  · rw [hclaim]
    exact h.claim l
  · rw [LinkRec.TransferLaw, hlost, htransfer, hout]
    exact h.transfers l

/-! ### Ownership (R188, R189, R190) -/

theorem linksAndBusLaw_claim : (Part.claim l p).1.LinksAndBusLaw := by
  unfold Part.claim
  split
  · rename_i ho
    rw [linksAndBusLaw_raiseOn]
    refine linksAndBusLaw_of_links h (fun m hm => ?_) h.transfers rfl (fun _ => rfl) fun _ => rfl
    have hclaim := h.claim m hm
    rw [ho] at hclaim
    cases hclaim
  · rename_i o ho
    split
    · exact h
    · rename_i hne
      simp only
      refine linksAndBusLaw_updLink h (fun _ => by rw [ho, eq_other_of_ne hne]) ?_
      exact h.transfers l

/-- The owner has no waiting claim (R188). -/
theorem claim_owner (ho : p.owner = some l) : (p.link l).claim = false := by
  refine Bool.eq_false_iff.2 fun hc => ?_
  have hclaim := h.claim l hc
  rw [ho, Option.some.injEq] at hclaim
  exact ne_other l hclaim

theorem linksAndBusLaw_release : (Part.release l p).1.LinksAndBusLaw := by
  unfold Part.release
  split
  · rename_i ho
    split
    · rw [linksAndBusLaw_raiseOn]
      refine linksAndBusLaw_of_links h (fun m hm => ?_) (fun m => ?_) (by simp) (by simp) (by simp)
      · rw [updLink_owner]
        rcases eq_or_eq_other l m with rfl | rfl
        · rfl
        · rw [link_updLink_self] at hm
          cases hm
      · rw [link_updLink]
        split
        · exact h.transfers _
        · exact h.transfers m
    · rename_i hc
      refine linksAndBusLaw_of_links h (fun m hm => ?_) h.transfers rfl (fun _ => rfl) fun _ => rfl
      rcases eq_or_eq_other l m with rfl | rfl
      · exact absurd (claim_owner h ho) (Bool.not_eq_false _ ▸ hm)
      · exact absurd hm hc
  · simp only
    refine linksAndBusLaw_updLink h (fun hc => absurd hc Bool.false_ne_true) ?_
    exact h.transfers l

theorem linksAndBusLaw_takeover : (Part.takeover l p).1.LinksAndBusLaw := by
  have taken : ((({ p with owner := some l } : Part).updLink .a fun x => { x with claim := false }).updLink .b fun x =>
      { x with claim := false }).LinksAndBusLaw := by
    refine linksAndBusLaw_of_links h (fun m hm => ?_) (fun m => ?_) (by simp) (by simp) (by simp)
    · cases m <;> cases hm
    · cases m with
      | a => exact h.transfers .a
      | b => exact h.transfers .b
  unfold Part.takeover
  simp only
  split <;> split <;> simpa using taken

/-! ### Requests -/

/-- A request keeps the laws where carrying it out does. -/
theorem linksAndBusLaw_request {fits change : Bool} {run : Part → Answer} (hr : (run p).1.LinksAndBusLaw) :
    (p.request l fits change run).LinksAndBusLaw := by
  unfold Part.request
  split
  · exact linksAndBusLaw_discard h
  · split
    · exact linksAndBusLaw_answer h _ _
    · split
      · exact linksAndBusLaw_answer h _ _
      · exact linksAndBusLaw_answer hr _ _

theorem linksAndBusLaw_establish (body : List Byte) : (p.establish body).1.LinksAndBusLaw := by
  unfold Part.establish
  split
  · exact h
  · split
    · exact h
    · exact h
    · simpa [Part.establishAt] using h

theorem linksAndBusLaw_modify (body : List Byte) : (p.modify body).1.LinksAndBusLaw := by
  unfold Part.modify
  split
  · exact h
  · split
    · exact h
    · split
      · exact h
      · simpa [Part.modifyAt] using h

theorem linksAndBusLaw_onNamed {w : WireHandle} {run : Handle → Rec → Part → Answer}
    (hr : ∀ x r, (run x r p).1.LinksAndBusLaw) : (p.onNamed w run).1.LinksAndBusLaw := by
  unfold Part.onNamed
  split
  · exact h
  · split
    · exact h
    · exact hr _ _

theorem linksAndBusLaw_retire (x : Handle) (r : Rec) : (p.retire x r).1.LinksAndBusLaw := by
  show (p.retireAt x r).LinksAndBusLaw
  unfold Part.retireAt
  simp only
  split
  case h_4 => split <;> simp [h.midway]
  case h_5 | h_6 => simpa using h
  all_goals simp [h.midway]

theorem linksAndBusLaw_revive (x : Handle) (r : Rec) : (p.revive x r).1.LinksAndBusLaw := by
  unfold Part.revive
  split
  · exact (linksAndBusLaw_onCtb _).2 h
  · exact h

theorem linksAndBusLaw_listRecords (cls filter : Byte) (cursor : WireHandle) :
    (p.listRecords cls filter cursor).1.LinksAndBusLaw := by
  unfold Part.listRecords
  simp only
  split
  · exact h
  · split
    · exact h
    · split
      · exact h
      · refine linksAndBusLaw_onNamed h fun x r => ?_
        split <;> exact h

/-! ### Slot actions (R75 to R79) -/

/-- A slot action keeps the laws where its accepted change does. -/
theorem linksAndBusLaw_actionRequest {act : SlotId → Part → Except Status Part} {slot : Byte}
    (ha : ∀ i q, act i p = .ok q → q.LinksAndBusLaw) : (p.actionRequest l act slot).LinksAndBusLaw := by
  refine linksAndBusLaw_request h ?_
  unfold Part.slotAction
  split
  · exact h
  · split
    · exact h
    · exact ha _ _ ‹_›

/-- The HOLD and PARK flags and the keys of a slot are no matter of its producers. -/
theorem linksAndBusLaw_flagged {f : Slot → Slot} (hf : ∀ (x : Slot) (c : Category), (f x).eligible c = x.eligible c) :
    (p.updSlot i f).LinksAndBusLaw :=
  linksAndBusLaw_updSlot h fun c hc => (hf _ c).symm.trans hc

theorem linksAndBusLaw_park (e : Part.park i p = .ok q) : q.LinksAndBusLaw := by
  unfold Part.park at e
  simp only at e
  split at e <;> simp only [Except.ok.injEq, reduceCtorEq] at e <;> subst e <;> simp [h.midway]

theorem linksAndBusLaw_unpark (e : Part.unpark i p = .ok q) : q.LinksAndBusLaw :=
  Except.ok.inj e ▸ linksAndBusLaw_flagged h fun _ c => by cases c <;> rfl

theorem linksAndBusLaw_holdSlot (e : Part.holdSlot i p = .ok q) : q.LinksAndBusLaw := by
  have held : (p.updSlot i fun x => { x with hold := true }).LinksAndBusLaw :=
    linksAndBusLaw_flagged h fun _ c => by cases c <;> rfl
  unfold Part.holdSlot at e
  simp only at e
  split at e <;> simp only [Except.ok.injEq] at e <;> subst e
  case h_1 | h_2 | h_3 => simp [h.midway]
  all_goals exact held

theorem linksAndBusLaw_releaseHold (e : Part.releaseHold i p = .ok q) : q.LinksAndBusLaw := by
  unfold Part.releaseHold at e
  simp only at e
  split at e
  · split at e <;> simp only [Except.ok.injEq, reduceCtorEq] at e
    subst e
    simp [h.midway]
  · exact Except.ok.inj e ▸ linksAndBusLaw_flagged h fun _ c => by cases c <;> rfl

theorem linksAndBusLaw_adopt (e : Part.adopt i p = .ok q) : q.LinksAndBusLaw := by
  obtain ⟨c, e⟩ := of_inMismatch e
  split at e <;> simp only [Except.ok.injEq, reduceCtorEq] at e
  subst e
  simp [h.midway]

theorem linksAndBusLaw_vacate (e : Part.vacate i p = .ok q) : q.LinksAndBusLaw := by
  obtain ⟨c, e⟩ := of_inMismatch e
  rw [← Except.ok.inj e]
  simp [h.midway]

theorem linksAndBusLaw_clearFault (e : Part.clearFault i p = .ok q) : q.LinksAndBusLaw := by
  unfold Part.clearFault at e
  split at e <;> simp only [Except.ok.injEq, reduceCtorEq] at e
  subst e
  simp [h.midway]

theorem linksAndBusLaw_auditSlot (e : Part.auditSlot i p = .ok q) : q.LinksAndBusLaw := by
  unfold Part.auditSlot at e
  split at e <;> simp only [Except.ok.injEq, reduceCtorEq] at e
  subst e
  simp [h.midway]

theorem linksAndBusLaw_cyclePower (e : Part.cyclePower i p = .ok q) : q.LinksAndBusLaw := by
  unfold Part.cyclePower at e
  split at e <;> simp only [Except.ok.injEq, reduceCtorEq] at e <;> subst e <;> simp [h.midway]

/-! ### Settings (R51, R52, R53) -/

theorem linksAndBusLaw_setSlotKeys (slot rank phase : Byte) : (p.setSlotKeys slot rank phase).1.LinksAndBusLaw := by
  unfold Part.setSlotKeys
  split
  · exact h
  · simp only
    exact linksAndBusLaw_flagged h fun _ c => by cases c <;> rfl

/-- A window that rises may make a waiting DROP eligible, so grants follow (R53, R91). -/
theorem linksAndBusLaw_setBus (f : WireBus) : (p.setBus f).1.LinksAndBusLaw :=
  linksAndBusLaw_arbitrated (midway_eachSlot ((linksAndBusLaw_cfg _).2 h).midway fun _ _ => (midway_rewindow).2)

end

/-! ### Resets (R104, R198, R199) -/

theorem transferLaw_after (x : LinkRec) (pending : BitVec 13) : (x.after pending).TransferLaw := ⟨fun _ => rfl, nofun⟩

theorem linksAndBusLaw_warmReset (p : Part) : p.warmReset.LinksAndBusLaw := by
  rw [warmReset_eq]
  refine linksAndBusLaw_arbitrated ⟨fun l hl => ?_, fun l => ?_, ⟨fun _ => rfl, Nat.zero_le _⟩, fun g => ?_⟩
  · rw [link_warmed] at hl
    cases hl
  · rw [link_warmed]
    exact transferLaw_after _ _
  · rw [seg_warmed]
    exact Nat.zero_le _

theorem linksAndBusLaw_coldStart (p : Part) : p.coldStart.LinksAndBusLaw where
  claim l hl := by cases l <;> cases hl
  transfers l := by cases l <;> exact transferLaw_after _ _
  capture := ⟨fun _ => rfl, Nat.zero_le _⟩
  queue g := by cases g <;> exact Nat.zero_le _
  arbiter g _ i _ c := by
    rw [slot_coldStart]
    cases c <;> rfl

/-! ### Commands -/

/-- What the end of a request's transfer does keeps the laws. -/
theorem linksAndBusLaw_asked (c : Instr) (h : p.LinksAndBusLaw) : (Part.asked c p).LinksAndBusLaw := by
  cases c <;> simp only [Part.asked]
  case establish l body => exact linksAndBusLaw_request h (linksAndBusLaw_establish h body)
  case modify l body => exact linksAndBusLaw_request h (linksAndBusLaw_modify h body)
  case retire l w => exact linksAndBusLaw_request h (linksAndBusLaw_onNamed h (linksAndBusLaw_retire h))
  case revive l w => exact linksAndBusLaw_request h (linksAndBusLaw_onNamed h (linksAndBusLaw_revive h))
  case lookup l w => exact linksAndBusLaw_request h (linksAndBusLaw_onNamed h fun _ _ => h)
  case findChannel l slot channel =>
    refine linksAndBusLaw_request h ?_
    unfold Part.findChannel
    split <;> exact h
  case findTimeslot l highway timeslot =>
    refine linksAndBusLaw_request h ?_
    unfold Part.findTimeslot
    split <;> exact h
  case list l cls filter cursor => exact linksAndBusLaw_request h (linksAndBusLaw_listRecords h cls filter cursor)
  case park l slot => exact linksAndBusLaw_actionRequest h fun _ _ => linksAndBusLaw_park h
  case unpark l slot => exact linksAndBusLaw_actionRequest h fun _ _ => linksAndBusLaw_unpark h
  case hold l slot => exact linksAndBusLaw_actionRequest h fun _ _ => linksAndBusLaw_holdSlot h
  case releaseHold l slot => exact linksAndBusLaw_actionRequest h fun _ _ => linksAndBusLaw_releaseHold h
  case adopt l slot => exact linksAndBusLaw_actionRequest h fun _ _ => linksAndBusLaw_adopt h
  case vacate l slot => exact linksAndBusLaw_actionRequest h fun _ _ => linksAndBusLaw_vacate h
  case clearFault l slot => exact linksAndBusLaw_actionRequest h fun _ _ => linksAndBusLaw_clearFault h
  case audit l slot => exact linksAndBusLaw_actionRequest h fun _ _ => linksAndBusLaw_auditSlot h
  case powerCycle l slot => exact linksAndBusLaw_actionRequest h fun _ _ => linksAndBusLaw_cyclePower h
  case slotSet l slot rank phase => exact linksAndBusLaw_request h (linksAndBusLaw_setSlotKeys h slot rank phase)
  case profileSet l f =>
    refine linksAndBusLaw_request h ?_
    unfold Part.setProfile
    split
    · exact h
    · exact (linksAndBusLaw_cfg _).2 h
  case busSet l f => exact linksAndBusLaw_request h (linksAndBusLaw_setBus h f)
  case budgetSet l f => exact linksAndBusLaw_request h (by simpa [Part.setBudget] using h)
  case supplySet l f => exact linksAndBusLaw_request h ((linksAndBusLaw_cfg _).2 h)
  case notices l clear =>
    refine linksAndBusLaw_request h ?_
    unfold Part.readNotices
    simp only
    exact linksAndBusLaw_flags h ⟨rfl, rfl, rfl, rfl⟩
  case noticeMask l mask =>
    refine linksAndBusLaw_request h ?_
    unfold Part.setMask
    simp only
    exact linksAndBusLaw_flags h ⟨rfl, rfl, rfl, rfl⟩
  case captureClear l => exact linksAndBusLaw_request h { h with capture := ⟨fun _ => rfl, Nat.zero_le _⟩ }
  case claim l => exact linksAndBusLaw_request h (linksAndBusLaw_claim h)
  case release l => exact linksAndBusLaw_request h (linksAndBusLaw_release h)
  case takeover l => exact linksAndBusLaw_request h (linksAndBusLaw_takeover h)
  case reset l =>
    unfold Part.resetRequest
    split
    · exact linksAndBusLaw_discard h
    · split
      · exact linksAndBusLaw_answer h _ _
      · exact linksAndBusLaw_warmReset _
  case status l | captureQuery l => exact linksAndBusLaw_request h h
  all_goals exact h

theorem linksAndBusLaw_takeTransfer (h : p.LinksAndBusLaw) (l : Link) (kind : Byte) (bytes : List Byte) :
    (p.takeTransfer l kind bytes).LinksAndBusLaw := by
  unfold Part.takeTransfer
  split
  · exact linksAndBusLaw_transfer h _ (linksAndBusLaw_readResponse h _)
  · split
    · exact linksAndBusLaw_transfer h _ (linksAndBusLaw_request h h)
    · exact linksAndBusLaw_transfer h _ (linksAndBusLaw_request h h)
    · split
      · rename_i hd
        have he := encodeRequest_decodeRequest hd
        rw [runRequest_eq (by rw [he]; rfl), effect_request (by rw [he]; rfl)]
        exact linksAndBusLaw_sent h _ (linksAndBusLaw_asked _ h)
      · exact linksAndBusLaw_transfer h _ (linksAndBusLaw_request h h)

/-- Every command keeps the laws of the links, the capture, the queues and their arbiters. -/
theorem linksAndBusLaw_effect (c : Instr) (h : p.LinksAndBusLaw) : (Part.effect c p).LinksAndBusLaw := by
  by_cases hc : (encodeRequest c).isSome = true
  · rw [effect_request hc]
    exact linksAndBusLaw_sent h c (linksAndBusLaw_asked c h)
  cases c <;> simp only [encodeRequest, Option.isSome_some, not_true_eq_false] at hc <;> simp only [Part.effect]
  case coldStart => exact linksAndBusLaw_coldStart p
  case resetN => exact linksAndBusLaw_warmReset p
  case insertion i => exact linksAndBusLaw_insert h
  case removal i => exact linksAndBusLaw_remove h
  case statusRead x =>
    cases x.held with
    | none => exact linksAndBusLaw_transfer h _ (linksAndBusLaw_ended h)
    | some bytes => exact linksAndBusLaw_stayOpen h bytes
  case responseRead l n => exact linksAndBusLaw_sent h _ (linksAndBusLaw_readResponse h n)
  case requestDiscarded l kind bytes | badFrame l kind bytes => exact linksAndBusLaw_takeTransfer h l kind bytes
  case unknownRequest l code fields => exact linksAndBusLaw_takeTransfer h l _ _
  case supplySample code => exact linksAndBusLaw_sample h _
  case signalLoss =>
    unfold Part.signalLoss
    split <;> simpa using h
  case settleTimerExpiry =>
    unfold Part.settleExpiry
    split
    · exact linksAndBusLaw_enterRecovery h
    · exact h
  case budgetTick => exact linksAndBusLaw_budgetTick h
  case bringUpStallExpiry | loadStallExpiry => split <;> simpa using h
  case bringUpTrial =>
    unfold Part.trial
    split
    · exact linksAndBusLaw_trials h _
    · exact h
  case selection => exact linksAndBusLaw_selection h
  case bootTimerExpiry i => exact linksAndBusLaw_bootExpiry h
  case alignTimerExpiry i => exact linksAndBusLaw_alignExpiry h
  case offTimerExpiry i => exact linksAndBusLaw_offExpiry h
  case stableTimerExpiry i => exact linksAndBusLaw_stableExpiry h
  case pollTimerExpiry i => exact linksAndBusLaw_pollExpiry h
  case completionTimeout i index gen => exact linksAndBusLaw_deadlineExpiry h _
  case exchangeOpen g => exact linksAndBusLaw_openExchange h
  case replyWindowClose g => exact linksAndBusLaw_windowClose h
  all_goals exact linksAndBusLaw_takeReply h _

/-- Settles O58: inside a change every operation keeps the laws but the arbiters' (`Part.MidwayLaw`), the grants that follow a
change settle both segments (`settled_grants`), the ends of transfers and the requests of ownership keep the links' laws, and a
law that every command keeps is kept by every step. -/
theorem linksAndBusLawKept : Obligations.LinksAndBusLawKept := fun _ _ =>
  kept_by_step (Inv := Part.LinksAndBusLaw) fun c _ h => linksAndBusLaw_effect c h

end Sys2Proof.Machine
end

section
namespace Sys2Proof.Machine

/-! ### CAPTURE_QUERY and CAPTURE_CLEAR (R102, R103, R203) -/

theorem body_empty {c : Capture} (h : c.fault = none) : c.body = [0, 0, 0, 0, 0, 0, 0, 0] := by simp [Capture.body, h]

theorem body_full {c : Capture} {f : Captured} (h : c.fault = some f) : c.body =
    [1, f.kind.code, byteOf f.slot.val, if f.handle.isSome then 1 else 0,
      (f.handle.map fun h => byteOf (h.index.val / 256)).getD 0, (f.handle.map fun h => byteOf h.index.val).getD 0,
      (f.handle.map fun h => byteOf h.gen.val).getD 0, byteOf c.overflow] := by
  cases hh : f.handle <;> simp [Capture.body, h, hh, handle_bytes]

/-- Settles O32: the two requests run their blocks, and an offered fault is captured as the statements say it (`offer_eq`). -/
theorem captureRequests : Obligations.CaptureRequests := by
  refine ⟨rfl, ?_⟩
  intro s l p
  refine ⟨fun h hf => ?_, fun h f hf => ?_, fun h => ?_, fun h ho => ?_, offer_eq⟩
  · exact accepts_plain h rfl (by rw [body_empty hf])
  · exact accepts_plain h rfl (by rw [body_full hf])
  · exact accepts_change h rfl rfl
  · intro hf
    rw [show exec (.captureClear l) s = .next (s.lift (Part.sent (.captureClear l) (Part.request l true true
      fun p => ({ p with capture := .empty }, okay [])))) from rfl, State.lift, sent_read h.2 hf rfl, request_notOwner h ho]

end Sys2Proof.Machine
end

section
namespace Sys2Proof.Machine

variable {p : Part} {i : SlotId} {r : Rec}

/-! ### The recovery-complete test and the end of a bring-up block (R127, R156) -/

theorem recoveryTest_done (h : p.spm.state = .recovery ∧ p.spm.lost = false ∧ p.fbu.ceiling = p.cfg.budget.limit ∧
    p.noneRecovering = true) : p.recoveryTest = p.recovered := if_pos h

theorem recoveryTest_undone (h : ¬(p.spm.state = .recovery ∧ p.spm.lost = false ∧ p.fbu.ceiling = p.cfg.budget.limit ∧
    p.noneRecovering = true)) : p.recoveryTest = p := if_neg h

theorem not_waiting_iff {x : Slot} : x.waiting = false ↔ x.state ≠ .off ∨ x.parked = true ∨ x.offTimer.isSome = true := by
  rw [← Bool.not_eq_true, waiting_iff, not_and_or, not_and_or, Bool.not_eq_false, Option.isSome_iff_ne_none]

theorem stallCheck_ends (h : ∀ i, (p.slot i).waiting = false) :
    p.stallCheck = p.onFbu fun f => { f with bringUp := .clear } := by
  unfold Part.stallCheck
  rw [headWaiting_none.2 h]

theorem stallCheck_stands (h : (p.slot i).waiting = true) : p.stallCheck = p := by
  unfold Part.stallCheck
  split
  · rename_i hn
    rw [headWaiting_none.1 hn i] at h
    cases h
  · rfl

/-! ### The load test and the bring-up reserve (R149, R150, R153, R154) -/

theorem reserve_none (h : ∀ i, (p.slot i).waiting = false) : p.reserve = 0 := by
  unfold Part.reserve
  rw [headWaiting_none.2 h]

theorem reserve_head (h : p.headWaiting = some i) :
    p.reserve = (p.profile (p.slot i)).inrush + (p.profile (p.slot i)).base := by
  unfold Part.reserve
  rw [h]
  rfl

theorem loadTest_iff : p.loadTest r = true ↔
    if r.cls = .c0 then r.cost.val ≤ p.headroom else r.cost.val ≤ p.headroom - p.reserve := by
  unfold Part.loadTest
  cases r.cls <;> simp

/-- A record without a cost passes the load test whatever the headroom (R154). -/
theorem loadTest_free (h : r.cost.val = 0) : p.loadTest r = true := by
  rw [loadTest_iff, h]
  split <;> exact Nat.zero_le _

/-- Settles O37: the recovery-complete test and the block's end by their conditions, and the load test by the head waiting slot,
the first of those that wait. -/
theorem budgetTests : Obligations.BudgetTests := by
  constructor
  · intro p recovering done
    refine ⟨fun ⟨hs, hl, hc, hr⟩ => ?_, fun h => ?_, fun h => ?_, fun i hs hp ht => ?_, rfl⟩
    · exact recoveryTest_done ⟨hs, hl, hc, noneRecovering_iff.2 hr⟩
    · exact recoveryTest_undone fun ⟨hs, hl, hc, hr⟩ => h ⟨hs, hl, hc, noneRecovering_iff.1 hr⟩
    · exact stallCheck_ends fun i => not_waiting_iff.2 (h i)
    · exact stallCheck_stands (waiting_iff.2 ⟨hs, hp, ht⟩)
  · intro p r head waits
    refine ⟨loadTest_iff, fun h => ?_, fun i hi hfirst => ?_, loadTest_free, decide_eq_true_iff⟩
    · exact reserve_none fun i => Bool.eq_false_iff.2 fun hw => h i (waiting_iff.1 hw)
    · exact reserve_head (mem_headWaiting.2 ⟨waiting_iff.2 hi, fun j hj => hfirst j (waiting_iff.1 hj)⟩)

end Sys2Proof.Machine
end

section
namespace Sys2Proof.Machine

variable {p q : Part} {i j : SlotId} {g : SegId} {c : Category}

/-! ### The slot a grant goes to (R91) -/

/-- Slot `i` comes before slot `j` in the order after a pointer, upwards and wrapping. -/
def Precedes (ptr : Option SlotId) (i j : SlotId) : Prop :=
  match ptr with
  | none => i < j
  | some q => if q < i then i < j ∨ j ≤ q else i < j ∧ j ≤ q

theorem not_precedes {ptr : Option SlotId} (h : match ptr with
    | none => i ≤ j
    | some q => if q < i then i ≤ j ∨ j ≤ q else i ≤ j ∧ j ≤ q) : ¬Precedes ptr j i := by
  cases ptr with
  | none => exact not_lt.2 h
  | some q =>
    simp only [Precedes, Fin.lt_def, Fin.le_def] at h ⊢
    split_ifs at h ⊢ <;> omega

theorem pairwise_segSlots (g : SegId) : (segSlots g).Pairwise (· < ·) := (List.pairwise_lt_finRange 24).filter _

theorem pairwise_grantOrder (g : SegId) (ptr : Option SlotId) : (grantOrder g ptr).Pairwise (Precedes ptr) := by
  cases ptr with
  | none => exact pairwise_segSlots g
  | some q =>
    refine List.pairwise_append.2 ⟨?_, ?_, fun i hi j hj => ?_⟩
    · refine ((pairwise_segSlots g).filter _).imp_of_mem fun hi hj hij => ?_
      simp only [List.mem_filter, decide_eq_true_eq] at hi
      simp [Precedes, hi.2, hij]
    · refine ((pairwise_segSlots g).filter _).imp_of_mem fun hi hj hij => ?_
      simp only [List.mem_filter, decide_eq_true_eq] at hi hj
      simp [Precedes, not_lt.2 hi.2, hij, hj.2]
    · simp only [List.mem_filter, decide_eq_true_eq] at hi hj
      simp [Precedes, hi.2, hj.2]

/-- The first eligible slot after the pointer is the one picked. -/
theorem pick_eq (hi : segOf i = g) (he : (p.slot i).eligible c = true)
    (hfirst : ∀ j, segOf j = g → (p.slot j).eligible c = true → ¬Precedes ((p.seg g).ptr c) j i) : p.pick g c = some i := by
  cases hp : p.pick g c with
  | none => exact absurd (pick_none.1 hp i hi) (by simp [he])
  | some j =>
    obtain ⟨hj, hje⟩ := of_pick hp
    obtain ⟨-, as, bs, horder, hnone⟩ := List.find?_eq_some_iff_append.1 hp
    have hmem : i ∈ as ++ j :: bs := horder ▸ mem_grantOrder.2 hi
    have hpair : (as ++ j :: bs).Pairwise (Precedes ((p.seg g).ptr c)) := horder ▸ pairwise_grantOrder g _
    rcases List.mem_append.1 hmem with hm | hm
    · simpa [he] using hnone i hm
    · rcases List.mem_cons.1 hm with rfl | hm
      · rfl
      · exact absurd (List.rel_of_pairwise_cons (List.pairwise_append.1 hpair).2.1 hm) (hfirst j hj hje)

/-- A grant goes to the first category that has an eligible producer. -/
theorem grantOne_eq (hp : p.pick g c = some i) (hbefore : ∀ b, b = .engine ∧ c ≠ .engine ∨ b = .drop ∧ c = .poll →
    p.pick g b = none) : p.grantOne g = some ((p.grant i c).updSeg g (Segment.setPtr c i)) := by
  unfold Part.grantOne
  cases c with
  | engine => simp [hp]
  | drop => simp [hp, hbefore .engine (.inl ⟨rfl, nofun⟩)]
  | poll => simp [hp, hbefore .engine (.inl ⟨rfl, nofun⟩), hbefore .drop (.inr ⟨rfl, rfl⟩)]

@[simp] theorem ptr_setPtr (x : Segment) : (x.setPtr c i).ptr c = some i := by cases c <;> rfl

/-! ### The grants that follow a grant (R91) -/

theorem grants_full {n : Nat} (h : 16 ≤ (p.seg g).queue.length) : Part.grants g n p = p := by
  cases n with
  | zero => rfl
  | succ n => exact if_neg (Nat.not_lt.2 h)

theorem grants_none {n : Nat} (h : p.grantOne g = none) : Part.grants g n p = p := by
  cases n <;> simp [Part.grants, h]

theorem grants_succ {n : Nat} (hl : (p.seg g).queue.length < 16) (h : p.grantOne g = some q) :
    Part.grants g (n + 1) p = Part.grants g n q := by
  simp [Part.grants, Config.queueRoom, hl, h]

/-- How many grants may be made tells nothing, where there are as many as free places. -/
theorem grants_enough {n m : Nat} (hn : 16 ≤ (p.seg g).queue.length + n) (hm : 16 ≤ (p.seg g).queue.length + m) :
    Part.grants g n p = Part.grants g m p := by
  induction n generalizing p m with
  | zero => rw [grants_full hn, grants_full hn]
  | succ n ih =>
    by_cases hl : (p.seg g).queue.length < 16
    · cases m with
      | zero => omega
      | succ m =>
        cases hone : p.grantOne g with
        | none => rw [grants_none hone, grants_none hone]
        | some q =>
          have hlen := length_grantOne hone
          rw [grants_succ hl hone, grants_succ hl hone]
          exact ih (by omega) (by omega)
    · rw [grants_full (Nat.not_lt.1 hl), grants_full (Nat.not_lt.1 hl)]

theorem arbitrate_grantOne (h : p.grantOne g = some q) (hl : (p.seg g).queue.length < 16) :
    p.arbitrate g = q.arbitrate g := by
  have hlen := length_grantOne h
  calc p.arbitrate g = Part.grants g 15 q := grants_succ hl h
    _ = q.arbitrate g := grants_enough (by omega) (Nat.le_add_left ..)

/-- Settles O43: the grant's slot by the order after the pointer (`pick_eq`), its category (`grantOne_eq`), what it makes of the
slot and the queue (`grant_eligible`), and the end of the grants (`settled_arbitrate`). -/
theorem arbiterGrants : Obligations.ArbiterGrants := by
  intro p g wants first after
  have wants_iff (c : Category) (i : SlotId) : wants c i ↔ segOf i = g ∧ (p.slot i).eligible c = true :=
    (and_congr_right' eligible_iff).symm
  have idle (h : ∀ c i, ¬wants c i) : p.grantOne g = none := grantOne_none.2 fun i hi c =>
    Bool.eq_false_iff.2 fun he => h c i ((wants_iff c i).2 ⟨hi, he⟩)
  refine ⟨fun c i hw hcat hslot => ?_, fun h => grants_none (idle h), grants_full, settled_arbitrate⟩
  obtain ⟨rfl, he⟩ := (wants_iff c i).1 hw
  have hpick : p.pick (segOf i) c = some i := pick_eq rfl he fun j hj hje =>
    not_precedes (hslot j ((wants_iff c j).2 ⟨hj, hje⟩))
  have hone := grantOne_eq hpick fun b hb => pick_none.2 fun j hj => Bool.eq_false_iff.2 fun hje =>
    hcat b j ((wants_iff b j).2 ⟨hj, hje⟩) hb
  obtain ⟨y, f, hgrant, hproduces⟩ := grant_eligible he
  refine ⟨_, hone, arbitrate_grantOne hone, by simp, ⟨f, ?_, ?_⟩, fun j hj => ?_⟩
  · rw [seg_updSeg_self, queue_setPtr, hgrant, seg_enqueue, if_pos rfl, seg_setSlot]
  · rw [slot_updSeg, hgrant, slot_enqueue, slot_setSlot_self]
    cases c <;> exact hproduces
  · rw [slot_updSeg, slot_grant hj]

end Sys2Proof.Machine
end

section
namespace Sys2Proof.Machine

variable {p : Part} {g : SegId} {e : Exchange}

/-! ### An exchange opens (R86, R204) -/

/-- A frame's bytes up to its check byte (R204). -/
def Frame.opened (f : Frame) (i : SlotId) : List Byte := f.code :: byteOf i.val :: byteOf f.body.length :: f.body

theorem bytes_eq_opened (q : QFrame) : q.bytes =
    q.frame.opened q.slot ++ [(q.frame.opened q.slot).foldl (fun c b => c ^^^ b) 0] := rfl

theorem opened_eq (f : Frame) (i : SlotId) : f.opened i = match f with
    | .poll => [0x01, byteOf i.val, 0]
    | .align ph => [0x02, byteOf i.val, 1, byteOf ph.val]
    | .load h c legs => [0x03, byteOf i.val, byteOf (5 + 4 * legs.length), byteOf (h.index.val / 256),
        byteOf h.index.val, byteOf h.gen.val, byteOf c.val, byteOf legs.length] ++
        legs.flatMap fun l => [byteOf l.highway.val, l.dir.code, byteOf (l.timeslot.val / 256), byteOf l.timeslot.val]
    | .drop h => [0x04, byteOf i.val, 3, byteOf (h.index.val / 256), byteOf h.index.val, byteOf h.gen.val]
    | .digest => [0x05, byteOf i.val, 0]
    | .clear => [0x06, byteOf i.val, 0] := by
  cases f with
  | load h c legs =>
    have hlen : (Frame.load h c legs).body.length = 5 + 4 * legs.length := by
      simp only [Frame.body, handle_bytes, List.length_append, legBytes_length, List.length_cons, List.length_nil]
    rw [Frame.opened, hlen, Frame.body, handle_bytes, legBytes_eq]
    rfl
  | drop h =>
    rw [Frame.opened, Frame.body, handle_bytes]
    rfl
  | poll | align | digest | clear => rfl

/-- The entry of a LOAD or DROP that is sent is marked so, and a slot-engine frame stands in its exchange (R86, R92). -/
theorem frameSent_eq (f : Frame) (x : Slot) : x.frameSent f = { x with
    inflight := x.inflight.map fun e => if f.handle? = some e.handle then { e with sent := true } else e
    engine := x.engine.map fun e => if f.isEngine then { e with place := .inExchange } else e } := by
  cases f with
  | load h | drop h => simp [Slot.frameSent, Frame.handle?, Frame.isEngine, eq_comm]
  | poll | align | digest | clear => simp [Slot.frameSent, Frame.handle?, Frame.isEngine]

theorem openExchange_idle {f : QFrame} {rest : List QFrame} (hi : (p.seg g).inProgress = none)
    (hq : (p.seg g).queue = f :: rest) : p.openExchange g =
      ((p.setSeg g { p.seg g with
        queue := rest
        inProgress := some ⟨f.slot, f.frame, false, (p.seg g).exchanges + 1⟩
        sent := f.bytes
        exchanges := (p.seg g).exchanges + 1 }).setSlot f.slot ((p.slot f.slot).frameSent f.frame)).arbitrate g := by
  unfold Part.openExchange
  rw [hi, hq]
  simp only [updSlot_eq, slot_updSeg]
  rfl

theorem openExchange_none (h : (p.seg g).inProgress.isSome = true ∨ (p.seg g).queue = []) : p.openExchange g = p := by
  unfold Part.openExchange
  split
  · simp_all
  · rfl

/-- Settles O42: the opening as one change (`openExchange_idle`), with the frame's bytes (`opened_eq`) and the mark of what is
sent (`frameSent_eq`). -/
theorem exchangeOpens : Obligations.ExchangeOpens := by
  intro s g p z
  refine ⟨fun f rest hi hq => ?_, fun h => exec_same (openExchange_none h)⟩
  intro x bytes
  have hbytes : f.bytes = bytes ++ [bytes.foldl (fun c b => c ^^^ b) 0] := by
    rw [bytes_eq_opened, show f.frame.opened f.slot = bytes from opened_eq _ _]
  refine exec_next ((openExchange_idle hi hq).trans ?_)
  rw [hbytes, frameSent_eq]

/-! ### A reply window closes; orphaned and idle segments (R86, R88, R89, R93) -/

/-- A command taken as a reply, or as the close of the reply window, is an end of its segment's exchange. -/
theorem effect_endsExchange {c : Instr} (h : c = .replyWindowClose g ∨ c = .replyBreakOff g ∨ (∃ w, c = .pollReply g w) ∨
    (∃ b, c = .accept g b) ∨ (∃ b r, c = .refuse g b r) ∨ (∃ b n x y, c = .digestReply g b n x y) ∨
    ∃ bs, c = .malformedOrUnexpectedReply g bs) : ∃ handle, Part.effect c = Part.withExchange g handle := by
  rcases h with rfl | rfl | ⟨_, rfl⟩ | ⟨_, rfl⟩ | ⟨_, _, rfl⟩ | ⟨_, _, _, _, rfl⟩ | ⟨_, rfl⟩ <;> exact ⟨_, rfl⟩

/-- Settles O44: every such command is an end of the exchange, which an idle segment has not and an orphaned exchange only
undergoes (`withExchange_idle`, `withExchange_orphan`); the close of the window is a missed reply (`missedReply_spec`). -/
theorem windowCloseCountsMiss : Obligations.WindowCloseCountsMiss := by
  intro s g p
  refine ⟨fun c hc => ?_, fun e he ho ht => ?_⟩
  · obtain ⟨handle, heffect⟩ := effect_endsExchange hc
    refine ⟨fun hn => exec_same ?_, fun e he ho => exec_next ?_⟩
    · rw [heffect, withExchange_idle hn]
    · rw [heffect, withExchange_orphan he ho]
  · exact ⟨_, missedReply_spec (by rw [idled_ctb]; exact ht), exec_next (withExchange_open he ho)⟩

end Sys2Proof.Machine
end

section
namespace Sys2Proof.Machine

variable {p : Part} {g : SegId} {e : Exchange} {s : State} {k : CaptureKind} {c : Instr} {r : SlotReply}

/-! ### A bad reply (R87, R102) -/

/-- A command whose reply is judged bad offers it to the capture and counts a missed reply. -/
theorem exec_badReply (hp : (s.part.seg g).inProgress = some e) (ho : e.orphan = false) (ht : s.part.ctb.TableLaw)
    (hc : Part.effect c = Part.takeReply g r) (hj : judge e r = .error k) :
    ∃ q : Part, ((s.part.idled g e).captured ⟨k, e.slot, none⟩).Missed e q ∧
      exec c s = .next ⟨(q.polled e).follow, s.pending⟩ :=
  ⟨_, missedReply_spec (by rw [captured_ctb, idled_ctb]; exact ht), exec_next (by rw [hc, takeReply_bad hp ho hj])⟩

theorem effect_replyBreakOff : Part.effect (.replyBreakOff g) = Part.takeReply g none := rfl
theorem effect_pollReply (w : WirePoll) : Part.effect (.pollReply g w) = Part.takeReply g (pollReplyOf w) := rfl
theorem effect_accept (b : Byte) : Part.effect (.accept g b) = Part.takeReply g (acceptReply b) := rfl
theorem effect_refuse (b r : Byte) : Part.effect (.refuse g b r) = Part.takeReply g (refuseReply b r) := rfl
theorem effect_digestReply (b : Byte) (n : BitVec 16) (x : BitVec 24) (y : BitVec 32) :
    Part.effect (.digestReply g b n x y) = Part.takeReply g (digestReplyOf b n.toNat x.toNat y.toNat) := rfl
theorem effect_rawReply (bytes : List Byte) :
    Part.effect (.malformedOrUnexpectedReply g bytes) = Part.takeReply g (replyOfBytes bytes) := rfl

theorem judge_none : judge e none = .error .malformedReply := rfl

theorem judge_malformed {b : Byte} {r : Option Reply} (h : 24 ≤ b.toNat ∨ r = none) :
    judge e (slotReply b r) = .error .malformedReply := by
  unfold slotReply
  rcases h with h | h
  · rw [fin?_none h]
    rfl
  · rw [h]
    cases fin? 24 b.toNat <;> rfl

theorem judge_wrongSlot {b : Byte} {r : Reply} (h : b.toNat < 24 ∧ b.toNat ≠ e.slot.val) :
    judge e (slotReply b (some r)) = .error .wrongSlot := by
  obtain ⟨hlt, hne⟩ := h
  have hi : (⟨b.toNat, hlt⟩ : SlotId) ≠ e.slot := fun h => hne (congrArg Fin.val h)
  have hin : fin? 24 b.toNat = some ⟨b.toNat, hlt⟩ := dif_pos hlt
  simp only [slotReply, hin]
  exact if_pos hi

theorem judge_unexpected {r : Reply} (h : expects e.frame r = false) :
    judge e (slotReply (byteOf e.slot.val) (some r)) = .error .unexpectedReply := by
  have hin : fin? 24 (byteOf e.slot.val).toNat = some e.slot := fin?_byteOf (by decide) e.slot
  simp [slotReply, hin, judge, h]

/-! ### The codings of a reply's fields (R87, R204) -/

theorem phaseOf_eq_none {b : Byte} : phaseOf b = none ↔ b.toNat ∉ [1, 2, 3, 4] := by
  unfold phaseOf
  split <;> simp_all

theorem resultOf_eq_none {b : Byte} : resultOf b = none ↔ b.toNat ∉ [1, 2] := by
  unfold resultOf
  split <;> simp_all

theorem refuseReasonOf_eq_none {b : Byte} : refuseReasonOf b = none ↔ b.toNat ∉ [1, 2, 3] := by
  unfold refuseReasonOf
  split <;> simp_all

theorem refuseReasonOf_queueFull {b : Byte} (h : refuseReasonOf b = some .queueFull) : b.toNat = 3 := by
  unfold refuseReasonOf at h
  split at h <;> simp_all

theorem fin?_eq_none {n x : Nat} : fin? n x = none ↔ n ≤ x := by
  simp [fin?]

theorem handleOf_eq_none {w : WireHandle} : handleOf w = none ↔ 4096 ≤ w.index.toNat ∨ 16 ≤ w.gen.toNat := by
  refine ⟨fun h => ?_, handleOf_none⟩
  by_contra hn
  obtain ⟨hk, hg⟩ := not_or.1 hn
  simp [handleOf, fin?, Nat.lt_of_not_le hk, Nat.lt_of_not_le hg] at h

theorem completionOf_eq_none {c : WireCompletion} : completionOf c = none ↔
    4096 ≤ c.handle.index.toNat ∨ 16 ≤ c.handle.gen.toNat ∨ c.result.toNat ∉ [1, 2] := by
  rw [← or_assoc, ← handleOf_eq_none, ← resultOf_eq_none, completionOf]
  cases handleOf c.handle <;> cases resultOf c.result <;> simp

theorem completions?_eq_none {cs : List WireCompletion} : completions? cs = none ↔ ∃ c ∈ cs, completionOf c = none := by
  induction cs with
  | nil => simp [completions?]
  | cons c cs ih =>
    rw [List.exists_mem_cons_iff, ← ih, completions?]
    cases completionOf c <;> cases completions? cs <;> simp

/-- A POLL_REPLY's fields are none exactly where one of them, or a completion's, is outside its coding. -/
theorem pollFieldsOf_eq_none {w : WirePoll} : pollFieldsOf w = none ↔ w.phase.toNat ∉ [1, 2, 3, 4] ∨
    16 ≤ w.cardType.toNat ∨ w.depth.toNat = 0 ∨ 8 < w.depth.toNat ∨ 1 < w.fatal.toNat ∨ 4 < w.completions.length ∨
    ∃ c ∈ w.completions, 4096 ≤ c.handle.index.toNat ∨ 16 ≤ c.handle.gen.toNat ∨ c.result.toNat ∉ [1, 2] := by
  simp only [← completionOf_eq_none]
  rw [← completions?_eq_none, ← phaseOf_eq_none, ← fin?_eq_none, pollFieldsOf]
  split
  · next hin =>
    obtain ⟨hdepth, hdepth', hfatal, hlen⟩ := hin
    simp only [Nat.ne_of_gt hdepth, Nat.not_lt.2 hdepth', Nat.not_lt.2 hfatal, Nat.not_lt.2 hlen, false_or]
    cases phaseOf w.phase <;> cases fin? 16 w.cardType.toNat <;> cases completions? w.completions <;> simp
  · next hout =>
    have : w.depth.toNat = 0 ∨ 8 < w.depth.toNat ∨ 1 < w.fatal.toNat ∨ 4 < w.completions.length := by omega
    tauto

/-! ### Replies as raw bytes (R204) -/

theorem length_of_readCompletions {n : Nat} {bs : List Byte} {cs : List WireCompletion}
    (h : readCompletions n bs = some cs) : bs.length = 4 * n := by
  fun_induction readCompletions n bs generalizing cs with
  | case1 => rfl
  | case2 n b2 b1 b0 res bs ih =>
    obtain ⟨cs', hcs', -⟩ := Option.map_eq_some_iff.1 h
    simp only [List.length_cons, ih hcs']
    omega
  | case3 => cases h

/-- A body that spells a POLL_REPLY has the length that its count of completions gives. -/
theorem length_of_readPoll {slot : Byte} {body : List Byte} {w : WirePoll} (h : readPoll slot body = some w) :
    10 ≤ body.length ∧ body.length = 10 + 4 * (body.getD 9 0).toNat := by
  unfold readPoll at h
  split at h
  · next m bs =>
    obtain ⟨cs, hcs, -⟩ := Option.map_eq_some_iff.1 h
    have hlen := length_of_readCompletions hcs
    simp only [List.length_cons, hlen, List.getD_cons_succ, List.getD_cons_zero]
    omega
  · cases h

/-- The kinds of reply, each with the length of its body. -/
def ReplyFits (kind : Byte) (body : List Byte) : Prop :=
  kind = 0x81 ∧ 10 ≤ body.length ∧ body.length = 10 + 4 * (body.getD 9 0).toNat ∨
    kind = 0x82 ∧ body.length = 0 ∨ kind = 0x83 ∧ body.length = 1 ∨ kind = 0x84 ∧ body.length = 9

theorem readReply_of_not_fits {kind slot : Byte} {bs : List Byte} (h : ¬ReplyFits kind bs) :
    readReply kind slot bs = none := by
  unfold readReply
  split
  case h_1 bs _ _ hk =>
    cases hw : readPoll slot bs with
    | none => rfl
    | some w => exact absurd (.inl ⟨BitVec.eq_of_toNat_eq hk, length_of_readPoll hw⟩) h
  case h_2 hk => exact absurd (.inr (.inl ⟨BitVec.eq_of_toNat_eq hk, rfl⟩)) h
  case h_3 hk => exact absurd (.inr (.inr (.inl ⟨BitVec.eq_of_toNat_eq hk, rfl⟩))) h
  case h_4 hk => exact absurd (.inr (.inr (.inr ⟨BitVec.eq_of_toNat_eq hk, rfl⟩))) h
  case h_5 => rfl

theorem replyOfBytes_short {bytes : List Byte} (h : bytes.length < 3) : replyOfBytes bytes = none := by
  match bytes with
  | [] | [_] | [_, _] => rfl
  | _ :: _ :: _ :: _ => exact absurd h (by simp only [List.length_cons]; omega)

/-- Bytes that end before the check byte that their length gives spell no reply. -/
theorem replyOfBytes_cut {kind slot len : Byte} {rest : List Byte} (h : rest.length ≤ len.toNat) :
    replyOfBytes (kind :: slot :: len :: rest) = none := by
  simp only [replyOfBytes, List.drop_eq_nil_of_le h]

theorem replyOfBytes_whole {kind slot check : Byte} {body rest : List Byte} (h : body.length ≤ 255) :
    replyOfBytes (kind :: slot :: byteOf body.length :: body ++ check :: rest) =
      if check = checkByte (kind :: slot :: byteOf body.length :: body) then readReply kind slot body else none := by
  simp only [List.cons_append, replyOfBytes, byte_len h, List.take_left, List.drop_left]

theorem replyOfBytes_bad {kind slot check : Byte} {body rest : List Byte} (h : body.length ≤ 255)
    (hbad : ¬(check = checkByte (kind :: slot :: byteOf body.length :: body) ∧ ReplyFits kind body)) :
    replyOfBytes (kind :: slot :: byteOf body.length :: body ++ check :: rest) = none := by
  rw [replyOfBytes_whole h]
  split
  · next hsound => exact readReply_of_not_fits fun hfits => hbad ⟨hsound, hfits⟩
  · rfl

/-! ### The replies that a frame does not expect (R84, R96) -/

theorem expects_poll {f : Frame} (h : f ≠ .poll) (x : PollFields) : expects f (.poll x) = false := by
  cases f with
  | poll => exact absurd rfl h
  | align | load | drop | digest | clear => rfl

theorem expects_digest {f : Frame} (h : f ≠ .digest) (n x y : Nat) : expects f (.digest n x y) = false := by
  cases f with
  | digest => exact absurd rfl h
  | align | load | drop | poll | clear => rfl

theorem expects_accept {f : Frame} (h : f = .poll ∨ f = .digest) : expects f .accept = false := by
  rcases h with rfl | rfl <;> rfl

theorem expects_refuse {f : Frame} {why : RefuseReason} (hl : ∀ h c legs, f ≠ .load h c legs)
    (hd : ∀ h, f = .drop h → why ≠ .queueFull) : expects f (.refuse why) = false := by
  cases f with
  | load h c legs => exact absurd rfl (hl h c legs)
  | drop h => exact decide_eq_false (hd h rfl)
  | align | poll | digest | clear => rfl

/-- Settles O45: every clause is one judgement (`judge_malformed`, `judge_wrongSlot`, `judge_unexpected`) of the reply that the
command spells, and `exec_badReply` says what a bad one does. -/
theorem badRepliesCaptured : Obligations.BadRepliesCaptured := by
  intro s g e p bad away here broken hp ho ht
  have judged {c : Instr} {r : SlotReply} {k : CaptureKind} (hc : Part.effect c = Part.takeReply g r)
      (hj : judge e r = .error k) : bad c k := exec_badReply hp ho ht hc hj
  have spelled {w : WirePoll} (hw : ¬broken w) : ∃ f, pollFieldsOf w = some f :=
    Option.ne_none_iff_exists'.1 fun h => hw (.inr (pollFieldsOf_eq_none.1 h))
  have reason {r : Byte} (hr : r.toNat ∈ [1, 2, 3]) : ∃ why, refuseReasonOf r = some why :=
    Option.ne_none_iff_exists'.1 fun h => refuseReasonOf_eq_none.1 h hr
  refine ⟨judged effect_replyBreakOff judge_none, fun w => ⟨fun hw => ?_, fun hw ha => ?_, fun hw hs hf => ?_⟩,
    fun b => ⟨fun hb => judged (effect_accept b) (judge_malformed (.inl hb)),
      fun ha => judged (effect_accept b) (judge_wrongSlot ha)⟩,
    fun hf => judged (effect_accept here) (judge_unexpected (expects_accept hf)),
    fun b r => ⟨fun hb => ?_, fun ha hr => ?_, fun hr hl hd => ?_⟩,
    fun b n x y => ⟨fun hb => ?_, fun ha hn => ?_, fun hn hf => ?_⟩,
    fun bytes hlen => judged (effect_rawReply _) (by rw [replyOfBytes_short hlen, judge_none]),
    fun kind slot len rest hlen => judged (effect_rawReply _) (by rw [replyOfBytes_cut hlen, judge_none]),
    fun kind slot check body rest hlen hbad => judged (effect_rawReply _) (by rw [replyOfBytes_bad hlen hbad, judge_none])⟩
  · refine judged (effect_pollReply w) (judge_malformed (hw.imp_right fun h => ?_))
    rw [pollFieldsOf_eq_none.2 h]
    rfl
  · obtain ⟨f, hf⟩ := spelled hw
    exact judged (effect_pollReply w) (by rw [pollReplyOf, hf]; exact judge_wrongSlot ha)
  · obtain ⟨f, hx⟩ := spelled hw
    exact judged (effect_pollReply w) (by rw [pollReplyOf, hx, hs]; exact judge_unexpected (expects_poll hf f))
  · refine judged (effect_refuse b r) (judge_malformed (hb.imp_right fun h => ?_))
    rw [refuseReasonOf_eq_none.2 h]
    rfl
  · obtain ⟨why, hw⟩ := reason hr
    exact judged (effect_refuse b r) (by rw [refuseReply, hw]; exact judge_wrongSlot ha)
  · obtain ⟨why, hw⟩ := reason hr
    have hwhy (h : Handle) (hf : e.frame = .drop h) : why ≠ .queueFull := fun hq =>
      hd h hf (refuseReasonOf_queueFull (hq ▸ hw))
    exact judged (effect_refuse here r) (by
      rw [refuseReply, hw]; exact judge_unexpected (expects_refuse hl hwhy))
  · exact judged (effect_digestReply b n x y) (judge_malformed (hb.imp_right fun h => if_neg (Nat.not_le.2 h)))
  · exact judged (effect_digestReply b n x y) (by rw [digestReplyOf, if_pos hn]; exact judge_wrongSlot ha)
  · exact judged (effect_digestReply here n x y) (by
      rw [digestReplyOf, if_pos hn]; exact judge_unexpected (expects_digest hf _ _ _))

end Sys2Proof.Machine
end

section
namespace Sys2Proof.Machine

variable {p : Part}

/-! ### BUDGET_SET (R127, R141, R142) -/

theorem clampStall_eq (x : Nat) : clampStall x = if x = 0 then 0 else max 10 (min 2550 x) := rfl

/-- The limit is a 16-bit field, so that only its lower bound is a clamp (R141). -/
theorem clamp_limit (x : BitVec 16) : clamp 1000 65535 x.toNat = max 1000 x.toNat := by
  simp only [clamp, Nat.min_eq_right (show x.toNat ≤ 65535 by have := x.isLt; omega)]

theorem budgetOf_eq (f : WireBudget) : budgetOf f = ⟨max 1000 f.limit.toNat, min 16 f.start.toNat, min 11 f.slew.toNat,
    if f.stall.toNat = 0 then 0 else max 10 (min 2550 f.stall.toNat)⟩ := by
  rw [budgetOf, clamp_limit, clampStall_eq]

/-- Settles O26: the settings written are `budgetOf`, and the FBU's change is followed by the recovery-complete test. -/
theorem budgetSet : Obligations.BudgetSet := by
  intro s l f hl p limit start slew stall ramp
  refine accepts_change hl rfl ?_
  rw [Part.setBudget, budgetOf_eq]
  simp only [budgetBytes, BudgetCfg.rampStart, bytesOf_two, List.cons_append, List.nil_append]
  rfl

end Sys2Proof.Machine
end

section
namespace Sys2Proof.Machine

variable {p : Part} {code : Nat}

/-! ### The filter of the average (R118, R119) -/

/-- A nearest quotient lies between 0 and the dividend. -/
theorem nearest_between {n q m : Int} (hm : 0 < m) (h : 2 * (q * m - n).natAbs ≤ m.natAbs) : min 0 n ≤ q ∧ q ≤ max 0 n := by
  have above : ∀ a b : Int, 0 < b → a < b → m ≤ b * m - a := fun a b hb hab => by
    have := mul_nonneg (show 0 ≤ b - 1 by omega) (show 0 ≤ m - 1 by omega)
    have e : (b - 1) * (m - 1) = b * m - b - m + 1 := by ring
    omega
  constructor
  · by_contra hq
    have := above (-n) (-q) (by omega) (by omega)
    rw [neg_mul] at this
    omega
  · by_contra hq
    have := above n q (by omega) (by omega)
    omega

/-- A rounded quotient lies between 0 and the dividend. -/
theorem roundEven_between (n : Int) (k : Nat) : min 0 n ≤ roundEven n k ∧ roundEven n k ≤ max 0 n := by
  refine nearest_between (m := ((2 ^ k : Nat) : Int)) (by positivity) ?_
  have h := (roundEven_spec n k).1
  rw [Int.natAbs_natCast]
  push_cast
  exact h

/-- A later sample moves the average by the rounded step, and not past the sample (R119). -/
theorem filterAvg_some (f a code : Nat) :
    (filterAvg f (some a) code : Int) = a + roundEven ((code * 16 : Nat) - (a : Int)) f ∧
      min a (code * 16) ≤ filterAvg f (some a) code ∧ filterAvg f (some a) code ≤ max a (code * 16) := by
  have h := roundEven_between ((code * 16 : Nat) - (a : Int)) f
  simp only [filterAvg]
  omega

/-! ### What a sample leaves of the monitor (R117, R120) -/

/-- The signal-lost marker and the signal-loss timer. -/
def Spm.signal (m : Spm) : Bool × Timer := (m.lost, m.signalTimer)

theorem signal_enterSag (p : Part) (fresh : Bool) : (p.enterSag fresh).spm.signal = p.spm.signal := by
  rw [(enterSag_told p fresh).spm]
  cases fresh <;> rfl

theorem signal_sagRule (p : Part) : p.sagRule.spm.signal = p.spm.signal := by
  unfold Part.sagRule
  split
  · rw [(enterOutage_told p).spm]
    rfl
  · split <;> rfl

theorem signal_supplyRule (p : Part) : p.supplyRule.spm.signal = p.spm.signal := by
  unfold Part.supplyRule
  split
  case h_3 => exact signal_sagRule p
  case h_4 => split <;> rfl
  all_goals
    split
    · rw [signal_sagRule, signal_enterSag]
    · rfl

theorem signal_recoveryTest (p : Part) : p.recoveryTest.spm.signal = p.spm.signal := by
  unfold Part.recoveryTest
  split <;> rfl

/-- A sample clears the signal-lost marker and restarts the signal-loss timer (R117). -/
theorem signal_sample : (p.sample code).spm.signal = (false, some 1) := by
  rw [sample_eq]
  split
  · rw [signal_recoveryTest, signal_supplyRule]
    rfl
  · rw [signal_supplyRule]
    rfl

theorem persist_eq (c : Prop) [Decidable c] (n : Nat) : persist (decide c) n = if c then min 255 (n + 1) else 0 := by
  simp [persist, Config.byteMax]

/-- Settles O33: the average and the counters are those of the measurement (`figures_sample`), and the average's step is the
rounded quotient, which lies between 0 and the whole distance. -/
theorem sampleFiltersAndCounts : Obligations.SampleFiltersAndCounts := by
  intro s code m c level
  have hfig := figures_sample (p := s.part) (code := code.toNat)
  have hsig := signal_sample (p := s.part) (code := code.toNat)
  simp only [Part.figures, Spm.signal, Prod.mk.injEq] at hfig hsig
  obtain ⟨havg, hdip, hcut, hrest⟩ := hfig
  refine ⟨s.part.sample code.toNat, filterAvg c.shift m.avg16 code.toNat, exec_next rfl, havg, fun h => ?_, fun old h => ?_,
    hdip.trans (persist_eq _ _), hcut.trans (persist_eq _ _), hrest.trans (persist_eq _ _), hsig⟩
  · rw [h]
    rfl
  · obtain ⟨hstep, hbetween⟩ := filterAvg_some c.shift old code.toNat
    obtain ⟨hnear, heven⟩ := roundEven_spec ((code.toNat * 16 : Nat) - (old : Int)) c.shift
    rw [h]
    exact ⟨_, hstep, hnear, heven, hbetween⟩

end Sys2Proof.Machine
end

section
namespace Sys2Proof.Machine

variable {p : Part}

/-! ### The budget tick (R128, R144, R146) -/

/-- The steps of the slew codes, in the order of the codes (R140). -/
theorem slewStep_eq (code : Nat) : slewStep code = [1, 2, 5, 10, 20, 50, 100, 200, 500, 1000, 2000][code]? := by
  match code with
  | 0 | 1 | 2 | 3 | 4 | 5 | 6 | 7 | 8 | 9 | 10 => rfl
  | n + 11 => rfl

/-- A charge above 0 decays by its nearest fraction, even on a tie, or clears where that is 0 (R146). -/
theorem decay_eq {k c dec : Nat} (h : 2 * ((dec : Int) * 2 ^ k - c).natAbs ≤ 2 ^ k)
    (ht : 2 * ((dec : Int) * 2 ^ k - c).natAbs = 2 ^ k → dec % 2 = 0) : decay k c = if dec = 0 then 0 else c - dec := by
  have hdec : roundEven c k = dec := roundEven_unique h fun e => by exact_mod_cast ht e
  simp only [decay, hdec, Int.toNat_natCast]

/-- The ceiling after a tick: stepped in RECOVERY, frozen elsewhere (R144). -/
def Part.tickedCeiling (p : Part) : Nat :=
  if p.spm.state = .recovery then stepCeiling p.cfg.budget p.fbu.ceiling else p.fbu.ceiling

/-- The part after a tick, but for the recovery-complete test. -/
def Part.ticked (p : Part) : Part := p.age.decayAll.onFbu fun f => { f with ceiling := p.tickedCeiling }

theorem onFbu_self {f : Fbu → Fbu} (h : f p.fbu = p.fbu) : p.onFbu f = p := by rw [Part.onFbu, h]

section

variable (p)

@[simp] theorem aged_cfg : p.age.decayAll.cfg = p.cfg := by simp [Part.decayAll, Part.age]
@[simp] theorem aged_spm : p.age.decayAll.spm = p.spm.age := by simp [Part.decayAll, Part.age]
@[simp] theorem aged_running : p.age.decayAll.running = p.running := by simp [Part.decayAll, Part.age]
@[simp] theorem aged_fbu : p.age.decayAll.fbu = ⟨p.fbu.ceiling, p.fbu.bringUp.age, p.fbu.load.age⟩ := by
  simp [Part.decayAll, Part.age]

end

theorem budgetTick_eq : p.budgetTick = if p.tickedCeiling = p.fbu.ceiling then p.ticked else p.ticked.recoveryTest := by
  have hstate : p.spm.age.state = p.spm.state := rfl
  have hsame (h : p.tickedCeiling = p.fbu.ceiling) : p.ticked = p.age.decayAll := by
    refine onFbu_self ?_
    rw [h, aged_fbu]
  unfold Part.budgetTick Part.rampTick
  simp only [aged_cfg, aged_fbu, aged_spm, hstate]
  by_cases hr : p.spm.state = .recovery
  · have hc : stepCeiling p.cfg.budget p.fbu.ceiling = p.tickedCeiling := (if_pos hr).symm
    rw [if_pos hr, hc]
    split
    · exact (hsame ‹_›).symm
    · rfl
  · have hc : p.tickedCeiling = p.fbu.ceiling := if_neg hr
    rw [if_neg hr, if_pos hc, hsame hc]

/-- A charge after a tick; one of 0 stays 0 (R146). -/
def Part.decayed (p : Part) (x : Slot) : Nat := if 0 < x.inrush then decay (p.profile x).shift x.inrush else x.inrush

theorem slot_ticked (i : SlotId) : p.ticked.slot i = { (p.slot i).age with inrush := p.decayed (p.slot i) } := by
  have hprofile : p.age.profile (p.slot i).age = p.profile (p.slot i) := by
    simp only [Part.profile, Part.age, onFbu_cfg, onSpm_cfg, mapSlots_cfg]
    rfl
  have hage : p.age.slot i = (p.slot i).age := by
    rw [Part.age, slot_onFbu, slot_onSpm, slot_mapSlots]
  rw [Part.ticked, slot_onFbu, Part.decayAll, slot_mapSlots, hage, hprofile, Part.decayed]
  show (if 0 < (p.slot i).inrush then _ else _) = _
  split <;> rfl

/-- The part as the expiry of a stall timer in TIMING leaves it: the FBU changed, and BUDGET_STALL raised (R158). -/
theorem stalled_eq (f : Fbu → Fbu) : (p.onFbu f).raise .budgetStall = { p with
    fbu := f p.fbu
    linkA := { p.linkA with pending := p.linkA.pending ||| Notice.budgetStall.flag }
    linkB := { p.linkB with pending := p.linkB.pending ||| Notice.budgetStall.flag } } := rfl

/-- Settles O36: a tick is `Part.ticked` with the recovery-complete test where the ceiling stepped, and a stall timer's expiry
is by the stall state. -/
theorem ticksAndStallExpiries : Obligations.TicksAndStallExpiries := by
  refine ⟨fun s => ?tick, fun s => ⟨fun left h => ?_, fun h => ?_, fun left h => ?_, fun h => ?_⟩⟩
  case tick =>
    intro p step ceiling stalls
    have hceiling : ceiling = p.tickedCeiling := by
      have hstep : slewStep p.cfg.budget.slew = step := slewStep_eq _
      simp only [ceiling, Part.tickedCeiling, stepCeiling, hstep]
      cases step <;> rfl
    have hstalls : stalls = Stall.age := by
      funext x
      cases x <;> rfl
    refine ⟨p.ticked, exec_next ?_, ?_, ?_, fun i => ⟨p.decayed (p.slot i), slot_ticked i, fun h => ?_,
      fun k c dec hk hc hpos hnear heven => ?_⟩, ?_⟩
    · rw [hceiling]
      exact budgetTick_eq
    · rw [hceiling, hstalls, Part.ticked, onFbu_fbu, aged_fbu]
    · rw [Part.ticked, onFbu_spm, aged_spm]
      rfl
    · rw [Part.decayed, h]
      rfl
    · subst hk hc
      rw [Part.decayed, if_pos hpos, decay_eq hnear heven]
    · simp [Part.ticked, Part.decayAll, Part.age]
  · refine exec_next ?_
    simp only [Part.effect, h]
    exact stalled_eq _
  · refine exec_same ?_
    rcases h with h | h <;> simp only [Part.effect, h]
  · refine exec_next ?_
    simp only [Part.effect, h]
    exact stalled_eq _
  · refine exec_same ?_
    rcases h with h | h <;> simp only [Part.effect, h]

end Sys2Proof.Machine
end

section
/-! Every operation of the part keeps the laws of the settings, the ceiling and the supply's course, and so every step does
(O59). Most operations leave all that the laws read. -/

namespace Sys2Proof.Machine

variable {p q : Part} {i : SlotId} {g : SegId} {st : SlotState} {l : Link}

/-! ### What the laws read -/

/-- What the laws of the ceiling and of the supply read of the part. -/
def Part.gauge (p : Part) : Settings × Spm × Fbu × Bool := (p.cfg, p.spm, p.fbu, p.running)

/-- The laws of the ceiling and of the supply together. -/
structure Part.CourseLaw (p : Part) : Prop where
  ceiling : p.CeilingLaw
  supply : p.SupplyLaw

theorem running_of_gauge (e : q.gauge = p.gauge) : q.running = p.running := congrArg (fun x => x.2.2.2) e

theorem courseLaw_of_gauge (h : p.CourseLaw) (e : q.gauge = p.gauge) : q.CourseLaw := by
  obtain ⟨⟨settings, below, normal⟩, running, recovery, settle, signal, outage, deep, stalls, average, counters, time⟩ := h
  simp only [Part.gauge, Prod.mk.injEq] at e
  obtain ⟨hcfg, hspm, hfbu, hrunning⟩ := e
  constructor <;> constructor <;> simp only [hcfg, hspm, hfbu, hrunning] <;> assumption

/-! ### Operations that leave what the laws read -/

theorem outside_gauge : Outside Part.gauge := ⟨fun _ _ _ => rfl, fun _ g _ => by cases g <;> rfl⟩

theorem Part.Around.gauge (h : p.Around q) : q.gauge = p.gauge := by
  simp only [Part.gauge, h.cfg, h.spm, h.fbu, h.running]

section

variable (f : Slot → Slot) (n : Notice)

@[simp] theorem gauge_setSlot (x : Slot) : (p.setSlot i x).gauge = p.gauge := rfl
@[simp] theorem gauge_updSlot : (p.updSlot i f).gauge = p.gauge := rfl
@[simp] theorem gauge_setInflight (xs : List Txn) : (p.setInflight i xs).gauge = p.gauge := rfl
@[simp] theorem gauge_onCtb (fc : Ctb → Ctb) : (p.onCtb fc).gauge = p.gauge := rfl
@[simp] theorem gauge_treat (fate : Fate) : (p.treat fate i).gauge = p.gauge := rfl
@[simp] theorem gauge_updSeg (fs : Segment → Segment) : (p.updSeg g fs).gauge = p.gauge := outside_gauge.updSeg fs
@[simp] theorem gauge_updLink (fl : LinkRec → LinkRec) : (p.updLink l fl).gauge = p.gauge := by cases l <;> rfl
@[simp] theorem gauge_owner (o : Option Link) : ({ p with owner := o } : Part).gauge = p.gauge := rfl
@[simp] theorem gauge_fillers (k : Nat) : ({ p with fillers := k } : Part).gauge = p.gauge := rfl
@[simp] theorem gauge_raise : (p.raise n).gauge = p.gauge := rfl
@[simp] theorem gauge_raiseOn : (p.raiseOn l n).gauge = p.gauge := gauge_updLink _
@[simp] theorem gauge_arbitrate : (p.arbitrate g).gauge = p.gauge := outside_gauge.arbitrate
@[simp] theorem gauge_enqueue (x : Frame) : (p.enqueue i x).gauge = p.gauge := gauge_updSeg _
@[simp] theorem gauge_rewindow : (p.rewindow i).gauge = p.gauge := rfl
@[simp] theorem gauge_recordBoot (k : BitVec 8) : (p.recordBoot i k).gauge = p.gauge := rfl
@[simp] theorem gauge_setIdentity (x : Card) : (p.setIdentity i x).gauge = p.gauge := rfl
@[simp] theorem gauge_enter : (p.enter i st).gauge = p.gauge := (entered_enter p i st).aside.toAround.gauge
@[simp] theorem gauge_identityCheck : (p.identityCheck i).gauge = p.gauge := (identityCheck_aside p i).toAround.gauge
@[simp] theorem gauge_classify : (p.classify i).gauge = p.gauge := (classify_aside p i).toAround.gauge

@[simp] theorem gauge_reportSlot : (p.reportSlot i).gauge = p.gauge := by simp [Part.reportSlot]
@[simp] theorem gauge_darken (boot : Timer) : (p.darken i boot).gauge = p.gauge := by simp [Part.darken]
@[simp] theorem gauge_powerOff (off : Timer) : (p.powerOff i st off).gauge = p.gauge := by simp [Part.powerOff]
@[simp] theorem gauge_cool : (p.cool i).gauge = p.gauge := gauge_powerOff _
@[simp] theorem gauge_enable : (p.enable i).gauge = p.gauge := by simp [Part.enable]
@[simp] theorem gauge_callEngine (x : Frame) : (p.callEngine i x).gauge = p.gauge := by simp [Part.callEngine]
@[simp] theorem gauge_callAlign : (p.callAlign i).gauge = p.gauge := by simp [Part.callAlign]
@[simp] theorem gauge_enterAligning : (p.enterAligning i).gauge = p.gauge := by simp [Part.enterAligning]
@[simp] theorem gauge_enterAuditing : (p.enterAuditing i).gauge = p.gauge := by simp [Part.enterAuditing]
@[simp] theorem gauge_enterHeldClearing : (p.enterHeldClearing i).gauge = p.gauge := by simp [Part.enterHeldClearing]

theorem gauge_eachSlot {turn : SlotId → Part → Part} (ht : ∀ j (q : Part), (turn j q).gauge = q.gauge) :
    (p.eachSlot turn).gauge = p.gauge :=
  List.foldlRecOn (motive := fun q : Part => q.gauge = p.gauge) _ _ rfl fun q hq j _ => (ht j q).trans hq

@[simp] theorem gauge_linkedTest : (p.linkedTest i).gauge = p.gauge := by
  unfold Part.linkedTest
  split <;> simp

@[simp] theorem gauge_enterRelinking : (p.enterRelinking i).gauge = p.gauge := by simp [Part.enterRelinking]

@[simp] theorem gauge_offer (x : Captured) : (p.offer x).gauge = p.gauge := by
  unfold Part.offer
  split <;> rfl

end

/-! ### Counted failures and replies (R60 to R70, R87, R88, R92, R96, R99, R109, R110) -/

/-- A counted failure leaves what its own rule leaves below the limit (R68). -/
theorem gauge_failed (k : Option FaultKind) {onward : Part → Part} (ho : ∀ q : Part, (onward q).gauge = q.gauge) :
    (p.failed i k onward).gauge = p.gauge := by
  rw [failed_eq]
  split
  · simp [Part.fault]
  · rw [ho, gauge_setSlot]

@[simp] theorem gauge_cardLost (k : Option FaultKind) : (p.cardLost i k).gauge = p.gauge := by
  have lost : (p.failed i k fun q => q.darken i (some q.cfg.bus.boot)).gauge = p.gauge :=
    gauge_failed k fun _ => gauge_darken _
  unfold Part.cardLost
  split
  case h_7 | h_8 | h_9 | h_10 => rfl
  all_goals exact lost

@[simp] theorem gauge_cycleFailed (k : Option FaultKind) : (p.cycleFailed i k).gauge = p.gauge :=
  gauge_failed k fun _ => gauge_cool

@[simp] theorem gauge_alignFailed : (p.alignFailed i).gauge = p.gauge := gauge_failed _ fun _ => gauge_callAlign

theorem gauge_rebootSeen (n : BitVec 8) : (p.rebootSeen i n).gauge = p.gauge := gauge_failed _ fun _ => by simp

theorem gauge_alignOutcome (f : PollFields) (n : Nat) : (p.alignOutcome i f n).gauge = p.gauge := by
  unfold Part.alignOutcome
  split
  · split
    · split <;> simp
    · exact gauge_alignFailed
    all_goals rfl
  · rfl

theorem gauge_actOnReply (f : PollFields) (n : Nat) : (p.actOnReply i f n).gauge = p.gauge := by
  unfold Part.actOnReply
  split
  · split <;> simp
  · exact gauge_alignOutcome f n
  case h_7 => split <;> simp
  case h_8 | h_9 | h_10 => rfl
  all_goals
    split
    · exact gauge_cardLost _
    · split
      · exact gauge_rebootSeen _
      · rfl

theorem gauge_takeGoodPoll (f : PollFields) (n : Nat) : (p.takeGoodPoll i f n).gauge = p.gauge := by
  rw [takeGoodPoll_eq rfl]
  split
  · unfold Part.fatalReply
    split <;> simp
  · rw [gauge_actOnReply, gauge_setSlot]

theorem gauge_countMiss : (p.countMiss i).gauge = p.gauge := by
  unfold Part.countMiss
  split
  · simp only
    split <;> simp
  · rfl

theorem gauge_retryEngine : (p.retryEngine i).gauge = p.gauge := by
  unfold Part.retryEngine
  split
  · rfl
  · split
    · simp only
      split <;> simp
    · rfl

theorem gauge_missedReply (e : Exchange) : (p.missedReply e).gauge = p.gauge := by
  unfold Part.missedReply
  simp only
  split
  · rw [gauge_retryEngine, gauge_countMiss]
  · exact gauge_countMiss

theorem gauge_loadCompleted (x : Handle) (res : Result) : (p.loadCompleted i x res).gauge = p.gauge := by
  unfold Part.loadCompleted
  split
  · rfl
  · split
    · rfl
    · simp only
      split <;> rfl

theorem gauge_refuseLoad (x : Handle) (why : RefuseReason) : (p.refuseLoad i x why).gauge = p.gauge :=
  gauge_linkedTest.trans (by cases why <;> rfl)

theorem gauge_refuseDrop (x : Handle) : (p.refuseDrop i x).gauge = p.gauge := rfl

theorem gauge_takeDigest (d : Digest) : (p.takeDigest i d).gauge = p.gauge := by
  unfold Part.takeDigest
  split
  · split <;> simp [Part.auditMatch, Part.auditMismatch]
  · rfl

theorem gauge_auditCleared : (p.auditCleared i).gauge = p.gauge := by
  unfold Part.auditCleared
  split <;> simp

theorem gauge_restartPoll (e : Exchange) : (p.restartPoll e).gauge = p.gauge := by
  unfold Part.restartPoll
  split <;> rfl

theorem gauge_openExchange : (p.openExchange g).gauge = p.gauge := by
  unfold Part.openExchange
  split <;> simp

/-! ### Slot timers that no grant but a POLL's follows (R61, R65, R93) -/

theorem gauge_offExpiry : (p.offExpiry i).gauge = p.gauge := by
  unfold Part.offExpiry
  split <;> rfl

theorem gauge_stableExpiry : (p.stableExpiry i).gauge = p.gauge := by
  unfold Part.stableExpiry
  split <;> rfl

theorem gauge_pollExpiry : (p.pollExpiry i).gauge = p.gauge := by
  unfold Part.pollExpiry
  split <;> simp

/-! ### Links (R181 to R185, R188 to R190) -/

@[simp] theorem gauge_ended : (p.ended l).gauge = p.gauge := gauge_updLink _

@[simp] theorem gauge_discard : (p.discard l).gauge = p.gauge := gauge_updLink _

@[simp] theorem gauge_answer (r : Response) (p₀ : Part) : (Part.answer l r p₀ p).gauge = p.gauge := gauge_updLink _

@[simp] theorem gauge_readOut (n : Nat) : (p.readOut l n).gauge = p.gauge := by simp [Part.readOut]

@[simp] theorem gauge_readResponse (n : Nat) : (p.readResponse l n).gauge = p.gauge := by simp [Part.readResponse]

theorem gauge_stayOpen (bytes : List Byte) : (p.stayOpen l bytes).gauge = p.gauge := by
  unfold Part.stayOpen Part.underSelect
  split
  · simp only [gauge_updLink]
    split
    · simp
    · split <;> simp
  · rfl

theorem gauge_claim : (Part.claim l p).1.gauge = p.gauge := by
  unfold Part.claim
  split
  · simp
  · split <;> simp

theorem gauge_release : (Part.release l p).1.gauge = p.gauge := by
  unfold Part.release
  split
  · split <;> simp
  · simp

theorem gauge_takeover : (Part.takeover l p).1.gauge = p.gauge := by
  unfold Part.takeover
  simp only
  split <;> split <;> simp

end Sys2Proof.Machine
end

section
namespace Sys2Proof.Machine

variable {p q : Part} {i : SlotId} {g : SegId} {fresh : Bool} {code : Nat}

/-! ### What follows from the laws of the course -/

/-- RAMP_START lies at or below LIMIT (R140). -/
theorem rampStart_le {b : BudgetCfg} (h : b.InRange) : b.rampStart ≤ b.limit :=
  Nat.div_le_of_le_mul (Nat.mul_comm 16 _ ▸ Nat.mul_le_mul_left _ h.start)

/-- The settle timer is stopped outside SETTLING (R126). -/
theorem Part.SupplyLaw.settle_stopped (h : p.SupplyLaw) (hs : p.spm.state ≠ .settling) : p.spm.settle = .stopped := by
  obtain ⟨hrunning, hheld⟩ := h.settle
  cases e : p.spm.settle with
  | stopped => rfl
  | running left => exact absurd (hrunning left e).1 hs
  | held left => exact absurd (hheld left e).1 hs

/-- The recovery timer is stopped where the scheduler is (R123, R163). -/
theorem Part.SupplyLaw.recovery_stopped (h : p.SupplyLaw) (hr : p.running = false) : p.spm.recoveryRunning = false := by
  refine Bool.eq_false_iff.2 fun hrec => ?_
  have hup := h.running
  rw [hr, h.recovery hrec] at hup
  cases hup

theorem persist_le (holds : Bool) (n : Nat) : persist holds n ≤ 255 := by
  unfold persist Config.byteMax
  split <;> omega

theorem resume_running {t : SettleTimer} {left : Nat} (e : t.resume = .running left) : t ≠ .stopped := by
  rintro rfl
  cases e

theorem resume_not_held {t : SettleTimer} {left : Nat} : t.resume ≠ .held left := by cases t <;> exact nofun

theorem beginSag_spm (p : Part) (fresh : Bool) : (p.beginSag fresh).spm = { p.spm with
    state := .sag
    settle := .stopped
    episodes := if fresh then p.spm.episodes + 1 else p.spm.episodes
    deep := !fresh && p.spm.deep
    recoveryRunning := !fresh && p.spm.recoveryRunning } := by
  cases fresh <;> rfl

theorem enterOutage_cfg (p : Part) : p.enterOutage.cfg = p.cfg := by
  rw [Part.enterOutage, follow_cfg, onFbu_cfg, (eachSlot_around outageSlot_around _).cfg]
  rfl

theorem enterSag_lost (p : Part) (fresh : Bool) : (p.enterSag fresh).spm.lost = p.spm.lost := by
  have hsignal := signal_enterSag p fresh
  simp only [Spm.signal, Prod.mk.injEq] at hsignal
  exact hsignal.1

theorem hold_held {t : SettleTimer} {left : Nat} (e : t.hold = .held left) : t ≠ .stopped := by
  rintro rfl
  cases e

theorem hold_not_running {t : SettleTimer} {left : Nat} : t.hold ≠ .running left := by cases t <;> exact nofun

section

variable (h : p.CourseLaw)
include h

/-! ### What follows a change (R127, R156) -/

/-- Stall states may change while the scheduler runs, and be cleared at any time (R156, R157). -/
theorem courseLaw_onFbu {f : Fbu → Fbu} (hc : (f p.fbu).ceiling = p.fbu.ceiling)
    (hs : p.running = false → (f p.fbu).bringUp = .clear ∧ (f p.fbu).load = .clear) : (p.onFbu f).CourseLaw where
  ceiling :=
    { settings := h.ceiling.settings
      below := hc.trans_le h.ceiling.below
      normal := fun hn => hc.trans (h.ceiling.normal hn) }
  supply :=
    { h.supply with
      deep := fun hd hu => hc.trans (h.supply.deep hd hu)
      stalls := fun hu => hs (h.supply.running.trans hu) }

/-- While the scheduler runs, the stall states may change in any way. -/
theorem courseLaw_stalls (hr : p.running = true) {f : Fbu → Fbu} (hc : (f p.fbu).ceiling = p.fbu.ceiling) :
    (p.onFbu f).CourseLaw :=
  courseLaw_onFbu h hc fun hf => (nomatch hf.symm.trans hr)

/-- The stall states as the law has them where the scheduler is stopped. -/
theorem stalls_of_stopped (hr : p.running = false) : p.fbu.bringUp = .clear ∧ p.fbu.load = .clear :=
  h.supply.stalls (h.supply.running.symm.trans hr)

/-- RECOVERY gives way to NORMAL only where the ceiling equals LIMIT. -/
theorem courseLaw_recoveryTest : p.recoveryTest.CourseLaw := by
  unfold Part.recoveryTest
  split
  · rename_i hd
    obtain ⟨hs, -, hc, -⟩ := hd
    have stopped := h.supply.settle_stopped (by rw [hs]; decide)
    refine courseLaw_of_gauge (p := p.onSpm fun m => { m with state := .normal, recoveryRunning := false }) ?_ rfl
    refine ⟨⟨h.ceiling.settings, h.ceiling.below, fun _ => hc⟩, { h.supply with
      running := h.supply.running.trans (by rw [hs]; rfl)
      recovery := nofun
      settle := ⟨fun left e => (nomatch stopped.symm.trans e), fun left e => (nomatch stopped.symm.trans e)⟩
      outage := nofun
      deep := nofun
      stalls := nofun }⟩
  · exact h

theorem courseLaw_stallCheck : p.stallCheck.CourseLaw := by
  unfold Part.stallCheck
  split
  · exact courseLaw_onFbu h rfl fun hr => ⟨rfl, (stalls_of_stopped h hr).2⟩
  · exact h

theorem courseLaw_follow : p.follow.CourseLaw :=
  courseLaw_recoveryTest (courseLaw_stallCheck (courseLaw_of_gauge h (by simp)))

/-- What leaves all that the laws read may be followed by all that follows a change. -/
theorem courseLaw_followed (e : q.gauge = p.gauge) : q.follow.CourseLaw := courseLaw_follow (courseLaw_of_gauge h e)

/-! ### The supply's course (R117, R118, R120, R123 to R126) -/

theorem filterAvg_le (hcode : code ≤ 1023) (f : Nat) : filterAvg f p.spm.avg16 code ≤ 16368 := by
  cases ha : p.spm.avg16 with
  | none =>
    show code * 16 ≤ 16368
    omega
  | some a =>
    have hold := h.supply.average a ha
    obtain ⟨-, -, hnew⟩ := filterAvg_some f a code
    omega

/-- A sample that is heard and measured: no settle timer is held any more (R117, R119, R120, R139). -/
theorem courseLaw_heard (hcode : code ≤ 1023) : (p.heard code).CourseLaw where
  ceiling := ⟨h.ceiling.settings, h.ceiling.below, h.ceiling.normal⟩
  supply :=
    { h.supply with
      settle := by
        refine ⟨fun left e => ⟨?_, rfl⟩, fun left e => ?_⟩ <;> simp only [Part.heard, onSpm_spm] at e <;> split at e
        · rename_i hs
          exact hs.2
        · by_contra hs
          exact resume_running e (h.supply.settle_stopped hs)
        · cases e
        · exact absurd e resume_not_held
      signal := rfl
      average := fun a e => Option.some.inj e ▸ filterAvg_le h hcode _
      counters := ⟨persist_le _ _, persist_le _ _, persist_le _ _⟩ }

/-- SAG is entered by a fresh episode, or from SETTLING (R123, R125); a deep episode that goes on has its ceiling at 0. -/
theorem courseLaw_enterSag (hf : fresh = false → p.running = false) : (p.enterSag fresh).CourseLaw := by
  obtain ⟨hspm, -, hceiling, hstalls, hrunning, hcfg⟩ := enterSag_told p fresh
  rw [beginSag_spm] at hspm
  refine ⟨⟨?_, ?_, ?_⟩, ?_⟩
  · rw [hcfg]
    exact h.ceiling.settings
  · rw [hcfg, hceiling]
    exact h.ceiling.below
  · rw [hspm]
    exact nofun
  · constructor
    case stalls => exact fun _ => hstalls
    all_goals rw [hspm]
    case running => exact hrunning
    case recovery =>
      intro hr
      obtain ⟨he, hr⟩ := Bool.and_eq_true_iff.1 hr
      rw [h.supply.recovery_stopped (hf (Bool.not_eq_true' _ ▸ he))] at hr
      cases hr
    case settle => exact ⟨nofun, nofun⟩
    case signal => exact h.supply.signal
    case outage => exact nofun
    case deep =>
      intro hd _
      obtain ⟨he, hd⟩ := Bool.and_eq_true_iff.1 hd
      exact hceiling.trans (h.supply.deep hd (h.supply.running.symm.trans (hf (Bool.not_eq_true' _ ▸ he))))
    case average => exact h.supply.average
    case counters => exact h.supply.counters
    case time => exact h.supply.time

/-- OUTAGE is entered from SAG, and takes the ceiling to 0 (R124, R143). -/
theorem courseLaw_enterOutage (hs : p.spm.state = .sag) : p.enterOutage.CourseLaw := by
  obtain ⟨hspm, -, hceiling, hbringUp, hload, hrunning⟩ := enterOutage_told p
  have stopped : p.running = false := h.supply.running.trans (by rw [hs]; rfl)
  have settled := h.supply.settle_stopped (by rw [hs]; decide)
  have stalls := stalls_of_stopped h stopped
  refine ⟨⟨?_, ?_, ?_⟩, ?_⟩
  · rw [enterOutage_cfg]
    exact h.ceiling.settings
  · rw [hceiling]
    exact Nat.zero_le _
  · rw [hspm]
    exact nofun
  · constructor
    case stalls => exact fun _ => ⟨hbringUp stalls.1, hload.trans stalls.2⟩
    case deep => exact fun _ _ => hceiling
    all_goals rw [hspm]
    case running => exact hrunning.trans stopped
    case recovery =>
      intro hr
      exact (nomatch (h.supply.recovery_stopped stopped).symm.trans hr)
    case settle => exact ⟨fun left e => (nomatch settled.symm.trans e), fun left e => (nomatch settled.symm.trans e)⟩
    case signal => exact h.supply.signal
    case outage => exact fun _ => rfl
    case average => exact h.supply.average
    case counters => exact h.supply.counters
    case time => exact h.supply.time

/-- SETTLING is entered from SAG or OUTAGE, and while samples come (R124, R125, R126). -/
theorem courseLaw_enterSettling (hr : p.running = false) (hl : p.spm.lost = false) : p.enterSettling.CourseLaw where
  ceiling := ⟨h.ceiling.settings, h.ceiling.below, nofun⟩
  supply :=
    { h.supply with
      running := hr
      recovery := fun e => (nomatch (h.supply.recovery_stopped hr).symm.trans e)
      settle := ⟨fun _ _ => ⟨rfl, hl⟩, nofun⟩
      outage := nofun
      deep := fun hd _ => h.supply.deep hd (h.supply.running.symm.trans hr)
      stalls := fun _ => stalls_of_stopped (p := p) h hr }

theorem courseLaw_sagRule (hs : p.spm.state = .sag) (hl : p.spm.lost = false) : p.sagRule.CourseLaw := by
  unfold Part.sagRule
  split
  · exact courseLaw_enterOutage h hs
  · split
    · exact courseLaw_enterSettling h (h.supply.running.trans (by rw [hs]; rfl)) hl
    · exact h

/-- A SAG entry with the SAG rule that follows it. -/
theorem courseLaw_sagEntry (hf : fresh = false → p.running = false) (hl : p.spm.lost = false) :
    (p.enterSag fresh).sagRule.CourseLaw :=
  courseLaw_sagRule (courseLaw_enterSag h hf) (by rw [(enterSag_told p fresh).spm, beginSag_state])
    ((enterSag_lost p fresh).trans hl)

theorem courseLaw_supplyRule (hl : p.spm.lost = false) : p.supplyRule.CourseLaw := by
  have stopped (hu : p.spm.state.up = false) : p.running = false := h.supply.running.trans hu
  unfold Part.supplyRule
  split
  case h_3 hs => exact courseLaw_sagRule h hs hl
  case h_4 hs =>
    split
    · exact courseLaw_enterSettling h (stopped (by rw [hs]; rfl)) hl
    · exact h
  case h_5 hs =>
    split
    · exact courseLaw_sagEntry h (fun _ => stopped (by rw [hs]; rfl)) hl
    · exact h
  all_goals
    split
    · exact courseLaw_sagEntry h nofun hl
    · exact h

theorem courseLaw_sample (hcode : code ≤ 1023) : (p.sample code).CourseLaw := by
  have ruled := courseLaw_supplyRule (courseLaw_heard h hcode) rfl
  rw [sample_eq]
  split
  · exact courseLaw_recoveryTest ruled
  · exact ruled

/-- A signal loss holds a running settle timer (R117). -/
theorem courseLaw_signalLoss : p.signalLoss.CourseLaw := by
  unfold Part.signalLoss
  split
  · refine courseLaw_of_gauge
      (p := p.onSpm fun m => { m with lost := true, signalTimer := none, settle := m.settle.hold }) ?_ rfl
    refine ⟨⟨h.ceiling.settings, h.ceiling.below, h.ceiling.normal⟩, { h.supply with
      settle := ⟨fun left e => absurd e hold_not_running, fun left e => ⟨?_, rfl⟩⟩
      signal := rfl }⟩
    by_contra hs
    exact hold_held e (h.supply.settle_stopped hs)
  · exact h

/-- RECOVERY begins with the ceiling at RAMP_START after an outage, and where it stood else (R126, R128, R143, R163). -/
theorem courseLaw_beginRecovery : ({ p.beginRecovery with running := true } : Part).CourseLaw := by
  rw [beginRecovery_eq]
  refine ⟨⟨h.ceiling.settings, ?_, nofun⟩, { h.supply with
    running := rfl
    recovery := fun _ => rfl
    settle := ⟨nofun, nofun⟩
    outage := nofun
    deep := nofun
    stalls := nofun
    time := Nat.zero_le _ }⟩
  show (if p.spm.deep = true then p.cfg.budget.rampStart else p.fbu.ceiling) ≤ p.cfg.budget.limit
  split
  · exact rampStart_le h.ceiling.settings.budget
  · exact h.ceiling.below

theorem courseLaw_settleExpiry : p.settleExpiry.CourseLaw := by
  have turns := eachSlot_around (fun i q => (recoverSlot_aside i q).toAround) p.beginRecovery
  unfold Part.settleExpiry
  split
  · rw [enterRecovery_eq]
    refine courseLaw_followed (courseLaw_beginRecovery h) ?_
    simp only [Part.gauge, turns.cfg, turns.spm, turns.fbu]
  · exact h

end

end Sys2Proof.Machine
end

section
namespace Sys2Proof.Machine

variable {p q : Part} {i : SlotId} {g : SegId} {l : Link}

theorem stepCeiling_le (b : BudgetCfg) (ceiling : Nat) : stepCeiling b ceiling ≤ b.limit := by
  unfold stepCeiling
  split
  · exact Nat.le_refl _
  · exact Nat.min_le_left _ _

theorem age_running {t : SettleTimer} {left : Nat} (e : t.age = .running left) : ∃ n, t = .running n := by
  cases t with
  | running n => exact ⟨n, rfl⟩
  | stopped | held => cases e

theorem age_held {t : SettleTimer} {left : Nat} (e : t.age = .held left) : t = .held left := by
  cases t with
  | held n => exact e
  | stopped | running => cases e

section

variable (h : p.CourseLaw)
include h

/-! ### Budget, bring-up and restoration (R128, R143, R144, R156, R157) -/

/-- The ceiling steps in RECOVERY alone, and not past LIMIT (R143, R144). -/
theorem courseLaw_ticked : p.ticked.CourseLaw := by
  have hcfg : p.ticked.cfg = p.cfg := by rw [Part.ticked, onFbu_cfg, aged_cfg]
  have hspm : p.ticked.spm = p.spm.age := by rw [Part.ticked, onFbu_spm, aged_spm]
  have hrunning : p.ticked.running = p.running := by rw [Part.ticked, onFbu_running, aged_running]
  have hfbu : p.ticked.fbu = ⟨p.tickedCeiling, p.fbu.bringUp.age, p.fbu.load.age⟩ := by
    rw [Part.ticked, onFbu_fbu, aged_fbu]
  have frozen (hs : p.spm.state ≠ .recovery) : p.tickedCeiling = p.fbu.ceiling := if_neg hs
  constructor <;> constructor <;> simp only [hcfg, hspm, hrunning, hfbu]
  case ceiling.settings => exact h.ceiling.settings
  case ceiling.below =>
    unfold Part.tickedCeiling
    split
    · exact stepCeiling_le _ _
    · exact h.ceiling.below
  case ceiling.normal =>
    intro hs
    have hs : p.spm.state = .normal := hs
    rw [frozen (by rw [hs]; decide)]
    exact h.ceiling.normal hs
  case supply.running => exact h.supply.running
  case supply.recovery => exact h.supply.recovery
  case supply.settle =>
    refine ⟨fun left e => ?_, fun left e => h.supply.settle.2 left (age_held e)⟩
    obtain ⟨n, e⟩ := age_running e
    exact h.supply.settle.1 n e
  case supply.signal => exact Option.isSome_map.trans h.supply.signal
  case supply.outage => exact h.supply.outage
  case supply.deep =>
    intro hd hu
    have hu : p.spm.state.up = false := hu
    rw [frozen fun hs => (by rw [hs] at hu; cases hu)]
    exact h.supply.deep hd hu
  case supply.stalls =>
    intro hu
    obtain ⟨hbringUp, hload⟩ := h.supply.stalls hu
    rw [hbringUp, hload]
    exact ⟨rfl, rfl⟩
  case supply.average => exact h.supply.average
  case supply.counters => exact h.supply.counters
  case supply.time =>
    have ht := h.supply.time
    simp only [Spm.age, Config.recoveryTimeMax]
    split <;> omega

theorem courseLaw_budgetTick : p.budgetTick.CourseLaw := by
  rw [budgetTick_eq]
  split
  · exact courseLaw_ticked h
  · exact courseLaw_recoveryTest (courseLaw_ticked h)

/-- A stall timer runs only while the scheduler does (R156, R157). -/
theorem running_of_timing {left : Nat} (ht : p.fbu.bringUp = .timing left ∨ p.fbu.load = .timing left) :
    p.running = true := by
  refine (Bool.eq_false_or_eq_true _).resolve_right fun hr => ?_
  obtain ⟨hbringUp, hload⟩ := stalls_of_stopped h hr
  rcases ht with ht | ht
  · exact nomatch hbringUp.symm.trans ht
  · exact nomatch hload.symm.trans ht

/-- Trials are made only while the scheduler runs, and leave it running. -/
theorem courseLaw_trials (hr : p.running = true) (n : Nat) : (p.trials n).CourseLaw := by
  induction n generalizing p with
  | zero => exact h
  | succ n ih =>
    unfold Part.trials
    split
    · exact h
    · rename_i j _
      split
      · have enabled : (p.enable j).running = true := (running_of_gauge gauge_enable).trans hr
        have ended : ((p.enable j).onFbu fun f => { f with bringUp := .clear }).CourseLaw :=
          courseLaw_stalls (courseLaw_of_gauge h gauge_enable) enabled rfl
        refine ih (courseLaw_follow ended) ?_
        rw [Part.bringUp, follow_running]
        exact enabled
      · exact courseLaw_stalls h hr rfl

theorem courseLaw_trial : p.trial.CourseLaw := by
  unfold Part.trial
  split
  · rename_i hu
    exact courseLaw_trials h (h.supply.running.trans hu) _
  · exact h

theorem courseLaw_issue (hr : p.running = true) (k : Index) : (p.issue k).CourseLaw := by
  unfold Part.issue
  split
  · exact h
  · exact courseLaw_stalls (courseLaw_of_gauge h (by simp)) ((running_of_gauge (by simp)).trans hr) rfl

theorem courseLaw_selection : p.selection.CourseLaw := by
  unfold Part.selection
  split
  · rename_i hr
    split
    · exact courseLaw_issue h hr _
    · exact courseLaw_stalls h hr rfl
    · exact courseLaw_stalls h hr rfl
  · exact h

/-! ### Replies (R97 to R100) -/

theorem courseLaw_completion (c : Handle × Result) : (p.completion i c).CourseLaw := by
  unfold Part.completion
  split
  · exact courseLaw_of_gauge h (gauge_offer _)
  · refine courseLaw_followed h (gauge_linkedTest.trans ?_)
    split
    · rw [gauge_loadCompleted, gauge_setInflight]
    · rfl

theorem courseLaw_takePoll (f : PollFields) (n : Nat) : (p.takePoll i f n).CourseLaw := by
  have completed : (Part.completions i f.completions p).1.CourseLaw := by
    rw [(completions_eq i f.completions p).1]
    exact List.foldlRecOn (motive := Part.CourseLaw) _ _ h fun q hq c _ => courseLaw_completion hq c
  unfold Part.takePoll
  simp only
  split
  · exact courseLaw_of_gauge completed (gauge_cardLost _)
  · exact courseLaw_of_gauge completed (gauge_takeGoodPoll f n)

theorem courseLaw_goodReply (e : Exchange) (r : Reply) : (p.goodReply e r).CourseLaw := by
  unfold Part.goodReply
  simp only
  split
  · exact courseLaw_takePoll (courseLaw_of_gauge h (gauge_updSlot _)) _ _
  · exact courseLaw_of_gauge h rfl
  · exact courseLaw_of_gauge h gauge_auditCleared
  · exact courseLaw_of_gauge h (gauge_takeDigest _)
  · exact courseLaw_of_gauge h (gauge_refuseLoad _ _)
  · exact courseLaw_of_gauge h (gauge_refuseDrop _)
  · exact courseLaw_of_gauge h rfl

/-- The end of an exchange keeps the laws where its handling does. -/
theorem courseLaw_withExchange {handle : Exchange → Part → Part}
    (hh : ∀ e (q : Part), q.CourseLaw → (handle e q).CourseLaw) : (p.withExchange g handle).CourseLaw := by
  unfold Part.withExchange
  split
  · exact h
  · rename_i e _
    have idled : ((p.updSeg g fun x => { x with inProgress := none }).updSlot e.slot (Slot.markAlign e)).CourseLaw :=
      courseLaw_of_gauge h (by simp)
    unfold Part.endExchange
    simp only
    split
    · exact idled
    · exact courseLaw_followed (hh e _ idled) (gauge_restartPoll e)

theorem courseLaw_windowClose : (p.windowClose g).CourseLaw :=
  courseLaw_withExchange h fun e _ hq => courseLaw_of_gauge hq (gauge_missedReply e)

theorem courseLaw_takeReply (r : SlotReply) : (p.takeReply g r).CourseLaw :=
  courseLaw_withExchange h fun e q hq => by
    split
    · exact courseLaw_of_gauge hq ((gauge_missedReply e).trans (gauge_offer _))
    · exact courseLaw_goodReply hq e _

/-! ### Presence lines and slot timers (R54, R61, R63, R101) -/

theorem courseLaw_insert : (p.insert i).CourseLaw := by
  unfold Part.insert
  simp only
  split
  · exact courseLaw_followed h (by simp)
  · exact courseLaw_of_gauge h rfl

theorem courseLaw_remove : (p.remove i).CourseLaw := by
  unfold Part.remove
  simp only
  split
  · exact courseLaw_of_gauge h rfl
  · split <;> exact courseLaw_followed h (by simp)

theorem courseLaw_bootExpiry : (p.bootExpiry i).CourseLaw := by
  unfold Part.bootExpiry
  split
  · exact courseLaw_followed h (gauge_cycleFailed _)
  · exact h

theorem courseLaw_alignExpiry : (p.alignExpiry i).CourseLaw := by
  unfold Part.alignExpiry
  split
  · exact courseLaw_followed h gauge_alignFailed
  · exact h

theorem courseLaw_deadlineExpiry (x : Handle) : (p.deadlineExpiry i x).CourseLaw := by
  unfold Part.deadlineExpiry
  split
  · exact courseLaw_followed h (gauge_cardLost _)
  · exact h

end

end Sys2Proof.Machine
end

section
namespace Sys2Proof.Machine

variable {p q : Part} {i : SlotId} {l : Link}

theorem courseLaw_coldStart (p : Part) : p.coldStart.CourseLaw :=
  courseLaw_of_gauge (p := Part.cold) ⟨ceilingLaw_cold, supplyLaw_cold⟩ (by simp only [Part.gauge, Part.coldStart])

section

variable (h : p.CourseLaw)
include h

/-! ### Requests on records (R30, R34, R37, R41, R45) -/

/-- A request keeps the laws where carrying it out does. -/
theorem courseLaw_request {fits change : Bool} {run : Part → Answer} (hr : (run p).1.CourseLaw) :
    (p.request l fits change run).CourseLaw := by
  unfold Part.request
  split
  · exact courseLaw_of_gauge h gauge_discard
  · split
    · exact courseLaw_of_gauge h (gauge_answer _ _)
    · split
      · exact courseLaw_of_gauge h (gauge_answer _ _)
      · exact courseLaw_of_gauge hr (gauge_answer _ _)

theorem courseLaw_establish (body : List Byte) : (p.establish body).1.CourseLaw := by
  unfold Part.establish
  split
  · exact h
  · split
    · exact h
    · exact h
    · exact courseLaw_of_gauge h (gauge_onCtb _)

theorem courseLaw_modify (body : List Byte) : (p.modify body).1.CourseLaw := by
  unfold Part.modify
  split
  · exact h
  · split
    · exact h
    · split
      · exact h
      · exact courseLaw_of_gauge h (gauge_onCtb _)

theorem courseLaw_onNamed {w : WireHandle} {run : Handle → Rec → Part → Answer}
    (hr : ∀ x r, (run x r p).1.CourseLaw) : (p.onNamed w run).1.CourseLaw := by
  unfold Part.onNamed
  split
  · exact h
  · split
    · exact h
    · exact hr _ _

theorem courseLaw_retire (x : Handle) (r : Rec) : (p.retire x r).1.CourseLaw := by
  have freed : ((p.onCtb (Ctb.free x.index)).linkedTest r.slot).follow.CourseLaw := courseLaw_followed h (by simp)
  show (p.retireAt x r).CourseLaw
  unfold Part.retireAt
  simp only
  split
  case h_4 =>
    split
    · exact courseLaw_followed h (by simp)
    · exact freed
  case h_5 => exact courseLaw_of_gauge h (gauge_onCtb _)
  case h_6 => exact h
  all_goals exact freed

theorem courseLaw_revive (x : Handle) (r : Rec) : (p.revive x r).1.CourseLaw := by
  unfold Part.revive
  split
  · exact courseLaw_of_gauge h (gauge_onCtb _)
  · exact h

theorem courseLaw_listRecords (cls filter : Byte) (cursor : WireHandle) :
    (p.listRecords cls filter cursor).1.CourseLaw := by
  unfold Part.listRecords
  simp only
  split
  · exact h
  · split
    · exact h
    · split
      · exact h
      · refine courseLaw_onNamed h fun x r => ?_
        split <;> exact h

/-! ### Slot actions (R75 to R79) -/

/-- A slot action keeps the laws where its accepted change does. -/
theorem courseLaw_actionRequest {act : SlotId → Part → Except Status Part} {slot : Byte}
    (ha : ∀ i q, act i p = .ok q → q.CourseLaw) : (p.actionRequest l act slot).CourseLaw := by
  refine courseLaw_request h ?_
  unfold Part.slotAction
  split
  · exact h
  · split
    · exact h
    · exact ha _ _ ‹_›

theorem courseLaw_park (e : Part.park i p = .ok q) : q.CourseLaw := by
  unfold Part.park at e
  simp only at e
  split at e <;> simp only [Except.ok.injEq, reduceCtorEq] at e <;> subst e <;> exact courseLaw_followed h (by simp)

theorem courseLaw_unpark (e : Part.unpark i p = .ok q) : q.CourseLaw :=
  Except.ok.inj e ▸ courseLaw_of_gauge h (gauge_updSlot _)

theorem courseLaw_holdSlot (e : Part.holdSlot i p = .ok q) : q.CourseLaw := by
  unfold Part.holdSlot at e
  simp only at e
  split at e <;> simp only [Except.ok.injEq] at e <;> subst e
  case h_1 | h_2 | h_3 => exact courseLaw_followed h (by simp)
  all_goals exact courseLaw_of_gauge h (gauge_updSlot _)

theorem courseLaw_releaseHold (e : Part.releaseHold i p = .ok q) : q.CourseLaw := by
  unfold Part.releaseHold at e
  simp only at e
  split at e
  · split at e <;> simp only [Except.ok.injEq, reduceCtorEq] at e
    subst e
    exact courseLaw_followed h (by simp)
  · exact Except.ok.inj e ▸ courseLaw_of_gauge h (gauge_updSlot _)

theorem courseLaw_adopt (e : Part.adopt i p = .ok q) : q.CourseLaw := by
  obtain ⟨c, e⟩ := of_inMismatch e
  split at e <;> simp only [Except.ok.injEq, reduceCtorEq] at e
  subst e
  exact courseLaw_followed h (by simp)

theorem courseLaw_vacate (e : Part.vacate i p = .ok q) : q.CourseLaw := by
  obtain ⟨c, e⟩ := of_inMismatch e
  rw [← Except.ok.inj e]
  exact courseLaw_followed h (by simp)

theorem courseLaw_clearFault (e : Part.clearFault i p = .ok q) : q.CourseLaw := by
  unfold Part.clearFault at e
  split at e <;> simp only [Except.ok.injEq, reduceCtorEq] at e
  subst e
  exact courseLaw_followed h (by simp)

theorem courseLaw_auditSlot (e : Part.auditSlot i p = .ok q) : q.CourseLaw := by
  unfold Part.auditSlot at e
  split at e <;> simp only [Except.ok.injEq, reduceCtorEq] at e
  subst e
  exact courseLaw_followed h (by simp)

theorem courseLaw_cyclePower (e : Part.cyclePower i p = .ok q) : q.CourseLaw := by
  unfold Part.cyclePower at e
  split at e <;> simp only [Except.ok.injEq, reduceCtorEq] at e <;> subst e <;> exact courseLaw_followed h gauge_cool

/-! ### Settings (R50, R51, R121, R141, R142) -/

/-- Settings in range that leave LIMIT may be written. -/
theorem courseLaw_cfg {c : Settings} (hc : c.InRange) (hb : c.budget = p.cfg.budget) :
    ({ p with cfg := c } : Part).CourseLaw where
  ceiling :=
    { settings := hc
      below := hb.symm ▸ h.ceiling.below
      normal := hb.symm ▸ h.ceiling.normal }
  supply := { h.supply with }

theorem courseLaw_setSlotKeys (slot rank phase : Byte) : (p.setSlotKeys slot rank phase).1.CourseLaw := by
  unfold Part.setSlotKeys
  split
  · exact h
  · exact courseLaw_of_gauge h (gauge_updSlot _)

theorem courseLaw_setProfile (f : WireProfile) : (p.setProfile f).1.CourseLaw := by
  unfold Part.setProfile
  split
  · exact h
  · exact courseLaw_cfg h (h.ceiling.settings.setProfile _ (profileOf_inRange f)) rfl

theorem courseLaw_setBus (f : WireBus) : (p.setBus f).1.CourseLaw := by
  have ranged : ({ p.cfg with bus := busOf f } : Settings).InRange := { h.ceiling.settings with bus := busOf_inRange f }
  refine courseLaw_of_gauge (courseLaw_cfg h ranged rfl) ?_
  rw [Part.setBus, gauge_arbitrate, gauge_arbitrate]
  exact gauge_eachSlot fun _ _ => gauge_rewindow

/-- The ceiling becomes LIMIT in NORMAL, and is cut to it elsewhere, where one of 0 stays 0 (R142). -/
theorem courseLaw_setBudget (f : WireBudget) : (p.setBudget f).1.CourseLaw := by
  refine courseLaw_recoveryTest ⟨⟨{ h.ceiling.settings with budget := budgetOf_inRange f }, ?_, fun hn => if_pos hn⟩,
    { h.supply with deep := fun hd hu => ?_, stalls := fun hu => ?_ }⟩
  · show (if p.spm.state = .normal then (budgetOf f).limit else min p.fbu.ceiling (budgetOf f).limit) ≤ (budgetOf f).limit
    split
    · exact Nat.le_refl _
    · exact Nat.min_le_right _ _
  · have hu : p.spm.state.up = false := hu
    refine (if_neg fun hn => ?_).trans ?_
    · rw [show p.spm.state = .normal from hn] at hu
      cases hu
    · rw [h.supply.deep hd hu]
      exact Nat.zero_min _
  · obtain ⟨hbringUp, hload⟩ := h.supply.stalls hu
    simp only [onFbu_fbu, Fbu.rebudget, hbringUp, hload, ite_self, and_self]

theorem courseLaw_setSupply (f : WireSupply) : (p.setSupply f).1.CourseLaw :=
  courseLaw_cfg h { h.ceiling.settings with supply := supplyOf_inRange f } rfl

/-! ### Resets (R139, R160, R199) -/

/-- After a warm reset the supply is in SETTLING, the deep marker clear, and the ceiling at RAMP_START. -/
theorem courseLaw_warmReset : p.warmReset.CourseLaw := by
  refine courseLaw_of_gauge (p := p.warmed) ⟨⟨?_, ?_, nofun⟩, ?_⟩ (by rw [warmReset_eq, gauge_arbitrate, gauge_arbitrate])
  · rw [warmed_cfg]
    exact h.ceiling.settings
  · rw [warmed_cfg]
    exact rampStart_le h.ceiling.settings.budget
  · exact
      { running := rfl
        recovery := nofun
        settle := ⟨nofun, nofun⟩
        signal := rfl
        outage := nofun
        deep := nofun
        stalls := fun _ => ⟨rfl, rfl⟩
        average := nofun
        counters := ⟨Nat.zero_le _, Nat.zero_le _, Nat.zero_le _⟩
        time := Nat.zero_le _ }

/-! ### Commands -/

/-- What the end of a request's transfer does keeps the laws. -/
theorem courseLaw_asked (c : Instr) : (Part.asked c p).CourseLaw := by
  cases c <;> simp only [Part.asked]
  case establish l body => exact courseLaw_request h (courseLaw_establish h body)
  case modify l body => exact courseLaw_request h (courseLaw_modify h body)
  case retire l w => exact courseLaw_request h (courseLaw_onNamed h (courseLaw_retire h))
  case revive l w => exact courseLaw_request h (courseLaw_onNamed h (courseLaw_revive h))
  case lookup l w => exact courseLaw_request h (courseLaw_onNamed h fun _ _ => h)
  case findChannel l slot channel =>
    refine courseLaw_request h ?_
    unfold Part.findChannel
    split <;> exact h
  case findTimeslot l highway timeslot =>
    refine courseLaw_request h ?_
    unfold Part.findTimeslot
    split <;> exact h
  case list l cls filter cursor => exact courseLaw_request h (courseLaw_listRecords h cls filter cursor)
  case park l slot => exact courseLaw_actionRequest h fun _ _ => courseLaw_park h
  case unpark l slot => exact courseLaw_actionRequest h fun _ _ => courseLaw_unpark h
  case hold l slot => exact courseLaw_actionRequest h fun _ _ => courseLaw_holdSlot h
  case releaseHold l slot => exact courseLaw_actionRequest h fun _ _ => courseLaw_releaseHold h
  case adopt l slot => exact courseLaw_actionRequest h fun _ _ => courseLaw_adopt h
  case vacate l slot => exact courseLaw_actionRequest h fun _ _ => courseLaw_vacate h
  case clearFault l slot => exact courseLaw_actionRequest h fun _ _ => courseLaw_clearFault h
  case audit l slot => exact courseLaw_actionRequest h fun _ _ => courseLaw_auditSlot h
  case powerCycle l slot => exact courseLaw_actionRequest h fun _ _ => courseLaw_cyclePower h
  case slotSet l slot rank phase => exact courseLaw_request h (courseLaw_setSlotKeys h slot rank phase)
  case profileSet l f => exact courseLaw_request h (courseLaw_setProfile h f)
  case busSet l f => exact courseLaw_request h (courseLaw_setBus h f)
  case budgetSet l f => exact courseLaw_request h (courseLaw_setBudget h f)
  case supplySet l f => exact courseLaw_request h (courseLaw_setSupply h f)
  case notices l clear => exact courseLaw_request h (courseLaw_of_gauge h (gauge_updLink _))
  case noticeMask l mask => exact courseLaw_request h (courseLaw_of_gauge h (gauge_updLink _))
  case captureClear l => exact courseLaw_request h (courseLaw_of_gauge h rfl)
  case claim l => exact courseLaw_request h (courseLaw_of_gauge h gauge_claim)
  case release l => exact courseLaw_request h (courseLaw_of_gauge h gauge_release)
  case takeover l => exact courseLaw_request h (courseLaw_of_gauge h gauge_takeover)
  case reset l =>
    unfold Part.resetRequest
    split
    · exact courseLaw_of_gauge h gauge_discard
    · split
      · exact courseLaw_of_gauge h (gauge_answer _ _)
      · exact courseLaw_warmReset (courseLaw_of_gauge h gauge_ended)
  case status l | captureQuery l => exact courseLaw_request h h
  all_goals exact h

/-- A transfer keeps the laws where what its end does keeps them. -/
theorem courseLaw_transfer (bytes : List Byte) {ends : Part → Part} (he : (ends p).CourseLaw) :
    (p.transfer l bytes ends).CourseLaw := by
  rcases transfer_cases l bytes ends p with ⟨e, -⟩ | ⟨e, -⟩ | ⟨e, -⟩ <;> rw [e]
  · exact courseLaw_of_gauge h (gauge_updLink _)
  · exact h
  · exact he

theorem courseLaw_sent (c : Instr) {ends : Part → Part} (he : (ends p).CourseLaw) : (p.sent c ends).CourseLaw := by
  unfold Part.sent
  split
  · exact h
  · exact courseLaw_transfer h _ he

theorem courseLaw_takeTransfer (l : Link) (kind : Byte) (bytes : List Byte) :
    (p.takeTransfer l kind bytes).CourseLaw := by
  unfold Part.takeTransfer
  split
  · exact courseLaw_transfer h _ (courseLaw_of_gauge h (gauge_readResponse _))
  · split
    · exact courseLaw_transfer h _ (courseLaw_request h h)
    · exact courseLaw_transfer h _ (courseLaw_request h h)
    · split
      · rename_i hd
        have he := encodeRequest_decodeRequest hd
        rw [runRequest_eq (by rw [he]; rfl), effect_request (by rw [he]; rfl)]
        exact courseLaw_sent h _ (courseLaw_asked h _)
      · exact courseLaw_transfer h _ (courseLaw_request h h)

/-- Every command keeps the laws of the ceiling and of the supply. -/
theorem courseLaw_effect (c : Instr) : (Part.effect c p).CourseLaw := by
  by_cases hc : (encodeRequest c).isSome = true
  · rw [effect_request hc]
    exact courseLaw_sent h c (courseLaw_asked h c)
  cases c <;> simp only [encodeRequest, Option.isSome_some, not_true_eq_false] at hc <;> simp only [Part.effect]
  case coldStart => exact courseLaw_coldStart p
  case resetN => exact courseLaw_warmReset h
  case insertion i => exact courseLaw_insert h
  case removal i => exact courseLaw_remove h
  case statusRead x =>
    cases x.held with
    | none => exact courseLaw_transfer h _ (courseLaw_of_gauge h gauge_ended)
    | some bytes => exact courseLaw_of_gauge h (gauge_stayOpen bytes)
  case responseRead l n => exact courseLaw_sent h _ (courseLaw_of_gauge h (gauge_readResponse n))
  case requestDiscarded l kind bytes | badFrame l kind bytes => exact courseLaw_takeTransfer h l kind bytes
  case unknownRequest l code fields => exact courseLaw_takeTransfer h l _ _
  case supplySample code => exact courseLaw_sample h (Nat.le_of_lt_succ code.isLt)
  case signalLoss => exact courseLaw_signalLoss h
  case settleTimerExpiry => exact courseLaw_settleExpiry h
  case budgetTick => exact courseLaw_budgetTick h
  case bringUpStallExpiry =>
    split
    · rename_i ht
      exact courseLaw_of_gauge (courseLaw_stalls h (running_of_timing h (.inl ht)) rfl) (gauge_raise _)
    all_goals exact h
  case loadStallExpiry =>
    split
    · rename_i ht
      exact courseLaw_of_gauge (courseLaw_stalls h (running_of_timing h (.inr ht)) rfl) (gauge_raise _)
    all_goals exact h
  case bringUpTrial => exact courseLaw_trial h
  case selection => exact courseLaw_selection h
  case bootTimerExpiry i => exact courseLaw_bootExpiry h
  case alignTimerExpiry i => exact courseLaw_alignExpiry h
  case offTimerExpiry i => exact courseLaw_of_gauge h gauge_offExpiry
  case stableTimerExpiry i => exact courseLaw_of_gauge h gauge_stableExpiry
  case pollTimerExpiry i => exact courseLaw_of_gauge h gauge_pollExpiry
  case completionTimeout i index gen => exact courseLaw_deadlineExpiry h _
  case exchangeOpen g => exact courseLaw_of_gauge h gauge_openExchange
  case replyWindowClose g => exact courseLaw_windowClose h
  all_goals exact courseLaw_takeReply h _

end

/-- Settles O59: all but the supply's own commands, the tick, the settings and the resets leave what the laws read
(`Part.gauge`), or are followed by the tests of R127 and R156, which keep them (`courseLaw_follow`); a law that every command
keeps is kept by every step. -/
theorem supplyAndCeilingLawKept : Obligations.SupplyAndCeilingLawKept := by
  intro s t hc hs ht
  have kept : t.part.CourseLaw :=
    kept_by_step (Inv := Part.CourseLaw) (fun c _ h => courseLaw_effect h c) ⟨hc, hs⟩ ht
  exact ⟨kept.ceiling, kept.supply⟩

end Sys2Proof.Machine
end

section
namespace Sys2Proof.Machine

variable {p : Part} {i : SlotId}

/-! ### The figures of STATUS (R48, R147, R149) -/

theorem driven_iff {st : SlotState} :
    st.driven = true ↔ st ∈ [.dark, .aligning, .auditing, .relinking, .linked, .held, .mismatch] := by
  cases st <;> decide

theorem counted_iff {st : RecState} : st.counted = true ↔ st ∈ [.loading, .live, .dropping] := by
  cases st <;> decide

theorem draw_eq (r : Rec) : r.draw = if r.state ∈ [.loading, .live, .dropping] then r.cost.val else 0 :=
  if_congr counted_iff rfl rfl

theorem baseDraw_eq : p.baseDraw i =
    if (p.slot i).state ∈ [.dark, .aligning, .auditing, .relinking, .linked, .held, .mismatch] then
      (p.profile (p.slot i)).base
    else 0 :=
  if_congr driven_iff rfl rfl

/-! ### The body of STATUS (R196, R203) -/

theorem addFault_faults (k : FaultKind) (x : Slot) : (x.addFault k).faults = x.faults ||| BitVec.ofNat 5 (2 ^ k.bit) := by
  cases k <;> rfl

/-- The three flags stand at bits of their own, so that their sum is their union. -/
theorem statusFlags_eq : p.statusFlags = (if p.spm.deep then 1 else 0) + (if p.fbu.ceiling < p.demand then 2 else 0) +
    (if p.capture.fault.isSome then 4 else 0) := by
  have hdeficit : p.deficit = true ↔ p.fbu.ceiling < p.demand := decide_eq_true_iff
  rw [Part.statusFlags, if_congr hdeficit rfl rfl]
  split <;> split <;> split <;> rfl

theorem counts_bytes (t : Ctb) : t.counts.flatMap (bytesOf 2) =
    bytesOf 2 (4096 - t.recs.length) ++ bytesOf 2 (t.count .suspended) ++ bytesOf 2 (t.count .pending) ++
      bytesOf 2 (t.count .loading) ++ bytesOf 2 (t.count .live) ++ bytesOf 2 (t.count .dropping) ++
      bytesOf 2 (t.count .refused) := by
  simp [Ctb.counts, Ctb.countFree]

/-- Settles O31: the codings by their tables; and STATUS runs its block, whose body (`Part.statusBody`) is the layout of the
statement once the draws of slots (`baseDraw_eq`) and records (`draw_eq`), the flags and the counts are written out. -/
theorem statusSnapshot : Obligations.StatusSnapshot := by
  refine ⟨⟨rfl, rfl, rfl, rfl, addFault_faults⟩, ?_⟩
  intro s l h p two three count base costs inrush demand
  have hbase : base = (allSlots.map p.baseDraw).sum := by
    refine congrArg List.sum (List.map_congr_left fun i _ => ?_)
    rw [baseDraw_eq, Part.profile]
    cases (p.slot i).identity <;> rfl
  have hcosts : costs = p.ctb.draw := congrArg List.sum (List.map_congr_left fun e _ => (draw_eq e.2).symm)
  have hcommitted : base + costs = p.committed := congrArg₂ (· + ·) hbase hcosts
  have hdemand : demand = p.demand := congrArg (· + inrush) hcommitted
  have htwo : two = bytesOf 2 := funext fun n => (bytesOf_two n).symm
  have hthree : three = bytesOf 3 := funext fun n => (bytesOf_three n).symm
  refine accepts_plain h rfl (congrArg (fun b => (p, okay b)) ?_)
  rw [hcommitted, hdemand, htwo, hthree, Part.statusBody, statusFlags_eq, counts_bytes]
  simp only [List.append_assoc, List.cons_append, List.nil_append]
  rfl

end Sys2Proof.Machine
end

section
namespace Sys2Proof.Machine

variable {p : Part} {k : Index} {r : Rec} {pre post : List Index}

/-! ### The slot tests (R167 to R171) -/

theorem slotRuns_iff {i : SlotId} : p.slotRuns i = true ↔ (p.slot i).state ∈ [.relinking, .linked] := by
  unfold Part.slotRuns
  cases (p.slot i).state <;> decide

theorem partnerReady_iff : p.partnerReady r = true ↔
    ∀ h x, r.partner = some h → p.ctb.get h.index = some x → (p.slot x.slot).state ∈ [.relinking, .linked] := by
  unfold Part.partnerReady
  split
  case h_1 hn => simp [hn]
  case h_2 h hp =>
    split
    case h_1 hg =>
      refine iff_of_true rfl fun h' x hp' hx => ?_
      cases hp.symm.trans hp'
      cases hg.symm.trans hx
    case h_2 q hg =>
      refine slotRuns_iff.trans ⟨fun hruns h' x hp' hx => ?_, fun hall => hall h q hp hg⟩
      cases hp.symm.trans hp'
      cases hg.symm.trans hx
      exact hruns

theorem slotTests_iff : p.slotTests r = true ↔
    (p.slot r.slot).waitingDrops = [] ∧ (p.slot r.slot).inflight.length < (p.slot r.slot).window ∧
      (p.seg (segOf r.slot)).queue.length < 16 ∧
      ∀ h x, r.partner = some h → p.ctb.get h.index = some x → (p.slot x.slot).state ∈ [.relinking, .linked] := by
  rw [Part.slotTests, Bool.and_eq_true, Bool.and_eq_true, Bool.and_eq_true, decide_eq_true_iff, decide_eq_true_iff,
    List.isEmpty_iff, partnerReady_iff, and_assoc, and_assoc]
  rfl

/-! ### The record a selection takes (R165, R166, R175) -/

/-- The record passes, and none that stands ahead of it in the walk does. -/
def Part.Chooses (p : Part) (pre : List Index) (k : Index) (r : Rec) : Prop :=
  p.Passes pre k r ∧ ∀ a j b x, pre = a ++ j :: b → ¬p.Passes a j x

/-- R175: a PENDING record of the slot ahead of the chosen one would pass its tests, and so be taken itself. -/
theorem Part.Chooses.none_ahead (h : p.Chooses pre k r) {j : Index} {x : Rec} (hj : j ∈ pre) (hx : p.Pending j x) :
    x.slot ≠ r.slot := by
  obtain ⟨⟨-, -, hopen⟩, hfirst⟩ := h
  intro hs
  obtain ⟨a, b, hab⟩ := List.append_of_mem hj
  have ahead : p.OpenSlot a x.slot := fun i y hi hy he =>
    hopen i y (hab ▸ List.mem_append_left _ hi) hy (he.trans hs)
  exact hfirst a j b x hab ⟨hx, hopen j x hj hx hs, ahead⟩

theorem select_chosen (hw : p.ctb.walk = pre ++ k :: post) (h : p.Chooses pre k r) :
    p.select = if p.loadTest r then .issue k else .budget := by
  obtain ⟨hp, hfirst⟩ := h
  obtain ⟨pre', k', post', r', hw', hp', hfirst', hs⟩ | ⟨hnone, -⟩ := select_spec p
  · obtain ⟨rfl, rfl⟩ := first_unique (hw.symm.trans hw') hp hp' hfirst hfirst'
    exact hs
  · exact absurd hp (hnone pre k post r hw)

theorem select_quiet (h : ∀ pre k post r, p.ctb.walk = pre ++ k :: post → ¬p.Chooses pre k r) : p.select = .quiet := by
  obtain ⟨pre, k, post, r, hw, hp, hfirst, -⟩ | ⟨-, hs⟩ := select_spec p
  · exact absurd ⟨hp, hfirst⟩ (h pre k post r hw)
  · exact hs

/-! ### The issue of a LOAD (R93, R173) -/

/-- The poll timer once an entry has joined the slot's in-flight list: the interval changes, from slow to fast, only where the
slot is LINKED and had none (R93). -/
def Slot.busyPoll (b : BusCfg) (x : Slot) : Timer :=
  if x.state = .linked ∧ x.inflight = [] then x.pollTimer.map fun left => min left b.fastPoll else x.pollTimer

theorem cut_append (b : BusCfg) (x : Slot) (e : Txn) :
    b.cut x.pollClass { x with inflight := x.inflight ++ [e] }.pollClass x.pollTimer = x.busyPoll b := by
  unfold BusCfg.cut Slot.pollClass Slot.busyPoll
  cases x.state
  case linked => cases x.inflight <;> simp [BusCfg.interval]
  all_goals simp

/-- The issue: the record LOADING, its entry at the tail of its slot's list, its frame at the tail of its segment's queue,
and no load block. -/
theorem issue_eq (hr : p.ctb.get k = some r) : p.issue k =
    { (({ p with ctb := p.ctb.put k (r.to .loading) }.setSlot r.slot { p.slot r.slot with
        inflight := (p.slot r.slot).inflight ++ [(⟨.load, p.ctb.handle k, p.cfg.bus.completion, false⟩ : Txn)]
        pollTimer := (p.slot r.slot).busyPoll p.cfg.bus }).setSeg
        (segOf r.slot) { p.seg (segOf r.slot) with
          queue := (p.seg (segOf r.slot)).queue ++
            [(⟨r.slot, .load (p.ctb.handle k) r.channel r.legs⟩ : QFrame)] }) with
      fbu := { p.fbu with load := .clear } } := by
  unfold Part.issue
  rw [hr]
  simp only [setInflight_eq, slot_onCtb, onCtb_cfg, cut_append, Part.enqueue, Part.updSeg, seg_setSlot, seg_onCtb,
    Part.onFbu, setSeg_fbu, setSlot_fbu, onCtb_fbu]
  rfl

/-! ### The selection -/

theorem selection_stopped (h : p.running = false) : p.selection = p := by
  rw [Part.selection, h]
  rfl

theorem selection_issue (h : p.running = true) (hs : p.select = .issue k) : p.selection = p.issue k := by
  rw [Part.selection, if_pos h, hs]

theorem selection_budget (h : p.running = true) (hs : p.select = .budget) : p.selection = { p with
    fbu := { p.fbu with
      load := if p.fbu.load = .clear ∧ 0 < p.cfg.budget.stall then .timing p.cfg.budget.stall else p.fbu.load } } := by
  rw [Part.selection, if_pos h, hs, ← block_eq]
  rfl

theorem selection_quiet (h : p.running = true) (hs : p.select = .quiet) :
    p.selection = { p with fbu := { p.fbu with load := .clear } } := by
  rw [Part.selection, if_pos h, hs]
  rfl

/-- Settles O39: the record the statement calls chosen is `Part.Chooses`, at which `select_chosen` ends the walk; the issue is
`issue_eq`, and that no record of its slot stands ahead is `Part.Chooses.none_ahead`. -/
theorem selectionIssuesFirst : Obligations.SelectionIssuesFirst := by
  intro s p t walk blocked pending fits unblocked chosen
  have hfits : ∀ x, fits x ↔ p.slotTests x = true := fun x => slotTests_iff.symm
  have hopen : ∀ xs i, unblocked xs i ↔ p.OpenSlot xs i := fun xs i =>
    forall₂_congr fun j x => imp_congr_right fun _ => imp_congr_right fun _ => imp_congr_right fun _ => hfits x
  have hpasses : ∀ xs j x, pending j x ∧ fits x ∧ unblocked xs x.slot ↔ p.Passes xs j x := fun xs j x =>
    and_congr_right fun _ => and_congr (hfits x) (hopen xs x.slot)
  have hchosen : ∀ xs j x, chosen xs j x ↔ p.Chooses xs j x := fun xs j x => by
    simp only [chosen, Part.Chooses, ← hpasses, and_assoc, not_and]
  refine ⟨fun hstop => exec_same (selection_stopped hstop), fun pre k post r hrun hw hc => ?_, fun hrun hnone => ?_⟩
  · have choice := (hchosen pre k r).1 hc
    have hselect := select_chosen hw choice
    obtain ⟨⟨hget, -⟩, -⟩ := hc
    refine ⟨fun hload => ⟨fun j x hj hx => choice.none_ahead hj hx, ?_⟩, fun hload => ?_⟩
    · rw [if_pos hload] at hselect
      exact ⟨p.ctb.put k (r.to .loading), _, rewritten_put,
        exec_next ((selection_issue hrun hselect).trans (issue_eq hget)),
        fun hlinked hidle => if_pos ⟨hlinked, hidle⟩, fun hother => if_neg (not_and_or.2 hother)⟩
    · rw [if_neg (Bool.eq_false_iff.1 hload)] at hselect
      exact exec_next (selection_budget hrun hselect)
  · have hselect : p.select = .quiet :=
      select_quiet fun pre k post r hw choice => hnone pre k post r hw ((hchosen pre k r).2 choice)
    exact exec_next (selection_quiet hrun hselect)

end Sys2Proof.Machine
end

section
namespace Sys2Proof.Machine

variable {p : Part} {l : Link} {c : Instr}

/-! ### The status byte (R182, R201) -/

/-- A status byte of its four parts: a response waits, a kind is pending, who owns the part (`some true`: the link
itself), the overrun marker (R201). -/
def statusBits (ready notice : Bool) (owner : Option Bool) (overrun : Bool) : Byte :=
  (if ready then 0x80 else 0) ||| (if notice then 0x40 else 0) |||
    owner.elim 0x00 (fun own => if own then 0x10 else 0x20) ||| (if overrun then 0x08 else 0)

theorem statusByte_eq : p.statusByte l = statusBits (p.link l).buffer.isSome (decide ((p.link l).pending ≠ 0))
    (p.owner.map fun o => decide (o = l)) (p.link l).overrun := by
  unfold Part.statusByte statusBits
  cases p.owner <;> simp

/-- The four parts stand at bits of their own, and the rest of the byte is 0. -/
theorem statusBits_spec : ∀ (ready notice : Bool) (owner : Option Bool) (overrun : Bool),
    let b := statusBits ready notice owner overrun
    b.getLsbD 7 = ready ∧ b.getLsbD 6 = notice ∧ b.getLsbD 3 = overrun ∧ b.extractLsb' 0 3 = 0 ∧
      (b.extractLsb' 4 2 = 0 ↔ owner = none) ∧ (b.extractLsb' 4 2 = 1 ↔ owner = some true) ∧
      (b.extractLsb' 4 2 = 2 ↔ owner = some false) := by
  decide

/-- The status byte shows each part at its bits (R201). -/
theorem statusByte_parts : let b := p.statusByte l
    b.getLsbD 7 = (p.link l).buffer.isSome ∧ b.getLsbD 6 = decide ((p.link l).pending ≠ 0) ∧
      b.getLsbD 3 = (p.link l).overrun ∧ b.extractLsb' 0 3 = 0 ∧ (b.extractLsb' 4 2 = 0 ↔ p.owner = none) ∧
      (b.extractLsb' 4 2 = 1 ↔ p.owner = some l) ∧ (b.extractLsb' 4 2 = 2 ↔ p.owner = some (other l)) := by
  intro b
  obtain ⟨hready, hnotice, hoverrun, hrest, hnone, hown, hother⟩ := statusBits_spec (p.link l).buffer.isSome
    (decide ((p.link l).pending ≠ 0)) (p.owner.map fun o => decide (o = l)) (p.link l).overrun
  rw [← statusByte_eq] at hready hnotice hoverrun hrest hnone hown hother
  refine ⟨hready, hnotice, hoverrun, hrest, hnone.trans Option.map_eq_none_iff, hown.trans ?_, hother.trans ?_⟩
  · simp
  · have hne : ∀ o : Link, o ≠ l ↔ o = other l := fun o => by cases o <;> cases l <;> decide
    simp [hne]

theorem statusByte_ready : (p.statusByte l).getLsbD 7 = (p.link l).buffer.isSome := by
  obtain ⟨h, -⟩ := statusByte_parts (p := p) (l := l)
  exact h

theorem statusByte_overrun : (p.statusByte l).getLsbD 3 = (p.link l).overrun := by
  obtain ⟨-, -, h, -⟩ := statusByte_parts (p := p) (l := l)
  exact h

theorem opening_closed (h : (p.link l).transfer = none) : p.opening l = [p.statusByte l] := by
  rw [Part.opening, h]

/-! ### A request while a response waits (R184) -/

/-- Every request asks for an empty buffer first, RESET in its own course too (R183 step 1, R184). -/
theorem asked_unread {code : Byte} {fields : List Byte} (he : encodeRequest c = some (l, code, fields))
    (h : (p.link l).buffer.isSome = true) : Part.asked c p = p.discard l := by
  cases c <;> simp only [encodeRequest, Option.some.injEq, Prod.mk.injEq, reduceCtorEq] at he <;>
    obtain ⟨rfl, rfl, rfl⟩ := he
  case reset => exact if_pos h
  all_goals
    rw [Part.asked]
    exact request_unread h

/-- A request's transfer that is read ends in what the request does. -/
theorem effect_asked (hl : (p.link l).lost = false) (hf : p.Follows c) {code : Byte} {fields : List Byte}
    (he : encodeRequest c = some (l, code, fields)) : Part.effect c p = Part.asked c p := by
  rw [effect_request (by rw [he]; rfl), sent_read hl hf (by rw [he]; rfl)]

theorem effect_unread {code : Byte} {fields : List Byte} (h : (p.link l).buffer.isSome = true)
    (hl : (p.link l).lost = false) (hf : p.Follows c) (he : encodeRequest c = some (l, code, fields)) :
    Part.effect c p = p.discard l := by
  rw [effect_asked hl hf he, asked_unread he h]

/-- The raw bytes of a transfer that is no READ are discarded whatever R183 would make of them. -/
theorem takeTransfer_unread {kind : Byte} {bytes : List Byte} (h : (p.link l).buffer.isSome = true)
    (hl : (p.link l).lost = false) (hg : goesOn ((p.link l).transfer.getD []) (kind :: bytes) = true)
    (hk : kind ≠ kindRead) : p.takeTransfer l kind bytes = p.discard l := by
  unfold Part.takeTransfer
  rw [if_neg hk]
  split
  · rw [transfer_read hl hg, request_unread h]
  · rw [transfer_read hl hg, request_unread h]
  · rename_i hj
    split
    · rename_i hd
      have he := encodeRequest_decodeRequest hd
      have hc := clocked_request he
      rw [← judgeFrame_request hj] at hc
      have hf : p.Follows _ := fun m bs hm => by
        cases hc.symm.trans hm
        exact hg
      rw [runRequest_eq (by rw [he]; rfl), effect_unread h hl hf he]
    · rw [transfer_read hl hg, request_unread h]

/-- Settles O3: every course a request's bytes can take asks for an empty buffer first, and ends in `Part.discard`. -/
theorem unreadResponseDiscardsRequest : Obligations.UnreadResponseDiscardsRequest := by
  intro s l h hl x t
  refine ⟨?_, ?_, opening_closed, fun c hf => ⟨?_, ?_, ?_⟩⟩
  · simp only [statusByte_overrun, t, link_setLink_self]
  · rw [statusByte_ready, h]
  · rintro ⟨code, fields, he⟩
    exact exec_next (effect_unread h hl hf he)
  · rintro kind bytes (rfl | rfl) hk <;> exact exec_next (takeTransfer_unread h hl (hf l _ rfl) hk)
  · rintro code fields rfl
    exact exec_next (takeTransfer_unread h hl (hf l _ rfl) (by decide))

end Sys2Proof.Machine
end

section
namespace Sys2Proof.Machine

variable {p : Part} {s : State} {l : Link} {c : Instr}

/-! ### Frames by R183 (R183, R201) -/

theorem judgeFrame_kind {kind : Byte} (bytes : List Byte) (h : kind ≠ kindRequest) : judgeFrame kind bytes = .bad :=
  if_pos h

theorem judgeFrame_short {bytes : List Byte} (h : bytes.length < 2) : judgeFrame kindRequest bytes = .bad := by
  match bytes, h with
  | [], _ => rfl
  | [_], _ => rfl

/-- A frame's length is judged ahead of its code. -/
theorem judgeFrame_length {code len : Byte} {fields : List Byte} (h : fields.length ≠ len.toNat) :
    judgeFrame kindRequest (code :: len :: fields) = .bad := by
  simp [judgeFrame, h]

theorem lengthFits_iff {code : Byte} {n lo hi : Nat} (h : legalLength code = some (lo, hi)) :
    lengthFits code n = true ↔ lo ≤ n ∧ n ≤ hi := by
  simp [lengthFits, h]

/-- A known code whose layout cannot have the length. -/
theorem judgeFrame_illegal {code len : Byte} {fields : List Byte} {lo hi : Nat} (h : legalLength code = some (lo, hi))
    (hn : fields.length < lo ∨ hi < fields.length) : judgeFrame kindRequest (code :: len :: fields) = .bad := by
  have hfits : ¬lengthFits code fields.length = true := fun hf => by
    obtain ⟨hlo, hhi⟩ := (lengthFits_iff h).1 hf
    omega
  simp [judgeFrame, h, hfits]

theorem judgeFrame_unknown {code : Byte} {fields : List Byte} (h : legalLength code = none) (hn : fields.length ≤ 255) :
    judgeFrame kindRequest (code :: byteOf fields.length :: fields) = .unknown := by
  simp [judgeFrame, h, byte_len hn]

/-! ### Frames that are refused -/

theorem takeTransfer_bad {kind : Byte} {bytes : List Byte} (hk : kind ≠ kindRead) (hj : judgeFrame kind bytes = .bad) :
    p.takeTransfer l kind bytes =
      p.transfer l (kind :: bytes) (Part.request l false false fun p => p.refused .badFrame) := by
  simp only [Part.takeTransfer, if_neg hk, hj]

theorem takeTransfer_unknown {kind : Byte} {bytes : List Byte} (hk : kind ≠ kindRead)
    (hj : judgeFrame kind bytes = .unknown) : p.takeTransfer l kind bytes =
      p.transfer l (kind :: bytes) (Part.request l true false fun p => p.refused .unknownRequest) := by
  simp only [Part.takeTransfer, if_neg hk, hj]

/-- A frame judged wrong is refused BAD_FRAME. -/
theorem refuses_bad {kind : Byte} {bytes : List Byte} (h : s.part.Hears l) (hk : kind ≠ kindRead)
    (hj : judgeFrame kind bytes = .bad) : Refuses (.badFrame l kind bytes) l s .badFrame := by
  refine fun hf => exec_next ((takeTransfer_bad hk hj).trans ?_)
  rw [transfer_read h.2 (hf l _ rfl), request_badFrame h]

/-- A right frame whose code names no request is refused UNKNOWN_REQUEST. -/
theorem refuses_unknown {code : Byte} {fields : List Byte} (h : s.part.Hears l) (hc : legalLength code = none)
    (hn : fields.length ≤ 255) : Refuses (.unknownRequest l code fields) l s .unknownRequest := by
  refine fun hf => exec_next ((takeTransfer_unknown (by decide) (judgeFrame_unknown hc hn)).trans ?_)
  exact (transfer_read h.2 (hf l _ rfl) _).trans (request_run h (by simp))

/-- A request command whose field bytes have a length its code cannot have is refused BAD_FRAME. -/
theorem refuses_length {code : Byte} {fields : List Byte} {run : Part → Answer} {change : Bool} {lo hi : Nat}
    (h : s.part.Hears l) (he : encodeRequest c = some (l, code, fields))
    (ha : Part.asked c = Part.request l (lengthFits code fields.length) change run)
    (hc : legalLength code = some (lo, hi)) (hn : fields.length < lo ∨ hi < fields.length) : Refuses c l s .badFrame := by
  intro hf
  have hfits : lengthFits code fields.length = false := by
    rw [Bool.eq_false_iff, ne_eq, lengthFits_iff hc]
    omega
  refine exec_next ?_
  rw [effect_asked h.2 hf he, ha, hfits, request_badFrame h]

/-- Settles O5: each frame is judged by `judgeFrame`, and its judgement answered; the codes are the model's table. -/
theorem wrongFramesRefused : Obligations.WrongFramesRefused := by
  refine ⟨fun s l h => ⟨fun kind bytes hq hr => ?_, fun bytes hn => ?_, fun code len fields hn => ?_,
    fun code len fields lo hi hc hn => ?_, fun body hn => ?_, fun body hn => ?_, fun code fields hc hn => ?_⟩, by decide⟩
  · exact refuses_bad h hr (judgeFrame_kind bytes hq)
  · exact refuses_bad h (by decide) (judgeFrame_short hn)
  · exact refuses_bad h (by decide) (judgeFrame_length hn)
  · exact refuses_bad h (by decide) (judgeFrame_illegal hc hn)
  · exact refuses_length h rfl rfl rfl hn
  · exact refuses_length h rfl rfl rfl hn
  · exact refuses_unknown h hc hn

end Sys2Proof.Machine
end

section
namespace Sys2Proof.Machine

variable {p : Part} {s : State} {l : Link} {c : Instr}

/-! ### Ownership (R188, R189, R190) -/

/-- A request any link may make, with the answer its block gives, whatever the status. -/
theorem answers_plain {run : Part → Answer} {r : Response} {q : Part} (h : s.part.Hears l)
    (he : exec c s = .next (s.lift (Part.sent c (Part.request l true false run)))) (hr : run s.part = (q, r))
    (hc : (encodeRequest c).map Prod.fst = some l := by rfl) : Answers c l s r q := by
  intro hf
  rw [he, State.lift, sent_read h.2 hf hc, request_run h (by simp), hr]

theorem raiseOn_eq (n : Notice) : p.raiseOn l n = p.setLink l { p.link l with pending := (p.link l).pending ||| n.flag } :=
  rfl

/-- Of two writes to a link the later one stands. -/
theorem setLink_setLink (x y : LinkRec) : (p.setLink l x).setLink l y = p.setLink l y := by cases l <;> rfl

theorem claim_free (h : p.owner = none) : Part.claim l p = (({ p with owner := some l }).setLink l
    { p.link l with pending := (p.link l).pending ||| Notice.ownerGained.flag }, okay []) := by
  rw [Part.claim, h]
  simp only [raiseOn_eq, link_owner]

theorem claim_own (h : p.owner = some l) : Part.claim l p = (p, okay []) := by
  rw [Part.claim, h]
  exact if_pos rfl

theorem claim_elsewhere (h : p.owner = some (other l)) :
    Part.claim l p = (p.setLink l { p.link l with claim := true }, refusal .ownedElsewhere) := by
  rw [Part.claim, h]
  exact if_neg (other_ne l)

/-- Settles O27, by the owner. -/
theorem claimByOwner : Obligations.ClaimByOwner := by
  refine fun s l h => ⟨fun ho => ?_, fun ho => ?_, fun ho => ?_⟩
  · exact accepts_plain h rfl (claim_free ho)
  · exact accepts_plain h rfl (claim_own ho)
  · exact answers_plain h rfl (claim_elsewhere ho)

theorem release_hands (h : p.owner = some l) (hc : (p.link (other l)).claim = true) :
    Part.release l p = (({ p with owner := some (other l) }).setLink (other l) { p.link (other l) with
      claim := false, pending := (p.link (other l)).pending ||| Notice.ownerGained.flag }, okay []) := by
  rw [Part.release, if_pos h, if_pos hc]
  simp only [raiseOn_eq, Part.updLink, link_setLink_self, setLink_setLink, link_owner]

theorem release_frees (h : p.owner = some l) (hc : (p.link (other l)).claim = false) :
    Part.release l p = ({ p with owner := none }, okay []) := by
  rw [Part.release, if_pos h, if_neg (Bool.eq_false_iff.1 hc)]

theorem release_withdraws (h : p.owner ≠ some l) :
    Part.release l p = (p.setLink l { p.link l with claim := false }, okay []) := by
  rw [Part.release, if_neg h]
  rfl

/-- Settles O28, by the owner and the other link's claim. -/
theorem releaseHandsOver : Obligations.ReleaseHandsOver := by
  refine fun s l h => ⟨fun ho hc => ?_, fun ho hc => ?_, fun ho => ?_⟩
  · exact accepts_plain h rfl (release_hands ho hc)
  · exact accepts_plain h rfl (release_frees ho hc)
  · exact accepts_plain h rfl (release_withdraws ho)

/-- The notice goes to the other link where it loses the part, and to the requesting link where it gains it. -/
theorem takeover_eq : Part.takeover l p = ((({ p with owner := some l }).setLink (other l) { p.link (other l) with
      claim := false
      pending := if p.owner = some (other l) then (p.link (other l)).pending ||| Notice.ownerLost.flag
        else (p.link (other l)).pending }).setLink l { p.link l with
      claim := false
      pending := if p.owner = some l then (p.link l).pending
        else (p.link l).pending ||| Notice.ownerGained.flag }, okay []) := by
  by_cases hl : p.owner = some l
  · have ho : p.owner ≠ some (other l) := by simp [hl]
    simp only [Part.takeover, if_neg ho, if_pos hl]
    cases l <;> rfl
  · by_cases ho : p.owner = some (other l)
    · simp only [Part.takeover, if_pos ho, if_neg hl]
      cases l <;> rfl
    · simp only [Part.takeover, if_neg ho, if_neg hl]
      cases l <;> rfl

/-- Settles O29: TAKEOVER is carried out in every case (`takeover_eq`). -/
theorem takeoverSeizes : Obligations.TakeoverSeizes := fun _ _ h => accepts_plain h rfl takeover_eq

/-! ### Notices (R191 to R195) -/

theorem flag_toNat (n : Notice) : n.flag.toNat = 2 ^ n.bit := by
  rw [Notice.flag, BitVec.toNat_twoPow, Nat.mod_eq_of_lt (Nat.pow_lt_pow_right (by decide) (bit_lt n))]

theorem changes_slotChanged (x : LinkRec) (i : SlotId) (j : Fin 24) :
    (x.slotChanged i).changes.getLsbD j.val = (decide (j = i) || x.changes.getLsbD j.val) := by
  have hbit : i.val < 24 := i.isLt
  simp only [LinkRec.slotChanged, LinkRec.raise, BitVec.getLsbD_or, BitVec.getLsbD_twoPow, hbit, decide_true,
    Bool.true_and, Fin.ext_iff, Bool.or_comm, eq_comm]

/-- The flags that NOTICES leaves: those pending and not named (R193). -/
theorem getLsbD_cleared (x : BitVec 13) (w : BitVec 16) (n : Fin 13) :
    (x &&& ~~~(w.setWidth 13)).getLsbD n.val = (x.getLsbD n.val && !w.getLsbD n.val) := by
  simp [n.isLt]

/-- The 13 kinds, in the order of their bits (R201). -/
def noticeKinds : List Notice :=
  [.coldStart, .warmReset, .supplySag, .supplyOutage, .supplyBack, .recoveryDone, .slotChange, .recordRefused, .budgetStall,
    .ownerGained, .ownerLost, .busFault, .supplySignal]

/-- Every bit of a flag word is a kind's bit. -/
theorem exists_bit_eq (k : Fin 13) : ∃ n : Notice, n.bit = k.val := by
  have hmem : ∀ k : Fin 13, k.val ∈ noticeKinds.map Notice.bit := by decide
  obtain ⟨n, -, hn⟩ := List.mem_map.1 (hmem k)
  exact ⟨n, hn⟩

/-- ATTN is driven while a response waits or a pending kind is enabled (R195). -/
theorem attn_iff (x : LinkRec) : x.attn = true ↔
    x.buffer.isSome = true ∨ ∃ n : Notice, x.isPending n = true ∧ x.mask.getLsbD n.bit = true := by
  have hnone : x.pending &&& x.mask = 0 ↔ ∀ n : Notice, ¬(x.isPending n = true ∧ x.mask.getLsbD n.bit = true) := by
    refine ⟨fun h n ⟨hp, hm⟩ => ?_, fun h => BitVec.eq_of_getLsbD_eq fun k hk => ?_⟩
    · have hbit : (x.pending &&& x.mask).getLsbD n.bit = true := by
        rw [BitVec.getLsbD_and]
        exact Bool.and_eq_true_iff.2 ⟨hp, hm⟩
      rw [h] at hbit
      simp at hbit
    · obtain ⟨n, rfl⟩ := exists_bit_eq ⟨k, hk⟩
      simpa [LinkRec.isPending] using h n
  rw [LinkRec.attn, Bool.or_eq_true, Bool.not_eq_true', decide_eq_false_iff_not, hnone, not_forall]
  simp only [not_not]

/-- Settles O30: the kinds by their bits, the two requests by their blocks, the raisings flag by flag. -/
theorem noticesMaskAndAttn : Obligations.NoticesMaskAndAttn := by
  refine ⟨⟨rfl, fun n x => ⟨flag_toNat n, rfl⟩⟩, fun s l w h => ⟨?_, ?_⟩,
    fun p n m l => ?_, fun p i j m l => ?_, attn_iff⟩
  · refine ⟨(s.part.link l).pending &&& ~~~(w.setWidth 13), getLsbD_cleared _ w, accepts_plain h rfl ?_⟩
    rw [Part.readNotices, bytesOf_two, bytesOf_three]
    rfl
  · refine ⟨w.setWidth 13, fun n => by simp [n.isLt], accepts_plain h rfl ?_⟩
    rw [Part.setMask, bytesOf_two]
    rfl
  · rw [link_raise, isPending_raise]
  · rw [link_reportSlot]
    exact ⟨changes_slotChanged _ i j, isPending_slotChanged _ i m⟩

end Sys2Proof.Machine
end

section
namespace Sys2Proof.Machine

variable {p : Part} {s : State} {l : Link} {c : Instr} {taken bytes : List Byte}

/-! ### Bytes that go on from those taken (R182, log 4) -/

/-- Any bytes may open a transfer; those of a READ go on by their count, others byte for byte. -/
theorem goesOn_iff : goesOn taken bytes = true ↔
    taken = [] ∨ (taken.head? ≠ some kindRead ∧ taken <+: bytes) ∨
      (taken.head? = some kindRead ∧ bytes.head? = some kindRead ∧ taken.length ≤ bytes.length) := by
  match taken, bytes with
  | [], _ => simp [goesOn]
  | _ :: _, [] => simp [goesOn]
  | k :: ts, j :: bs =>
    by_cases hk : k = kindRead
    · have hkind : kindRead = j ↔ j = kindRead := eq_comm
      simp [goesOn, hk, hkind]
    · simp [goesOn, hk]

theorem follows_iff (h : c.clocked = some (l, bytes)) :
    p.Follows c ↔ goesOn ((p.link l).transfer.getD []) bytes = true := by
  refine ⟨fun hf => hf l bytes h, fun hg m bs hm => ?_⟩
  cases h.symm.trans hm
  exact hg

/-- A READ goes on from one that has taken `sofar` bytes after its kind, or opens. -/
theorem goesOn_reading {n sofar : Nat} {t : Option (List Byte)} {bs : List Byte} (hn : bs.length = n)
    (h : t.getD [] = [] ∧ sofar = 0 ∨ ∃ more, t = some (kindRead :: more) ∧ more.length = sofar ∧ sofar ≤ n) :
    goesOn (t.getD []) (kindRead :: bs) = true ∧ (t.getD []).length - 1 = sofar := by
  obtain ⟨ht, rfl⟩ | ⟨more, rfl, rfl, hle⟩ := h
  · rw [ht]
    exact ⟨rfl, rfl⟩
  · simp [goesOn, hn, hle]

/-! ### Transfers that stay open (R181, R182, R183) -/

/-- A lost transfer's end takes the loss away (R183). -/
theorem effect_lost (hl : (p.link l).lost = true) (h : c.clocked = some (l, bytes)) :
    Part.effect c p = p.setLink l { p.link l with lost := false } := by
  obtain ⟨ends, he⟩ := effect_transfer h
  rw [he, transfer_lost hl]

/-- Bytes that cannot follow change nothing. -/
theorem effect_strays (hl : (p.link l).lost = false) (h : c.clocked = some (l, bytes))
    (hg : goesOn ((p.link l).transfer.getD []) bytes = false) : Part.effect c p = p := by
  obtain ⟨ends, he⟩ := effect_transfer h
  simp [he, Part.transfer, hl, hg]

theorem stayOpen_lost (h : (p.link l).lost = true) : p.stayOpen l bytes = p := if_neg (by simp [h])

theorem stayOpen_strays (h : goesOn ((p.link l).transfer.getD []) bytes = false) : p.stayOpen l bytes = p :=
  if_neg (by simp [h])

/-- A transfer of another kind clocks out nothing that is recorded beyond its status byte (log 25). -/
theorem underSelect_other (h : bytes.head? ≠ some kindRead) : p.underSelect l bytes =
    p.setLink l { p.link l with transfer := some bytes, dataOut := p.opening l } := by
  match bytes, h with
  | [], _ => cases l <;> rfl
  | kind :: more, h =>
    have hk : kind ≠ kindRead := by simpa using h
    simp only [Part.underSelect, if_neg hk]
    cases l <;> rfl

theorem length_fillerBytes (n : Nat) : (p.fillerBytes n).length = n := by simp [Part.fillerBytes]

/-- What a READ has recorded after `n` bytes: from where it stood, the response's bytes and then filler (R185). -/
theorem readOut_eq (n : Nat) : ∃ filler : List Byte,
    filler.length = n - max (((p.link l).transfer.getD []).length - 1) (p.link l).responseBytes.length ∧
    p.readOut l n = { p.setLink l { p.link l with
      dataOut := p.opening l ++ ((p.link l).responseBytes.take n).drop (((p.link l).transfer.getD []).length - 1) ++ filler }
      with fillers := p.fillers + filler.length } := by
  refine ⟨_, length_fillerBytes (p := p) _, ?_⟩
  rw [length_fillerBytes]
  cases l <;> rfl

theorem underSelect_read (more : List Byte) :
    p.underSelect l (kindRead :: more) =
      (p.readOut l more.length).updLink l fun x => { x with transfer := some (kindRead :: more) } := rfl

/-- Settles O8: the status byte by its parts, `follows` as the model's `goesOn`, and each way a transfer stands. -/
theorem statusReadsAndOpenTransfers : Obligations.StatusReadsAndOpenTransfers := by
  intro s l p x b taken out withLink follows
  have hfollows : ∀ bytes, follows bytes ↔ goesOn taken bytes = true := fun _ => goesOn_iff.symm
  have hstray : ∀ bytes, ¬follows bytes → goesOn taken bytes = false := fun bytes hn => by
    rwa [hfollows, Bool.not_eq_true] at hn
  have hopen : ∀ bytes, x.lost = false → follows bytes → p.stayOpen l bytes = p.underSelect l bytes :=
    fun bytes hl hb => if_pos ⟨hl, (hfollows bytes).1 hb⟩
  have hout : p.opening l = out := rfl
  obtain ⟨hready, hnotice, hoverrun, hrest, hnone, hown, hother⟩ := statusByte_parts (p := p) (l := l)
  refine ⟨⟨by rw [hready], by rw [hnotice, decide_eq_true_iff], hnone, hown, hother, by rw [hoverrun], hrest⟩,
    fun hl => ⟨fun ht => ?_, fun bytes hb hk => ?_, fun more hb => ?_, fun bytes hb => ?_,
    fun c bytes hc => ⟨(follows_iff hc).trans (hfollows bytes).symm, fun hb => ?_⟩⟩,
    fun hl => ⟨fun c bytes hc => ?_, fun bytes => ?_⟩⟩
  · exact exec_next (transfer_read hl (congrArg (goesOn · []) ht) _)
  · exact exec_next ((hopen bytes hl hb).trans (underSelect_other hk))
  · obtain ⟨filler, hlen, hread⟩ := readOut_eq (p := p) (l := l) more.length
    refine ⟨filler, hlen, exec_next ((hopen _ hl hb).trans ?_)⟩
    rw [show (0xA5 : Byte) = kindRead from rfl, underSelect_read, hread, ← hout]
    cases l <;> rfl
  · exact exec_same (stayOpen_strays (hstray bytes hb))
  · exact exec_same (effect_strays hl hc (hstray bytes hb))
  · exact exec_next (effect_lost hl hc)
  · exact exec_same (stayOpen_lost hl)

/-! ### The read of a response (R185) -/

theorem length_bytes (r : Response) : r.bytes.length = 2 + r.body.length := by simp [Response.bytes]; omega

theorem responseBytes_some {x : LinkRec} {r : Response} (h : x.buffer = some r) : x.responseBytes = r.bytes := by
  simp [LinkRec.responseBytes, h]

theorem responseBytes_none {x : LinkRec} (h : x.buffer = none) : x.responseBytes = [] := by
  simp [LinkRec.responseBytes, h]

theorem effect_responseRead {n : Nat} (hl : (p.link l).lost = false)
    (hg : goesOn ((p.link l).transfer.getD []) (kindRead :: List.replicate n 0) = true) :
    Part.effect (.responseRead l n) p = p.readResponse l n :=
  (sent_eq (c := .responseRead l n) rfl _).trans (transfer_read hl hg _)

theorem buffer_readOut (n : Nat) : ((p.readOut l n).link l).buffer = (p.link l).buffer := by
  rw [Part.readOut, link_updLink_self]
  cases l <;> rfl

/-- A read that clocks the whole response consumes it. -/
theorem readResponse_full {n : Nat} {r : Response} (hr : (p.link l).buffer = some r) (hn : 2 + r.body.length ≤ n) :
    p.readResponse l n = (p.readOut l n).updLink l fun x =>
      { x with buffer := none, overrun := false, transfer := none } := by
  have hbuffer := (buffer_readOut n).trans hr
  have hfull : ((p.readOut l n).link l).buffer.isSome = true ∧ ((p.readOut l n).link l).responseBytes.length ≤ n := by
    rw [responseBytes_some hbuffer, length_bytes, hbuffer]
    exact ⟨rfl, hn⟩
  exact congrArg (fun y => (p.readOut l n).setLink l y) (if_pos hfull)

/-- A read that is cut short, or that meets an empty buffer, ends and leaves the buffer and the marker. -/
theorem readResponse_short {n : Nat} (h : ∀ r, (p.link l).buffer = some r → n < 2 + r.body.length) :
    p.readResponse l n = (p.readOut l n).updLink l fun x => { x with transfer := none } := by
  have hshort : ¬(((p.readOut l n).link l).buffer.isSome = true ∧
      ((p.readOut l n).link l).responseBytes.length ≤ n) := by
    rintro ⟨hsome, hn⟩
    obtain ⟨r, hr⟩ := Option.isSome_iff_exists.1 hsome
    rw [responseBytes_some hr, length_bytes] at hn
    exact absurd hn (Nat.not_le.2 (h r ((buffer_readOut n).symm.trans hr)))
  exact congrArg (fun y => (p.readOut l n).setLink l y) (if_neg hshort)

/-- Settles O9: the codes by their table; a read goes on from where its transfer stands (`goesOn_reading`), clocks out what
`readOut_eq` says, and ends as a full or a short one. -/
theorem responseRead : Obligations.ResponseRead := by
  refine ⟨rfl, ?_⟩
  intro s l n sofar p x out hl ht
  obtain ⟨hg, hsofar⟩ := goesOn_reading List.length_replicate ht
  obtain ⟨filler, hlen, hread⟩ := readOut_eq (p := p) (l := l) n
  have hout : p.opening l = out := rfl
  have heffect := effect_responseRead hl hg
  rw [hsofar, hout] at hread
  rw [hsofar] at hlen
  refine ⟨fun r hr hn => ⟨filler, ?_, exec_next (heffect.trans ?_)⟩, fun r hr hn => exec_next (heffect.trans ?_),
    fun hr => ⟨filler, ?_, exec_next (heffect.trans ?_)⟩⟩
  · rw [hlen, responseBytes_some hr, length_bytes]
  · rw [responseBytes_some hr, List.take_of_length_le (by rwa [length_bytes])] at hread
    rw [readResponse_full hr hn, hread]
    cases l <;> rfl
  · have hnil : filler = [] := by
      rw [responseBytes_some hr, length_bytes] at hlen
      exact List.eq_nil_of_length_eq_zero (by omega)
    rw [responseBytes_some hr, hnil, List.append_nil] at hread
    have hshort : ∀ r, (p.link l).buffer = some r → n < 2 + r.body.length := fun q hq => by
      cases hr.symm.trans hq
      exact hn
    rw [readResponse_short hshort, hread]
    cases l <;> rfl
  · rw [hlen, responseBytes_none hr, List.length_nil, Nat.max_zero]
  · have hshort : ∀ r, (p.link l).buffer = some r → n < 2 + r.body.length := fun q hq => nomatch hr.symm.trans hq
    rw [responseBytes_none hr, List.take_nil, List.drop_nil, List.append_nil] at hread
    rw [readResponse_short hshort, hread]
    cases l <;> rfl

end Sys2Proof.Machine
end

section
namespace Sys2Proof.Machine

/-! ### Requests and bodies read back from their bytes (R201, R202) -/

/-- A request's frame is judged as that request's code and field bytes, and these decode to the request. -/
theorem request_readsBack {c : Instr} {l : Link} {code : Byte} {fields : List Byte} (hw : c.wellFormed = true)
    (he : encodeRequest c = some (l, code, fields)) :
    judgeFrame 0x5A (code :: byteOf fields.length :: fields) = .request code fields ∧
      decodeRequest l code fields = some c := by
  obtain ⟨hfits, hlen, hdecode⟩ := decodeRequest_encodeRequest hw he
  exact ⟨judgeFrame_fits hfits hlen, hdecode⟩

/-- Settles O6: the length ranges of the two bodies are those the table gives codes 0x10 and 0x11, and reading undoes
writing for frames (`request_readsBack`), for ESTABLISH bodies and for MODIFY bodies with some part. -/
theorem requestsReadBack : Obligations.RequestsReadBack := by
  refine ⟨fun _ _ _ _ => request_readsBack, fun q hone hfour => ?_, fun q hlegs hsome => ?_⟩
  · have hq := And.intro hone hfour
    obtain ⟨hlo, hhi⟩ := (lengthFits_iff (code := 0x10) rfl).1 (EstablishReq.bytes_length hq)
    exact ⟨hlo, hhi, readEstablish_bytes hq⟩
  · obtain ⟨hlo, hhi⟩ := (lengthFits_iff (code := 0x11) rfl).1 (ModifyReq.bytes_length hlegs)
    exact ⟨hlo, hhi, readModify_bytes hsome hlegs⟩

end Sys2Proof.Machine
end

section
namespace Sys2Proof.Machine

variable {s : State}

/-! ### The queue of commands (log 1) -/

/-- Settles O2: what a command does to the part is `Part.effect`, a function of the part alone (`exec_next`). -/
theorem everyCommandCompletes : Obligations.EveryCommandCompletes :=
  fun c p => ⟨Part.effect c p, fun _ => exec_next rfl⟩

theorem step_eq_exec_of_cons {c : Instr} {cs : List Instr} (h : s.pending = c :: cs) :
    step s = exec c { s with pending := cs } := by
  rw [step, h]

theorem step_eq_next_of_nil (h : s.pending = []) : step s = .next s := by
  rw [step, h]

/-- Settles O1, by whether a command waits. -/
theorem stepTakesFront : Obligations.StepTakesFront :=
  ⟨fun _ _ _ => step_eq_exec_of_cons, fun _ => step_eq_next_of_nil⟩

end Sys2Proof.Machine
end
